-- ==== Sys2Proof/Word.lean ====
section
/-!
DEFINITION. The machine words of the 2602 (spec/00, Conventions: registers and Table Access Port locations are 16-bit words).
-/

namespace Sys2Proof

/-- A 16-bit register, record word or event word. -/
abbrev Word := BitVec 16

/-- A byte of payload memory or of a character on the line. -/
abbrev Byte := BitVec 8

end Sys2Proof
end

