-- ==== Sys2Proof/Syntax.lean ====
section
/-!
DEFINITION. The commands the block takes: one constructor of `Instr` per row of spec/opcode_table.json.
-/

namespace Sys2Proof

/-- The two field lines (spec/00). -/
inductive LineId where
  | zero
  | one
  deriving DecidableEq, Repr

/-- Samples 4, 5 and 6 of one bit position (R4, R5). -/
structure Samples where
  s4 : Bool
  s5 : Bool
  s6 : Bool
  deriving DecidableEq, Repr

/-- What the receiver sampled for the eleven positions of a character (R2, R5):
the start bit, data bits 0 to 7, the mark bit and the stop bit. -/
structure CharSamples where
  start : Samples
  d0 : Samples
  d1 : Samples
  d2 : Samples
  d3 : Samples
  d4 : Samples
  d5 : Samples
  d6 : Samples
  d7 : Samples
  mark : Samples
  stop : Samples
  deriving DecidableEq, Repr

/-- The commands. Each constructor's docstring names its row and the rule that governs it. -/
inductive Instr where
  /-- HARD_RESET (R149): RESET# is held low, or power comes up. -/
  | hardReset
  /-- RESET_RELEASE (R149): RESET# rises. -/
  | resetRelease
  /-- CLEARING_COMPLETE (R149): the clearing of internal memory ends. -/
  | clearingComplete
  /-- CONTROL_RESET (R160): a host write of 1 to the reset bit of CTRL. -/
  | controlReset
  /-- START_CONFIRMED (R4): sample 4 of a candidate start bit is 0. -/
  | startConfirmed (line : LineId)
  /-- CHARACTER_ARRIVAL (R6): sample 6 of a stop bit; the operand is what was sampled. -/
  | characterArrival (line : LineId) (samples : CharSamples)
  /-- CHARACTER_SENT (R16): the end of the stop bit of a transmitted character. -/
  | characterSent (line : LineId)
  /-- REPLY_WINDOW_EXPIRY (R32). -/
  | replyWindowExpiry (line : LineId)
  /-- GAP_LIMIT_EXCEEDED (R33). -/
  | gapLimitExceeded (line : LineId)
  /-- QUIET_WAIT_END (R35): quiet has lasted GAP_LIMIT character times. -/
  | quietWaitEnd (line : LineId)
  /-- QUIET_LIMIT_EXPIRY (R35): the quiet limit of 64 character times is reached. -/
  | quietLimitExpiry (line : LineId)
  /-- TURNAROUND_SATISFIED (R36): quiet has lasted TURNAROUND character times. -/
  | turnaroundSatisfied (line : LineId)
  /-- CYCLE_START (R55): the running count of the cycle timer expires. -/
  | cycleStart (line : LineId)
  /-- BREAK_START (R48): a waiting break request starts its break. -/
  | breakStart (line : LineId)
  /-- BREAK_LOW_END (R17): the 24 bit times of low level end. -/
  | breakLowEnd (line : LineId)
  /-- LINE_BREAK_END (R49): the guard ends. -/
  | lineBreakEnd (line : LineId)
  /-- PARK_TAKES_EFFECT (R87): a waiting PARK takes effect. -/
  | parkTakesEffect
  /-- QUIESCED_REACHED (R157): every enabled line is at rest. -/
  | quiescedReached
  /-- HELD_COMPLETION_TAKEN (R141): the queue takes the head held completion. -/
  | heldCompletionTaken
  /-- MODEREQ_RUN (R153): a host write of 2 to MODEREQ. -/
  | modereqRun
  /-- MODEREQ_QUIESCE (R156): a host write of 3 to MODEREQ. -/
  | modereqQuiesce
  /-- MODEREQ_CONFIG (R159): a host write of 1 to MODEREQ. -/
  | modereqConfig
  /-- DEVSTAT_WRITE (R148). -/
  | devstatWrite (value : Word)
  /-- TAPDATA_READ (R166). -/
  | tapdataRead
  /-- TAPDATA_WRITE (R166). -/
  | tapdataWrite (value : Word)
  /-- EVREC3_READ (R142). -/
  | evrec3Read
  /-- EVLOST_WRITE (R143). -/
  | evlostWrite (value : Word)
  /-- EVTHRESH_WRITE (R143). -/
  | evthreshWrite (value : Word)
  /-- DMACTL_WRITE (R145). -/
  | dmactlWrite (value : Word)
  /-- DMA_READ (R144): a read with DACK# asserted. -/
  | dmaRead
  /-- IFLAG_WRITE (R175). -/
  | iflagWrite (value : Word)
  /-- ILEVEL_WRITE (R176): the register number 0 to 3 and the word. -/
  | ilevelWrite (register : Fin 4) (value : Word)
  /-- ITHRESH_WRITE (R176). -/
  | ithreshWrite (value : Word)
  /-- LINEDIV_WRITE (R3). -/
  | linedivWrite (line : LineId) (value : Word)
  /-- REGISTER_WRITE (R162): a host write at the word address A[6:1]. -/
  | registerWrite (address : BitVec 6) (value : Word)
  /-- COMMAND_OVERRUN (R169): a CMD write while a command is BUSY. -/
  | commandOverrun (code : Word)
  /-- BAD_COMMAND (R169): a CMD write with a code that names no command. -/
  | badCommand (code : Word)
  /-- ALLOC_BLOCK (R96): a CMD write of 0x01. -/
  | allocBlock
  /-- FREE_BLOCK (R97): a CMD write of 0x02. -/
  | freeBlock
  /-- BIND_OUTPUT (R99): a CMD write of 0x03. -/
  | bindOutput
  /-- BIND_IMAGE (R105): a CMD write of 0x04. -/
  | bindImage
  /-- UNBIND_OUTPUT (R100): a CMD write of 0x05. -/
  | unbindOutput
  /-- UNBIND_IMAGE (R106): a CMD write of 0x06. -/
  | unbindImage
  /-- COMMIT_OUTPUT (R101): a CMD write of 0x07. -/
  | commitOutput
  /-- HOLD_IMAGE (R110): a CMD write of 0x08. -/
  | holdImage
  /-- RELEASE_IMAGE (R111): a CMD write of 0x09. -/
  | releaseImage
  /-- SUBMIT (R117): a CMD write of 0x0A. -/
  | submit
  /-- ABORT (R128): a CMD write of 0x0B. -/
  | abort
  /-- PARK (R86): a CMD write of 0x0C. -/
  | park
  /-- RESUME (R88): a CMD write of 0x0D. -/
  | resume
  /-- CLEAR_COUNTERS (R90): a CMD write of 0x0E. -/
  | clearCounters
  /-- LINE_BREAK (R47): a CMD write of 0x0F. -/
  | lineBreak
  /-- CANDIDATE_START_BIT (R4): a falling edge of RXDn. -/
  | candidateStartBit (line : LineId)
  /-- START_NOT_CONFIRMED (R4): sample 4 of a candidate start bit is 1. -/
  | startNotConfirmed (line : LineId)
  /-- LINE_RETURNS_TO_1 (R7): RXDn is sampled at 1 after a low level. -/
  | lineReturnsTo1 (line : LineId)
  deriving DecidableEq, Repr

end Sys2Proof
end

