-- ==== Sys2Proof/Config.lean ====
section
/-!
DEFINITION. What an implementation fixes and what the manual leaves open.
-/

namespace Sys2Proof.Config

/-- Which of several owners' records is offered next when the manual gives them no order (R127, R137, R139),
and which of two hand-overs of one cycle start comes first (R55).
The first argument is the step's `freeIndex`, the second the position within the step.
No body: every order is possible (log entries 5 and 6). -/
opaque freeChoice : Nat → Nat → Nat

/-- Records the event queue can hold (R137). -/
def queueLimit : Nat := 64

/-- Occupancy at which notices are no longer taken (R137, R139). -/
def noticeLimit : Nat := 48

/-- The line fault limit (R18, R44). -/
def faultLimit : Nat := 8

/-- The quiet limit, in character times (R18). -/
def quietLimit : Nat := 64

/-- Reference clock periods in one unit of 10 µs, at 32 MHz (R52). -/
def clocksPerUnit : Nat := 320

end Sys2Proof.Config
end

