-- ==== Sys2Proof/Machine/State.lean ====
section
/-!
DEFINITION. The state of the 2602 as plain data, and the state right after reset.
Register and record names are the manual's; INVENTORY.md lists each field with its rule and reset value.
-/

namespace Sys2Proof.Machine

abbrev EntryIx := Fin 64
abbrev StationIx := Fin 32
abbrev SlotIx := Fin 16
abbrev BlockIx := Fin 128

/-- The operating modes (Table 8-1). -/
inductive Mode where
  | init
  | config
  | run
  | quiescing
  | quiesced
  deriving DecidableEq, Repr

/-- The requests of MODEREQ (R151). -/
inductive ModeRequest where
  | config
  | run
  | quiesce
  deriving DecidableEq, Repr

/-- SPACE of ACCINFO (R167). -/
inductive AccessSpace where
  | register
  | tap
  deriving DecidableEq, Repr

/-- DIRECTION of ACCINFO (R167). -/
inductive AccessDirection where
  | read
  | write
  deriving DecidableEq, Repr

/-- Command state (R168). -/
inductive CommandState where
  | idle
  | busy
  | done
  deriving DecidableEq, Repr

/-- Result codes (Table 9-5, Table 10-8). -/
inductive ResultCode where
  | ok
  | badCommand
  | badArgument
  | wrongMode
  | notOwner
  | noBlock
  | queueFull
  | tagInUse
  | stationParked
  | stationOffline
  | lineDisabled
  | notBound
  | alreadyBound
  | commitPending
  | noSuchRequest
  | notAbortable
  | wrongState
  | notReachable
  | noImage
  deriving DecidableEq, Repr

/-- The sixteen outcomes (Table 2-3, Table 10-9). -/
inductive OutcomeCode where
  | ok
  | busy
  | refused
  | timeout
  | crcError
  | framing
  | fragment
  | stale
  | wrongStation
  | badFrame
  | collision
  | aborted
  | cancelled
  | stationParked
  | stationOffline
  | skipped
  deriving DecidableEq, Repr

/-- Engine states (Table 2-1). -/
inductive EngineState where
  | off
  | idle
  | turnaround
  | sending
  | awaitReply
  | receiving
  | quietWait
  | breaking
  | hold
  | faulted
  deriving DecidableEq, Repr

/-- Receiver states (section 1.4). -/
inductive RxState where
  | hunting
  | starting
  | assembling
  | waitHigh
  deriving DecidableEq, Repr

/-- Phase of a line's cycle (R56). -/
inductive Phase where
  | cyclic
  | acyclic
  deriving DecidableEq, Repr

/-- Health of a station (R77). -/
inductive Health where
  | online
  | degraded
  | offline
  | parked
  deriving DecidableEq, Repr

/-- RECOVERY of a station (R83). -/
inductive Recovery where
  | auto
  | host
  deriving DecidableEq, Repr

/-- Which block of a pair: ACTIVE of an entry, CURRENT of a station. -/
inductive Side where
  | a
  | b
  deriving DecidableEq, Repr

/-- STATE of a request slot (R114). -/
inductive SlotState where
  | free
  | pending
  | active
  | abortPending
  | done
  deriving DecidableEq, Repr

/-- KIND of a request slot (R113). -/
inductive RequestKind where
  | read
  | write
  deriving DecidableEq, Repr

/-- Frame kinds 0 to 3, which the controller sends (Table 1-4). -/
inductive SentKind where
  | poll
  | read
  | write
  | sync
  deriving DecidableEq, Repr

/-- Frame kinds 4 to 6, which the controller accepts (Table 1-4). -/
inductive ReplyKind where
  | ok
  | busy
  | refused
  deriving DecidableEq, Repr

/-- Kinds of event record (Table 7-2). -/
inductive EventKind where
  | none
  | requestDone
  | stationState
  | stationReachable
  | cycleOverrun
  | cycleLate
  | lineFault
  | lineFaulted
  | lineRestored
  | unsolicited
  | mode
  | imageUpdate
  | loss
  deriving DecidableEq, Repr

/-- An event record (R134). A record of no line holds line zero. -/
structure Event where
  kind : EventKind
  line : LineId
  station : StationIx
  detailA : BitVec 6
  detailB : Word
  cycle : Word
  extra : Word
  deriving DecidableEq, Repr

/-- Owner record of a payload block: class, index and role (R93). -/
inductive Owner where
  | free
  | host
  | outputActive (e : EntryIx)
  | outputStaged (e : EntryIx)
  | imageCurrent (t : StationIx)
  | imageNext (t : StationIx)
  | request (k : SlotIx)
  | reply (k : SlotIx)
  deriving DecidableEq, Repr

/-- A character to transmit: byte and mark bit (R2). -/
structure TxChar where
  byte : Byte
  mark : Bool
  deriving DecidableEq, Repr

/-- A delivered character (R6). -/
structure RxChar where
  byte : Byte
  mark : Bool
  noise : Bool
  framing : Bool
  deriving DecidableEq, Repr

/-- What the transmitter of a line does (R1, R2, R17). -/
inductive Drive where
  /-- DEn released, TXDn at 1. -/
  | released
  /-- DEn asserted, TXDn carrying the bits of this character. -/
  | character (c : TxChar)
  /-- DEn asserted, TXDn at 0: the low level of a break. -/
  | breakLow
  /-- DEn asserted, TXDn at 1: the guard of a break. -/
  | breakGuard
  deriving DecidableEq, Repr

/-- ORIGIN of an attempt record (Table 2-2). -/
inductive Origin where
  | cyclic (e : EntryIx)
  | probe (e : EntryIx)
  | acyclic (k : SlotIx)
  | sync
  deriving DecidableEq, Repr

/-- The STOP set of an attempt record (R39). -/
structure StopSet where
  cycle : Bool
  brk : Bool
  quiesce : Bool
  park : Bool
  abort : Bool
  fault : Bool
  deriving DecidableEq, Repr

/-- The attempt record (R24, Table 2-2). The last three fields are the working values R33 to R35 imply:
the outcome already fixed while the engine is in QUIET_WAIT, the check register and the received high check byte. -/
structure Attempt where
  origin : Origin
  station : Option StationIx
  kind : SentKind
  seqSent : BitVec 2
  attempt : Option Nat
  reqLen : Nat
  sent : Nat
  received : Nat
  replyKind : Option ReplyKind
  replyAddress : Option (BitVec 5)
  replySeq : Option (BitVec 2)
  replyLen : Option (BitVec 6)
  outcome : Option OutcomeCode
  retryOwed : Bool
  stop : StopSet
  fixedOutcome : Option OutcomeCode
  check : Word
  checkHigh : Byte
  deriving DecidableEq, Repr

/-- Everything held per line: configuration registers, cycle timer, walk pointer, line engine, receiver and transmitter. -/
structure Line where
  enable : Bool
  sync : Bool
  breakOnStart : Bool
  div : BitVec 12
  replyWindow : BitVec 8
  gapLimit : BitVec 4
  turnaround : BitVec 4
  period : Word
  timerRunning : Bool
  runningCount : Word
  cycnum : Word
  phase : Phase
  walk : Fin 65
  engine : EngineState
  faulted : Bool
  faults : BitVec 4
  unsol : Word
  noise : Word
  attempt : Option Attempt
  breakRequest : Bool
  syncOwed : Bool
  urgent : Bool
  unsolMark : Bool
  rx : RxState
  rxd : Bool
  settled : Bool
  readBack : Option RxChar
  drive : Drive
  frameRest : List TxChar
  deriving DecidableEq, Repr

/-- A schedule entry (Table 3-1). -/
structure Entry where
  enabled : Bool
  station : StationIx
  retries : BitVec 2
  divExp : BitVec 3
  active : Side
  commitPending : Bool
  phase : BitVec 7
  skipped : BitVec 8
  binding : Option (BlockIx × BlockIx)
  outputLen : BitVec 6
  stagedLen : BitVec 6
  last : OutcomeCode
  deriving DecidableEq, Repr

/-- A station record (Table 4-1, Table 5-3). -/
structure Station where
  enabled : Bool
  line : LineId
  recovery : Recovery
  notify : Bool
  missLimit : BitVec 4
  address : BitVec 5
  probeInterval : BitVec 8
  health : Health
  missCount : BitVec 4
  reachable : Bool
  probeDue : Bool
  seq : BitVec 2
  last : OutcomeCode
  probeCountdown : BitVec 8
  age : BitVec 8
  image : Option (BlockIx × BlockIx)
  current : Side
  hold : Bool
  newer : Bool
  imageLen : BitVec 6
  nextLen : BitVec 6
  imageSeq : Word
  good : Word
  missed : Word
  failedAttempts : Word
  overwrites : BitVec 8
  deriving DecidableEq, Repr

/-- A request slot (Table 6-1). REPLY_BLOCK 255 stands for none. -/
structure Slot where
  state : SlotState
  deferred : Bool
  abortLate : Bool
  kind : RequestKind
  priority : BitVec 2
  station : StationIx
  tag : Byte
  retries : BitVec 3
  attempts : BitVec 4
  busyCount : BitVec 3
  reqBlock : Byte
  replyBlock : Byte
  reqLen : BitVec 6
  replyLen : BitVec 6
  outcome : OutcomeCode
  deriving DecidableEq, Repr

/-- The whole machine. -/
structure State where
  resetLow : Bool
  mode : Mode
  pendingRequest : Option ModeRequest
  reqRefused : Bool
  errCode : BitVec 4
  errIndex : BitVec 6
  tapaddr : Word
  accaddr : Word
  accSpace : AccessSpace
  accDir : AccessDirection
  accMode : Mode
  dout : Word
  cmdState : CommandState
  cmd : Word
  carg : Vector Word 4
  args : Vector Word 4
  result : ResultCode
  cvalue : Word
  overrun : Bool
  line0 : Line
  line1 : Line
  entries : Vector Entry 64
  stations : Vector Station 32
  payload : List Host.Cell
  owners : Vector Owner 128
  slots : Vector Slot 16
  submitted : List SlotIx
  done : List (SlotIx × Event)
  events : List Event
  evlost : Word
  evthresh : BitVec 7
  drain : Bool
  dmaWord : BitVec 2
  edges : Word
  ienable : Word
  ilevel : Vector (BitVec 3) 16
  ithresh : BitVec 3
  freeIndex : Nat
  pending : List Instr
  deriving DecidableEq, Repr

/-- Nothing stops the machine: refusals of the manual are ordinary next states (R151, R167, R170).
The type has no constructor, so no command ends in a fault. -/
inductive Fault
  deriving DecidableEq, Repr

/-- The one refusal is the host's, for a command without a meaning. -/
inductive Refusal where
  /-- Raised by an arm of `exec` that has no meaning yet; no arm is in that case. Safe. -/
  | notModelled (mnemonic : String)
  deriving DecidableEq, Repr

/-- A line after hard reset (R3, R7, R18, R23, R52, R62, R163). -/
def Line.reset : Line where
  enable := false
  sync := false
  breakOnStart := false
  div := 255
  replyWindow := 4
  gapLimit := 2
  turnaround := 1
  period := 1000
  timerRunning := false
  runningCount := 0
  cycnum := 0
  phase := .cyclic
  walk := 0
  engine := .off
  faulted := false
  faults := 0
  unsol := 0
  noise := 0
  attempt := none
  breakRequest := false
  syncOwed := false
  urgent := false
  unsolMark := false
  rx := .waitHigh
  rxd := true
  settled := false
  readBack := none
  drive := .released
  frameRest := []

/-- A schedule entry after hard reset (R60). -/
def Entry.reset : Entry where
  enabled := false
  station := 0
  retries := 0
  divExp := 0
  active := .a
  commitPending := false
  phase := 0
  skipped := 0
  binding := none
  outputLen := 0
  stagedLen := 0
  last := .ok

/-- A station record after hard reset (R74, R104). -/
def Station.reset : Station where
  enabled := false
  line := .zero
  recovery := .auto
  notify := false
  missLimit := 3
  address := 0
  probeInterval := 8
  health := .online
  missCount := 0
  reachable := false
  probeDue := false
  seq := 0
  last := .ok
  probeCountdown := 8
  age := 255
  image := none
  current := .a
  hold := false
  newer := false
  imageLen := 0
  nextLen := 0
  imageSeq := 0
  good := 0
  missed := 0
  failedAttempts := 0
  overwrites := 0

/-- A slot after hard reset (R115). -/
def Slot.reset : Slot where
  state := .free
  deferred := false
  abortLate := false
  kind := .read
  priority := 0
  station := 0
  tag := 0
  retries := 0
  attempts := 0
  busyCount := 0
  reqBlock := 0
  replyBlock := 0
  reqLen := 0
  replyLen := 0
  outcome := .ok

/-- The machine right after a hard reset is given: RESET# low, mode INIT, every register and record at its
hard-reset value (R148, R149). RESET_RELEASE and CLEARING_COMPLETE lead to CONFIG (log entry 3). -/
def State.reset : State where
  resetLow := true
  mode := .init
  pendingRequest := none
  reqRefused := false
  errCode := 0
  errIndex := 0
  tapaddr := 0
  accaddr := 0
  accSpace := .register
  accDir := .read
  accMode := .init
  dout := 0
  cmdState := .idle
  cmd := 0
  carg := Vector.replicate 4 0
  args := Vector.replicate 4 0
  result := .ok
  cvalue := 0
  overrun := false
  line0 := Line.reset
  line1 := Line.reset
  entries := Vector.replicate 64 Entry.reset
  stations := Vector.replicate 32 Station.reset
  payload := []
  owners := Vector.replicate 128 .free
  slots := Vector.replicate 16 Slot.reset
  submitted := []
  done := []
  events := []
  evlost := 0
  evthresh := 1
  drain := false
  dmaWord := 0
  edges := 0
  ienable := 0
  ilevel := Vector.replicate 16 1
  ithresh := 1
  freeIndex := 0
  pending := []

end Sys2Proof.Machine
end

