-- ==== Sys2Proof/Machine/Ops.lean ====
section
/-!
DEFINITION. The named operations over the state: the one way each part of it is read and written,
and payload memory in its canonical form.
-/

namespace Sys2Proof.Machine

/-- A saturating counter's increment (spec/00, Counting). -/
def satInc {w : Nat} (x : BitVec w) : BitVec w := if x = BitVec.allOnes w then x else x + 1

/-- The number of a line. -/
def lineNumber : LineId → Nat
  | .zero => 0
  | .one => 1

/-- The other side of a pair. -/
def Side.flip : Side → Side
  | .a => .b
  | .b => .a

/-- The block of a pair that a side names. -/
def pairBlock (p : BlockIx × BlockIx) : Side → BlockIx
  | .a => p.1
  | .b => p.2

/-- An index below `n` from a whole argument word: a value above the range is above it, never wrapped (R170). -/
def index? (n : Nat) (w : Word) : Option (Fin n) := if h : w.toNat < n then some ⟨w.toNat, h⟩ else none

/-- The first answer of a list of checks. -/
def firstSome {α β : Type} (f : α → Option β) : List α → Option β
  | [] => none
  | x :: rest =>
    match f x with
    | some y => some y
    | none => firstSome f rest

/-! ## Payload memory (R92) -/

/-- Payload memory: the bytes that differ from 0, by byte address. -/
abbrev Memory := List Host.Cell

/-- Bytes of payload memory (R92). -/
def Memory.size : Nat := 4096

/-- What an unlisted byte reads as: the value the clearing writes (R92, R149). -/
def Memory.unlisted : Byte := 0

/-- The canonical form: addresses strictly rising and inside the memory, no listed byte equal to an unlisted one. -/
abbrev Memory.wf (m : Memory) : Prop :=
  (m.map Prod.fst).Pairwise (· < ·) ∧ ∀ c ∈ m, c.1 < Memory.size ∧ c.2 ≠ Memory.unlisted

/-- The byte at an address. -/
def Memory.read : Memory → Nat → Byte
  | [], _ => Memory.unlisted
  | (k, b) :: rest, a => if a = k then b else Memory.read rest a

/-- An entry for a byte, none for the unlisted value. -/
def Memory.cell (a : Nat) (v : Byte) : Memory := if v = Memory.unlisted then [] else [(a, v)]

/-- Writing one byte, keeping the canonical form. -/
def Memory.write : Memory → Nat → Byte → Memory
  | [], a, v => Memory.cell a v
  | (k, b) :: rest, a, v =>
    if a < k then Memory.cell a v ++ (k, b) :: rest
    else if a = k then Memory.cell a v ++ rest
    else (k, b) :: Memory.write rest a v

/-- Byte address of byte `i` of a block (R92). -/
def blockByte (b : BlockIx) (i : Fin 32) : Nat := 32 * b.val + i.val

/-- The first `n` bytes of a block, in ascending order (R8, R13). -/
def Memory.blockBytes (m : Memory) (b : BlockIx) (n : Nat) : List Byte :=
  (List.range n).map fun i => m.read (32 * b.val + i)

/-- The word at a word address: byte 2w low, byte 2w+1 high (R92). -/
def Memory.readWord (m : Memory) (w : Nat) : Word := m.read (2 * w + 1) ++ m.read (2 * w)

/-- Writing the word at a word address (R92). -/
def Memory.writeWord (m : Memory) (w : Nat) (v : Word) : Memory :=
  (m.write (2 * w) (v.extractLsb' 0 8)).write (2 * w + 1) (v.extractLsb' 8 8)

/-! ## Reading and writing the parts of the state -/

namespace State

def line (s : State) : LineId → Line
  | .zero => s.line0
  | .one => s.line1

def setLine (n : LineId) (l : Line) (s : State) : State :=
  match n with
  | .zero => { s with line0 := l }
  | .one => { s with line1 := l }

def modifyLine (n : LineId) (f : Line → Line) (s : State) : State := s.setLine n (f (s.line n))

def station (s : State) (t : StationIx) : Station := s.stations.get t

def setStation (t : StationIx) (st : Station) (s : State) : State :=
  { s with stations := s.stations.set t st }

def modifyStation (t : StationIx) (f : Station → Station) (s : State) : State :=
  s.setStation t (f (s.station t))

def entry (s : State) (e : EntryIx) : Entry := s.entries.get e

def setEntry (e : EntryIx) (en : Entry) (s : State) : State := { s with entries := s.entries.set e en }

def modifyEntry (e : EntryIx) (f : Entry → Entry) (s : State) : State := s.setEntry e (f (s.entry e))

def slot (s : State) (k : SlotIx) : Slot := s.slots.get k

def setSlot (k : SlotIx) (sl : Slot) (s : State) : State := { s with slots := s.slots.set k sl }

def modifySlot (k : SlotIx) (f : Slot → Slot) (s : State) : State := s.setSlot k (f (s.slot k))

def owner (s : State) (b : BlockIx) : Owner := s.owners.get b

def setOwner (b : BlockIx) (o : Owner) (s : State) : State := { s with owners := s.owners.set b o }

/-- Every element of a table changed at once, each by its own index. -/
def mapTable {α : Type} {n : Nat} (v : Vector α n) (f : Fin n → α → α) : Vector α n :=
  ⟨⟨(List.finRange n).map fun i => f i (v.get i)⟩, by simp⟩

def mapStations (f : StationIx → Station → Station) (s : State) : State :=
  { s with stations := mapTable s.stations f }

def mapEntries (f : EntryIx → Entry → Entry) (s : State) : State :=
  { s with entries := mapTable s.entries f }

def mapSlots (f : SlotIx → Slot → Slot) (s : State) : State := { s with slots := mapTable s.slots f }

def mapOwners (f : BlockIx → Owner → Owner) (s : State) : State :=
  { s with owners := mapTable s.owners f }

/-- A reply byte written into a block by the line engine (R107, R121). -/
def writeBlockByte (b : BlockIx) (i : Fin 32) (v : Byte) (s : State) : State :=
  { s with payload := Memory.write s.payload (blockByte b i) v }

/-- Argument word `i` of the command taken (R169). -/
def arg (s : State) (i : Fin 4) : Word := s.args.get i

/-- The mode is INIT: host writes are ignored (R150). -/
def inInit (s : State) : Bool := s.mode == .init

end State

end Sys2Proof.Machine
end

