-- ==== Sys2Proof/Machine/Layouts.lean ====
section
/-!
DEFINITION. Codes and bit positions of registers, records and event words (spec/10, R179).
A word is written high field first.
-/

namespace Sys2Proof.Machine

/-! ## Codes -/

def bit (b : Bool) : BitVec 1 := BitVec.ofBool b

def LineId.bit : LineId → BitVec 1
  | .zero => 0
  | .one => 1

def lineOfBit (b : Bool) : LineId := if b then .one else .zero

/-- Table 10-2. -/
def Mode.code : Mode → BitVec 3
  | .init => 0
  | .config => 1
  | .run => 2
  | .quiescing => 3
  | .quiesced => 4

/-- R151. -/
def ModeRequest.code : ModeRequest → BitVec 2
  | .config => 1
  | .run => 2
  | .quiesce => 3

/-- Table 10-1, CSTAT. -/
def CommandState.code : CommandState → BitVec 2
  | .idle => 0
  | .busy => 1
  | .done => 2

/-- Table 10-8. -/
def ResultCode.code : ResultCode → BitVec 5
  | .ok => 0
  | .badCommand => 1
  | .badArgument => 2
  | .wrongMode => 3
  | .notOwner => 4
  | .noBlock => 5
  | .queueFull => 6
  | .tagInUse => 7
  | .stationParked => 8
  | .stationOffline => 9
  | .lineDisabled => 10
  | .notBound => 11
  | .alreadyBound => 12
  | .commitPending => 13
  | .noSuchRequest => 14
  | .notAbortable => 15
  | .wrongState => 16
  | .notReachable => 17
  | .noImage => 18

/-- Table 10-9. -/
def OutcomeCode.code : OutcomeCode → BitVec 4
  | .ok => 0
  | .busy => 1
  | .refused => 2
  | .timeout => 3
  | .crcError => 4
  | .framing => 5
  | .fragment => 6
  | .stale => 7
  | .wrongStation => 8
  | .badFrame => 9
  | .collision => 10
  | .aborted => 11
  | .cancelled => 12
  | .stationParked => 13
  | .stationOffline => 14
  | .skipped => 15

/-- Table 10-2, LINEnSTAT STATE. -/
def EngineState.code : EngineState → BitVec 4
  | .off => 0
  | .idle => 1
  | .turnaround => 2
  | .sending => 3
  | .awaitReply => 4
  | .receiving => 5
  | .quietWait => 6
  | .breaking => 7
  | .hold => 8
  | .faulted => 9

def Phase.bit : Phase → BitVec 1
  | .cyclic => 0
  | .acyclic => 1

/-- R77. -/
def Health.code : Health → BitVec 2
  | .online => 0
  | .degraded => 1
  | .offline => 2
  | .parked => 3

def Recovery.bit : Recovery → BitVec 1
  | .auto => 0
  | .host => 1

def Side.bit : Side → BitVec 1
  | .a => 0
  | .b => 1

/-- R113. -/
def SlotState.code : SlotState → BitVec 3
  | .free => 0
  | .pending => 1
  | .active => 2
  | .abortPending => 3
  | .done => 4

def RequestKind.bit : RequestKind → BitVec 1
  | .read => 0
  | .write => 1

/-- Table 7-2. -/
def EventKind.code : EventKind → BitVec 4
  | .none => 0
  | .requestDone => 1
  | .stationState => 2
  | .stationReachable => 3
  | .cycleOverrun => 4
  | .cycleLate => 5
  | .lineFault => 6
  | .lineFaulted => 7
  | .lineRestored => 8
  | .unsolicited => 9
  | .mode => 10
  | .imageUpdate => 11
  | .loss => 12

/-- Table 1-4. -/
def SentKind.code : SentKind → BitVec 3
  | .poll => 0
  | .read => 1
  | .write => 2
  | .sync => 3

/-- The reply kind of a header's kind field, none for kinds 0 to 3 and 7 (R9, R33). -/
def replyKind? (k : BitVec 3) : Option ReplyKind :=
  if k = 4 then some .ok else if k = 5 then some .busy else if k = 6 then some .refused else none

/-- Class miss of Table 2-3. -/
def OutcomeCode.isMiss : OutcomeCode → Bool
  | .timeout | .crcError | .framing | .fragment | .stale | .wrongStation | .badFrame => true
  | .ok | .busy | .refused | .collision | .aborted | .cancelled | .stationParked | .stationOffline | .skipped => false

/-- Class contact of Table 2-3. -/
def OutcomeCode.isContact : OutcomeCode → Bool
  | .ok | .busy | .refused => true
  | .timeout | .crcError | .framing | .fragment | .stale | .wrongStation | .badFrame | .collision | .aborted
  | .cancelled | .stationParked | .stationOffline | .skipped => false

/-- The two bits of `BLOCK_A` and `BLOCK_B` words. -/
def pairWord (p : Option (BlockIx × BlockIx)) : BitVec 15 :=
  match p with
  | none => 0
  | some (a, b) => BitVec.ofNat 7 b.val ++ (0#1 ++ BitVec.ofNat 7 a.val)

/-! ## Records (Table 10-4, Table 10-5) -/

/-- Word `i` of a station record; words 12 to 15 read 0 (R72). -/
def Station.word (st : Station) (i : Nat) : Word :=
  match i with
  | 0 => 0#3 ++ st.address ++ st.missLimit ++ bit st.notify ++ st.recovery.bit ++ LineId.bit st.line ++ bit st.enabled
  | 1 => 0#8 ++ st.probeInterval
  | 2 => st.last.code ++ 0#2 ++ st.seq ++ st.missCount ++ bit st.probeDue ++ bit st.reachable ++ st.health.code
  | 3 => st.age ++ st.probeCountdown
  | 4 => 0#12 ++ bit st.newer ++ bit st.hold ++ st.current.bit ++ bit st.image.isSome
  | 5 => 0#1 ++ pairWord st.image
  | 6 => 0#2 ++ st.nextLen ++ 0#2 ++ st.imageLen
  | 7 => st.imageSeq
  | 8 => st.good
  | 9 => st.missed
  | 10 => st.failedAttempts
  | 11 => 0#8 ++ st.overwrites
  | _ => 0

/-- Word `i` of a schedule entry. An unbound entry's word 2 reads 0 (log entry 15). -/
def Entry.word (e : Entry) (i : Nat) : Word :=
  match i with
  | 0 => 0#3 ++ BitVec.ofNat 5 e.station.val ++ e.divExp ++ e.retries ++ bit e.commitPending ++ e.active.bit
      ++ bit e.enabled
  | 1 => e.skipped ++ 0#1 ++ e.phase
  | 2 => bit e.binding.isSome ++ pairWord e.binding
  | 3 => e.last.code ++ e.stagedLen ++ e.outputLen
  | _ => 0

/-- Word `i` of a slot; words 6 and 7 read 0 (R113). -/
def Slot.word (k : Slot) (i : Nat) : Word :=
  match i with
  | 0 => 0#8 ++ k.priority ++ k.kind.bit ++ bit k.abortLate ++ bit k.deferred ++ k.state.code
  | 1 => k.tag ++ 0#3 ++ BitVec.ofNat 5 k.station.val
  | 2 => 0#5 ++ k.busyCount ++ k.attempts ++ 0#1 ++ k.retries
  | 3 => k.replyBlock ++ k.reqBlock
  | 4 => 0#2 ++ k.replyLen ++ 0#2 ++ k.reqLen
  | 5 => 0#12 ++ k.outcome.code
  | _ => 0

/-- CLASS of an owner record. -/
def Owner.cls : Owner → BitVec 3
  | .free => 0
  | .host => 1
  | .outputActive _ | .outputStaged _ => 2
  | .imageCurrent _ | .imageNext _ => 3
  | .request _ | .reply _ => 4

/-- ROLE of an owner record. -/
def Owner.role : Owner → BitVec 1
  | .outputStaged _ | .imageNext _ | .reply _ => 1
  | .free | .host | .outputActive _ | .imageCurrent _ | .request _ => 0

/-- INDEX of an owner record. -/
def Owner.index : Owner → BitVec 6
  | .free | .host => 0
  | .outputActive e | .outputStaged e => BitVec.ofNat 6 e.val
  | .imageCurrent t | .imageNext t => BitVec.ofNat 6 t.val
  | .request k | .reply k => BitVec.ofNat 6 k.val

/-- The block map word (Table 10-5). -/
def Owner.word (o : Owner) : Word := 0#2 ++ o.index ++ 0#4 ++ o.role ++ o.cls

/-- The block is lent to a request slot. -/
def Owner.isRequest : Owner → Bool
  | .request _ | .reply _ => true
  | .free | .host | .outputActive _ | .outputStaged _ | .imageCurrent _ | .imageNext _ => false

/-- Word `i` of an event record (Table 10-6). -/
def Event.word (e : Event) (i : Nat) : Word :=
  match i with
  | 0 => e.kind.code ++ LineId.bit e.line ++ BitVec.ofNat 5 e.station.val ++ e.detailA
  | 1 => e.detailB
  | 2 => e.cycle
  | _ => e.extra

/-! ## Storing a written record word (R59, R72, R179) -/

/-- A station index from five bits. -/
def stationOfBits (v : BitVec 5) : StationIx := ⟨v.toNat, v.isLt⟩

/-- The fields of station word 0 (R72, Table 10-4): bits 12:0 are taken. -/
def Station.storeWord0 (v : Word) (st : Station) : Station :=
  { st with
    enabled := v.getLsbD 0
    line := lineOfBit (v.getLsbD 1)
    recovery := if v.getLsbD 2 then .host else .auto
    notify := v.getLsbD 3
    missLimit := v.extractLsb' 4 4
    address := v.extractLsb' 8 5 }

/-- The field of station word 1. -/
def Station.storeWord1 (v : Word) (st : Station) : Station := { st with probeInterval := v.extractLsb' 0 8 }

/-- Schedule entry word 0 in CONFIG (R179): ACTIVE and COMMIT_PENDING are not stored. -/
def Entry.storeWord0 (v : Word) (e : Entry) : Entry :=
  { e with
    enabled := v.getLsbD 0
    retries := v.extractLsb' 3 2
    divExp := v.extractLsb' 5 3
    station := stationOfBits (v.extractLsb' 8 5) }

/-- Schedule entry word 0 outside CONFIG: ENABLED alone (R59). -/
def Entry.storeEnabled (v : Word) (e : Entry) : Entry := { e with enabled := v.getLsbD 0 }

/-- Schedule entry word 1 in CONFIG: PHASE, and SKIPPED becomes 0 (R59). -/
def Entry.storeWord1 (v : Word) (e : Entry) : Entry := { e with phase := v.extractLsb' 0 7, skipped := 0 }

/-! ## Line registers (Table 10-1) -/

def Line.cfgWord (l : Line) : Word := 0#13 ++ bit l.breakOnStart ++ bit l.sync ++ bit l.enable

def Line.timeWord (l : Line) : Word := l.turnaround ++ l.gapLimit ++ l.replyWindow

def Line.statWord (l : Line) : Word := 0#4 ++ l.faults ++ 0#3 ++ l.phase.bit ++ l.engine.code

def Line.storeCfg (v : Word) (l : Line) : Line :=
  { l with enable := v.getLsbD 0, sync := v.getLsbD 1, breakOnStart := v.getLsbD 2 }

/-- LINEnDIV narrows within its 12-bit field: below 15 stores 15 (R3). -/
def Line.storeDiv (v : Word) (l : Line) : Line :=
  let d : BitVec 12 := v.extractLsb' 0 12
  { l with div := if d.toNat < 15 then 15 else d }

def Line.storeTime (v : Word) (l : Line) : Line :=
  { l with replyWindow := v.extractLsb' 0 8, gapLimit := v.extractLsb' 8 4, turnaround := v.extractLsb' 12 4 }

def Line.storePeriod (v : Word) (l : Line) : Line := { l with period := v }

end Sys2Proof.Machine
end

