-- ==== Sys2Proof/Machine/Flags.lean ====
section
/-!
DEFINITION. The Interrupt Controller (R173 to R178): flags, levels, INT# and ITOP.
-/

namespace Sys2Proof.Machine

/-- The sixteen sources (Table 9-7). -/
inductive Source where
  | eventAvailable
  | eventThreshold
  | eventLoss
  | drained
  | cmdDone
  | modeDone
  | cycleStart (n : LineId)
  | cycleEnd (n : LineId)
  | overrun (n : LineId)
  | lineFault (n : LineId)
  | stationDown
  | accessError
  deriving DecidableEq, Repr

/-- The number of a source (Table 9-7). -/
def Source.number : Source → Nat
  | .eventAvailable => 0
  | .eventThreshold => 1
  | .eventLoss => 2
  | .drained => 3
  | .cmdDone => 4
  | .modeDone => 5
  | .cycleStart .zero => 6
  | .cycleStart .one => 7
  | .cycleEnd .zero => 8
  | .cycleEnd .one => 9
  | .overrun .zero => 10
  | .overrun .one => 11
  | .lineFault .zero => 12
  | .lineFault .one => 13
  | .stationDown => 14
  | .accessError => 15

/-- The bit of a source in IFLAG and IENABLE. -/
def Source.mask (x : Source) : Word := 1#16 <<< Source.number x

/-- The bits of the fourteen edge sources. -/
def edgeMask : Word := 0xFFFC

namespace State

/-- An edge source's event is taken: its flag is set (R174). -/
def raise (x : Source) (s : State) : State := { s with edges := s.edges ||| (Source.mask x &&& edgeMask) }

/-- The flag of an edge source. -/
def edgeFlag (s : State) (x : Source) : Bool := (s.edges &&& Source.mask x) != 0

/-- EVENT_AVAILABLE's condition (R146). -/
def eventAvailable (s : State) : Bool := decide (1 ≤ s.events.length)

/-- EVENT_THRESHOLD's condition (R146). -/
def eventThreshold (s : State) : Bool := decide (s.evthresh.toNat ≤ s.events.length)

/-- IFLAG: the stored edge flags and the two level flags, which follow their conditions (R174). -/
def iflag (s : State) : Word :=
  (s.edges &&& edgeMask) ||| (0#14 ++ bit s.eventThreshold ++ bit s.eventAvailable)

/-- The level of a source. -/
def sourceLevel (s : State) (i : Fin 16) : Nat := (s.ilevel.get i).toNat

/-- A source is pending (R177). -/
def sourcePending (s : State) (i : Fin 16) : Bool :=
  s.iflag.getLsbD i && s.ienable.getLsbD i && decide (s.ithresh.toNat ≤ s.sourceLevel i)

/-- The pending sources in ascending number. -/
def pendingSources (s : State) : List (Fin 16) := (List.finRange 16).filter s.sourcePending

/-- INT# is asserted while at least one source is pending (R177). -/
def intAsserted (s : State) : Bool := !s.pendingSources.isEmpty

/-- The better of two sources given in ascending number: the higher level, the lower number among equals (R177). -/
def higherSource (s : State) (i : Fin 16) : Option (Fin 16) → Option (Fin 16)
  | none => some i
  | some j => if s.sourceLevel i < s.sourceLevel j then some j else some i

/-- The pending source of highest level (R177). -/
def topSource (s : State) : Option (Fin 16) := s.pendingSources.foldr s.higherSource none

/-- ITOP: that source's number, or 31 (R177). -/
def itop (s : State) : BitVec 5 :=
  match s.topSource with
  | none => 31
  | some i => BitVec.ofNat 5 i.val

/-- An IFLAG write clears each edge flag written with 1; level flags follow their conditions (R175). -/
def clearFlags (v : Word) (s : State) : State := { s with edges := s.edges &&& ~~~v }

/-- A written level field: 8 to 15 store 7 (R176). -/
def narrowLevel (v : BitVec 4) : BitVec 3 := if 7 < v.toNat then 7 else v.setWidth 3

/-- The written level of source `i`, from its own field of its ILEVEL register (Table 10-1). -/
def writtenLevel (r : Fin 4) (v : Word) (i : Fin 16) (old : BitVec 3) : BitVec 3 :=
  if i.val / 4 = r.val then narrowLevel (v.extractLsb' (4 * (i.val % 4)) 4) else old

/-- A write of ILEVELk (R176). -/
def storeLevels (r : Fin 4) (v : Word) (s : State) : State :=
  { s with ilevel := mapTable s.ilevel (writtenLevel r v) }

/-- ILEVELk as it reads. -/
def levelWord (s : State) (r : Fin 4) : Word :=
  let f (j : Nat) (h : j < 4) : BitVec 4 := 0#1 ++ s.ilevel.get ⟨4 * r.val + j, by omega⟩
  f 3 (by decide) ++ f 2 (by decide) ++ f 1 (by decide) ++ f 0 (by decide)

/-- A written ITHRESH judged as a whole word: 0 stores 1, above 7 stores 7 (R176, R179). -/
def narrowThresh (v : Word) : BitVec 3 := if v = 0 then 1 else if 7 < v.toNat then 7 else v.setWidth 3

def storeThresh (v : Word) (s : State) : State := { s with ithresh := narrowThresh v }

end State

end Sys2Proof.Machine
end

