-- ==== Sys2Proof/Machine/Operands.lean ====
section
/-!
DEFINITION. The operand forms: a character from its samples (R5, R6), the eleven bits of a transmitted character (R2),
and the packed arguments of SUBMIT (R180).
-/

namespace Sys2Proof.Machine

/-- The value of a position: the majority of samples 4, 5 and 6 (R5). -/
def Samples.value (t : Samples) : Bool := (t.s4 && t.s5) || (t.s4 && t.s6) || (t.s5 && t.s6)

/-- The three samples do not all agree (R5). -/
def Samples.disagree (t : Samples) : Bool := !(t.s4 == t.s5 && t.s5 == t.s6)

/-- The samples of all eleven positions. -/
def CharSamples.positions (c : CharSamples) : List Samples :=
  [c.start, c.d0, c.d1, c.d2, c.d3, c.d4, c.d5, c.d6, c.d7, c.mark, c.stop]

/-- The delivered character (R5, R6): bit 0 is the first data position; noise at any position, the start bit included;
the framing mark is present when the stop bit's value is 0. -/
def CharSamples.decode (c : CharSamples) : RxChar where
  byte := bit (Samples.value c.d7) ++ bit (Samples.value c.d6) ++ bit (Samples.value c.d5) ++ bit (Samples.value c.d4)
    ++ bit (Samples.value c.d3) ++ bit (Samples.value c.d2) ++ bit (Samples.value c.d1) ++ bit (Samples.value c.d0)
  mark := Samples.value c.mark
  noise := (CharSamples.positions c).any Samples.disagree
  framing := !Samples.value c.stop

/-- The eleven bits of a character on the line, in order (R2, Table 1-1). -/
def TxChar.bits (c : TxChar) : List Bool :=
  [false, c.byte.getLsbD 0, c.byte.getLsbD 1, c.byte.getLsbD 2, c.byte.getLsbD 3, c.byte.getLsbD 4,
    c.byte.getLsbD 5, c.byte.getLsbD 6, c.byte.getLsbD 7, c.mark, true]

/-- DEn is asserted while a frame or a break with its guard is sent (R1, R17). -/
def Drive.deAsserted : Drive → Bool
  | .released => false
  | .character _ | .breakLow | .breakGuard => true

/-- The levels TXDn takes: one constant level, or the bits of a character in order (R1, R2, R17). -/
def Drive.txdLevels : Drive → List Bool
  | .released | .breakGuard => [true]
  | .breakLow => [false]
  | .character c => TxChar.bits c

/-- A read-back agrees with the character sent: same byte, same mark, no framing mark; noise does not count (R16). -/
def readBackAgrees (sent : TxChar) (back : Option RxChar) : Bool :=
  match back with
  | none => false
  | some r => r.byte == sent.byte && r.mark == sent.mark && !r.framing

/-- The packed request of SUBMIT (R180). -/
structure SubmitArgs where
  station : BitVec 6
  kind : BitVec 2
  priority : BitVec 3
  retries : BitVec 5
  tag : Word
  reqBlock : Byte
  replyBlock : Byte
  reqLen : Word
  deriving DecidableEq, Repr

/-- R180: where each field sits in CARG0 to CARG3. -/
def SubmitArgs.unpack (a0 a1 a2 a3 : Word) : SubmitArgs where
  station := a0.extractLsb' 0 6
  kind := a0.extractLsb' 6 2
  priority := a0.extractLsb' 8 3
  retries := a0.extractLsb' 11 5
  tag := a1
  reqBlock := a2.extractLsb' 0 8
  replyBlock := a2.extractLsb' 8 8
  reqLen := a3

/-- A SUBMIT whose fields passed check 1 of R117, each in its own type. -/
structure Request where
  station : StationIx
  kind : RequestKind
  priority : BitVec 2
  retries : BitVec 3
  tag : Byte
  reqBlock : BlockIx
  replyBlock : Option BlockIx
  reqLen : Word
  deriving DecidableEq, Repr

/-- The kind field: 1 is READ, 2 is WRITE, others fail check 1 (R117, R180). -/
def requestKind? (k : BitVec 2) : Option RequestKind :=
  if k = 1 then some .read else if k = 2 then some .write else none

/-- The reply block field: 255 is none, above 127 fails check 1 (R117). -/
def replyBlock? (v : Byte) : Option (Option BlockIx) :=
  if v = 255 then some none else if h : v.toNat < 128 then some (some ⟨v.toNat, h⟩) else none

/-- Check 1 of R117: every field within its range, or none (BAD_ARGUMENT). The length is not checked here. -/
def SubmitArgs.check1 (a : SubmitArgs) : Option Request :=
  if h : a.station.toNat < 32 ∧ a.priority.toNat ≤ 3 ∧ a.retries.toNat ≤ 7 ∧ a.tag.toNat ≤ 255
      ∧ a.reqBlock.toNat < 128 then
    match requestKind? a.kind, replyBlock? a.replyBlock with
    | some kind, some reply =>
      some
        { station := ⟨a.station.toNat, h.1⟩
          kind := kind
          priority := a.priority.setWidth 2
          retries := a.retries.setWidth 3
          tag := a.tag.setWidth 8
          reqBlock := ⟨a.reqBlock.toNat, h.2.2.2.2⟩
          replyBlock := reply
          reqLen := a.reqLen }
    | _, _ => none
  else none

/-- A block index as a slot's byte field; 255 for none (R113). -/
def blockField (b : Option BlockIx) : Byte :=
  match b with
  | none => 255
  | some b => BitVec.ofNat 8 b.val

/-- The block a slot's byte field names; none for 255 and for values no SUBMIT stores. -/
def fieldBlock? (v : Byte) : Option BlockIx := if h : v.toNat < 128 then some ⟨v.toNat, h⟩ else none

end Sys2Proof.Machine
end

