-- ==== Sys2Proof/Machine/Queue.lean ====
section
/-!
DEFINITION. The Event Queue (R134 to R147): offers, losses, removals and held completions, and the free order of
records that different owners offer in one step.
-/

namespace Sys2Proof.Machine

/-- The records that belong to a line: kinds 1 to 9 and 11 (R135). -/
def EventKind.ofLine : EventKind → Bool
  | .none | .mode | .loss => false
  | .requestDone | .stationState | .stationReachable | .cycleOverrun | .cycleLate | .lineFault | .lineFaulted
  | .lineRestored | .unsolicited | .imageUpdate => true

/-- A record that is neither a completion nor a LOSS marker (R135, R137). -/
def EventKind.isNotice : EventKind → Bool
  | .requestDone | .loss => false
  | .none | .stationState | .stationReachable | .cycleOverrun | .cycleLate | .lineFault | .lineFaulted
  | .lineRestored | .unsolicited | .mode | .imageUpdate => true

/-! ## The records (Table 7-2); the queue writes CYCLE -/

def Event.blank (k : EventKind) : Event where
  kind := k
  line := .zero
  station := 0
  detailA := 0
  detailB := 0
  cycle := 0
  extra := 0

/-- STATION_STATE (R85): MISS_COUNT after the change, old and new HEALTH. -/
def stationStateNotice (t : StationIx) (old : Health) (st : Station) : Event :=
  { Event.blank .stationState with
    line := st.line
    station := t
    detailA := st.missCount.setWidth 6
    detailB := 0#10 ++ st.health.code ++ 0#2 ++ old.code }

/-- STATION_REACHABLE (R84). -/
def stationReachableNotice (t : StationIx) (st : Station) : Event :=
  { Event.blank .stationReachable with line := st.line, station := t }

/-- CYCLE_OVERRUN (R68). -/
def cycleOverrunNotice (n : LineId) (skipped : Nat) : Event :=
  { Event.blank .cycleOverrun with line := n, detailB := BitVec.ofNat 16 skipped }

/-- CYCLE_LATE (R69). -/
def cycleLateNotice (n : LineId) : Event := { Event.blank .cycleLate with line := n }

/-- LINE_FAULT (R43): the count after the increment; cause 0 collision, 1 quiet limit. -/
def lineFaultNotice (n : LineId) (quietLimit : Bool) (count : BitVec 4) : Event :=
  { Event.blank .lineFault with line := n, detailA := count.setWidth 6, detailB := 0#15 ++ bit quietLimit }

/-- LINE_FAULTED (R44). -/
def lineFaultedNotice (n : LineId) : Event := { Event.blank .lineFaulted with line := n }

/-- LINE_RESTORED (R49). -/
def lineRestoredNotice (n : LineId) : Event := { Event.blank .lineRestored with line := n }

/-- UNSOLICITED (R45): UNSOLn after the increment. -/
def unsolicitedNotice (n : LineId) (count : Word) : Event :=
  { Event.blank .unsolicited with line := n, detailB := count }

/-- MODE (R152). -/
def modeNotice (m : Mode) (err : BitVec 4) (index : BitVec 6) : Event :=
  { Event.blank .mode with
    detailA := m.code.setWidth 6
    detailB := err.setWidth 16
    extra := index.setWidth 16 }

/-- IMAGE_UPDATE (R108, R111): IMAGE_LEN and IMAGE_SEQ after the flip. -/
def imageUpdateNotice (t : StationIx) (st : Station) : Event :=
  { Event.blank .imageUpdate with line := st.line, station := t, detailA := st.imageLen, detailB := st.imageSeq }

/-- A LOSS marker (R140). -/
def lossMarker (count : Word) : Event := { Event.blank .loss with detailB := count }

/-- REQUEST_DONE (R125, Table 10-6), from the slot as the completion leaves it and the line of its station. -/
def requestDone (k : SlotIx) (sl : Slot) (line : LineId) : Event :=
  { Event.blank .requestDone with
    line := line
    station := sl.station
    detailA := sl.replyLen
    detailB := 0#7 ++ bit sl.abortLate ++ sl.outcome.code ++ BitVec.ofNat 4 k.val
    extra := 0#1 ++ sl.busyCount ++ sl.attempts ++ sl.tag }

namespace State

/-- The queue writes CYCLE as it takes a record: the line's CYCNUMn, or 0 for a record of no line (R136). -/
def stamp (s : State) (e : Event) : Event :=
  { e with cycle := if e.kind.ofLine then (s.line e.line).cycnum else 0 }

/-- A record joins the tail (R137). -/
def pushEvent (e : Event) (s : State) : State := { s with events := s.events ++ [s.stamp e] }

/-- The newest record is a LOSS marker whose lost count is below 255 (R140). -/
def openMarker? (evs : List Event) : Option Event :=
  match evs.getLast? with
  | none => none
  | some m => if m.kind = .loss ∧ m.detailB.toNat < 255 then some m else none

/-- The accounting of a lost notice in the queue: the first case of R140 that applies. -/
def markLoss (s : State) : State :=
  match openMarker? s.events with
  | some m => { s with events := s.events.dropLast ++ [{ m with detailB := m.detailB + 1 }] }
  | none => if s.events.length < Config.queueLimit then s.pushEvent (lossMarker 1) else s

/-- A notice is lost (R140). -/
def loseNotice (s : State) : State := (raise .eventLoss { s with evlost := satInc s.evlost }).markLoss

/-- A notice is offered: taken while the occupancy is below 48, lost otherwise (R139). -/
def offerNotice (e : Event) (s : State) : State :=
  if s.events.length < Config.noticeLimit then s.pushEvent e else s.loseNotice

/-- A block returns to the host (R125). -/
def releaseBlock (b : Option BlockIx) (s : State) : State :=
  match b with
  | none => s
  | some b => s.setOwner b .host

/-- A slot becomes FREE and its blocks return to HOST (R115, R125). -/
def freeSlot (k : SlotIx) (s : State) : State :=
  let sl := s.slot k
  ((s.setSlot k { sl with state := .free, deferred := false }).releaseBlock (fieldBlock? sl.reqBlock)).releaseBlock
    (fieldBlock? sl.replyBlock)

/-- The queue takes a completion record (R138). -/
def takeCompletion (k : SlotIx) (e : Event) (s : State) : State := (s.pushEvent e).freeSlot k

/-- The completion is held: the slot becomes DONE and joins the done list (R126). -/
def holdCompletion (k : SlotIx) (e : Event) (s : State) : State :=
  { s.modifySlot k (fun sl => { sl with state := .done }) with done := s.done ++ [(k, e)] }

/-- A completion is offered (R126, R138). -/
def offerCompletion (k : SlotIx) (e : Event) (s : State) : State :=
  if s.events.length < Config.queueLimit ∧ s.done = [] then s.takeCompletion k e else s.holdCompletion k e

/-- The queue takes the head held completion, when there is one and there is room (R126, R141). -/
def takeHeld (s : State) : State :=
  match s.done with
  | [] => s
  | (k, e) :: rest =>
    if s.events.length < Config.queueLimit then ({ s with done := rest } : State).takeCompletion k e else s

/-- The removal step: the head leaves, the DMA word pointer returns to w0, a held completion is taken (R141, R145). -/
def removeHead (s : State) : State :=
  match s.events with
  | [] => s
  | _ :: rest => ({ s with events := rest, dmaWord := 0 } : State).takeHeld

/-- Word `i` of the head record; 0 when the queue is empty (R142). -/
def headWord (s : State) (i : Nat) : Word :=
  match s.events with
  | [] => 0
  | e :: _ => e.word i

/-- DREQ (R144). -/
def dreq (s : State) : Bool := s.drain && !s.events.isEmpty

/-- HELD of EVCOUNT (R143). -/
def held (s : State) : Nat := s.done.length

end State

/-! ## Records offered in one step -/

/-- A record offered in a step: a notice, or the completion of a slot. -/
inductive Post where
  | notice (e : Event)
  | completion (k : SlotIx) (e : Event)
  deriving DecidableEq, Repr

/-- The groups of posts one step makes, each in its owner's order. -/
abbrev Groups := List (List Post)

/-- Take the first post of group `i`: the post and what is left. -/
def takeFrom : Groups → Nat → Option (Post × Groups)
  | [], _ => none
  | [] :: gs, i => takeFrom gs i
  | (p :: g) :: gs, 0 => some (p, g :: gs)
  | (p :: g) :: gs, i + 1 =>
    match takeFrom gs i with
    | some (q, gs') => some (q, (p :: g) :: gs')
    | none => some (p, g :: gs)

/-- One order of the groups' posts that keeps each group's own order: whose post comes next is a free choice
(R127, R137; log entry 5). The fuel is the number of posts. -/
def interleave (c : Nat) : Nat → Groups → List Post
  | 0, _ => []
  | fuel + 1, gs =>
    match gs.filter (fun g => !g.isEmpty) with
    | [] => []
    | [g] => g
    | g :: h :: rest =>
      match takeFrom (g :: h :: rest) (Config.freeChoice c fuel % (rest.length + 2)) with
      | none => []
      | some (p, gs') => p :: interleave c fuel gs'

namespace State

/-- One post reaches the queue. -/
def post (s : State) : Post → State
  | .notice e => s.offerNotice e
  | .completion k e => s.offerCompletion k e

/-- Posts in the order given. -/
def postAll (ps : List Post) (s : State) : State := ps.foldl post s

/-- All posts of a step reach the queue. Where two or more owners have posts, their order is free
and the step uses up one `freeIndex` (R127, R137, R139). -/
def flush (gs : Groups) (s : State) : State :=
  match gs.filter (fun g => !g.isEmpty) with
  | [] => s
  | [g] => s.postAll g
  | g :: h :: rest =>
    ({ s with freeIndex := s.freeIndex + 1 } : State).postAll
      (interleave s.freeIndex (g :: h :: rest).flatten.length (g :: h :: rest))

end State

end Sys2Proof.Machine
end

