-- ==== Sys2Proof/Machine/Blocks.lean ====
section
/-!
DEFINITION. The Block Manager (R92 to R112): the output swap, the image flip, acceptance, and reply bytes into blocks.
-/

namespace Sys2Proof.Machine

/-- The active block of an entry (R98). -/
def Entry.activeBlock (e : Entry) : Option BlockIx := e.binding.map fun p => pairBlock p e.active

/-- The staged block of an entry (R98). -/
def Entry.stagedBlock (e : Entry) : Option BlockIx := e.binding.map fun p => pairBlock p e.active.flip

/-- The current image block of a station (R104). -/
def Station.currentBlock (t : Station) : Option BlockIx := t.image.map fun p => pairBlock p t.current

/-- The next image block of a station (R104). -/
def Station.nextBlock (t : Station) : Option BlockIx := t.image.map fun p => pairBlock p t.current.flip

namespace State

/-- The output swap of a bound entry with a commit waiting (R102). -/
def swapOutput (e : EntryIx) (s : State) : State :=
  let en := s.entry e
  match en.binding with
  | none => s
  | some p =>
    if en.commitPending then
      ((s.setEntry e
        { en with active := en.active.flip, outputLen := en.stagedLen, commitPending := false }).setOwner
          (pairBlock p en.active.flip) (.outputActive e)).setOwner (pairBlock p en.active) (.outputStaged e)
    else s

/-- The image flip: the next block becomes CURRENT with the length given, IMAGE_SEQ advances (R108, R111). -/
def flipImage (t : StationIx) (p : BlockIx × BlockIx) (len : BitVec 6) (s : State) : State :=
  let st := s.station t
  ((s.setStation t
    { st with current := st.current.flip, imageLen := len, imageSeq := st.imageSeq + 1, newer := false }).setOwner
      (pairBlock p st.current.flip) (.imageCurrent t)).setOwner (pairBlock p st.current) (.imageNext t)

/-- The IMAGE_UPDATE notice of a flip, when NOTIFY is yes (R108, R111). -/
def imageNotice (t : StationIx) (s : State) : List Post :=
  if (s.station t).notify then [.notice (imageUpdateNotice t (s.station t))] else []

/-- A station with the reply of an OK POLL held back (R109). -/
def heldBack (len : BitVec 6) (st : Station) : Station :=
  { st with
    overwrites := if len = 0 ∧ st.newer then satInc st.overwrites else st.overwrites
    newer := true
    nextLen := len }

/-- An OK POLL of a station is accepted into its image pair: flipped, or held back under HOLD; a station without
a pair takes nothing (R108, R109, R112). -/
def acceptImage (t : StationIx) (len : BitVec 6) (s : State) : State × List Post :=
  let st := s.station t
  match st.image with
  | none => (s, [])
  | some p =>
    if st.hold then (s.setStation t (heldBack len st), [])
    else
      let s1 := s.flipImage t p len
      (s1, s1.imageNotice t)

/-- The first payload byte of a reception destroys a reply held back (R107). -/
def destroyNewer (st : Station) : Station :=
  if st.newer then { st with newer := false, overwrites := satInc st.overwrites } else st

/-- Payload byte `i` of a REPLY_OK to a POLL (R107). -/
def writeImageByte (t : StationIx) (i : Fin 32) (v : Byte) (s : State) : State :=
  match (s.station t).nextBlock with
  | none => s
  | some b => (if i.val = 0 then s.modifyStation t destroyNewer else s).writeBlockByte b i v

/-- Payload byte `i` of a REPLY_OK to a READ or WRITE (R121). -/
def writeSlotByte (k : SlotIx) (i : Fin 32) (v : Byte) (s : State) : State :=
  match fieldBlock? (s.slot k).replyBlock with
  | none => s
  | some b => s.writeBlockByte b i v

/-- The lowest FREE block (R96). -/
def lowestFreeBlock (s : State) : Option BlockIx := (List.finRange 128).find? fun b => s.owner b == .free

end State

end Sys2Proof.Machine
end

