-- ==== Sys2Proof/Machine/Frames.lean ====
section
/-!
DEFINITION. Frames (R8 to R14): header and sequence/length bytes, the check sequence, and the characters of a frame.
-/

namespace Sys2Proof.Machine

/-- The header byte: kind in bits 7:5, address in bits 4:0 (R9). -/
def headerByte (k : SentKind) (address : BitVec 5) : Byte := k.code ++ address

/-- The sequence/length byte (R11). -/
def seqLenByte (seq : BitVec 2) (len : BitVec 6) : Byte := seq ++ len

/-- One bit enters the check register (R12). -/
def checkBit (r : Word) (b : Bool) : Word :=
  if (r.getLsbD 15 ^^ b) then (r <<< 1) ^^^ 0x1021 else r <<< 1

/-- One byte enters the check register, most significant bit first (R12). -/
def checkByte (r : Word) (v : Byte) : Word :=
  checkBit (checkBit (checkBit (checkBit (checkBit (checkBit (checkBit (checkBit r
    (v.getLsbD 7)) (v.getLsbD 6)) (v.getLsbD 5)) (v.getLsbD 4)) (v.getLsbD 3)) (v.getLsbD 2)) (v.getLsbD 1)) (v.getLsbD 0)

/-- The initial value of the check register (R12). -/
def checkStart : Word := 0xFFFF

/-- The check sequence of covered bytes (R12). -/
def checkSequence (bytes : List Byte) : Word := bytes.foldl checkByte checkStart

/-- The characters of a frame with these covered bytes: mark 1 on the first alone, the check high byte before the low (R8, R12). -/
def frameChars (covered : List Byte) : List TxChar :=
  let c := checkSequence covered
  let bytes := covered ++ [c.extractLsb' 8 8, c.extractLsb' 0 8]
  match bytes with
  | [] => []
  | h :: rest => ⟨h, true⟩ :: rest.map fun b => ⟨b, false⟩

/-- A request frame (R13). -/
def requestFrame (kind : SentKind) (address : BitVec 5) (seq : BitVec 2) (payload : List Byte) : List TxChar :=
  frameChars (headerByte kind address :: seqLenByte seq (BitVec.ofNat 6 payload.length) :: payload)

/-- A SYNC frame: address 0, sequence 0, length 2, the cycle number low byte first (R14). -/
def syncFrame (cycle : Word) : List TxChar :=
  frameChars [headerByte .sync 0, seqLenByte 0 2, cycle.extractLsb' 0 8, cycle.extractLsb' 8 8]

namespace State

/-- The payload of an attempt's request frame, read afresh at each attempt (R13, R29): the entry's active block
or the slot's request block, the first REQ_LEN bytes; none for an entry without a binding. -/
def requestPayload (s : State) (o : Origin) (len : Nat) : List Byte :=
  match o with
  | .cyclic e | .probe e =>
    match (s.entry e).activeBlock with
    | none => []
    | some b => Memory.blockBytes s.payload b len
  | .acyclic k =>
    match fieldBlock? (s.slot k).reqBlock with
    | none => []
    | some b => Memory.blockBytes s.payload b len
  | .sync => []

end State

end Sys2Proof.Machine
end

