-- ==== Sys2Proof/Machine/Slots.lean ====
section
/-!
DEFINITION. The Acyclic Request Queue (R113 to R133): pending list, eligibility, completion, deferral, return to PENDING.
-/

namespace Sys2Proof.Machine

namespace State

/-- The pending list: the PENDING slots in the order they were submitted (R116). -/
def pendingList (s : State) : List SlotIx := s.submitted.filter fun k => (s.slot k).state == .pending

/-- The line of a slot's station. -/
def slotLine (s : State) (k : SlotIx) : LineId := (s.station (s.slot k).station).line

/-- Eligible for line n (R119). -/
def eligible (s : State) (n : LineId) (k : SlotIx) : Bool :=
  (s.slot k).state == .pending && !(s.slot k).deferred && s.slotLine k == n

/-- The earliest eligible slot of a priority (R27). -/
def eligibleOf (s : State) (n : LineId) (p : BitVec 2) : Option SlotIx :=
  s.pendingList.find? fun k => s.eligible n k && (s.slot k).priority == p

/-- The eligible slot of the highest priority, the earliest among equals (R27 step 4). -/
def bestSlot (s : State) (n : LineId) : Option SlotIx := firstSome (s.eligibleOf n) [3, 2, 1, 0]

/-- The lowest-numbered FREE slot (R118). -/
def lowestFreeSlot (s : State) : Option SlotIx := (List.finRange 16).find? fun k => (s.slot k).state == .free

/-- A slot that is not FREE carries this tag (R117). -/
def tagInUse (s : State) (tag : Byte) : Bool :=
  (List.finRange 16).any fun k => (s.slot k).state != .free && (s.slot k).tag == tag

/-- The completion step up to the offer (R125): the final outcome and REPLY_LEN are set, DEFERRED is cleared, the slot
leaves the submission order and so the pending list. The post is its REQUEST_DONE record, with the line its station has now (R135). -/
def finishSlot (k : SlotIx) (o : OutcomeCode) (replyLen : BitVec 6) (s : State) : State × Post :=
  let sl := { s.slot k with outcome := o, replyLen := replyLen, deferred := false }
  ({ s.setSlot k sl with submitted := s.submitted.filter (· ≠ k) }, .completion k (requestDone k sl (s.slotLine k)))

/-- Several slots complete at one event, in the order given (R127), with REPLY_LEN 0 (R121). -/
def finishSlots (o : OutcomeCode) : List SlotIx → State → State × List Post
  | [], s => (s, [])
  | k :: ks, s =>
    let (s1, p) := s.finishSlot k o 0
    let (s2, ps) := finishSlots o ks s1
    (s2, p :: ps)

/-- The PENDING slots of a station, in pending-list order (R127, R131, R132). -/
def pendingOf (s : State) (t : StationIx) : List SlotIx := s.pendingList.filter fun k => (s.slot k).station == t

/-- Complete every PENDING slot of a station (R131, R132). -/
def finishPendingOf (t : StationIx) (o : OutcomeCode) (s : State) : State × List Post :=
  s.finishSlots o (s.pendingOf t)

/-- The end of an attempt reaches its slot: OUTCOME, and ATTEMPTS except for BUSY (R120, R37, R42). -/
def slotAttemptEnd (k : SlotIx) (attempt : Nat) (o : OutcomeCode) (s : State) : State :=
  s.modifySlot k fun sl =>
    { sl with outcome := o, attempts := if o = .busy then sl.attempts else BitVec.ofNat 4 attempt }

/-- Back to PENDING at its original place (R116, R124): the submission order has kept it. -/
def returnSlot (k : SlotIx) (s : State) : State := s.modifySlot k fun sl => { sl with state := .pending }

/-- A BUSY reply's count (R122). -/
def countBusy (k : SlotIx) (s : State) : State :=
  s.modifySlot k fun sl => { sl with busyCount := satInc sl.busyCount }

/-- A final BUSY of an ACTIVE slot: deferred below 7, completed at 7 (R122). -/
def deferSlot (k : SlotIx) (s : State) : State × List Post :=
  let s1 := s.countBusy k
  if (s1.slot k).busyCount.toNat < 7 then
    (s1.modifySlot k fun sl => { sl with state := .pending, deferred := true }, [])
  else
    let (s2, p) := s1.finishSlot k .busy 0
    (s2, [p])

/-- REPLY_LEN of a final outcome: the accepted reply's length for OK, otherwise 0 (R121). -/
def finalReplyLen (o : OutcomeCode) (replyLen : BitVec 6) : BitVec 6 := if o = .ok then replyLen else 0

/-- A final outcome of an ACTIVE slot (R122, R125). -/
def completeSlot (k : SlotIx) (o : OutcomeCode) (replyLen : BitVec 6) (s : State) : State × List Post :=
  if o = .busy then s.deferSlot k
  else
    let (s1, p) := s.finishSlot k o (finalReplyLen o replyLen)
    (s1, [p])

/-- The final outcome of an aborted slot (R129): OK and REFUSED stand, anything else is ABORTED. -/
def abortedOutcome (o : OutcomeCode) : OutcomeCode := if o = .ok ∨ o = .refused then o else .aborted

/-- An ABORT_PENDING slot resolves (R129). -/
def resolveAbort (k : SlotIx) (o : OutcomeCode) (replyLen : BitVec 6) (s : State) : State × List Post :=
  let s1 := if o = .busy then s.countBusy k else s
  let s2 := s1.modifySlot k fun sl => { sl with abortLate := decide (o = .ok ∨ o = .refused) }
  let (s3, p) := s2.finishSlot k (abortedOutcome o) (finalReplyLen o replyLen)
  (s3, [p])

/-- A cycle start of line n releases the deferred slots of its stations (R123). -/
def releaseDeferred (n : LineId) (s : State) : State :=
  s.mapSlots fun k sl => if sl.state = .pending ∧ s.slotLine k = n then { sl with deferred := false } else sl

/-- Control reset: every slot that is not FREE becomes FREE without a record, REQUEST blocks become HOST, both lists
become empty (R115, R93). -/
def resetSlots (s : State) : State :=
  { ((s.mapSlots fun _ sl => if sl.state = .free then sl else { sl with state := .free, deferred := false }).mapOwners
      fun _ o => if o.isRequest then .host else o) with
    submitted := []
    done := [] }

end State

end Sys2Proof.Machine
end

