-- ==== Sys2Proof/Machine/Stations.lean ====
section
/-!
DEFINITION. The Station Table (R72 to R91): outcomes, health, probes, PARK, cycle starts, resets.
-/

namespace Sys2Proof.Machine

namespace Station

/-- ONLINE with MISS_COUNT 0, REACHABLE and PROBE_DUE no: every way out of OFFLINE or PARKED (R73, R76, R83, R88). -/
def toOnline (st : Station) : Station :=
  { st with health := .online, missCount := 0, reachable := false, probeDue := false }

/-- The park (R86). -/
def toParked (st : Station) : Station :=
  { st with health := .parked, missCount := 0, reachable := false, probeDue := false }

/-- The entry to OFFLINE (R80). -/
def toOffline (st : Station) : Station :=
  { st with
    health := .offline
    missCount := st.missLimit
    reachable := false
    probeDue := false
    probeCountdown := st.probeInterval }

/-- A final miss of an ONLINE or DEGRADED station (R79). With MISS_LIMIT 0 no outcome can come; the station stays (R73). -/
def countMiss (st : Station) : Station :=
  if st.missLimit = 0 then st
  else if st.missCount.toNat + 1 < st.missLimit.toNat then
    { st with health := .degraded, missCount := st.missCount + 1 }
  else st.toOffline

/-- A final outcome applied to the health of an ONLINE or DEGRADED station (R78, R79, R81). -/
def ordinaryOutcome (o : OutcomeCode) (st : Station) : Station :=
  if o.isContact then { st with health := .online, missCount := 0 }
  else if o.isMiss then st.countMiss
  else st

/-- A probe's outcome applied to an OFFLINE station (R83). -/
def probeOutcome (o : OutcomeCode) (st : Station) : Station :=
  if o.isContact then
    match st.recovery with
    | .auto => st.toOnline
    | .host => { st with reachable := true }
  else if o.isMiss then { st with reachable := false }
  else st

/-- A final outcome applied to HEALTH, MISS_COUNT and REACHABLE. An OFFLINE station takes probe outcomes alone,
a PARKED one none (log entry 20). -/
def applyHealth (o : OutcomeCode) (probe : Bool) (st : Station) : Station :=
  match st.health with
  | .online | .degraded => st.ordinaryOutcome o
  | .offline => if probe then st.probeOutcome o else st
  | .parked => st

/-- The note that the outcome is a probe's, set aside when the station has left OFFLINE (R83). -/
def probeNote (probe : Bool) (st : Station) : Bool := probe && st.health == .offline

/-- LAST, GOOD, MISSED and AGE at a final outcome (R81, R89). -/
def countOutcome (o : OutcomeCode) (probe poll : Bool) (st : Station) : Station :=
  { st with
    last := o
    good := if o = .ok then satInc st.good else st.good
    missed := if o.isMiss && !probe then satInc st.missed else st.missed
    age := if poll && o == .ok then 0 else st.age }

/-- FAILED_ATTEMPTS at the end of an attempt (R37, R81). -/
def countAttempt (o : OutcomeCode) (st : Station) : Station :=
  if o.isMiss then { st with failedAttempts := satInc st.failedAttempts } else st

/-- A write of word 0 in CONFIG (R73): the fields are stored, a station that is not PARKED becomes ONLINE. -/
def writeWord0 (v : Word) (st : Station) : Station :=
  let st1 := st.storeWord0 v
  if st.health = .parked then st1 else st1.toOnline

/-- RUN entry (R76). -/
def runEntry (st : Station) : Station :=
  let st1 := if st.health = .parked then st else st.toOnline
  { st1 with probeCountdown := st1.probeInterval, age := 255 }

/-- Control reset (R75, R104). -/
def controlReset (st : Station) : Station :=
  { st.toOnline with
    probeCountdown := st.probeInterval
    age := 255
    good := 0
    missed := 0
    failedAttempts := 0
    overwrites := 0
    hold := false
    newer := false }

/-- CLEAR_COUNTERS (R90). -/
def clearCounters (st : Station) : Station :=
  { st with good := 0, missed := 0, failedAttempts := 0, overwrites := 0 }

/-- The probe countdown of an OFFLINE station at a cycle start (R82). -/
def countdown (st : Station) : Station :=
  if st.health = .offline then
    if st.probeCountdown.toNat ≤ 1 then { st with probeDue := true, probeCountdown := st.probeInterval }
    else { st with probeCountdown := st.probeCountdown - 1 }
  else st

/-- A cycle start of the station's line (R82, R89). -/
def cycleStart (st : Station) : Station := { st.countdown with age := satInc st.age }

end Station

namespace State

/-- The STATION_STATE notice of a change, when HEALTH has changed (R85). -/
def healthNotice (t : StationIx) (old new : Station) : List Post :=
  if old.health = new.health then [] else [.notice (stationStateNotice t old.health new)]

/-- The STATION_REACHABLE notice, when REACHABLE has changed from no to yes (R84). -/
def reachableNotice (t : StationIx) (old new : Station) : List Post :=
  if !old.reachable && new.reachable then [.notice (stationReachableNotice t new)] else []

/-- A final outcome handed to the Station Table (R41, R78 to R84). At an entry to OFFLINE, STATION_DOWN is raised and
the station's PENDING slots complete after the notice (R80, R127). -/
def stationOutcome (t : StationIx) (o : OutcomeCode) (probe poll : Bool) (s : State) : State × List Post :=
  let st := s.station t
  let st1 := st.countOutcome o (st.probeNote probe) poll
  let st2 := st1.applyHealth o probe
  let s1 := s.setStation t st2
  let notices := healthNotice t st st2 ++ reachableNotice t st st2
  if st2.health = .offline ∧ st.health ≠ .offline then
    let (s2, ps) := (s1.raise .stationDown).finishPendingOf t .stationOffline
    (s2, notices ++ ps)
  else (s1, notices)

/-- A command completes (R170). -/
def complete (r : ResultCode) (v : Word) (s : State) : State :=
  raise .cmdDone { s with result := r, cvalue := v, cmdState := .done }

/-- A refused command: result value 0, nothing changed at its owner (R170). -/
def refuse (r : ResultCode) (s : State) : State := s.complete r 0

/-- PARK's command code (Table 10-7). -/
def parkCode : Word := 0x0C

/-- LINE_BREAK's command code (Table 10-7). -/
def lineBreakCode : Word := 0x0F

/-- The station a waiting PARK names, if a PARK is BUSY (R87, R171). -/
def waitingPark (s : State) : Option StationIx :=
  if s.cmdState = .busy ∧ s.cmd = parkCode then index? 32 (s.arg 0) else none

/-- The line a waiting LINE_BREAK names, if one is BUSY (R49, R171). -/
def waitingBreak (s : State) : Option LineId :=
  if s.cmdState = .busy ∧ s.cmd = lineBreakCode then
    (if s.arg 0 = 0 then some .zero else if s.arg 0 = 1 then some .one else none)
  else none

/-- The park takes effect and the command completes with the HEALTH the station had just before (R86, R87):
the station's posts, then the slots'. Slots PENDING at this moment complete with STATION_PARKED. -/
def parkNow (t : StationIx) (s : State) : State × List Post × List Post :=
  let st := s.station t
  let st1 := st.toParked
  let (s1, ps) := (s.setStation t st1).finishPendingOf t .stationParked
  (s1.complete .ok (st.health.code.setWidth 16), healthNotice t st st1, ps)

/-- A waiting PARK of this station takes effect now that its transaction has ended (R87). -/
def parkIfWaiting (t : StationIx) (s : State) : State × List Post × List Post :=
  if s.waitingPark = some t then s.parkNow t else (s, [], [])

/-- The Station Table's part of a cycle start (R55, R82, R89). -/
def stationsCycleStart (n : LineId) (s : State) : State :=
  s.mapStations fun _ st => if st.line = n then st.cycleStart else st

end State

end Sys2Proof.Machine
end

