-- ==== Sys2Proof/Machine/Timing.lean ====
section
/-!
DEFINITION. Lengths on the line in periods of the 32 MHz reference clock, and the intervals that run in a state
(R2, R3, R4, R8, R17, R18, R19, R20, R52). When an interval has run out, its row of the table is the command (log entry 1).
-/

namespace Sys2Proof.Machine

namespace Line

/-- A bit time: DIV+1 clock periods (R3). -/
def bitClocks (l : Line) : Nat := l.div.toNat + 1

/-- A character time: 11 bit times (R3). -/
def charClocks (l : Line) : Nat := 11 * l.bitClocks

/-- The line time of a frame with a payload of `len` bytes (R2, R8). -/
def frameClocks (l : Line) (len : Nat) : Nat := (4 + len) * l.charClocks

/-- A cycle: the period in units of 10 µs (R52). -/
def cycleClocks (l : Line) : Nat := l.period.toNat * Config.clocksPerUnit

end Line

/-- What the line engine and the cycle timer time (R16, R17, R19, R20, R53). -/
inductive Interval where
  | character
  | replyWindow
  | gap
  | turnaround
  | quietWait
  | quietLimit
  | breakLow
  | breakGuard
  | cycle
  deriving DecidableEq, Repr

namespace Line

/-- The span of an interval, in clock periods (R17, R18, R19, R20, R52). -/
def span (l : Line) : Interval → Nat
  | .character => l.charClocks
  | .replyWindow => l.replyWindow.toNat * l.charClocks
  | .gap => l.gapLimit.toNat * l.charClocks
  | .turnaround => l.turnaround.toNat * l.charClocks
  | .quietWait => l.gapLimit.toNat * l.charClocks
  | .quietLimit => Config.quietLimit * l.charClocks
  | .breakLow => 24 * l.bitClocks
  | .breakGuard => 22 * l.bitClocks
  | .cycle => l.cycleClocks

/-- The line is quiet (R20): HUNTING with RXDn at 1. A falling edge whose start is not yet confirmed has not ended
quiet, so STARTING counts as quiet (log entry 8). -/
def quiet (l : Line) : Bool := (l.rx == .hunting && l.rxd) || l.rx == .starting

/-- A gap is open: a reply character has arrived and the next start is not confirmed (R19). -/
def gapOpen (l : Line) : Bool :=
  l.rx != .assembling &&
    match l.attempt with
    | none => false
    | some a => 1 ≤ a.received

/-- The intervals that run in the present state of a line (R19, R20, R17, R53). -/
def running (l : Line) : List Interval :=
  (match l.engine with
    | .sending => [.character]
    | .awaitReply => [.replyWindow]
    | .receiving => if l.gapOpen then [.gap] else []
    | .quietWait => if l.quiet then [.quietWait, .quietLimit] else [.quietLimit]
    | .turnaround => if l.quiet then [.turnaround] else []
    | .breaking => if l.drive = .breakLow then [.breakLow] else [.breakGuard]
    | .off | .idle | .hold | .faulted => [])
  ++ (if l.timerRunning then [.cycle] else [])

end Line

end Sys2Proof.Machine
end

