-- ==== Sys2Proof/Machine/Engine.lean ====
section
/-!
DEFINITION. The Line Engines (R21 to R51): attempts, transactions, line faults, breaks, rest, and the choice of the next work
with the due rule and the walk (R57, R61 to R66).
-/

namespace Sys2Proof.Machine

/-! ## STOP reasons (R39) -/

inductive StopReason where
  | cycle
  | brk
  | quiesce
  | park
  | abort
  | fault
  deriving DecidableEq, Repr

def StopSet.empty : StopSet := ⟨false, false, false, false, false, false⟩

def StopSet.add (x : StopReason) (p : StopSet) : StopSet :=
  match x with
  | .cycle => { p with cycle := true }
  | .brk => { p with brk := true }
  | .quiesce => { p with quiesce := true }
  | .park => { p with park := true }
  | .abort => { p with abort := true }
  | .fault => { p with fault := true }

def StopSet.isEmpty (p : StopSet) : Bool := p == StopSet.empty

/-! ## The attempt record (R24) -/

/-- A record at the take. -/
def Attempt.fresh (origin : Origin) (t : Option StationIx) (kind : SentKind) (reqLen : Nat) : Attempt where
  origin := origin
  station := t
  kind := kind
  seqSent := 0
  attempt := none
  reqLen := reqLen
  sent := 0
  received := 0
  replyKind := none
  replyAddress := none
  replySeq := none
  replyLen := none
  outcome := none
  retryOwed := false
  stop := StopSet.empty
  fixedOutcome := none
  check := checkStart
  checkHigh := 0

/-- The record at the start of an attempt (R24, R25): the number and the sequence sent are set, SENT, RECEIVED and the reply
fields return to 0 or absent; OUTCOME keeps the last finished attempt's (Table 2-6). -/
def Attempt.begin (number : Nat) (seq : BitVec 2) (a : Attempt) : Attempt :=
  { a with
    seqSent := seq
    attempt := some number
    sent := 0
    received := 0
    replyKind := none
    replyAddress := none
    replySeq := none
    replyLen := none
    retryOwed := false
    fixedOutcome := none
    check := checkStart
    checkHigh := 0 }

/-- The record is a transaction's, not a SYNC frame's. -/
def Attempt.isTransaction (a : Attempt) : Bool := a.origin != .sync

/-- The record is an acyclic transaction's. -/
def Attempt.isAcyclic (a : Attempt) : Bool :=
  match a.origin with
  | .acyclic _ => true
  | .cyclic _ | .probe _ | .sync => false

/-- The record is a retry waiting for its turnaround (R38). -/
def Attempt.waits (a : Attempt) : Bool := a.isTransaction && a.retryOwed

namespace Line

/-- The engine is at rest: HOLD, or faulted (R51, R157). -/
def atRest (l : Line) : Bool := l.engine == .hold || l.faulted

/-- The engine gives up everything on an entry to OFF (R22, R23): receiver in WAIT_HIGH, driver released. -/
def enterOff (l : Line) : Line :=
  { l with
    engine := .off
    faulted := false
    faults := 0
    attempt := none
    breakRequest := false
    syncOwed := false
    urgent := false
    unsolMark := false
    rx := .waitHigh
    settled := false
    readBack := none
    drive := .released
    frameRest := [] }

/-- A line break begins: no attempt record is held, the break request is used up (R17, R48). -/
def startBreak (l : Line) : Line :=
  { l with engine := .breaking, drive := .breakLow, breakRequest := false, readBack := none, frameRest := [] }

/-- The transmitter stops and DEn is released at the end of a character (R1). -/
def release (l : Line) : Line := { l with drive := .released, frameRest := [], readBack := none }

/-- The engine may start a break at once (R48). -/
def breakReady (l : Line) : Bool :=
  l.attempt.isNone && (l.engine == .idle || l.engine == .turnaround || l.engine == .hold || l.engine == .faulted)

end Line

/-- The state an engine goes to when its work has ended (R32, R34, R35, R49, R51). -/
def restState (m : Mode) : EngineState :=
  match m with
  | .run => .turnaround
  | .quiescing | .quiesced | .init | .config => .hold

namespace State

/-- The engine of line n changes state. -/
def setEngine (n : LineId) (e : EngineState) (s : State) : State := s.modifyLine n fun l => { l with engine := e }

/-- The attempt record of line n changes. -/
def setAttempt (n : LineId) (a : Option Attempt) (s : State) : State := s.modifyLine n fun l => { l with attempt := a }

/-! ## Starting work (R25, R29) -/

/-- The frame begins: DEn asserted with the first character, the record in place, the engine SENDING (R1, R29). -/
def sendFrame (n : LineId) (a : Attempt) (chars : List TxChar) (s : State) : State :=
  s.modifyLine n fun l =>
    { l with
      attempt := some a
      engine := .sending
      drive := match chars with
        | [] => .released
        | c :: _ => .character c
      frameRest := chars.tail
      readBack := none }

/-- The start of an attempt (R25, R13): SEQ is copied into SEQ_SENT and advances; the frame is built anew. -/
def startAttempt (n : LineId) (number : Nat) (a : Attempt) (t : StationIx) (s : State) : State :=
  let st := s.station t
  (s.modifyStation t fun st => { st with seq := st.seq + 1 }).sendFrame n (a.begin number st.seq)
    (requestFrame a.kind st.address st.seq (s.requestPayload a.origin a.reqLen))

/-- The take of a due entry, as a cyclic transaction or a probe (R29, R62, R66, R102): output swap, PROBE_DUE cleared for a probe,
walk pointer past the entry, urgent mark clear, attempt 1. -/
def takeEntry (n : LineId) (e : EntryIx) (probe : Bool) (s : State) : State :=
  let s1 := s.swapOutput e
  let en := s1.entry e
  let s2 := if probe then s1.modifyStation en.station fun st => { st with probeDue := false } else s1
  let s3 := s2.modifyLine n fun l => { l with walk := e.succ, urgent := false }
  let origin : Origin := if probe then .probe e else .cyclic e
  let len := if en.binding.isSome then en.outputLen.toNat else 0
  s3.startAttempt n 1 (Attempt.fresh origin (some en.station) .poll len) en.station

def RequestKind.sent : RequestKind → SentKind
  | .read => .read
  | .write => .write

/-- The take of a slot (R29, R120); in the CYCLIC phase it sets the urgent mark (R27). -/
def takeSlot (n : LineId) (k : SlotIx) (s : State) : State :=
  let sl := s.slot k
  let s1 := s.setSlot k { sl with state := .active }
  let s2 := s1.modifyLine n fun l => { l with urgent := if l.phase = .cyclic then true else l.urgent }
  s2.startAttempt n (sl.attempts.toNat + 1)
    (Attempt.fresh (.acyclic k) (some sl.station) (RequestKind.sent sl.kind) sl.reqLen.toNat) sl.station

/-- The take of the SYNC frame, built from CYCNUMn as it stands (R28, R29). -/
def takeSync (n : LineId) (s : State) : State :=
  (s.modifyLine n fun l => { l with syncOwed := false }).sendFrame n (Attempt.fresh .sync none .sync 2)
    (syncFrame (s.line n).cycnum)

/-- The line break of line n starts (R48). -/
def startBreak (n : LineId) (s : State) : State := s.modifyLine n Line.startBreak

/-! ## The due rule and the walk (R61, R62) -/

/-- The divider of an entry (Table 3-1). -/
def dividerOf (e : Entry) : Nat := 2 ^ e.divExp.toNat

/-- Conditions 1 to 3 of R61: enabled, its station enabled on line n, and in phase with cycle number c. -/
def inPhase (s : State) (n : LineId) (c : Word) (e : EntryIx) : Bool :=
  let en := s.entry e
  let st := s.station en.station
  en.enabled && st.enabled && st.line == n && c.toNat % dividerOf en == en.phase.toNat

/-- Whether an entry is due in cycle c of line n: `some true` as a probe, `some false` as a cyclic transaction (R61). -/
def due (s : State) (n : LineId) (c : Word) (e : EntryIx) : Option Bool :=
  if s.inPhase n c e then
    match (s.station (s.entry e).station).health with
    | .online | .degraded => some false
    | .offline => if (s.station (s.entry e).station).probeDue then some true else none
    | .parked => none
  else none

/-- The entries at or above the walk pointer, in index order (R62). -/
def entriesAhead (s : State) (n : LineId) : List EntryIx :=
  (List.finRange 64).filter fun e => (s.line n).walk.val ≤ e.val

/-- The next due entry of line n at or after the walk pointer, with its kind (R62). -/
def nextDue (s : State) (n : LineId) : Option (EntryIx × Bool) :=
  firstSome (fun e => (s.due n (s.line n).cycnum e).map fun p => (e, p)) (s.entriesAhead n)

/-! ## Decision points (R26, R27) -/

/-- The end of the cyclic phase (R56). -/
def endCyclic (n : LineId) (s : State) : State :=
  (s.modifyLine n fun l => { l with phase := .acyclic, walk := 64 }).raise (.cycleEnd n)

/-- Steps 4 and 5 of R27. -/
def acyclicChoice (n : LineId) (s : State) : State :=
  match s.bestSlot n with
  | some k => s.takeSlot n k
  | none => s.setEngine n .idle

/-- Steps 3.2 and 3.3 of R27: the next due entry, or the end of the cyclic phase. -/
def walkChoice (n : LineId) (s : State) : State :=
  match s.nextDue n with
  | some (e, probe) => s.takeEntry n e probe
  | none => (s.endCyclic n).acyclicChoice n

/-- Step 3 of R27: an urgent slot when the urgent mark is clear, otherwise the walk. -/
def cyclicChoice (n : LineId) (s : State) : State :=
  match (if (s.line n).urgent then none else s.eligibleOf n 3) with
  | some k => s.takeSlot n k
  | none => s.walkChoice n

/-- A decision point of line n: mode RUN, no attempt record (R26, R27). -/
def decisionPoint (n : LineId) (s : State) : State :=
  let l := s.line n
  if l.breakRequest then s.startBreak n
  else if l.syncOwed then s.takeSync n
  else
    match l.phase with
    | .cyclic => s.cyclicChoice n
    | .acyclic => s.acyclicChoice n

/-- An event that may give an IDLE engine work is a decision point (R26). -/
def wakeIdle (n : LineId) (s : State) : State :=
  if s.mode = .run ∧ (s.line n).engine = .idle ∧ (s.line n).attempt = none then s.decisionPoint n else s

/-! ## The end of attempts and transactions (R37 to R42) -/

/-- The retry budget of a transaction; a probe and a SYNC frame have none (R38). -/
def retryBudget (s : State) : Origin → Option Nat
  | .cyclic e => some (s.entry e).retries.toNat
  | .acyclic k => some (s.slot k).retries.toNat
  | .probe _ | .sync => none

/-- A retry would be due but for the STOP set and FAULTED (R38, R40): a miss or collision, ATTEMPT within the budget, not a probe. -/
def retryDue (s : State) (a : Attempt) (o : OutcomeCode) : Bool :=
  (o.isMiss || o == .collision) &&
    match s.retryBudget a.origin, a.attempt with
    | some budget, some number => number ≤ budget
    | _, _ => false

/-- The end of a cyclic transaction or a probe (R41, R60): the entry's LAST, the Station Table, image acceptance for OK,
then a waiting PARK. The groups: the station's posts, the Block Manager's, the slots'. -/
def pollEnd (e : EntryIx) (t : StationIx) (probe : Bool) (a : Attempt) (o : OutcomeCode) (s : State) :
    State × Groups :=
  let s1 := s.modifyEntry e fun en => { en with last := o }
  let (s2, stationPosts) := s1.stationOutcome t o probe true
  let (s3, imagePosts) := if o = .ok then s2.acceptImage t (a.replyLen.getD 0) else (s2, [])
  let (s4, parkPosts, slotPosts) := s3.parkIfWaiting t
  (s4, [stationPosts ++ parkPosts, imagePosts, slotPosts])

/-- An acyclic transaction with a final outcome for the station (R41): the Station Table, the slot by `resolve`,
then a waiting PARK. The groups: the station's posts, the slot's. -/
def slotEnd (t : StationIx) (o : OutcomeCode) (resolve : State → State × List Post) (s : State) : State × Groups :=
  let (s1, stationPosts) := s.stationOutcome t o false false
  let (s2, slotPosts) := resolve s1
  let (s3, parkPosts, parkedPosts) := s2.parkIfWaiting t
  (s3, [stationPosts ++ parkPosts, slotPosts ++ parkedPosts])

/-- The end of an acyclic transaction (R40): ABORT decides over all, then PARK; with a retry due and another reason present the
slot returns to PENDING and no outcome is final. -/
def acyclicEnd (k : SlotIx) (t : StationIx) (a : Attempt) (o : OutcomeCode) (s : State) : State × Groups :=
  let len := a.replyLen.getD 0
  if a.stop.abort then s.slotEnd t o (fun s => s.resolveAbort k o len)
  else if !a.stop.park && !a.stop.isEmpty && s.retryDue a o then (s.returnSlot k, [])
  else s.slotEnd t o (fun s => s.completeSlot k o len)

/-- The end of a transaction with the last attempt's outcome (R40, R41). The record is discarded. -/
def endTransaction (n : LineId) (a : Attempt) (t : StationIx) (o : OutcomeCode) (s : State) : State × Groups :=
  let s1 := s.setAttempt n none
  match a.origin with
  | .cyclic e => s1.pollEnd e t false a o
  | .probe e => s1.pollEnd e t true a o
  | .acyclic k => s1.acyclicEnd k t a o
  | .sync => (s1, [])

/-- What the end of an attempt records at the slot (R37, R42, R120). -/
def recordAttempt (a : Attempt) (o : OutcomeCode) (s : State) : State :=
  match a.origin with
  | .acyclic k => s.slotAttemptEnd k (a.attempt.getD 0) o
  | .cyclic _ | .probe _ | .sync => s

/-- The end of the attempt of line n with this outcome (R37, R38), the engine already in the state it goes to.
A retry is owed when it is due, the STOP set is empty and the engine has not entered FAULTED; otherwise the transaction ends.
SYNC work just ends (R29, R30, R35). -/
def endAttempt (n : LineId) (o : OutcomeCode) (s : State) : State × Groups :=
  match (s.line n).attempt with
  | none => (s, [])
  | some a =>
    match a.station with
    | none => (s.setAttempt n none, [])
    | some t =>
      let s1 := (s.modifyStation t (Station.countAttempt o)).recordAttempt a o
      let retry := s1.retryDue a o && a.stop.isEmpty && (s.line n).engine != .faulted
      let a1 := { a with outcome := some o, retryOwed := retry, fixedOutcome := none }
      if retry then (s1.setAttempt n (some a1), []) else s1.endTransaction n a1 t o

/-- A STOP reason reaches the transaction in flight of line n (R39): it joins the STOP set; a transaction waiting between
attempts ends at once with its last outcome. -/
def stopTransaction (n : LineId) (x : StopReason) (s : State) : State × Groups :=
  match (s.line n).attempt with
  | none => (s, [])
  | some a =>
    if a.isTransaction then
      let a1 := { a with stop := a.stop.add x }
      match a.retryOwed, a.station, a.outcome with
      | true, some t, some o => s.endTransaction n { a1 with retryOwed := false } t o
      | _, _, _ => (s.setAttempt n (some a1), [])
    else (s, [])

/-! ## Consequences carried out in the same step (log entry 11) -/

/-- A break request that waited starts its break now that the work has ended (R41, R48). -/
def startWaitingBreak (n : LineId) (s : State) : State :=
  if (s.line n).breakRequest && (s.line n).breakReady then s.startBreak n else s

/-- Every enabled line is at rest (R157). -/
def allAtRest (s : State) : Bool := (!s.line0.enable || s.line0.atRest) && (!s.line1.enable || s.line1.atRest)

/-- A MODE notice occasion (R152): MODE_DONE is raised; the notice is the post. -/
def modeOccasion (err : BitVec 4) (index : BitVec 6) (s : State) : State × Post :=
  (s.raise .modeDone, .notice (modeNotice s.mode err index))

/-- QUIESCED is reached when every enabled line is at rest (R157). -/
def reachQuiesced (s : State) : State × List Post :=
  if s.mode = .quiescing ∧ s.allAtRest then
    let (s1, p) := modeOccasion 0 0 { s with mode := .quiesced, pendingRequest := none }
    (s1, [p])
  else (s, [])

/-- The rest of a step after work on line n may have ended: a waiting break starts, QUIESCED may be reached,
and the posts of all owners reach the queue. -/
def settle (n : LineId) (r : State × Groups) : State :=
  let (s1, g) := (r.1.startWaitingBreak n).reachQuiesced
  s1.flush (r.2 ++ [g])

/-! ## Line faults (R43, R44) -/

/-- The eighth line fault: FAULTED, LINE_FAULTED notice, SYNC owed mark clear, FAULT in the STOP set (R44). -/
def enterFaulted (n : LineId) (s : State) : State :=
  (s.modifyLine n fun l =>
    { l with
      engine := .faulted
      faulted := true
      syncOwed := false
      attempt := l.attempt.map fun a => if a.isTransaction then { a with stop := a.stop.add .fault } else a }).offerNotice
        (lineFaultedNotice n)

/-- A line fault is counted (R43): count, LINE_FAULT notice, LINE_FAULT_n; at the limit the engine enters FAULTED (R44). -/
def countFault (n : LineId) (quietLimit : Bool) (s : State) : State :=
  let s1 := s.modifyLine n fun l => { l with faults := l.faults + 1 }
  let s2 := (s1.offerNotice (lineFaultNotice n quietLimit (s1.line n).faults)).raise (.lineFault n)
  if Config.faultLimit ≤ (s1.line n).faults.toNat then s2.enterFaulted n else s2

/-- A failed reception or a collision waits for quiet with its outcome fixed (R30, R33, R35); a SYNC frame has no outcome (R30). -/
def quietWait (n : LineId) (o : OutcomeCode) (s : State) : State :=
  s.modifyLine n fun l =>
    { l with
      engine := .quietWait
      attempt := l.attempt.map fun a => { a with fixedOutcome := if a.isTransaction then some o else none } }

/-- The quiet wait is over: the attempt ends with the outcome fixed for it (R35), the engine already in its next state. -/
def endQuietWait (n : LineId) (s : State) : State :=
  match (s.line n).attempt with
  | none => settle n (s, [])
  | some a => settle n (s.endAttempt n (a.fixedOutcome.getD .collision))

end State

end Sys2Proof.Machine
end

