-- ==== Sys2Proof/Machine/Reception.lean ====
section
/-!
DEFINITION. What a delivered character does (R6, R15, R16, R33, R34, R45, R46): read-back, reply assembly and checks,
unsolicited characters and noise.
-/

namespace Sys2Proof.Machine

/-- The states in which a noise mark is counted (R46). -/
def countsNoise (e : EngineState) : Bool :=
  match e with
  | .idle | .turnaround | .sending | .awaitReply | .receiving | .quietWait | .hold => true
  | .off | .breaking | .faulted => false

/-- The outcome of the first check of Table 2-4 that fails at this arrival, if one does (R33).
`position` is the character's number in the reply, from 1. -/
def arrivalFailure (position : Nat) (c : RxChar) : Option OutcomeCode :=
  if c.framing then some .framing
  else if c.mark != (position == 1) then some .fragment
  else if position = 1 then (if (replyKind? (c.byte.extractLsb' 5 3)).isNone then some .badFrame else none)
  else if position = 2 then (if 32 < (c.byte.extractLsb' 0 6).toNat then some .badFrame else none)
  else none

/-- The outcome of a complete reply (R34): check sequence, address, sequence, in this order; then the reply's kind. -/
def replyOutcome (check received : Word) (a : Attempt) (address : BitVec 5) : OutcomeCode :=
  if check ≠ received then .crcError
  else if a.replyAddress ≠ some address then .wrongStation
  else if a.replySeq ≠ some a.seqSent then .stale
  else
    match a.replyKind with
    | some .busy => .busy
    | some .refused => .refused
    | some .ok | none => .ok

/-- The record after a covered character that passed (R33, R12): header and sequence/length fields, the check register. -/
def Attempt.takeCovered (position : Nat) (v : Byte) (a : Attempt) : Attempt :=
  if position = 1 then
    { a with
      received := 1
      replyKind := replyKind? (v.extractLsb' 5 3)
      replyAddress := some (v.extractLsb' 0 5)
      check := checkByte checkStart v }
  else if position = 2 then
    { a with
      received := 2
      replySeq := some (v.extractLsb' 6 2)
      replyLen := some (v.extractLsb' 0 6)
      check := checkByte a.check v }
  else { a with received := position, check := checkByte a.check v }

namespace State

/-- A payload byte of a REPLY_OK goes to the reply's destination (R33, R107, R121): the next image block for a POLL,
the slot's reply block for a READ or WRITE; other bytes are discarded. `i` counts from 0. -/
def storeReplyByte (a : Attempt) (i : Nat) (v : Byte) (s : State) : State :=
  if h : i < 32 then
    match a.replyKind, a.origin, a.station with
    | some .ok, .cyclic _, some t => s.writeImageByte t ⟨i, h⟩ v
    | some .ok, .probe _, some t => s.writeImageByte t ⟨i, h⟩ v
    | some .ok, .acyclic k, _ => s.writeSlotByte k ⟨i, h⟩ v
    | _, _, _ => s
  else s

/-- The last check character of a reply ends the attempt (R34). -/
def replyComplete (n : LineId) (a : Attempt) (v : Byte) (s : State) : State :=
  match a.station with
  | none => s
  | some t =>
    let o := replyOutcome a.check (a.checkHigh ++ v) a (s.station t).address
    let a1 := { a with received := a.received + 1 }
    settle n (((s.setAttempt n (some a1)).setEngine n (restState s.mode)).endAttempt n o)

/-- A character that passed the checks of Table 2-4 is taken at its position (R15, R33). -/
def takeReplyChar (n : LineId) (a : Attempt) (v : Byte) (s : State) : State :=
  let position := a.received + 1
  let len := (a.replyLen.getD 0).toNat
  if position ≤ 2 then s.setAttempt n (some (a.takeCovered position v))
  else if position ≤ 2 + len then
    (s.storeReplyByte a (position - 3) v).setAttempt n (some (a.takeCovered position v))
  else if position = 3 + len then s.setAttempt n (some { a with received := position, checkHigh := v })
  else s.replyComplete n a v

/-- A character arrives in RECEIVING (R33): RECEIVED increments, and the first check that fails ends the reception. -/
def receiveChar (n : LineId) (c : RxChar) (s : State) : State :=
  match (s.line n).attempt with
  | none => s
  | some a =>
    match arrivalFailure (a.received + 1) c with
    | some o => (s.setAttempt n (some { a with received := a.received + 1 })).quietWait n o
    | none => s.takeReplyChar n a c.byte

/-- An unsolicited character (R45): UNSOLn, and a notice when the mark is clear. -/
def unsolicited (n : LineId) (s : State) : State :=
  let count := satInc (s.line n).unsol
  let s1 := s.modifyLine n fun l => { l with unsol := count, unsolMark := true }
  if (s.line n).unsolMark then s1 else s1.offerNotice (unsolicitedNotice n count)

/-- The engine takes a delivered character according to its state (Table 2-1). -/
def engineArrival (n : LineId) (c : RxChar) (s : State) : State :=
  match (s.line n).engine with
  | .idle | .turnaround | .hold => s.unsolicited n
  | .sending => s.modifyLine n fun l => { l with readBack := some c }
  | .receiving => s.receiveChar n c
  | .awaitReply | .quietWait | .breaking | .faulted | .off => s

/-- A noise mark is counted once (R46). -/
def countNoise (n : LineId) (c : RxChar) (s : State) : State :=
  if c.noise && countsNoise (s.line n).engine then s.modifyLine n fun l => { l with noise := satInc l.noise } else s

/-- The receiver delivers the character at sample 6 of its stop bit (R6): HUNTING, or WAIT_HIGH after a framing error.
The pin stands at the level of that sample. -/
def deliver (n : LineId) (t : CharSamples) (s : State) : State :=
  let c := CharSamples.decode t
  let s1 := s.modifyLine n fun l => { l with rx := if c.framing then .waitHigh else .hunting, rxd := t.stop.s6 }
  (s1.countNoise n c).engineArrival n c

/-- A confirmed start is handed to the engine (R4, R19, R20, R21): quiet ends, a reply window closes, an IDLE engine
waits for quiet again. -/
def startEvent (n : LineId) (s : State) : State :=
  s.modifyLine n fun l =>
    { l with
      settled := false
      engine := match l.engine with
        | .idle => .turnaround
        | .awaitReply => .receiving
        | .off => .off
        | .turnaround => .turnaround
        | .sending => .sending
        | .receiving => .receiving
        | .quietWait => .quietWait
        | .breaking => .breaking
        | .hold => .hold
        | .faulted => .faulted }

end State

/-! ## The rows of the receiver (R4, R6, R7) -/

/-- CANDIDATE_START_BIT (R4): RXDn falls; in HUNTING with RXDn at 1 this begins a candidate start bit. In any other state the
pin is low and no character begins. -/
def execCandidateStartBit (n : LineId) (s : State) : Host.Outcome State Fault Refusal :=
  .next (s.modifyLine n fun l =>
    { l with rx := if l.rx = .hunting ∧ l.rxd = true then .starting else l.rx, rxd := false })

/-- START_NOT_CONFIRMED (R4): sample 4 of the candidate reads 1; the edge is ignored. -/
def execStartNotConfirmed (n : LineId) (s : State) : Host.Outcome State Fault Refusal :=
  .next (if (s.line n).rx = .starting then s.modifyLine n fun l => { l with rx := .hunting, rxd := true } else s)

/-- START_CONFIRMED (R4): the receiver goes to ASSEMBLING and hands a start event to its engine. During a break and its
guard the start is discarded (R7), which the engine's BREAKING case gives. -/
def execStartConfirmed (n : LineId) (s : State) : Host.Outcome State Fault Refusal :=
  .next (if (s.line n).rx = .starting then (s.modifyLine n fun l => { l with rx := .assembling }).startEvent n else s)

/-- CHARACTER_ARRIVAL (R6): only a receiver in ASSEMBLING delivers. -/
def execCharacterArrival (n : LineId) (t : CharSamples) (s : State) : Host.Outcome State Fault Refusal :=
  .next (if (s.line n).rx = .assembling then s.deliver n t else s)

/-- LINE_RETURNS_TO_1 (R4, R7): RXDn is at 1; in WAIT_HIGH the receiver of an engine that is not OFF goes to HUNTING. -/
def execLineReturnsTo1 (n : LineId) (s : State) : Host.Outcome State Fault Refusal :=
  .next (s.modifyLine n fun l =>
    { l with rx := if l.rx = .waitHigh ∧ l.engine ≠ .off then .hunting else l.rx, rxd := true })

end Sys2Proof.Machine
end

