-- ==== Sys2Proof/Machine/LineRows.lean ====
section
/-!
DEFINITION. The rows of the line engine: the end of a transmitted character, the expiries, the turnaround and the line break
(R16, R17, R29, R30, R32, R33, R35, R36, R48, R49).
-/

namespace Sys2Proof.Machine

namespace State

/-- The last character of a frame has been sent and agrees (R29): a request frame clears the fault count and opens the reply
window; a SYNC frame ends its work. -/
def frameSent (n : LineId) (a : Attempt) (s : State) : State :=
  let s1 := s.modifyLine n Line.release
  if a.isTransaction then
    (s1.modifyLine n fun l => { l with faults := 0 }).setEngine n .awaitReply
  else settle n ((s1.setAttempt n none).setEngine n (restState s.mode), [])

/-- A read-back mismatch (R30): nothing more is sent, a line fault is counted; below the limit the engine waits for quiet with
COLLISION fixed, at the limit it is FAULTED and the attempt ends at once. -/
def collision (n : LineId) (s : State) : State :=
  let s1 := (s.modifyLine n Line.release).countFault n false
  if (s1.line n).engine = .faulted then settle n (s1.endAttempt n .collision) else s1.quietWait n .collision

/-- The end of the stop bit of the character being sent (R16, R29). -/
def charSent (n : LineId) (a : Attempt) (c : TxChar) (s : State) : State :=
  let s1 := s.setAttempt n (some { a with sent := a.sent + 1 })
  if readBackAgrees c (s.line n).readBack then
    match (s.line n).frameRest with
    | [] => s1.frameSent n { a with sent := a.sent + 1 }
    | d :: rest => s1.modifyLine n fun l => { l with drive := .character d, frameRest := rest, readBack := none }
  else s1.collision n

/-- The guard of a break ends (R49): driver released, fault count 0, receiver in WAIT_HIGH (R7), the state the mode calls for;
LINE_RESTORED when the engine was faulted; a waiting LINE_BREAK completes. -/
def breakEnd (n : LineId) (s : State) : State :=
  let restored := (s.line n).faulted
  let s1 := s.modifyLine n fun l =>
    { l with
      drive := .released
      faults := 0
      faulted := false
      rx := .waitHigh
      settled := false
      engine := restState s.mode }
  let s2 := if s.waitingBreak = some n then s1.complete .ok (if restored then 1 else 0) else s1
  settle n (s2, [if restored then [.notice (lineRestoredNotice n)] else []])

/-- The turnaround of line n is satisfied (R36): an owed retry starts; in RUN a decision point; in QUIESCING the engine rests. -/
def turnaroundEnd (n : LineId) (s : State) : State :=
  match (s.line n).attempt with
  | some a =>
    match a.waits, a.station with
    | true, some t => s.startAttempt n (a.attempt.getD 0 + 1) a t
    | _, _ => s
  | none =>
    match s.mode with
    | .run => s.decisionPoint n
    | .quiescing => settle n (s.setEngine n .hold, [])
    | .quiesced | .init | .config => s

end State

/-- CHARACTER_SENT (R16): the engine is SENDING and the transmitter sends a character. -/
def execCharacterSent (n : LineId) (s : State) : Host.Outcome State Fault Refusal :=
  .next (match (s.line n).engine, (s.line n).attempt, (s.line n).drive with
    | .sending, some a, .character c => s.charSent n a c
    | _, _, _ => s)

/-- REPLY_WINDOW_EXPIRY (R32): TIMEOUT; TURNAROUND in RUN, HOLD in QUIESCING. -/
def execReplyWindowExpiry (n : LineId) (s : State) : Host.Outcome State Fault Refusal :=
  .next (if (s.line n).engine = .awaitReply then
      State.settle n ((s.setEngine n (restState s.mode)).endAttempt n .timeout)
    else s)

/-- GAP_LIMIT_EXCEEDED (R33): the reception ends with FRAGMENT and the engine waits for quiet. -/
def execGapLimitExceeded (n : LineId) (s : State) : Host.Outcome State Fault Refusal :=
  .next (if (s.line n).engine = .receiving ∧ (s.line n).gapOpen then s.quietWait n .fragment else s)

/-- QUIET_WAIT_END (R35): quiet has lasted GAP_LIMIT character times. -/
def execQuietWaitEnd (n : LineId) (s : State) : Host.Outcome State Fault Refusal :=
  .next (if (s.line n).engine = .quietWait ∧ (s.line n).quiet then
      (s.setEngine n (restState s.mode)).endQuietWait n
    else s)

/-- QUIET_LIMIT_EXPIRY (R35): a line fault is counted, the attempt ends with its fixed outcome, and the engine goes on or is FAULTED. -/
def execQuietLimitExpiry (n : LineId) (s : State) : Host.Outcome State Fault Refusal :=
  .next (if (s.line n).engine = .quietWait then
      ((s.setEngine n (restState s.mode)).countFault n true).endQuietWait n
    else s)

/-- TURNAROUND_SATISFIED (R36): quiet has lasted TURNAROUND character times. In any other engine state the line is known to have been
quiet that long, which the return to RUN reads (R51, log entry 7). -/
def execTurnaroundSatisfied (n : LineId) (s : State) : Host.Outcome State Fault Refusal :=
  .next (if (s.line n).quiet then
      let s1 := s.modifyLine n fun l => { l with settled := true }
      if (s.line n).engine = .turnaround then s1.turnaroundEnd n else s1
    else s)

/-- BREAK_START (R48): a break request whose work has ended starts its break. The step that ended the work has done so already;
the row repeats it (log entry 11). -/
def execBreakStart (n : LineId) (s : State) : Host.Outcome State Fault Refusal :=
  .next (s.startWaitingBreak n)

/-- BREAK_LOW_END (R17): TXDn is driven to 1 for the guard, DEn still asserted. -/
def execBreakLowEnd (n : LineId) (s : State) : Host.Outcome State Fault Refusal :=
  .next (if (s.line n).engine = .breaking ∧ (s.line n).drive = .breakLow then
      s.modifyLine n fun l => { l with drive := .breakGuard }
    else s)

/-- LINE_BREAK_END (R49): the end of the guard. -/
def execLineBreakEnd (n : LineId) (s : State) : Host.Outcome State Fault Refusal :=
  .next (if (s.line n).engine = .breaking ∧ (s.line n).drive = .breakGuard then s.breakEnd n else s)

end Sys2Proof.Machine
end

