-- ==== Sys2Proof/Machine/Cycle.lean ====
section
/-!
DEFINITION. Cycle timers and cycle starts (R52 to R57, R67 to R71).
-/

namespace Sys2Proof.Machine

/-- The cases of a cycle start (Table 3-2). -/
inductive CycleCase where
  | startOfRunning
  | faultedLine
  | overrun
  | lateStart
  | regular
  deriving DecidableEq, Repr

/-- The case of a cycle start produced by an expiry (Table 3-2, R68 to R70). -/
def Line.expiryCase (l : Line) : CycleCase :=
  if l.faulted then .faultedLine
  else
    match l.phase with
    | .cyclic => .overrun
    | .acyclic => if l.attempt.any Attempt.isAcyclic then .lateStart else .regular

namespace State

/-- The remaining due entries of the old cycle (R68): at or above the walk pointer, in phase with the old number, health neither
PARKED nor OFFLINE. -/
def skippedEntry (s : State) (n : LineId) (old : Word) (e : EntryIx) : Bool :=
  decide ((s.line n).walk.val ≤ e.val) && s.inPhase n old e
    && (match (s.station (s.entry e).station).health with
      | .online | .degraded => true
      | .offline | .parked => false)

/-- The skipped count (R68). -/
def skippedCount (s : State) (n : LineId) (old : Word) : Nat :=
  ((List.finRange 64).filter (s.skippedEntry n old)).length

/-- What each remaining entry records (R68). -/
def markSkipped (n : LineId) (old : Word) (s : State) : State :=
  s.mapEntries fun e en =>
    if s.skippedEntry n old e then { en with last := .skipped, skipped := satInc en.skipped } else en

/-- The accounting for the cycle that is ending and the cycle timer's notice (R68, R69). -/
def cycleAccounting (n : LineId) (old : Word) (c : CycleCase) (s : State) : State × List Post :=
  match c with
  | .overrun =>
    ((s.markSkipped n old).raise (.overrun n), [.notice (cycleOverrunNotice n (s.skippedCount n old))])
  | .lateStart => (s.raise (.overrun n), [.notice (cycleLateNotice n)])
  | .startOfRunning | .faultedLine | .regular => (s, [])

/-- The new cycle's phase, walk pointer and engine marks (R28, R45, R55, R62). -/
def openCycle (n : LineId) (s : State) : State :=
  (s.modifyLine n fun l =>
    { l with
      phase := .cyclic
      walk := 0
      syncOwed := l.syncOwed || (l.sync && !l.faulted && l.engine != .off)
      urgent := false
      unsolMark := false }).raise (.cycleStart n)

/-- A transaction of line n waits between attempts, so that CYCLE ends it at once (R39). -/
def waitsForRetry (s : State) (n : LineId) : Bool := (s.line n).attempt.any Attempt.waits

/-- The engine's and the Station Table's hand-overs of a cycle start (R55). Where CYCLE ends a transaction, the order of that end
and the Station Table's step is free (log entry 6); otherwise they touch different state. -/
def cycleHandOver (n : LineId) (s : State) : State × Groups :=
  if s.waitsForRetry n && Config.freeChoice s.freeIndex 0 % 2 == 0 then
    let (s1, g) := ({ s with freeIndex := s.freeIndex + 1 } : State).stopTransaction n .cycle
    (s1.stationsCycleStart n, g)
  else
    (({ s with freeIndex := if s.waitsForRetry n then s.freeIndex + 1 else s.freeIndex } : State).stationsCycleStart n).stopTransaction
      n .cycle

/-- The hand-overs by the case of the start. A start of running leaves every station record as it is: at the return to RUN AGE and
PROBE_COUNTDOWN stay where they stood (R76, R89, R158) although R55, R82 and R89 advance them at each cycle start, the model's choice
between the two (log entry 29). At RUN entry the two readings agree: AGE is 255 and no station is OFFLINE (R76). -/
def startHandOver (n : LineId) (c : CycleCase) (s : State) : State × Groups :=
  match c with
  | .startOfRunning => s.stopTransaction n .cycle
  | .faultedLine | .overrun | .lateStart | .regular => s.cycleHandOver n

/-- A cycle start of line n, CYCNUMn already advanced, with the old number (R55): accounting on the cycle that is ending, the new
cycle opened, the hand-overs, the release of deferred slots, and last the decision of an IDLE engine. -/
def startCycle (n : LineId) (old : Word) (c : CycleCase) (s : State) : State :=
  let (s1, timerPosts) := s.cycleAccounting n old c
  let (s2, groups) := (s1.openCycle n).startHandOver n c
  ((settle n (s2, timerPosts :: groups)).releaseDeferred n).wakeIdle n

/-- The timer loads its period, takes a cycle number and runs (R53). -/
def loadTimer (n : LineId) (number : Word) (s : State) : State :=
  s.modifyLine n fun l => { l with timerRunning := true, runningCount := l.period, cycnum := number }

/-- The timer stops; its count and CYCNUMn keep their values (R53). -/
def stopTimer (n : LineId) (s : State) : State := s.modifyLine n fun l => { l with timerRunning := false }

/-- The expiry of the running count (R53, R55). -/
def expireTimer (n : LineId) (s : State) : State :=
  let l := s.line n
  (s.loadTimer n (l.cycnum + 1)).startCycle n l.cycnum l.expiryCase

end State

/-- CYCLE_START (R55): the running count of a running timer expires. The timer runs in RUN on an enabled line (R53). -/
def execCycleStart (n : LineId) (s : State) : Host.Outcome State Fault Refusal :=
  .next (if s.mode = .run ∧ (s.line n).enable ∧ (s.line n).timerRunning then s.expireTimer n else s)

end Sys2Proof.Machine
end

