-- ==== Sys2Proof/Machine/Modes.lean ====
section
/-!
DEFINITION. The Mode Controller (R148 to R161): hard reset, clearing, mode requests, validation, RUN entry, quiesce, return to RUN,
return to CONFIG, control reset.
-/

namespace Sys2Proof.Machine

namespace State

/-! ## Hard reset and INIT (R149) -/

/-- RESET# is held low (R149): every register, counter, list and flag is at its hard-reset value at once; internal memory is
cleared after RESET# rises (log entry 4). The RXD pins, the data bus word and the model's own fields are no registers. -/
def hardReset (s : State) : State :=
  { State.reset with
    payload := s.payload
    owners := s.owners
    stations := s.stations
    entries := s.entries
    slots := s.slots
    line0 := { Line.reset with rxd := s.line0.rxd }
    line1 := { Line.reset with rxd := s.line1.rxd }
    dout := s.dout
    freeIndex := s.freeIndex
    pending := s.pending }

/-- The clearing completes (R149): every structure of internal memory holds its reset value, and the mode becomes CONFIG
with no notice and no source raised. -/
def finishClearing (s : State) : State :=
  { s with
    mode := .config
    payload := []
    owners := Vector.replicate 128 .free
    stations := Vector.replicate 32 Station.reset
    entries := Vector.replicate 64 Entry.reset
    slots := Vector.replicate 16 Slot.reset
    submitted := []
    done := []
    events := []
    evlost := 0 }

/-! ## Validation (R153) -/

/-- Checks 2 and 3 for a line: the error code. -/
def lineError (l : Line) : Option (BitVec 4) :=
  if !l.enable then none
  else if l.period.toNat < 10 then some 2
  else if l.replyWindow = 0 ∨ l.gapLimit = 0 ∨ l.turnaround = 0 then some 3
  else none

/-- Two enabled stations with the same line and address (R153 check 7). -/
def sameAddress (a b : Station) : Bool := a.enabled && b.enabled && a.line == b.line && a.address == b.address

/-- A lower-indexed station has the same line and address. -/
def duplicated (s : State) (t : StationIx) : Bool :=
  (List.finRange 32).any fun u => decide (u.val < t.val) && sameAddress (s.station u) (s.station t)

/-- Checks 4 to 7 for a station. -/
def stationError (s : State) (t : StationIx) : Option (BitVec 4) :=
  let st := s.station t
  if !st.enabled then none
  else if st.address.toNat < 1 ∨ 30 < st.address.toNat then some 4
  else if st.missLimit = 0 ∨ st.probeInterval = 0 then some 5
  else if !(s.line st.line).enable then some 6
  else if s.duplicated t then some 7
  else none

/-- Checks 8 and 9 for an entry. -/
def entryError (s : State) (e : EntryIx) : Option (BitVec 4) :=
  let en := s.entry e
  if !en.enabled then none
  else if !(s.station en.station).enabled then some 8
  else if dividerOf en ≤ en.phase.toNat then some 9
  else none

/-- The configuration checks in the order of Table 8-3: the first error code with its index. -/
def validate (s : State) : Option (BitVec 4 × BitVec 6) :=
  if !s.line0.enable && !s.line1.enable then some (1, 0)
  else
    match lineError s.line0, lineError s.line1 with
    | some c, _ => some (c, 0)
    | none, some c => some (c, 1)
    | none, none =>
      match firstSome (fun t => (s.stationError t).map fun c => (c, BitVec.ofNat 6 t.val)) (List.finRange 32) with
      | some r => some r
      | none => firstSome (fun e => (s.entryError e).map fun c => (c, BitVec.ofNat 6 e.val)) (List.finRange 64)

/-- A failed validation (R154). -/
def validationFailed (code : BitVec 4) (index : BitVec 6) (s : State) : State :=
  let (s1, p) := modeOccasion code index { s with errCode := code, errIndex := index }
  s1.flush [[p]]

/-! ## RUN entry (R155) -/

/-- The STATION_STATE notices of RUN entry: the stations that were DEGRADED or OFFLINE (R76). -/
def entryNotices (s : State) : Groups :=
  (List.finRange 32).map fun t => healthNotice t (s.station t) (s.station t).runEntry

/-- A PENDING slot that is no longer valid at RUN entry (R133). -/
def invalidSlot (s : State) (k : SlotIx) : Bool :=
  let st := s.station (s.slot k).station
  !st.enabled || !(s.line st.line).enable

/-- The engine of an enabled line leaves OFF: BREAKING with BREAK_ON_START, TURNAROUND otherwise (R22, R50). -/
def leaveOff (n : LineId) (s : State) : State :=
  if (s.line n).breakOnStart then s.startBreak n else s.setEngine n .turnaround

/-- The line side of RUN entry: an enabled line's engine leaves OFF and cycle 0 starts at once (R53, R55, R71). -/
def lineEntry (n : LineId) (s : State) : State :=
  if (s.line n).enable then (s.leaveOff n).startCycle n 0 .startOfRunning else s

/-- The walk pointers are 0, and the timers of enabled lines are loaded with CYCNUMn 0, in the step of the entry (R53, R62, R181). -/
def prepareLine (n : LineId) (s : State) : State :=
  let s1 := s.modifyLine n fun l => { l with walk := 0 }
  if (s.line n).enable then s1.loadTimer n 0 else s1

/-- RUN entry after a passed validation (R155): stations, then cancellations, their records in free order, then lines, then MODE.
The mode is RUN before the MODE notice is posted and after every record the entry caused. -/
def runEntry (s : State) : State :=
  let s1 := (({ s with errCode := 0, errIndex := 0 } : State).prepareLine .zero).prepareLine .one
  let notices := s1.entryNotices
  let s2 := s1.mapStations fun _ st => st.runEntry
  let (s3, cancelled) := s2.finishSlots .cancelled (s2.pendingList.filter s2.invalidSlot)
  let s4 : State := { s3.flush (notices ++ [cancelled]) with mode := .run }
  let (s5, p) := ((s4.lineEntry .zero).lineEntry .one).modeOccasion 0 0
  s5.flush [[p]]

/-! ## Quiesce (R156, R157) -/

/-- The engine side of the start of QUIESCING (R51): a transaction in flight receives QUIESCE; an engine that is IDLE or in TURNAROUND
goes to HOLD at once, an owed retry ending its transaction. -/
def quiesceLine (n : LineId) (s : State) : State × Groups :=
  if (s.line n).enable then
    let (s1, g) := (s.stopTimer n).stopTransaction n .quiesce
    let l := s1.line n
    if l.attempt.isNone ∧ (l.engine = .idle ∨ l.engine = .turnaround) then (s1.setEngine n .hold, g) else (s1, g)
  else (s, [])

/-- QUIESCE in RUN (R156). -/
def quiesce (s : State) : State :=
  let (s1, g0) := ({ s with mode := .quiescing, pendingRequest := some .quiesce } : State).quiesceLine .zero
  let (s2, g1) := s1.quiesceLine .one
  let (s3, g2) := s2.reachQuiesced
  s3.flush (g0 ++ g1 ++ [g2])

/-! ## Leaving QUIESCED (R158, R159) -/

/-- The engine in HOLD at the return to RUN: IDLE when the line has been quiet for TURNAROUND character times (R51). -/
def resumeEngine (l : Line) : Line :=
  if l.engine = .hold then { l with engine := if l.quiet && l.settled then .idle else .turnaround } else l

/-- An enabled line at the return to RUN: the engine, then a new cycle at once (R53, R71, R158). The stations keep AGE and
PROBE_COUNTDOWN (log entry 29). -/
def resumeLine (n : LineId) (s : State) : State :=
  if (s.line n).enable then
    ((s.modifyLine n resumeEngine).loadTimer n ((s.line n).cycnum + 1)).startCycle n (s.line n).cycnum .startOfRunning
  else s

/-- Return to RUN (R158). -/
def returnToRun (s : State) : State :=
  let (s1, p) := ((({ s with mode := .run } : State).resumeLine .zero).resumeLine .one).modeOccasion 0 0
  s1.flush [[p]]

/-- A LINE_BREAK that waits on a break ended by the entry to CONFIG completes with WRONG_MODE (R49, R159). -/
def dropWaitingBreak (s : State) : State := if s.waitingBreak.isSome then s.refuse .wrongMode else s

/-- Entry to CONFIG from QUIESCED (R159): engines OFF, PENDING slots CANCELLED, then MODE. -/
def enterConfig (s : State) : State :=
  let s1 := ((({ s with mode := .config } : State).modifyLine .zero Line.enterOff).modifyLine .one Line.enterOff).dropWaitingBreak
  let (s2, cancelled) := s1.finishSlots .cancelled s1.pendingList
  let (s3, p) := (s2.flush [cancelled]).modeOccasion 0 0
  s3.flush [[p]]

/-! ## Mode requests (R151) -/

/-- A refused request (R151). -/
def refuseRequest (s : State) : State := { s with reqRefused := true }

/-- A write of RUN in CONFIG (R153, R154, R155). -/
def runFromConfig (s : State) : State :=
  match s.validate with
  | some (code, index) => s.validationFailed code index
  | none => s.runEntry

/-- A host write of MODEREQ, judged as a whole word (R151, R179); ignored in INIT (R150). -/
def modeRequest (v : Word) (s : State) : State :=
  if s.inInit then s
  else if s.pendingRequest.isSome then s.refuseRequest
  else if s.mode = .config ∧ v = 2 then s.runFromConfig
  else if s.mode = .run ∧ v = 3 then s.quiesce
  else if s.mode = .quiesced ∧ v = 2 then s.returnToRun
  else if s.mode = .quiesced ∧ v = 1 then s.enterConfig
  else s.refuseRequest

/-! ## Control reset (R160) -/

/-- A line at a control reset (R1, R7, R23, R52, R53, R62). -/
def resetLine (l : Line) : Line :=
  { l.enterOff with
    unsol := 0
    noise := 0
    timerRunning := false
    cycnum := 0
    phase := .cyclic
    walk := 0 }

/-- The effects of a control reset on every block (R160). -/
def controlReset (s : State) : State :=
  let s1 := (((s.modifyLine .zero resetLine).modifyLine .one resetLine).mapStations fun _ st => st.controlReset).resetSlots
  { s1 with
    mode := .config
    pendingRequest := none
    reqRefused := false
    events := []
    evlost := 0
    dmaWord := 0
    edges := 0
    cmdState := .idle
    overrun := false
    result := .ok
    cvalue := 0
    tapaddr := 0 }

/-- A write of 1 to the reset bit of CTRL; ignored in INIT (R150, R160). -/
def controlResetWrite (s : State) : State := if s.inInit then s else s.controlReset

end State

/-! ## The rows -/

/-- HARD_RESET (R149). -/
def execHardReset (s : State) : Host.Outcome State Fault Refusal := .next s.hardReset

/-- RESET_RELEASE (R149): RESET# rises and the clearing starts; the mode stays INIT. -/
def execResetRelease (s : State) : Host.Outcome State Fault Refusal := .next { s with resetLow := false }

/-- CLEARING_COMPLETE (R149): only while the clearing is under way, in INIT with RESET# high. -/
def execClearingComplete (s : State) : Host.Outcome State Fault Refusal :=
  .next (if s.mode = .init ∧ s.resetLow = false then s.finishClearing else s)

/-- CONTROL_RESET (R160). -/
def execControlReset (s : State) : Host.Outcome State Fault Refusal := .next s.controlResetWrite

/-- MODEREQ_RUN (R153). -/
def execModereqRun (s : State) : Host.Outcome State Fault Refusal := .next (s.modeRequest 2)

/-- MODEREQ_QUIESCE (R156). -/
def execModereqQuiesce (s : State) : Host.Outcome State Fault Refusal := .next (s.modeRequest 3)

/-- MODEREQ_CONFIG (R159). -/
def execModereqConfig (s : State) : Host.Outcome State Fault Refusal := .next (s.modeRequest 1)

/-- QUIESCED_REACHED (R157): every enabled line is at rest in QUIESCING. The step that brought the last line to rest has done so already;
the row repeats it (log entry 11). -/
def execQuiescedReached (s : State) : Host.Outcome State Fault Refusal :=
  .next (let r := s.reachQuiesced; r.1.flush [r.2])

/-- HELD_COMPLETION_TAKEN (R141): the queue takes the head held completion. The removal that made room has done so already;
the row repeats it (log entry 11). -/
def execHeldCompletionTaken (s : State) : Host.Outcome State Fault Refusal := .next s.takeHeld

end Sys2Proof.Machine
end

