-- ==== Sys2Proof/Machine/Tap.lean ====
section
/-!
DEFINITION. Refused accesses and the Table Access Port (R94, R165, R166, R167, with R59, R72, R93, R113).
-/

namespace Sys2Proof.Machine

/-- Where a Table Access Port address falls (Table 9-2). -/
inductive TapPlace where
  | block (b : BlockIx)
  | station (t : StationIx) (word : Nat)
  | entry (e : EntryIx) (word : Nat)
  | slot (k : SlotIx) (word : Nat)
  | map (b : BlockIx)
  | nothing
  deriving DecidableEq, Repr

/-- Table 9-2 and Table 10-3. -/
def tapPlace (a : Nat) : TapPlace :=
  if h : a < 0x800 then .block ⟨a / 16, by omega⟩
  else if h : 0x1000 ≤ a ∧ a < 0x1200 then .station ⟨(a - 0x1000) / 16, by omega⟩ ((a - 0x1000) % 16)
  else if h : 0x1200 ≤ a ∧ a < 0x1300 then .entry ⟨(a - 0x1200) / 4, by omega⟩ ((a - 0x1200) % 4)
  else if h : 0x1400 ≤ a ∧ a < 0x1480 then .slot ⟨(a - 0x1400) / 8, by omega⟩ ((a - 0x1400) % 8)
  else if h : 0x1600 ≤ a ∧ a < 0x1680 then .map ⟨a - 0x1600, by omega⟩
  else .nothing

namespace State

/-- A refused access raises ACCESS_ERROR; the record is loaded when the flag was clear (R167). -/
def refuseAccess (space : AccessSpace) (dir : AccessDirection) (address : Word) (s : State) : State :=
  if s.edgeFlag .accessError then s
  else raise .accessError { s with accaddr := address, accSpace := space, accDir := dir, accMode := s.mode }

/-- A host write to a block is stored (R94, Table 5-2): HOST, and OUTPUT STAGED without a commit waiting. -/
def blockWritable (s : State) (b : BlockIx) : Bool :=
  match s.owner b with
  | .host => true
  | .outputStaged e => !(s.entry e).commitPending
  | .free | .outputActive _ | .imageCurrent _ | .imageNext _ | .request _ | .reply _ => false

/-- The word at a Table Access Port address, none where the read is refused (R94, R166). -/
def tapRead? (s : State) (a : Nat) : Option Word :=
  match tapPlace a with
  | .block b => if s.owner b = .free then none else some (Memory.readWord s.payload a)
  | .station t i => some ((s.station t).word i)
  | .entry e i => some ((s.entry e).word i)
  | .slot k i => some ((s.slot k).word i)
  | .map b => some (s.owner b).word
  | .nothing => none

/-- A write of station word 0 in CONFIG, with its STATION_STATE notice (R73). -/
def writeStationWord0 (t : StationIx) (v : Word) (s : State) : State :=
  let st := s.station t
  let st1 := st.writeWord0 v
  (s.setStation t st1).flush [healthNotice t st st1]

/-- A write of a station word: words 0 and 1 in CONFIG (R72). -/
def writeStation? (t : StationIx) (i : Nat) (v : Word) (s : State) : Option State :=
  if s.mode = .config then
    match i with
    | 0 => some (s.writeStationWord0 t v)
    | 1 => some (s.modifyStation t (Station.storeWord1 v))
    | _ => none
  else none

/-- A write of an entry word (R59): word 0 in CONFIG whole, outside it ENABLED alone; word 1 in CONFIG. -/
def writeEntry? (e : EntryIx) (i : Nat) (v : Word) (s : State) : Option State :=
  match i with
  | 0 => some (s.modifyEntry e (if s.mode = .config then Entry.storeWord0 v else Entry.storeEnabled v))
  | 1 => if s.mode = .config then some (s.modifyEntry e (Entry.storeWord1 v)) else none
  | _ => none

/-- A host write at a Table Access Port address, none where it is refused (R94, R166). -/
def tapWrite? (a : Nat) (v : Word) (s : State) : Option State :=
  match tapPlace a with
  | .block b => if s.blockWritable b then some { s with payload := Memory.writeWord s.payload a v } else none
  | .station t i => s.writeStation? t i v
  | .entry e i => s.writeEntry? e i v
  | .slot _ _ | .map _ | .nothing => none

/-- TAPADDR advances after every access, permitted or refused (R165). -/
def advanceTap (s : State) : State := { s with tapaddr := s.tapaddr + 1 }

/-- A host read of TAPDATA (R165, R166). In INIT it returns 0 and nothing advances (R150). -/
def tapdataRead (s : State) : State :=
  if s.inInit then { s with dout := 0 }
  else
    match s.tapRead? s.tapaddr.toNat with
    | some v => { s with dout := v }.advanceTap
    | none => { s.refuseAccess .tap .read s.tapaddr with dout := 0 }.advanceTap

/-- A host write of TAPDATA (R165, R166); ignored in INIT (R150). -/
def tapdataWrite (v : Word) (s : State) : State :=
  if s.inInit then s
  else
    match s.tapWrite? s.tapaddr.toNat v with
    | some s1 => s1.advanceTap
    | none => (s.refuseAccess .tap .write s.tapaddr).advanceTap

end State

/-- TAPDATA_READ (R166). -/
def execTapdataRead (s : State) : Host.Outcome State Fault Refusal := .next s.tapdataRead

/-- TAPDATA_WRITE (R166). -/
def execTapdataWrite (v : Word) (s : State) : Host.Outcome State Fault Refusal := .next (s.tapdataWrite v)

end Sys2Proof.Machine
end

