-- ==== Sys2Proof/Machine/Commands.lean ====
section
/-!
DEFINITION. The Command Unit (R168 to R172) and the fifteen commands (Table 9-4), each with its checks in its owner's order.
A body works from the argument copy and completes the command, unless it must wait.
-/

namespace Sys2Proof.Machine

namespace State

/-- The take of a command (R169): the code, the argument copy, OVERRUN no, result and value 0, BUSY. -/
def takeCommand (code : Word) (s : State) : State :=
  { s with cmd := code, args := s.carg, overrun := false, result := .ok, cvalue := 0, cmdState := .busy }

/-- A host write of CMD (R169): ignored in INIT (R150); discarded with OVERRUN while BUSY; otherwise taken and handed to `body`. -/
def hostCommand (code : Word) (body : State → State) (s : State) : State :=
  if s.inInit then s
  else if s.cmdState = .busy then { s with overrun := true }
  else body (s.takeCommand code)

/-! ## Blocks -/

/-- ALLOC_BLOCK (R96). -/
def allocBlockBody (s : State) : State :=
  match s.lowestFreeBlock with
  | none => s.refuse .noBlock
  | some b => (s.setOwner b .host).complete .ok (BitVec.ofNat 16 b.val)

/-- FREE_BLOCK (R97). -/
def freeBlockBody (s : State) : State :=
  match index? 128 (s.arg 0) with
  | none => s.refuse .badArgument
  | some b => if s.owner b = .host then (s.setOwner b .free).complete .ok 0 else s.refuse .notOwner

/-- Two distinct blocks, both HOST (R99, R105). -/
def twoHostBlocks (s : State) (a b : BlockIx) : Bool := a != b && s.owner a == .host && s.owner b == .host

/-- The output pair of an entry is bound (R99). -/
def bindEntry (e : EntryIx) (a b : BlockIx) (s : State) : State :=
  ((s.modifyEntry e fun en =>
    { en with binding := some (a, b), active := .a, outputLen := 0, stagedLen := 0, commitPending := false }).setOwner
      a (.outputActive e)).setOwner b (.outputStaged e)

/-- BIND_OUTPUT (R99). -/
def bindOutputBody (s : State) : State :=
  match index? 64 (s.arg 0), index? 128 (s.arg 1), index? 128 (s.arg 2) with
  | some e, some a, some b =>
    if s.mode ≠ .config then s.refuse .wrongMode
    else if (s.entry e).binding.isSome then s.refuse .alreadyBound
    else if s.twoHostBlocks a b then (s.bindEntry e a b).complete .ok 0
    else s.refuse .notOwner
  | _, _, _ => s.refuse .badArgument

/-- The image pair of a station is bound (R105). -/
def bindStation (t : StationIx) (a b : BlockIx) (s : State) : State :=
  ((s.modifyStation t fun st =>
    { st with image := some (a, b), current := .a, imageLen := 0, nextLen := 0, hold := false, newer := false }).setOwner
      a (.imageCurrent t)).setOwner b (.imageNext t)

/-- BIND_IMAGE (R105). -/
def bindImageBody (s : State) : State :=
  match index? 32 (s.arg 0), index? 128 (s.arg 1), index? 128 (s.arg 2) with
  | some t, some a, some b =>
    if s.mode ≠ .config then s.refuse .wrongMode
    else if (s.station t).image.isSome then s.refuse .alreadyBound
    else if s.twoHostBlocks a b then (s.bindStation t a b).complete .ok 0
    else s.refuse .notOwner
  | _, _, _ => s.refuse .badArgument

/-- The output pair of an entry returns to the host (R100). -/
def unbindEntry (e : EntryIx) (p : BlockIx × BlockIx) (s : State) : State :=
  ((s.modifyEntry e fun en =>
    { en with binding := none, active := .a, outputLen := 0, stagedLen := 0, commitPending := false }).setOwner
      p.1 .host).setOwner p.2 .host

/-- UNBIND_OUTPUT (R100). -/
def unbindOutputBody (s : State) : State :=
  match index? 64 (s.arg 0) with
  | none => s.refuse .badArgument
  | some e =>
    if s.mode ≠ .config then s.refuse .wrongMode
    else
      match (s.entry e).binding with
      | none => s.refuse .notBound
      | some p => (s.unbindEntry e p).complete .ok 0

/-- The image pair of a station returns to the host (R106). -/
def unbindStation (t : StationIx) (p : BlockIx × BlockIx) (s : State) : State :=
  ((s.modifyStation t fun st =>
    { st with image := none, current := .a, imageLen := 0, nextLen := 0, hold := false, newer := false }).setOwner
      p.1 .host).setOwner p.2 .host

/-- UNBIND_IMAGE (R106). -/
def unbindImageBody (s : State) : State :=
  match index? 32 (s.arg 0) with
  | none => s.refuse .badArgument
  | some t =>
    if s.mode ≠ .config then s.refuse .wrongMode
    else
      match (s.station t).image with
      | none => s.refuse .notBound
      | some p => (s.unbindStation t p).complete .ok 0

/-- COMMIT_OUTPUT (R101). -/
def commitOutputBody (s : State) : State :=
  match index? 64 (s.arg 0) with
  | none => s.refuse .badArgument
  | some e =>
    match (s.entry e).stagedBlock with
    | none => s.refuse .notBound
    | some b =>
      if 32 < (s.arg 1).toNat then s.refuse .badArgument
      else if (s.entry e).commitPending then s.refuse .commitPending
      else
        (s.modifyEntry e fun en => { en with commitPending := true, stagedLen := (s.arg 1).setWidth 6 }).complete .ok
          (BitVec.ofNat 16 b.val)

/-- HOLD_IMAGE (R110). -/
def holdImageBody (s : State) : State :=
  match index? 32 (s.arg 0) with
  | none => s.refuse .badArgument
  | some t =>
    if (s.station t).image.isNone then s.refuse .noImage
    else if (s.station t).hold then s.refuse .wrongState
    else (s.modifyStation t fun st => { st with hold := true }).complete .ok (s.station t).imageSeq

/-- RELEASE_IMAGE (R111). -/
def releaseImageBody (s : State) : State :=
  match index? 32 (s.arg 0) with
  | none => s.refuse .badArgument
  | some t =>
    match (s.station t).image with
    | none => s.refuse .noImage
    | some p =>
      if !(s.station t).hold then s.refuse .wrongState
      else
        let s1 := s.modifyStation t fun st => { st with hold := false }
        if (s.station t).newer then
          let s2 := s1.flipImage t p (s.station t).nextLen
          (s2.flush [s2.imageNotice t]).complete .ok 1
        else s1.complete .ok 0

/-! ## Acyclic requests -/

/-- Checks 2 to 9 of R117, in order, for a request that passed check 1. -/
def submitError (s : State) (r : Request) : Option ResultCode :=
  let st := s.station r.station
  if s.lowestFreeSlot.isNone then some .queueFull
  else if s.tagInUse r.tag then some .tagInUse
  else if !(s.line st.line).enable then some .lineDisabled
  else if !st.enabled then some .badArgument
  else if st.health = .parked then some .stationParked
  else if st.health = .offline then some .stationOffline
  else if s.owner r.reqBlock ≠ .host ∨ (∃ b, r.replyBlock = some b ∧ s.owner b ≠ .host)
      ∨ r.replyBlock = some r.reqBlock then some .notOwner
  else if 32 < r.reqLen.toNat then some .badArgument
  else none

/-- The slot a request fills (R118). -/
def slotOf (r : Request) : Slot where
  state := .pending
  deferred := false
  abortLate := false
  kind := r.kind
  priority := r.priority
  station := r.station
  tag := r.tag
  retries := r.retries
  attempts := 0
  busyCount := 0
  reqBlock := blockField (some r.reqBlock)
  replyBlock := blockField r.replyBlock
  reqLen := r.reqLen.setWidth 6
  replyLen := 0
  outcome := .ok

/-- A reply block, when one is given, is lent to the slot (R118). -/
def lendReply (k : SlotIx) (b : Option BlockIx) (s : State) : State :=
  match b with
  | none => s
  | some b => s.setOwner b (.reply k)

/-- The slot is filled and its blocks are lent (R118). -/
def fillSlot (k : SlotIx) (r : Request) (s : State) : State :=
  ((({ s with submitted := s.submitted ++ [k] } : State).setSlot k (slotOf r)).setOwner r.reqBlock (.request k)).lendReply k
    r.replyBlock

/-- SUBMIT (R117, R118). A new slot is an event for an IDLE engine of its station's line (R26). -/
def submitBody (s : State) : State :=
  match (SubmitArgs.unpack (s.arg 0) (s.arg 1) (s.arg 2) (s.arg 3)).check1 with
  | none => s.refuse .badArgument
  | some r =>
    match s.submitError r, s.lowestFreeSlot with
    | some e, _ => s.refuse e
    | none, none => s.refuse .queueFull
    | none, some k =>
      ((s.fillSlot k r).complete .ok (BitVec.ofNat 16 k.val)).wakeIdle (s.station r.station).line

/-- ABORT (R128). An ACTIVE slot becomes ABORT_PENDING, and ABORT reaches its transaction, which ends at once when it waits between
attempts (R39). -/
def abortBody (s : State) : State :=
  match index? 16 (s.arg 0) with
  | none => s.refuse .badArgument
  | some k =>
    match (s.slot k).state with
    | .free => s.refuse .noSuchRequest
    | .abortPending | .done => s.refuse .notAbortable
    | .pending =>
      let (s1, p) := s.finishSlot k .aborted 0
      (s1.flush [[p]]).complete .ok 0
    | .active =>
      let s1 := (s.modifySlot k fun sl => { sl with state := .abortPending }).complete .ok 1
      let n := s.slotLine k
      if (s.line n).attempt.any (fun a => a.origin == .acyclic k) then settle n (s1.stopTransaction n .abort) else s1

/-! ## Stations -/

/-- The engine of the station's line holds an attempt record of this station (R86). -/
def transactionOf (s : State) (t : StationIx) : Bool :=
  (s.line (s.station t).line).attempt.any fun a => a.station == some t

/-- The park takes effect with no transaction in flight (R86): its posts in free order where both owners have some. -/
def parkAtOnce (t : StationIx) (s : State) : State :=
  let (s1, stationPosts, slotPosts) := s.parkNow t
  s1.flush [stationPosts, slotPosts]

/-- PARK (R86, R87): the PENDING slots complete first; then the park takes effect, or PARK joins the STOP set of the transaction in
flight and the command stays BUSY. -/
def parkBody (s : State) : State :=
  match index? 32 (s.arg 0) with
  | none => s.refuse .badArgument
  | some t =>
    if (s.station t).health = .parked then s.refuse .wrongState
    else
      let (s1, ps) := s.finishPendingOf t .stationParked
      let s2 := s1.flush [ps]
      if s2.transactionOf t then settle (s.station t).line (s2.stopTransaction (s.station t).line .park)
      else s2.parkAtOnce t

/-- A RESUME that is taken (R88). -/
def resumeStation (t : StationIx) (s : State) : State :=
  let st := s.station t
  ((s.setStation t st.toOnline).flush [healthNotice t st st.toOnline]).complete .ok (st.health.code.setWidth 16)

/-- RESUME (R88). -/
def resumeBody (s : State) : State :=
  match index? 32 (s.arg 0) with
  | none => s.refuse .badArgument
  | some t =>
    match (s.station t).health with
    | .online | .degraded => s.refuse .wrongState
    | .offline => if (s.station t).reachable then s.resumeStation t else s.refuse .notReachable
    | .parked => s.resumeStation t

/-- CLEAR_COUNTERS (R90). -/
def clearCountersBody (s : State) : State :=
  if s.arg 0 = 0xFFFF then (s.mapStations fun _ st => st.clearCounters).complete .ok 32
  else
    match index? 32 (s.arg 0) with
    | none => s.refuse .badArgument
    | some t => (s.modifyStation t Station.clearCounters).complete .ok 1

/-! ## LINE_BREAK (R47, R48) -/

/-- The break request is carried out according to the engine state (R48): at once, by joining a break under way, or by waiting for the
work in flight. A transaction receives BREAK and may end at once. -/
def requestBreak (n : LineId) (s : State) : State :=
  if (s.line n).engine = .breaking then s
  else settle n ((s.modifyLine n fun l => { l with breakRequest := true }).stopTransaction n .brk)

/-- The line a LINE_BREAK names (R47 check 1). -/
def lineArg (w : Word) : Option LineId := if w = 0 then some .zero else if w = 1 then some .one else none

/-- LINE_BREAK (R47): taken in RUN, QUIESCING and QUIESCED for an enabled line; the command stays BUSY. -/
def lineBreakBody (s : State) : State :=
  match lineArg (s.arg 0) with
  | none => s.refuse .badArgument
  | some n =>
    if s.mode = .config then s.refuse .wrongMode
    else if !(s.line n).enable then s.refuse .lineDisabled
    else s.requestBreak n

/-! ## Codes -/

/-- The body of a code (Table 10-7); any other code completes with BAD_COMMAND (R169). -/
def commandBody (code : Word) : State → State :=
  match code.toNat with
  | 0x01 => allocBlockBody
  | 0x02 => freeBlockBody
  | 0x03 => bindOutputBody
  | 0x04 => bindImageBody
  | 0x05 => unbindOutputBody
  | 0x06 => unbindImageBody
  | 0x07 => commitOutputBody
  | 0x08 => holdImageBody
  | 0x09 => releaseImageBody
  | 0x0A => submitBody
  | 0x0B => abortBody
  | 0x0C => parkBody
  | 0x0D => resumeBody
  | 0x0E => clearCountersBody
  | 0x0F => lineBreakBody
  | _ => refuse .badCommand

/-- A host write of CMD with any code (R169). -/
def cmdWrite (code : Word) (s : State) : State := s.hostCommand code (commandBody code)

end State

/-! ## The rows -/

/-- COMMAND_OVERRUN (R169): a CMD write while a command is BUSY. As every CMD write, it is taken when none is (log entry 17). -/
def execCommandOverrun (code : Word) (s : State) : Host.Outcome State Fault Refusal := .next (s.cmdWrite code)

/-- BAD_COMMAND (R169): a CMD write whose code names no command. -/
def execBadCommand (code : Word) (s : State) : Host.Outcome State Fault Refusal := .next (s.cmdWrite code)

/-- ALLOC_BLOCK (R96). -/
def execAllocBlock (s : State) : Host.Outcome State Fault Refusal := .next (s.hostCommand 0x01 State.allocBlockBody)

/-- FREE_BLOCK (R97). -/
def execFreeBlock (s : State) : Host.Outcome State Fault Refusal := .next (s.hostCommand 0x02 State.freeBlockBody)

/-- BIND_OUTPUT (R99). -/
def execBindOutput (s : State) : Host.Outcome State Fault Refusal := .next (s.hostCommand 0x03 State.bindOutputBody)

/-- BIND_IMAGE (R105). -/
def execBindImage (s : State) : Host.Outcome State Fault Refusal := .next (s.hostCommand 0x04 State.bindImageBody)

/-- UNBIND_OUTPUT (R100). -/
def execUnbindOutput (s : State) : Host.Outcome State Fault Refusal := .next (s.hostCommand 0x05 State.unbindOutputBody)

/-- UNBIND_IMAGE (R106). -/
def execUnbindImage (s : State) : Host.Outcome State Fault Refusal := .next (s.hostCommand 0x06 State.unbindImageBody)

/-- COMMIT_OUTPUT (R101). -/
def execCommitOutput (s : State) : Host.Outcome State Fault Refusal := .next (s.hostCommand 0x07 State.commitOutputBody)

/-- HOLD_IMAGE (R110). -/
def execHoldImage (s : State) : Host.Outcome State Fault Refusal := .next (s.hostCommand 0x08 State.holdImageBody)

/-- RELEASE_IMAGE (R111). -/
def execReleaseImage (s : State) : Host.Outcome State Fault Refusal := .next (s.hostCommand 0x09 State.releaseImageBody)

/-- SUBMIT (R117). -/
def execSubmit (s : State) : Host.Outcome State Fault Refusal := .next (s.hostCommand 0x0A State.submitBody)

/-- ABORT (R128). -/
def execAbort (s : State) : Host.Outcome State Fault Refusal := .next (s.hostCommand 0x0B State.abortBody)

/-- PARK (R86). -/
def execPark (s : State) : Host.Outcome State Fault Refusal := .next (s.hostCommand 0x0C State.parkBody)

/-- RESUME (R88). -/
def execResume (s : State) : Host.Outcome State Fault Refusal := .next (s.hostCommand 0x0D State.resumeBody)

/-- CLEAR_COUNTERS (R90). -/
def execClearCounters (s : State) : Host.Outcome State Fault Refusal := .next (s.hostCommand 0x0E State.clearCountersBody)

/-- LINE_BREAK (R47). -/
def execLineBreak (s : State) : Host.Outcome State Fault Refusal := .next (s.hostCommand 0x0F State.lineBreakBody)

/-- PARK_TAKES_EFFECT (R87): a waiting PARK whose station has no transaction in flight. The step that ended the transaction has done
so already; the row repeats it (log entry 11). -/
def execParkTakesEffect (s : State) : Host.Outcome State Fault Refusal :=
  .next (match s.waitingPark with
    | none => s
    | some t => if s.transactionOf t then s else s.parkAtOnce t)

end Sys2Proof.Machine
end

