-- ==== Sys2Proof/Machine/Registers.lean ====
section
/-!
DEFINITION. The register window (R162 to R164, R179, Table 9-1): reads as a view, host writes, and the rows of single registers.
-/

namespace Sys2Proof.Machine

namespace State

/-! ## Reads -/

/-- DEVSTAT (Table 10-1). -/
def devstat (s : State) : Word :=
  0#9 ++ bit (s.cmdState == .busy) ++ bit (s.mode != .init) ++ bit s.reqRefused ++ bit s.pendingRequest.isSome
    ++ s.mode.code

/-- MODEREQ as it reads: the code of the request being carried out, or 0 (R148). -/
def modereqWord (s : State) : Word :=
  match s.pendingRequest with
  | none => 0
  | some r => r.code.setWidth 16

def accinfo (s : State) : Word :=
  0#11 ++ s.accMode.code
    ++ (match s.accDir with | .read => 0#1 | .write => 1#1)
    ++ (match s.accSpace with | .register => 0#1 | .tap => 1#1)

def cstat (s : State) : Word := 0#3 ++ s.result.code ++ 0#5 ++ bit s.overrun ++ s.cmdState.code

def evcount (s : State) : Word := 0#3 ++ BitVec.ofNat 5 s.held ++ 0#1 ++ BitVec.ofNat 7 s.events.length

def dmactl (s : State) : Word := 0#6 ++ s.dmaWord ++ 0#7 ++ bit s.drain

/-- The registers of a line, by their place in its group of eight (Table 10-1). -/
def lineWord (l : Line) (i : Nat) : Word :=
  match i with
  | 0 => l.cfgWord
  | 1 => 0#4 ++ l.div
  | 2 => l.timeWord
  | 3 => l.period
  | 4 => l.statWord
  | 5 => l.cycnum
  | 6 => l.unsol
  | _ => l.noise

/-- The value a register reads as (Table 9-1), by its word address; a read of TAPDATA gives this word too (0 where it is refused), and
what the read changes is the row's. Unassigned positions read 0 (R164). -/
def readRegister (s : State) (a : BitVec 6) : Word :=
  match a.toNat with
  | 0x00 => s.devstat
  | 0x01 => s.modereqWord
  | 0x02 => 0
  | 0x03 => 0#2 ++ s.errIndex ++ 0#4 ++ s.errCode
  | 0x04 => s.tapaddr
  | 0x05 => if s.inInit then 0 else (s.tapRead? s.tapaddr.toNat).getD 0
  | 0x06 => s.accaddr
  | 0x07 => s.accinfo
  | 0x08 => s.cmd
  | 0x09 => s.carg.get 0
  | 0x0A => s.carg.get 1
  | 0x0B => s.carg.get 2
  | 0x0C => s.carg.get 3
  | 0x0D => s.cstat
  | 0x0E => s.cvalue
  | 0x10 => s.headWord 0
  | 0x11 => s.headWord 1
  | 0x12 => s.headWord 2
  | 0x13 => s.headWord 3
  | 0x14 => s.evcount
  | 0x15 => s.evlost
  | 0x16 => 0#9 ++ s.evthresh
  | 0x17 => s.dmactl
  | 0x18 => s.iflag
  | 0x19 => s.ienable
  | 0x1A => s.levelWord 0
  | 0x1B => s.levelWord 1
  | 0x1C => s.levelWord 2
  | 0x1D => s.levelWord 3
  | 0x1E => 0#13 ++ s.ithresh
  | 0x1F => 0#11 ++ s.itop
  | 0x20 => lineWord s.line0 0
  | 0x21 => lineWord s.line0 1
  | 0x22 => lineWord s.line0 2
  | 0x23 => lineWord s.line0 3
  | 0x24 => lineWord s.line0 4
  | 0x25 => lineWord s.line0 5
  | 0x26 => lineWord s.line0 6
  | 0x27 => lineWord s.line0 7
  | 0x28 => lineWord s.line1 0
  | 0x29 => lineWord s.line1 1
  | 0x2A => lineWord s.line1 2
  | 0x2B => lineWord s.line1 3
  | 0x2C => lineWord s.line1 4
  | 0x2D => lineWord s.line1 5
  | 0x2E => lineWord s.line1 6
  | 0x2F => lineWord s.line1 7
  | _ => 0

/-! ## Writes -/

/-- The byte offset of a register, which ACCADDR records (R167). -/
def registerOffset (a : BitVec 6) : Word := 0#9 ++ a ++ 0#1

/-- A refused register write (R163, R164, R167). -/
def refuseRegister (a : BitVec 6) (s : State) : State := s.refuseAccess .register .write (registerOffset a)

/-- DEVSTAT: 1 in REQ_REFUSED clears it (R148). -/
def devstatWrite (v : Word) (s : State) : State := if v.getLsbD 4 then { s with reqRefused := false } else s

/-- CTRL: 1 in the reset position is a control reset, 0 does nothing (R160). -/
def ctrlWrite (v : Word) (s : State) : State := if v.getLsbD 0 then s.controlReset else s

/-- A line configuration register is stored in CONFIG and refused in RUN, QUIESCING and QUIESCED (R163). -/
def writeLineConfig (a : BitVec 6) (n : LineId) (f : Line → Line) (s : State) : State :=
  if s.mode = .config then s.modifyLine n f else s.refuseRegister a

/-- EVTHRESH judged as a whole word: 0 stores 1, above 64 stores 64 (R143, R179). -/
def narrowEvthresh (v : Word) : BitVec 7 := if v = 0 then 1 else if 64 < v.toNat then 64 else v.setWidth 7

def evthreshWrite (v : Word) (s : State) : State := { s with evthresh := narrowEvthresh v }

/-- EVLOST: any value sets 0 (R143). -/
def evlostWrite (_v : Word) (s : State) : State := { s with evlost := 0 }

/-- DMACTL: DRAIN is stored; clearing it returns the DMA word pointer to w0 (R145). -/
def dmactlWrite (v : Word) (s : State) : State :=
  { s with drain := v.getLsbD 0, dmaWord := if s.drain && !v.getLsbD 0 then 0 else s.dmaWord }

def storeCarg (i : Fin 4) (v : Word) (s : State) : State := { s with carg := s.carg.set i v }

/-- A host write outside INIT, by word address (Table 9-1, R162 to R164). -/
def writeRegister (a : BitVec 6) (v : Word) (s : State) : State :=
  match a.toNat with
  | 0x00 => s.devstatWrite v
  | 0x01 => s.modeRequest v
  | 0x02 => s.ctrlWrite v
  | 0x04 => { s with tapaddr := v }
  | 0x05 => s.tapdataWrite v
  | 0x08 => s.cmdWrite v
  | 0x09 => s.storeCarg 0 v
  | 0x0A => s.storeCarg 1 v
  | 0x0B => s.storeCarg 2 v
  | 0x0C => s.storeCarg 3 v
  | 0x15 => s.evlostWrite v
  | 0x16 => s.evthreshWrite v
  | 0x17 => s.dmactlWrite v
  | 0x18 => s.clearFlags v
  | 0x19 => { s with ienable := v }
  | 0x1A => s.storeLevels 0 v
  | 0x1B => s.storeLevels 1 v
  | 0x1C => s.storeLevels 2 v
  | 0x1D => s.storeLevels 3 v
  | 0x1E => s.storeThresh v
  | 0x20 => s.writeLineConfig a .zero (Line.storeCfg v)
  | 0x21 => s.writeLineConfig a .zero (Line.storeDiv v)
  | 0x22 => s.writeLineConfig a .zero (Line.storeTime v)
  | 0x23 => s.writeLineConfig a .zero (Line.storePeriod v)
  | 0x28 => s.writeLineConfig a .one (Line.storeCfg v)
  | 0x29 => s.writeLineConfig a .one (Line.storeDiv v)
  | 0x2A => s.writeLineConfig a .one (Line.storeTime v)
  | 0x2B => s.writeLineConfig a .one (Line.storePeriod v)
  | _ => s.refuseRegister a

/-- A host write to the window: ignored in INIT (R150). -/
def hostWrite (a : BitVec 6) (v : Word) (s : State) : State := if s.inInit then s else s.writeRegister a v

/-! ## Reads that change state -/

/-- A read of EVREC3: w3 of the head record, which is removed; in INIT and on an empty queue 0 (R142, R150). -/
def evrec3Read (s : State) : State := ({ s with dout := s.headWord 3 } : State).removeHead

/-- The pointer after a DMA read: the next word, or the removal after w3 (R144); DRAINED when that leaves the queue empty (R145). -/
def advanceDma (s : State) : State :=
  if s.dmaWord = 3 then
    let s1 := s.removeHead
    if s1.events = [] then s1.raise .drained else s1
  else { s with dmaWord := s.dmaWord + 1 }

/-- A read with DACK# asserted (R144). -/
def dmaRead (s : State) : State :=
  if s.dreq then ({ s with dout := s.headWord s.dmaWord.toNat } : State).advanceDma else { s with dout := 0 }

end State

/-! ## The rows -/

/-- DEVSTAT_WRITE (R148). -/
def execDevstatWrite (v : Word) (s : State) : Host.Outcome State Fault Refusal := .next (s.hostWrite 0x00 v)

/-- EVREC3_READ (R142). -/
def execEvrec3Read (s : State) : Host.Outcome State Fault Refusal := .next s.evrec3Read

/-- EVLOST_WRITE (R143). -/
def execEvlostWrite (v : Word) (s : State) : Host.Outcome State Fault Refusal := .next (s.hostWrite 0x15 v)

/-- EVTHRESH_WRITE (R143). -/
def execEvthreshWrite (v : Word) (s : State) : Host.Outcome State Fault Refusal := .next (s.hostWrite 0x16 v)

/-- DMACTL_WRITE (R145). -/
def execDmactlWrite (v : Word) (s : State) : Host.Outcome State Fault Refusal := .next (s.hostWrite 0x17 v)

/-- DMA_READ (R144). -/
def execDmaRead (s : State) : Host.Outcome State Fault Refusal := .next s.dmaRead

/-- IFLAG_WRITE (R175). -/
def execIflagWrite (v : Word) (s : State) : Host.Outcome State Fault Refusal := .next (s.hostWrite 0x18 v)

/-- ILEVEL_WRITE (R176): ILEVELk stands at word address 0x1A + k. -/
def execIlevelWrite (r : Fin 4) (v : Word) (s : State) : Host.Outcome State Fault Refusal :=
  .next (s.hostWrite (BitVec.ofNat 6 (0x1A + r.val)) v)

/-- ITHRESH_WRITE (R176). -/
def execIthreshWrite (v : Word) (s : State) : Host.Outcome State Fault Refusal := .next (s.hostWrite 0x1E v)

/-- LINEDIV_WRITE (R3). -/
def execLinedivWrite (n : LineId) (v : Word) (s : State) : Host.Outcome State Fault Refusal :=
  .next (match n with
    | .zero => s.hostWrite 0x21 v
    | .one => s.hostWrite 0x29 v)

/-- REGISTER_WRITE (R162). -/
def execRegisterWrite (a : BitVec 6) (v : Word) (s : State) : Host.Outcome State Fault Refusal := .next (s.hostWrite a v)

end Sys2Proof.Machine
end

