-- ==== Sys2Proof/Machine/Dispatch.lean ====
section
/-!
DEFINITION. One arm per command: the meaning of every row.
-/

namespace Sys2Proof.Machine

def exec (i : Instr) (s : State) : Host.Outcome State Fault Refusal :=
  match i with
  | .hardReset => Sys2Proof.Machine.execHardReset s
  | .resetRelease => Sys2Proof.Machine.execResetRelease s
  | .clearingComplete => Sys2Proof.Machine.execClearingComplete s
  | .controlReset => Sys2Proof.Machine.execControlReset s
  | .startConfirmed n => Sys2Proof.Machine.execStartConfirmed n s
  | .characterArrival n t => Sys2Proof.Machine.execCharacterArrival n t s
  | .characterSent n => Sys2Proof.Machine.execCharacterSent n s
  | .replyWindowExpiry n => Sys2Proof.Machine.execReplyWindowExpiry n s
  | .gapLimitExceeded n => Sys2Proof.Machine.execGapLimitExceeded n s
  | .quietWaitEnd n => Sys2Proof.Machine.execQuietWaitEnd n s
  | .quietLimitExpiry n => Sys2Proof.Machine.execQuietLimitExpiry n s
  | .turnaroundSatisfied n => Sys2Proof.Machine.execTurnaroundSatisfied n s
  | .cycleStart n => Sys2Proof.Machine.execCycleStart n s
  | .breakStart n => Sys2Proof.Machine.execBreakStart n s
  | .breakLowEnd n => Sys2Proof.Machine.execBreakLowEnd n s
  | .lineBreakEnd n => Sys2Proof.Machine.execLineBreakEnd n s
  | .parkTakesEffect => Sys2Proof.Machine.execParkTakesEffect s
  | .quiescedReached => Sys2Proof.Machine.execQuiescedReached s
  | .heldCompletionTaken => Sys2Proof.Machine.execHeldCompletionTaken s
  | .modereqRun => Sys2Proof.Machine.execModereqRun s
  | .modereqQuiesce => Sys2Proof.Machine.execModereqQuiesce s
  | .modereqConfig => Sys2Proof.Machine.execModereqConfig s
  | .devstatWrite v => Sys2Proof.Machine.execDevstatWrite v s
  | .tapdataRead => Sys2Proof.Machine.execTapdataRead s
  | .tapdataWrite v => Sys2Proof.Machine.execTapdataWrite v s
  | .evrec3Read => Sys2Proof.Machine.execEvrec3Read s
  | .evlostWrite v => Sys2Proof.Machine.execEvlostWrite v s
  | .evthreshWrite v => Sys2Proof.Machine.execEvthreshWrite v s
  | .dmactlWrite v => Sys2Proof.Machine.execDmactlWrite v s
  | .dmaRead => Sys2Proof.Machine.execDmaRead s
  | .iflagWrite v => Sys2Proof.Machine.execIflagWrite v s
  | .ilevelWrite r v => Sys2Proof.Machine.execIlevelWrite r v s
  | .ithreshWrite v => Sys2Proof.Machine.execIthreshWrite v s
  | .linedivWrite n v => Sys2Proof.Machine.execLinedivWrite n v s
  | .registerWrite a v => Sys2Proof.Machine.execRegisterWrite a v s
  | .commandOverrun c => Sys2Proof.Machine.execCommandOverrun c s
  | .badCommand c => Sys2Proof.Machine.execBadCommand c s
  | .allocBlock => Sys2Proof.Machine.execAllocBlock s
  | .freeBlock => Sys2Proof.Machine.execFreeBlock s
  | .bindOutput => Sys2Proof.Machine.execBindOutput s
  | .bindImage => Sys2Proof.Machine.execBindImage s
  | .unbindOutput => Sys2Proof.Machine.execUnbindOutput s
  | .unbindImage => Sys2Proof.Machine.execUnbindImage s
  | .commitOutput => Sys2Proof.Machine.execCommitOutput s
  | .holdImage => Sys2Proof.Machine.execHoldImage s
  | .releaseImage => Sys2Proof.Machine.execReleaseImage s
  | .submit => Sys2Proof.Machine.execSubmit s
  | .abort => Sys2Proof.Machine.execAbort s
  | .park => Sys2Proof.Machine.execPark s
  | .resume => Sys2Proof.Machine.execResume s
  | .clearCounters => Sys2Proof.Machine.execClearCounters s
  | .lineBreak => Sys2Proof.Machine.execLineBreak s
  | .candidateStartBit n => Sys2Proof.Machine.execCandidateStartBit n s
  | .startNotConfirmed n => Sys2Proof.Machine.execStartNotConfirmed n s
  | .lineReturnsTo1 n => Sys2Proof.Machine.execLineReturnsTo1 n s

end Sys2Proof.Machine
end

