-- ==== Sys2Proof/Safety.lean ====
section
/-!
DEFINITION. What the statements speak of: the laws the manual states of the machine as a whole, as predicates of a state,
and the words a completed command, a refused access and a reset leave.
-/

namespace Sys2Proof.Machine

/-- A step that answers a next state. -/
def Completes (i : Instr) (s : State) : Prop := ∃ t, exec i s = .next t

/-! ## What resets, samples and arrivals give, in the manual's words -/

/-- The words of Table 10-1 after hard reset, with DEVSTAT in INIT. -/
def hardResetWord (a : BitVec 6) : Word :=
  match a.toNat with
  | 0x16 | 0x1E => 0x0001
  | 0x1A | 0x1B | 0x1C | 0x1D => 0x1111
  | 0x1F => 0x001F
  | 0x21 | 0x29 => 0x00FF
  | 0x22 | 0x2A => 0x1204
  | 0x23 | 0x2B => 0x03E8
  | _ => 0x0000

/-- The words of Table 10-4 of a station record after hard reset. -/
def stationResetWord (i : Nat) : Word :=
  match i with
  | 0 => 0x0030
  | 1 => 0x0008
  | 3 => 0xFF08
  | _ => 0x0000

/-- Two of three samples at 1 (R5). -/
def majority (t : Samples) : Prop :=
  (t.s4 = true ∧ t.s5 = true) ∨ (t.s4 = true ∧ t.s6 = true) ∨ (t.s5 = true ∧ t.s6 = true)

/-- The three samples of a position agree (R5). -/
def samplesAgree (t : Samples) : Prop := t.s4 = t.s5 ∧ t.s5 = t.s6

/-- The line after the delivery of a character (R6, R46), before the engine takes it. -/
def delivered (l : Line) (t : CharSamples) : Line :=
  { l with
    rx := if (CharSamples.decode t).framing then .waitHigh else .hunting
    rxd := t.stop.s6
    noise := if (CharSamples.decode t).noise = true ∧ l.engine ≠ .off ∧ l.engine ≠ .breaking ∧ l.engine ≠ .faulted
      then satInc l.noise else l.noise }

/-- The check of Table 2-4 that decides at an arrival (R33): position, character, outcome. -/
def arrivalFails (position : Nat) (c : RxChar) (o : OutcomeCode) : Prop :=
  (o = .framing ∧ c.framing = true)
    ∨ (o = .fragment ∧ c.framing = false ∧ ((position = 1 ∧ c.mark = false) ∨ (position ≠ 1 ∧ c.mark = true)))
    ∨ (o = .badFrame ∧ c.framing = false ∧ position = 1 ∧ c.mark = true
        ∧ ((c.byte.extractLsb' 5 3).toNat < 4 ∨ (c.byte.extractLsb' 5 3).toNat = 7))
    ∨ (o = .badFrame ∧ c.framing = false ∧ position = 2 ∧ c.mark = false ∧ 32 < (c.byte.extractLsb' 0 6).toNat)

/-! ## Commands and accesses, in the manual's words -/

/-- The code a row writes to CMD (Table 10-7, R169). -/
def commandCode? : Instr → Option Word
  | .commandOverrun code | .badCommand code => some code
  | .allocBlock => some 0x01
  | .freeBlock => some 0x02
  | .bindOutput => some 0x03
  | .bindImage => some 0x04
  | .unbindOutput => some 0x05
  | .unbindImage => some 0x06
  | .commitOutput => some 0x07
  | .holdImage => some 0x08
  | .releaseImage => some 0x09
  | .submit => some 0x0A
  | .abort => some 0x0B
  | .park => some 0x0C
  | .resume => some 0x0D
  | .clearCounters => some 0x0E
  | .lineBreak => some 0x0F
  | _ => none

/-- The rows that are host writes to the window (Table 9-1). -/
def isHostWrite : Instr → Bool
  | .controlReset | .modereqRun | .modereqQuiesce | .modereqConfig | .devstatWrite _ | .tapdataWrite _ | .evlostWrite _
  | .evthreshWrite _ | .dmactlWrite _ | .iflagWrite _ | .ilevelWrite _ _ | .ithreshWrite _ | .linedivWrite _ _
  | .registerWrite _ _ => true
  | c => (commandCode? c).isSome

namespace State

/-- The Command Unit takes a CMD write (R150, R169). -/
def accepts (s : State) : Prop := s.mode ≠ .init ∧ s.cmdState ≠ .busy

/-- Argument word `i` holds the number `v` (R170: the whole 16-bit word). -/
def argIs (s : State) (i : Fin 4) (v : Nat) : Prop := (s.carg.get i).toNat = v

/-- A command that has been taken and not yet completed (R169, R171). -/
def commandTaken (code : Word) (s : State) : State :=
  { s with cmd := code, args := s.carg, overrun := false, result := .ok, cvalue := 0, cmdState := .busy }

/-- A command that has been taken and completed in one step (R169, R170): CMD_DONE is bit 4 of IFLAG. -/
def commandDone (code : Word) (r : ResultCode) (v : Word) (s : State) : State :=
  { s with
    cmd := code
    args := s.carg
    overrun := false
    result := r
    cvalue := v
    cmdState := .done
    edges := s.edges ||| 0x0010 }

/-- A refused access (R167): ACCESS_ERROR is bit 15 of IFLAG; the record is loaded when the flag was clear. -/
def accessRefused (space : AccessSpace) (dir : AccessDirection) (address : Word) (s : State) : State :=
  if s.edges.getLsbD 15 then s
  else { s with accaddr := address, accSpace := space, accDir := dir, accMode := s.mode, edges := s.edges ||| 0x8000 }

end State

/-! ## Situations the statements speak of -/

/-- The engine of line n sends character `c` of the attempt `a`. -/
def sends (s : State) (n : LineId) (a : Attempt) (c : TxChar) : Prop :=
  (s.line n).engine = .sending ∧ (s.line n).attempt = some a ∧ (s.line n).drive = .character c

/-- The read-back of the character sent agrees (R16): same byte, same mark, no framing mark, noise or not. -/
def agrees (s : State) (n : LineId) (c : TxChar) : Prop :=
  ∃ r, (s.line n).readBack = some r ∧ r.byte = c.byte ∧ r.mark = c.mark ∧ r.framing = false

/-- The bit of LINE_FAULT_n in IFLAG (Table 9-7). -/
def lineFaultBit : LineId → Word
  | .zero => 0x1000
  | .one => 0x2000

/-- The line is quiet (R20), as the model sees it: HUNTING with RXDn at 1, or a start not yet confirmed (log entry 8). -/
def isQuiet (l : Line) : Prop := (l.rx = .hunting ∧ l.rxd = true) ∨ l.rx = .starting

/-- The station record after an attempt of this outcome has ended (R37, R81). -/
def attemptCounted (o : OutcomeCode) (st : Station) : Station :=
  { st with failedAttempts := if o.isMiss then satInc st.failedAttempts else st.failedAttempts }

/-- The outcome of a complete reply (R34): the check sequence, the address and the sequence, in this order, then the kind. -/
def replyGives (a : Attempt) (received : Word) (address : BitVec 5) (o : OutcomeCode) : Prop :=
  (o = .crcError ∧ a.check ≠ received)
    ∨ (o = .wrongStation ∧ a.check = received ∧ a.replyAddress ≠ some address)
    ∨ (o = .stale ∧ a.check = received ∧ a.replyAddress = some address ∧ a.replySeq ≠ some a.seqSent)
    ∨ (a.check = received ∧ a.replyAddress = some address ∧ a.replySeq = some a.seqSent
      ∧ ((o = .ok ∧ a.replyKind = some .ok) ∨ (o = .busy ∧ a.replyKind = some .busy) ∨ (o = .refused ∧ a.replyKind = some .refused)))

/-- The last check character of a reply arrives in line n, in good form (R15, R33). -/
def replyEnds (s : State) (n : LineId) (t : CharSamples) (a : Attempt) (len : BitVec 6) : Prop :=
  (s.line n).rx = .assembling ∧ (s.line n).engine = .receiving ∧ (s.line n).attempt = some a ∧ a.replyLen = some len
    ∧ a.received = len.toNat + 3 ∧ (CharSamples.decode t).framing = false ∧ (CharSamples.decode t).mark = false

/-- The engine of line n is in TURNAROUND and the line is quiet. -/
def turnaroundDone (s : State) (n : LineId) : Prop :=
  (s.line n).engine = .turnaround ∧ isQuiet (s.line n)

/-- A decision point of line n: RUN, the turnaround satisfied, no attempt record (R26). -/
def decides (s : State) (n : LineId) : Prop :=
  turnaroundDone s n ∧ s.mode = .run ∧ (s.line n).attempt = none

/-- The line once its frame has begun (R1, R29): DEn asserted with the first character, the rest to follow. -/
def sending (l : Line) (a : Attempt) (frame : List TxChar) : Line :=
  { l with
    settled := true, engine := .sending, attempt := some a, readBack := none
    drive := match frame with | [] => .released | c :: _ => .character c
    frameRest := frame.tail }

/-- The bit of CYCLE_END_n in IFLAG (Table 9-7). -/
def cycleEndBit : LineId → Word
  | .zero => 0x0100
  | .one => 0x0200

/-- The line after a cycle start, before its engine decides or starts a waiting break (R28, R39, R45, R53, R55). -/
def cycleOpened (l : Line) : Line :=
  { l with
    timerRunning := true, runningCount := l.period, cycnum := l.cycnum + 1, phase := .cyclic, walk := 0
    syncOwed := l.syncOwed || (l.sync && !l.faulted && l.engine != .off), urgent := false, unsolMark := false
    attempt := l.attempt.map fun a => if a.origin = .sync then a else { a with stop := { a.stop with cycle := true } } }

/-- What a cycle start of line n that an expiry produces does at the stations and slots (R55, R82, R89, R123), from s to t. -/
def cycleHandedOver (n : LineId) (s t : State) : Prop :=
  (∀ u, (s.station u).line ≠ n → t.station u = s.station u)
    ∧ (∀ u, (s.station u).line = n → (s.station u).health ≠ .offline →
      t.station u = { s.station u with age := satInc (s.station u).age })
    ∧ (∀ u, (s.station u).line = n → (s.station u).health = .offline → 1 < (s.station u).probeCountdown.toNat →
      t.station u = { s.station u with
        age := satInc (s.station u).age, probeCountdown := (s.station u).probeCountdown - 1 })
    ∧ (∀ u, (s.station u).line = n → (s.station u).health = .offline → (s.station u).probeCountdown = 1 →
      t.station u = { s.station u with
        age := satInc (s.station u).age, probeDue := true, probeCountdown := (s.station u).probeInterval })
    ∧ (∀ k, t.slot k = if (s.slot k).state = .pending ∧ (s.station (s.slot k).station).line = n
        then { s.slot k with deferred := false } else s.slot k)

/-- The release of deferred slots at a cycle start of line n (R123), from s to t. -/
def deferralsReleased (n : LineId) (s t : State) : Prop :=
  ∀ k, t.slot k = if (s.slot k).state = .pending ∧ (s.station (s.slot k).station).line = n
    then { s.slot k with deferred := false } else s.slot k

/-- The bit of CYCLE_START_n in IFLAG (Table 9-7). -/
def cycleStartBit : LineId → Word
  | .zero => 0x0040
  | .one => 0x0080

/-- The bit of OVERRUN_n in IFLAG (Table 9-7). -/
def overrunBit : LineId → Word
  | .zero => 0x0400
  | .one => 0x0800

/-- An expiry of a running timer, the engine not between attempts, and IDLE only with a break request waiting (R53, R55). -/
def expires (s : State) (n : LineId) : Prop :=
  s.mode = .run ∧ (s.line n).enable = true ∧ (s.line n).timerRunning = true
    ∧ ((s.line n).engine = .idle → (s.line n).breakRequest = true ∧ (s.line n).attempt = none)
    ∧ ∀ a, (s.line n).attempt = some a → a.retryOwed = false

/-- A remaining due entry of the old cycle (R68). -/
def remains (s : State) (n : LineId) (e : EntryIx) : Prop :=
  (s.line n).walk.val ≤ e.val ∧ s.due n (s.line n).cycnum e = some false

/-- A MODE notice (R152, Table 7-2): it belongs to no line. -/
def modeRecord (mode err index : Nat) : Event where
  kind := .mode
  line := .zero
  station := 0
  detailA := BitVec.ofNat 6 mode
  detailB := BitVec.ofNat 16 err
  cycle := 0
  extra := BitVec.ofNat 16 index

/-- Line n passes checks 2 and 3 of Table 8-3, or is disabled. -/
def lineValid (l : Line) : Prop :=
  l.enable = true → 10 ≤ l.period.toNat ∧ l.replyWindow ≠ 0 ∧ l.gapLimit ≠ 0 ∧ l.turnaround ≠ 0

/-- Station u passes checks 4 to 7 of Table 8-3, or is disabled. -/
def stationValid (s : State) (u : StationIx) : Prop :=
  (s.station u).enabled = true → (1 ≤ (s.station u).address.toNat ∧ (s.station u).address.toNat ≤ 30)
    ∧ ((s.station u).missLimit ≠ 0 ∧ (s.station u).probeInterval ≠ 0) ∧ (s.line (s.station u).line).enable = true
    ∧ ∀ v, v.val < u.val → (s.station v).enabled = true → (s.station v).line = (s.station u).line →
      (s.station v).address ≠ (s.station u).address

/-- Entry e passes checks 8 and 9 of Table 8-3, or is disabled. -/
def entryValid (s : State) (e : EntryIx) : Prop :=
  (s.entry e).enabled = true → (s.station (s.entry e).station).enabled = true
    ∧ (s.entry e).phase.toNat < 2 ^ (s.entry e).divExp.toNat

/-- A source is pending (R177). -/
def sourceIsPending (s : State) (i : Fin 16) : Prop :=
  s.iflag.getLsbD i.val = true ∧ s.ienable.getLsbD i.val = true ∧ s.ithresh.toNat ≤ (s.ilevel.get i).toNat

/-- The result of a permitted read at a Table Access Port address (R72, R93, R94, R113, R166), none where the read is refused. -/
def tapWord (s : State) (a : Nat) : Option Word → Prop
  | some w => (∃ b i, i < 16 ∧ a = 16 * b.val + i ∧ s.owner b ≠ .free ∧ w = Memory.readWord s.payload a)
      ∨ (∃ u i, i < 16 ∧ a = 0x1000 + 16 * u.val + i ∧ w = (s.station u).word i)
      ∨ (∃ e i, i < 4 ∧ a = 0x1200 + 4 * e.val + i ∧ w = (s.entry e).word i)
      ∨ (∃ k i, i < 8 ∧ a = 0x1400 + 8 * k.val + i ∧ w = (s.slot k).word i)
      ∨ (∃ b, a = 0x1600 + b.val ∧ w = (s.owner b).word)
  | none => (∃ b i, i < 16 ∧ a = 16 * b.val + i ∧ s.owner b = .free)
      ∨ (0x800 ≤ a ∧ a < 0x1000) ∨ (0x1300 ≤ a ∧ a < 0x1400) ∨ (0x1480 ≤ a ∧ a < 0x1600) ∨ 0x1680 ≤ a

/-- The state with slot k free and its blocks returned to the host (R115, R125). -/
def slotReleased (s : State) (k : SlotIx) (a b : Option BlockIx) : State :=
  let s1 := s.setSlot k { s.slot k with state := .free, deferred := false }
  let s2 := match a with | none => s1 | some a => s1.setOwner a .host
  match b with | none => s2 | some b => s2.setOwner b .host

/-- Check `i` of R117 fails for the packed request in CARG0 to CARG3 (R180), each with its result. -/
def submitFails (s : State) (i : Nat) (r : ResultCode) : Prop :=
  let a0 := (s.carg.get 0).toNat
  let tag := (s.carg.get 1).toNat
  let req := (s.carg.get 2).toNat % 256
  let reply := (s.carg.get 2).toNat / 256
  let station (p : Station → Prop) : Prop := ∀ u : StationIx, u.val = a0 % 64 → p (s.station u)
  let notHost (x : Nat) : Prop := ∀ b : BlockIx, b.val = x → s.owner b ≠ .host
  match i with
  | 1 => r = .badArgument ∧ (31 < a0 % 64 ∨ a0 / 64 % 4 = 0 ∨ a0 / 64 % 4 = 3 ∨ 3 < a0 / 256 % 8 ∨ 7 < a0 / 2048 ∨ 255 < tag
      ∨ 127 < req ∨ (127 < reply ∧ reply ≠ 255))
  | 2 => r = .queueFull ∧ ∀ k, (s.slot k).state ≠ .free
  | 3 => r = .tagInUse ∧ ∃ k, (s.slot k).state ≠ .free ∧ (s.slot k).tag.toNat = tag
  | 4 => r = .lineDisabled ∧ station fun st => (s.line st.line).enable = false
  | 5 => r = .badArgument ∧ station fun st => st.enabled = false
  | 6 => r = .stationParked ∧ station fun st => st.health = .parked
  | 7 => r = .stationOffline ∧ station fun st => st.health = .offline
  | 8 => r = .notOwner ∧ (notHost req ∨ (reply ≠ 255 ∧ notHost reply) ∨ reply = req)
  | 9 => r = .badArgument ∧ 32 < (s.carg.get 3).toNat
  | _ => False

/-- A station that becomes PARKED (R86). -/
def parked (st : Station) : Station :=
  { st with health := .parked, missCount := 0, reachable := false, probeDue := false }

/-- A STATION_STATE record as it is offered (R85, Table 10-6): the old HEALTH at 1:0, the new at 5:4; the queue writes CYCLE (R136). -/
def stateRecord (s : State) (u : StationIx) (old new : Health) (misses : BitVec 4) : Event where
  kind := .stationState
  line := (s.station u).line
  station := u
  detailA := misses.setWidth 6
  detailB := BitVec.ofNat 16 (old.code.toNat + 16 * new.code.toNat)
  cycle := 0
  extra := 0

/-! ## The ends of attempts and transactions, in the manual's words -/

/-- The quiet limit of line n has expired below the line fault limit (R35, R43): LINE_FAULT_n and its notice, before the count is stored. -/
def quietLimitNoted (n : LineId) (s : State) : State :=
  ({ s with edges := s.edges ||| lineFaultBit n } : State).offerNotice {
    kind := .lineFault, line := n, station := 0, detailA := ((s.line n).faults + 1).setWidth 6, detailB := 1, cycle := 0, extra := 0 }

/-- Command c brings the attempt of line n to its end with outcome o (R37): the reply window expires (R32), the quiet wait ends with the
outcome fixed (R35), the quiet limit expires below the line fault limit (R35), or the last check character of a reply arrives (R34). `l` and
`a` are the line and the record as that event itself leaves them, before the end is dealt with, and `b` is the rest of the state. -/
def attemptEnds (s : State) (n : LineId) (c : Instr) (o : OutcomeCode) (l : Line) (a : Attempt) (b : State) : Prop :=
  (c = .replyWindowExpiry n ∧ o = .timeout ∧ (s.line n).engine = .awaitReply ∧ (s.line n).attempt = some a ∧ l = s.line n ∧ b = s)
    ∨ (c = .quietWaitEnd n ∧ (o.isMiss = true ∨ o = .collision) ∧ (s.line n).engine = .quietWait ∧ isQuiet (s.line n)
      ∧ (s.line n).attempt = some a ∧ a.fixedOutcome = some o ∧ l = s.line n ∧ b = s)
    ∨ (c = .quietLimitExpiry n ∧ (o.isMiss = true ∨ o = .collision) ∧ (s.line n).engine = .quietWait ∧ (s.line n).faults.toNat < 7
      ∧ (s.line n).attempt = some a ∧ a.fixedOutcome = some o ∧ l = { s.line n with faults := (s.line n).faults + 1 }
      ∧ b = quietLimitNoted n s)
    ∨ ∃ t r len u, c = .characterArrival n t ∧ replyEnds s n t r len ∧ r.station = some u
      ∧ replyGives r (r.checkHigh ++ (CharSamples.decode t).byte) (s.station u).address o
      ∧ l = delivered (s.line n) t ∧ a = { r with received := r.received + 1 } ∧ b = s

/-- A break request that has waited starts its break once the engine holds no record and is free (R17, R41, R48). -/
def breakBegun (l : Line) : Line :=
  if l.breakRequest = true ∧ l.attempt = none
      ∧ (l.engine = .idle ∨ l.engine = .turnaround ∨ l.engine = .hold ∨ l.engine = .faulted) then
    { l with engine := .breaking, drive := .breakLow, breakRequest := false, readBack := none, frameRest := [] }
  else l

/-- Another enabled line than n is not at rest (R157). -/
def othersActive (s : State) (n : LineId) : Prop :=
  ∃ m, m ≠ n ∧ (s.line m).enable = true ∧ (s.line m).engine ≠ .hold ∧ (s.line m).faulted = false

/-- The engine state e that the mode calls for at the end of work on line n (R32, R34, R35, R51), QUIESCED not being reached by it: in
QUIESCING another line is active, or a waiting break starts on this one (R48). -/
def goesTo (s : State) (n : LineId) (e : EngineState) : Prop :=
  (s.mode = .run ∧ e = .turnaround)
    ∨ (s.mode = .quiescing ∧ e = .hold ∧ (othersActive s n
      ∨ (s.line n).breakRequest = true ∧ (s.line n).enable = true ∧ (s.line n).faulted = false))

/-- QUIESCED is not reached, whatever becomes of line n (R157). -/
def staysInMode (s : State) (n : LineId) : Prop := s.mode = .run ∨ s.mode = .quiescing ∧ othersActive s n

/-- In QUIESCING line n itself is not at rest (R157). -/
def activeIfQuiescing (s : State) (n : LineId) : Prop :=
  s.mode = .quiescing → (s.line n).enable = true ∧ (s.line n).engine ≠ .hold ∧ (s.line n).faulted = false

/-- Line n is the last enabled line that is not at rest in QUIESCING (R157). -/
def lastToRest (s : State) (n : LineId) : Prop :=
  s.mode = .quiescing ∧ ∀ m, m ≠ n → (s.line m).enable = true → (s.line m).engine = .hold ∨ (s.line m).faulted = true

/-- QUIESCED is reached (R157), its MODE notice still to be offered. -/
def quiescedFrom (s : State) : State :=
  { s with mode := .quiesced, pendingRequest := none, edges := s.edges ||| 0x0020 }

/-- No STOP reason (R39). -/
def noStop : StopSet := ⟨false, false, false, false, false, false⟩

/-- Notices offered one after another (R139). -/
def offered (es : List Event) (s : State) : State := es.foldl (fun s e => s.offerNotice e) s

/-- A step answers s once two owners have offered their notices (R137): each owner's in its own order, the order among the owners free
(log entry 5). -/
def answersInSomeOrder (r : Host.Outcome State Fault Refusal) (s : State) (p q : List Event) : Prop :=
  ∃ order, order.Perm (p ++ q) ∧ p.Sublist order ∧ q.Sublist order
    ∧ r = .next (offered order { s with freeIndex := if p = [] ∨ q = [] then s.freeIndex else s.freeIndex + 1 })

/-- The station at a final miss that reaches MISS_LIMIT, the attempt already counted (R79, R80, R81). -/
def goneOffline (o : OutcomeCode) (st : Station) : Station :=
  { st with
    last := o, missed := satInc st.missed, health := .offline, missCount := st.missLimit, reachable := false, probeDue := false
    probeCountdown := st.probeInterval }

/-- A further miss of an ONLINE or DEGRADED station reaches MISS_LIMIT (R79). -/
def reachesLimit (st : Station) : Prop :=
  (st.health = .online ∨ st.health = .degraded) ∧ st.missLimit ≠ 0 ∧ st.missLimit.toNat ≤ st.missCount.toNat + 1

/-- What a final outcome makes of an ONLINE or DEGRADED station (R78, R79, R80, R81, R89), and the notice it posts (R85). The miss that
reaches MISS_LIMIT is here with no slot of the station PENDING. A COLLISION changes LAST alone. `poll` says that the transaction is a
POLL. -/
def stationTakes (s : State) (u : StationIx) (o : OutcomeCode) (poll : Bool) (st : Station) (notices : List Event) : Prop :=
  let old := s.station u
  ((o = .ok ∨ o = .busy ∨ o = .refused) ∧ (old.health = .online ∨ old.health = .degraded)
      ∧ st = { old with
          last := o, good := if o = .ok then satInc old.good else old.good, age := if poll = true ∧ o = .ok then 0 else old.age
          missCount := 0, health := .online }
      ∧ notices = if old.health = .degraded then [stateRecord s u .degraded .online 0] else [])
    ∨ (o.isMiss = true ∧ (old.health = .online ∨ old.health = .degraded) ∧ old.missCount.toNat + 1 < old.missLimit.toNat
      ∧ st = { old with
          last := o, failedAttempts := satInc old.failedAttempts, missed := satInc old.missed
          missCount := old.missCount + 1, health := .degraded }
      ∧ notices = if old.health = .online then [stateRecord s u .online .degraded (old.missCount + 1)] else [])
    ∨ (o.isMiss = true ∧ reachesLimit old ∧ s.pendingOf u = [] ∧ st = goneOffline o (attemptCounted o old)
      ∧ notices = [stateRecord s u old.health .offline old.missLimit])
    ∨ (o = .collision ∧ st = { old with last := o } ∧ notices = [])

/-- The same for a transaction that ends between attempts, with its last outcome (R39, R41): the attempt was counted when it ended. -/
def lastTakes (s : State) (u : StationIx) (o : OutcomeCode) (poll : Bool) (st : Station) (notices : List Event) : Prop :=
  ∃ x, stationTakes s u o poll x notices ∧ st = { x with failedAttempts := (s.station u).failedAttempts }

/-- The station record after a final outcome; STATION_DOWN, bit 14 of IFLAG, is raised by an entry to OFFLINE (R80). -/
def stationLeft (u : StationIx) (st : Station) (s : State) : State :=
  if st.health = .offline ∧ (s.station u).health ≠ .offline then { s.setStation u st with edges := s.edges ||| 0x4000 }
  else s.setStation u st

/-- A PARK of station u is BUSY (R87, R171). -/
abbrev parkWaits (s : State) (u : StationIx) : Prop := s.cmdState = .busy ∧ s.cmd = 0x0C ∧ (s.args.get 0).toNat = u.val

/-- The park of station u takes effect and its command completes with the HEALTH the outcome has left (R86, R87). -/
def parkDone (u : StationIx) (s : State) : State :=
  { s.setStation u (parked (s.station u)) with
    cmdState := .done, result := .ok, cvalue := (s.station u).health.code.setWidth 16, edges := s.edges ||| 0x0010 }

/-- A PARK of station u that is BUSY in s takes effect in the step that ends the station's transaction (R41, R87). -/
def parkFinished (s : State) (u : StationIx) (t : State) : State := if parkWaits s u then parkDone u t else t

/-- The notice of that park, `left` the HEALTH it starts from (R85). -/
def parkRecords (s : State) (u : StationIx) (left : Health) : List Event :=
  if parkWaits s u then [stateRecord s u left .parked 0] else []

/-- A PARK that is BUSY has completed its station's PENDING slots (R86, R132), and the station is not PARKED yet. -/
def parkClear (s : State) (u : StationIx) (st : Station) : Prop := parkWaits s u → s.pendingOf u = [] ∧ st.health ≠ .parked

/-- The transaction of line n waits between two attempts, its last outcome a miss or COLLISION (R38, R39). -/
def betweenAttempts (s : State) (n : LineId) (a : Attempt) (u : StationIx) (o : OutcomeCode) : Prop :=
  (s.line n).engine = .turnaround ∧ (s.line n).attempt = some a ∧ a.origin ≠ .sync ∧ a.retryOwed = true ∧ a.station = some u
    ∧ a.outcome = some o ∧ (o.isMiss = true ∨ o = .collision)

/-- What a probe's outcome makes of a station that is still OFFLINE (R81, R83, R89), and the notice it posts (R84, R85). A contact under AUTO
brings it ONLINE, under HOST it becomes REACHABLE. -/
def probeTakes (s : State) (u : StationIx) (o : OutcomeCode) (st : Station) (notices : List Event) : Prop :=
  let old := s.station u
  let heard : Station := { old with
    last := o, good := if o = .ok then satInc old.good else old.good, age := if o = .ok then 0 else old.age }
  old.health = .offline
    ∧ (((o = .ok ∨ o = .busy ∨ o = .refused) ∧ old.recovery = .auto
        ∧ st = { heard with health := .online, missCount := 0, reachable := false, probeDue := false }
        ∧ notices = [stateRecord s u .offline .online 0])
      ∨ ((o = .ok ∨ o = .busy ∨ o = .refused) ∧ old.recovery = .host ∧ st = { heard with reachable := true }
        ∧ notices = if old.reachable = true then [] else [{
          kind := .stationReachable, line := old.line, station := u, detailA := 0, detailB := 0, cycle := 0, extra := 0 }])
      ∨ (o.isMiss = true ∧ st = { old with last := o, failedAttempts := satInc old.failedAttempts, reachable := false } ∧ notices = [])
      ∨ (o = .collision ∧ st = { old with last := o } ∧ notices = []))

/-- The image pair of station u once an OK POLL with `len` bytes is accepted (R108, R109, R112): flipped, held back, or none bound. -/
def imageAccepted (u : StationIx) (len : BitVec 6) (s : State) : State :=
  let st := s.station u
  let onA : Bool := st.current == .a
  match st.image with
  | none => s
  | some (x, y) =>
    if st.hold then s.setStation u { st with
      newer := true, nextLen := len
      overwrites := if len = 0 ∧ st.newer = true then satInc st.overwrites else st.overwrites }
    else ((s.setStation u { st with
      current := if onA then .b else .a, imageLen := len, imageSeq := st.imageSeq + 1, newer := false }).setOwner
        (if onA then y else x) (.imageCurrent u)).setOwner (if onA then x else y) (.imageNext u)

/-- The notice of that acceptance: posted at a flip with NOTIFY set (R108). -/
def imageRecords (s : State) (u : StationIx) (o : OutcomeCode) (len : BitVec 6) : List Event :=
  let st := s.station u
  if o = .ok ∧ st.image ≠ none ∧ st.hold = false ∧ st.notify = true then
    [{ kind := .imageUpdate, line := st.line, station := u, detailA := len, detailB := st.imageSeq + 1, cycle := 0, extra := 0 }]
  else []

/-- The REQUEST_DONE record of slot k as the completion leaves it (R125, Table 10-6). -/
def requestRecord (s : State) (k : SlotIx) (sl : Slot) : Event where
  kind := .requestDone
  line := (s.station sl.station).line
  station := sl.station
  detailA := sl.replyLen
  detailB := BitVec.ofNat 16 (k.val + 16 * sl.outcome.code.toNat + 256 * (bit sl.abortLate).toNat)
  cycle := 0
  extra := BitVec.ofNat 16 (sl.tag.toNat + 256 * sl.attempts.toNat + 4096 * sl.busyCount.toNat)

/-- Slot k, its completion record offered (R125, R126, R138): taken when there is room and none is held, the slot FREE and its blocks
HOST; held in DONE otherwise. -/
def completionOffered (k : SlotIx) (record : Event) (s : State) : State :=
  if s.events.length < 64 ∧ s.done = [] then
    slotReleased { s with events := s.events ++ [s.stamp record] } k (fieldBlock? (s.slot k).reqBlock) (fieldBlock? (s.slot k).replyBlock)
  else { s.setSlot k { s.slot k with state := .done } with done := s.done ++ [(k, record)] }

/-- A step answers s once the station's notices, in their order, and the completion of slot k have been offered; where the completion
stands among them is free (log entry 5). -/
def answersWithCompletion (r : Host.Outcome State Fault Refusal) (s : State) (notices : List Event) (k : SlotIx) (record : Event) : Prop :=
  let s1 : State := { s with freeIndex := if notices = [] then s.freeIndex else s.freeIndex + 1 }
  ∃ p q, notices = p ++ q ∧ r = .next (offered q (completionOffered k record (offered p s1)))

/-- Slot k has been completed at a mode change or a change of its station (R125, R126): FREE or DONE with the final outcome and
REPLY_LEN 0, and no longer in the submission order. -/
def completedWith (t : State) (k : SlotIx) (o : OutcomeCode) : Prop :=
  k ∉ t.submitted ∧ ((t.slot k).state = .free ∨ (t.slot k).state = .done) ∧ (t.slot k).outcome = o ∧ (t.slot k).replyLen = 0

/-- The slot as its completion at the end of attempt m of its transaction leaves it (R120, R121, R122, R125, R129): with ABORT in the STOP set OK
and REFUSED stand and anything else is ABORTED; otherwise OK and REFUSED, the seventh BUSY, and a miss or COLLISION with the budget used up
or PARK in the set are final. -/
def slotTakes (s : State) (k : SlotIx) (a : Attempt) (m : Nat) (o : OutcomeCode) (len : BitVec 6) (sl : Slot) : Prop :=
  let old := s.slot k
  let counted : Slot := { old with
    attempts := if o = .busy then old.attempts else BitVec.ofNat 4 m
    busyCount := if o = .busy then satInc old.busyCount else old.busyCount
    replyLen := if o = .ok then len else 0
    deferred := false }
  (a.stop.abort = true
      ∧ sl = { counted with outcome := if o = .ok ∨ o = .refused then o else .aborted, abortLate := decide (o = .ok ∨ o = .refused) })
    ∨ (a.stop.abort = false ∧ sl = { counted with outcome := o }
      ∧ (o = .ok ∨ o = .refused ∨ (o = .busy ∧ 6 ≤ old.busyCount.toNat)
        ∨ ((o.isMiss = true ∨ o = .collision) ∧ (old.retries.toNat < m ∨ a.stop.park = true))))

/-- The slot when its transaction ends with a retry due that a STOP reason other than ABORT and PARK forbids (R40, R124): PENDING, with the
attempt's OUTCOME and ATTEMPTS. -/
def slotReturns (s : State) (k : SlotIx) (a : Attempt) (m : Nat) (o : OutcomeCode) (sl : Slot) : Prop :=
  m ≤ (s.slot k).retries.toNat ∧ (o.isMiss = true ∨ o = .collision) ∧ a.stop.abort = false ∧ a.stop.park = false
    ∧ sl = { s.slot k with state := .pending, outcome := o, attempts := BitVec.ofNat 4 m }

/-- SYNC work of line n ends (R29, R30, R35): its last character agrees, or the quiet wait after a collision is over or reaches the quiet limit
below the line fault limit. `l` is the line as that event itself leaves it, and `b` is the rest of the state. -/
def syncEnds (s : State) (n : LineId) (c : Instr) (l : Line) (b : State) : Prop :=
  (∃ a ch, c = .characterSent n ∧ sends s n a ch ∧ agrees s n ch ∧ (s.line n).frameRest = [] ∧ a.origin = .sync
      ∧ l = { s.line n with drive := .released, readBack := none } ∧ b = s)
    ∨ ∃ a, (s.line n).engine = .quietWait ∧ (s.line n).attempt = some a ∧ a.origin = .sync ∧ a.station = none
      ∧ ((c = .quietWaitEnd n ∧ isQuiet (s.line n) ∧ l = s.line n ∧ b = s)
        ∨ (c = .quietLimitExpiry n ∧ (s.line n).faults.toNat < 7 ∧ l = { s.line n with faults := (s.line n).faults + 1 }
          ∧ b = quietLimitNoted n s))

/-- The eighth line fault of line n meets a transaction whose attempt then ends with outcome o (R30, R35, R43, R44): a collision, or the quiet
limit (cause 1) with the outcome fixed before. `l` is the line as that event leaves it, before the fault is counted. -/
def eighthFault (s : State) (n : LineId) (c : Instr) (o : OutcomeCode) (cause : Word) (l : Line) (a : Attempt) : Prop :=
  (s.line n).faults = 7
    ∧ ((∃ ch, c = .characterSent n ∧ sends s n a ch ∧ ¬ agrees s n ch ∧ o = .collision ∧ cause = 0
        ∧ l = { s.line n with drive := .released, frameRest := [], readBack := none })
      ∨ (c = .quietLimitExpiry n ∧ (s.line n).engine = .quietWait ∧ (s.line n).attempt = some a ∧ a.fixedOutcome = some o
        ∧ (o.isMiss = true ∨ o = .collision) ∧ cause = 1 ∧ l = s.line n))

/-- The line once the eighth fault has ended its work (R30, R35, R44). -/
def faultedLine (l : Line) : Line :=
  { l with attempt := none, faults := 8, engine := .faulted, faulted := true, syncOwed := false }

/-- LINE_FAULT_n raised, LINE_FAULT with count 8 and its cause, then LINE_FAULTED (R43, R44). -/
def faultNotices (n : LineId) (cause : Word) (s : State) : State :=
  offered [
    { kind := .lineFault, line := n, station := 0, detailA := 8, detailB := cause, cycle := 0, extra := 0 },
    { kind := .lineFaulted, line := n, station := 0, detailA := 0, detailB := 0, cycle := 0, extra := 0 }]
    { s with edges := s.edges ||| lineFaultBit n }

/-- The return to RUN reaches line n (R51, R53, R71, R158), from s to t: its timer loads its period and takes the next number, the cycle
opens without accounting, deferred slots are released, and the station records stay. An engine in HOLD on a line known to be quiet for
TURNAROUND decides at once; on another it goes to TURNAROUND. -/
def lineResumed (n : LineId) (s t : State) : Prop :=
  if (s.line n).enable = true then
    ∃ h : State, h = { s.setLine n { cycleOpened (s.line n) with
          engine := if (s.line n).engine = .hold then .turnaround else (s.line n).engine } with
        slots := h.slots, edges := s.edges ||| cycleStartBit n }
      ∧ deferralsReleased n s h
      ∧ ((s.line n).engine = .hold ∧ isQuiet (s.line n) ∧ (s.line n).settled = true →
        decides h n ∧ exec (.turnaroundSatisfied n) h = .next t)
      ∧ (¬ ((s.line n).engine = .hold ∧ isQuiet (s.line n) ∧ (s.line n).settled = true) → t = h)
  else t = s

/-- The record of slot k's first attempt after a take (R25, R29, R120). -/
def slotAttempt (s : State) (k : SlotIx) (a : Attempt) : Prop :=
  a.origin = .acyclic k ∧ a.station = some (s.slot k).station
    ∧ a.kind = (match (s.slot k).kind with | .read => .read | .write => .write)
    ∧ a.attempt = some ((s.slot k).attempts.toNat + 1) ∧ a.reqLen = (s.slot k).reqLen.toNat
    ∧ a.seqSent = (s.station (s.slot k).station).seq ∧ a.stop = noStop ∧ a.retryOwed = false

/-- Slot k taken by line n (R25, R29, R120): ACTIVE, the station's SEQ advanced, its frame begun; `l` is the line before the frame. -/
def slotTaken (s : State) (n : LineId) (l : Line) (k : SlotIx) (a : Attempt) : State :=
  let st := s.station (s.slot k).station
  ((s.setSlot k { s.slot k with state := .active }).setStation (s.slot k).station { st with seq := st.seq + 1 }).setLine n
    (sending l a (requestFrame a.kind st.address st.seq (s.requestPayload (.acyclic k) (s.slot k).reqLen.toNat)))

/-- What an overrun does to the entries (R68), from s to t: `skipped` are the entries counted. -/
def entriesSkipped (n : LineId) (s t : State) (skipped : List EntryIx) : Prop :=
  skipped.Nodup ∧ (∀ e, e ∈ skipped ↔ remains s n e)
    ∧ (∀ e, remains s n e → t.entry e = { s.entry e with last := .skipped, skipped := satInc (s.entry e).skipped })
    ∧ ∀ e, ¬ remains s n e → t.entry e = s.entry e

/-- The notice of an overrun that skipped `count` entries (R68). -/
def overrunRecord (n : LineId) (count : Nat) : Event where
  kind := .cycleOverrun
  line := n
  station := 0
  detailA := 0
  detailB := BitVec.ofNat 16 count
  cycle := 0
  extra := 0

/-! ## Laws of the whole machine -/

/-- HEALTH and MISS_COUNT agree (R77): ONLINE and PARKED with 0, DEGRADED strictly between 0 and MISS_LIMIT, OFFLINE at MISS_LIMIT. -/
def Station.healthOk (st : Station) : Bool :=
  match st.health with
  | .online | .parked => st.missCount == 0
  | .degraded => 0 < st.missCount.toNat && st.missCount.toNat < st.missLimit.toNat
  | .offline => st.missCount == st.missLimit

/-- The law of a station record: R77 with REACHABLE and PROBE_DUE set only while OFFLINE, and NEWER only under HOLD (R104). -/
def Station.lawful (st : Station) : Bool :=
  st.healthOk && (!st.reachable || st.health == .offline) && (!st.probeDue || st.health == .offline)
    && (!st.newer || st.hold)

/-- The law of a line engine: the line fault count is at most 8 and is 8 only while faulted (R43, R44); a faulted engine is in
FAULTED, or in the break that restores it (R44), and an engine in FAULTED is faulted; a DIV is at least 15 (R3). -/
def Line.lawful (l : Line) : Bool :=
  l.faults.toNat ≤ Config.faultLimit
    && (l.faulted || l.faults.toNat < Config.faultLimit)
    && (!l.faulted || l.engine == .faulted || l.engine == .breaking)
    && (l.engine != .faulted || l.faulted)
    && 15 ≤ l.div.toNat

namespace State

/-- Every station record is lawful (R77, R104). -/
def StationsLawful (s : State) : Prop := ∀ t, (s.station t).lawful = true

/-- The event queue's law (R137): at most 64 records, at most 48 that are neither completions nor LOSS markers; completions are
held only while the queue is full (R143), and what is held are completions (R126). -/
def QueueLawful (s : State) : Prop :=
  s.events.length ≤ Config.queueLimit
    ∧ (s.events.filter fun e => e.kind.isNotice).length ≤ Config.noticeLimit
    ∧ (s.done ≠ [] → s.events.length = Config.queueLimit)
    ∧ ∀ p ∈ s.done, p.2.kind = .requestDone

/-- Both engines are lawful, and the engine of a disabled line, and every engine in INIT and CONFIG, is OFF (R22). -/
def EnginesLawful (s : State) : Prop :=
  ∀ n, (s.line n).lawful = true
    ∧ ((s.line n).enable = false ∨ s.mode = .init ∨ s.mode = .config → (s.line n).engine = .off)

/-- The narrowed registers hold values of their ranges (R143, R176), and only edge sources have a stored flag (R174). -/
def RegistersLawful (s : State) : Prop :=
  1 ≤ s.evthresh.toNat ∧ s.evthresh.toNat ≤ 64 ∧ 1 ≤ s.ithresh.toNat ∧ s.edges.getLsbD 0 = false ∧ s.edges.getLsbD 1 = false

/-- Payload memory keeps its canonical form. -/
def MemoryLawful (s : State) : Prop := Memory.wf s.payload

/-- REQ_PENDING is set exactly throughout QUIESCING (R151). -/
def RequestLawful (s : State) : Prop := s.pendingRequest = if s.mode = .quiescing then some .quiesce else none

end State

end Sys2Proof.Machine
end

