-- ==== Sys2Proof/Certificates/Slice0/Obligations.lean ====
section
/-!
DEFINITION. The statements for the provers, from the manual's numbered rules.
A statement that answers `exec c s = .next t` with `t` written out says the command's effect and its frame at once:
what `t` does not change is unchanged.
-/

open Sys2Proof Sys2Proof.Machine

/-- The front command runs on the state with the queue's rest; on an empty queue the block idles (log entry 1, the model's choice). -/
def Obligations.StepRunsTheFrontCommand : Prop :=
  (∀ (c : Instr) (rest : List Instr) (s : State), s.pending = c :: rest → step s = exec c { s with pending := rest })
    ∧ ∀ s : State, s.pending = [] → step s = .next s

/-- Every command answers a next state, and no command touches the queue of waiting commands (log entry 1). -/
def Obligations.EveryCommandCompletesAndLeavesTheQueue : Prop :=
  ∀ (c : Instr) (s : State), ∃ t, exec c s = .next t ∧ t.pending = s.pending

/-- A hard reset puts every register at its reset value, both lines at rest and the outputs released (R149, Table 10-1).
RESET# rises and the clearing completes (R149): every structure of internal memory holds its reset value and the mode
is CONFIG, with nothing posted and nothing raised. That the clearing is one step is the model's choice (log entry 4).
While the mode is INIT every host write is ignored, and a read of TAPDATA gives 0 and moves nothing (R150).
The word on the data bus is the model's register of log entry 10. -/
def Obligations.HardResetAndInit : Prop :=
  (((∀ a, State.reset.readRegister a = hardResetWord a)
      ∧ ∀ s : State, ∃ t, exec .hardReset s = .next t
        ∧ t.resetLow = true ∧ t.mode = .init ∧ (∀ a, t.readRegister a = hardResetWord a)
        ∧ t.intAsserted = false ∧ t.dreq = false ∧ t.pendingRequest = none
        ∧ ∀ n, (t.line n).engine = .off ∧ (t.line n).attempt = none ∧ (t.line n).breakRequest = false
          ∧ (t.line n).faulted = false ∧ (t.line n).rx = .waitHigh ∧ (t.line n).drive.deAsserted = false
          ∧ (t.line n).drive.txdLevels = [true] ∧ (t.line n).timerRunning = false ∧ (t.line n).walk = 0)
    ∧ ((∀ s : State, exec .resetRelease s = .next { s with resetLow := false })
      ∧ ∀ s : State, s.mode = .init → s.resetLow = false → ∃ t, exec .clearingComplete s = .next t
        ∧ t = { s with
            mode := .config, payload := t.payload, owners := t.owners, stations := t.stations, entries := t.entries
            slots := t.slots, submitted := [], done := [], events := [], evlost := 0 }
        ∧ (∀ a, Memory.read t.payload a = 0) ∧ (∀ b, (t.owner b).word = 0)
        ∧ (∀ u i, (t.station u).word i = stationResetWord i) ∧ (∀ e i, (t.entry e).word i = 0)
        ∧ ∀ k i, (t.slot k).word i = 0))
    ∧ ((∀ (c : Instr) (s : State), isHostWrite c = true → s.mode = .init → exec c s = .next s)
    ∧ ∀ s : State, s.mode = .init → exec .tapdataRead s = .next { s with dout := 0 } ∧ s.readRegister 0x05 = 0)

/-- A control reset outside INIT (R160): what it sets in every block, and nothing else; ignored in INIT; a write of 0 does nothing.
The `settled` flag that is cleared with the line is the model's (log entry 7). -/
def Obligations.ControlResetSetsEveryBlock : Prop :=
  (∀ s : State, s.mode = .init → exec .controlReset s = .next s)
    ∧ (∀ (s : State) (v : Word), v.getLsbD 0 = false → exec (.registerWrite 0x02 v) s = .next s)
    ∧ (∀ s : State, s.readRegister 0x02 = 0)
    ∧ ∀ s : State, s.mode ≠ .init → ∃ t, exec .controlReset s = .next t
      ∧ t = { s with
          mode := .config, pendingRequest := none, reqRefused := false
          line0 := t.line0, line1 := t.line1, stations := t.stations, owners := t.owners, slots := t.slots
          submitted := [], done := [], events := [], evlost := 0, dmaWord := 0, edges := 0
          cmdState := .idle, overrun := false, result := .ok, cvalue := 0, tapaddr := 0 }
      ∧ (∀ n, t.line n = { s.line n with
          engine := .off, faulted := false, faults := 0, attempt := none, breakRequest := false
          syncOwed := false, urgent := false, unsolMark := false, rx := .waitHigh, settled := false
          readBack := none, drive := .released, frameRest := [], unsol := 0, noise := 0
          timerRunning := false, cycnum := 0, phase := .cyclic, walk := 0 })
      ∧ (∀ u, t.station u = { s.station u with
          health := .online, missCount := 0, reachable := false, probeDue := false
          probeCountdown := (s.station u).probeInterval, age := 255
          good := 0, missed := 0, failedAttempts := 0, overwrites := 0, hold := false, newer := false })
      ∧ (∀ k, t.slot k = if (s.slot k).state = .free then s.slot k
          else { s.slot k with state := .free, deferred := false })
      ∧ (∀ b, (∀ k, s.owner b ≠ .request k ∧ s.owner b ≠ .reply k) → t.owner b = s.owner b)
      ∧ (∀ b k, s.owner b = .request k ∨ s.owner b = .reply k → t.owner b = .host)
      ∧ t.readRegister 0x00 = 0x0021 ∧ (s.RegistersLawful → t.readRegister 0x1F = 0x001F ∧ t.intAsserted = false)

/-- The rows of a start bit (R4, R7). What the engine does with a confirmed start is Table 2-1 (R21). The level of the pin and the
`settled` flag are the model's (log entries 7, 9). That both rows do nothing to a receiver that is not STARTING is log entry 2's.
RXDn at 1 (R4, R7): WAIT_HIGH ends at an engine that is not OFF. -/
def Obligations.ReceiverFollowsThePin : Prop :=
  (∀ (n : LineId) (s : State),
      ((s.line n).rx = .hunting → (s.line n).rxd = true →
        exec (.candidateStartBit n) s = .next (s.setLine n { s.line n with rx := .starting, rxd := false }))
      ∧ ((s.line n).rx ≠ .hunting → exec (.candidateStartBit n) s = .next (s.setLine n { s.line n with rxd := false }))
      ∧ ((s.line n).rx = .starting →
        exec (.startNotConfirmed n) s = .next (s.setLine n { s.line n with rx := .hunting, rxd := true }))
      ∧ ((s.line n).rx = .starting →
        exec (.startConfirmed n) s = .next (s.setLine n { s.line n with
          rx := .assembling, settled := false
          engine := if (s.line n).engine = .idle then .turnaround
            else if (s.line n).engine = .awaitReply then .receiving else (s.line n).engine }))
      ∧ ((s.line n).rx ≠ .starting → exec (.startNotConfirmed n) s = .next s ∧ exec (.startConfirmed n) s = .next s))
    ∧ (∀ (n : LineId) (s : State),
      ((s.line n).rx = .waitHigh → (s.line n).engine ≠ .off →
        exec (.lineReturnsTo1 n) s = .next (s.setLine n { s.line n with rx := .hunting, rxd := true }))
      ∧ ((s.line n).rx ≠ .waitHigh ∨ (s.line n).engine = .off →
        exec (.lineReturnsTo1 n) s = .next (s.setLine n { s.line n with rxd := true })))

/-- A character from its samples (R5, R6): data position i gives bit i by majority, the mark and the framing mark likewise, and noise
is present when the samples of one of the eleven positions do not all agree.
The eleven bits of a character (R2, Table 1-1), the bit time of LINEnDIV (R3), and the length of a frame (R8).
The 46 bit times of a break (R17), the quiet limit of 64 character times (R18) and the reply window (R18, R19).
The operand's form is log entry 12's. -/
def Obligations.CharactersBySamplesAndBits : Prop :=
  (∀ c : CharSamples,
      (∀ i : Fin 8, (CharSamples.decode c).byte.getLsbD i.val = true
        ↔ majority ([c.d0, c.d1, c.d2, c.d3, c.d4, c.d5, c.d6, c.d7].get i))
      ∧ ((CharSamples.decode c).mark = true ↔ majority c.mark)
      ∧ ((CharSamples.decode c).framing = true ↔ ¬ majority c.stop)
      ∧ ((CharSamples.decode c).noise = false ↔ ∀ t ∈ [c.start, c.d0, c.d1, c.d2, c.d3, c.d4, c.d5, c.d6, c.d7, c.mark, c.stop],
          samplesAgree t))
    ∧ ((∀ c : TxChar, c.bits.length = 11 ∧ c.bits[0]? = some false ∧ (∀ i : Fin 8, c.bits[i.val + 1]? = some (c.byte.getLsbD i.val))
        ∧ c.bits[9]? = some c.mark ∧ c.bits[10]? = some true)
      ∧ ∀ l : Line, l.bitClocks = l.div.toNat + 1 ∧ l.charClocks = 11 * (l.div.toNat + 1)
        ∧ l.span .breakLow + l.span .breakGuard = 46 * l.bitClocks
        ∧ l.span .replyWindow = l.replyWindow.toNat * l.charClocks ∧ l.span .quietLimit = 64 * l.charClocks
        ∧ ∀ k a q p, (requestFrame k a q p).length * l.charClocks = l.frameClocks p.length)

/-- An arrival that is not part of a reply (R16, R21, R45, R46): unsolicited in IDLE, TURNAROUND and HOLD, with one notice per cycle;
the read-back in SENDING; otherwise counted for noise alone, or not at all. A receiver that is not ASSEMBLING delivers nothing.
The samples of the eleven positions are the row's operand, and RXDn stays at the stop bit's sample 6 (log entry 12, the model's
choice). A receiver that is not ASSEMBLING is log entry 2's, the arrival in AWAIT_REPLY log entry 13's, and the latest delivery as read-back
log entry 14's. -/
def Obligations.ArrivalOutsideAReply : Prop :=
  ∀ (n : LineId) (t : CharSamples) (s : State),
    ((s.line n).rx ≠ .assembling → exec (.characterArrival n t) s = .next s)
    ∧ ((s.line n).rx = .assembling →
      ((s.line n).engine = .idle ∨ (s.line n).engine = .turnaround ∨ (s.line n).engine = .hold →
        ((s.line n).unsolMark = true → exec (.characterArrival n t) s = .next (s.setLine n
          { delivered (s.line n) t with unsol := satInc (s.line n).unsol }))
        ∧ ((s.line n).unsolMark = false → exec (.characterArrival n t) s = .next
          ((s.setLine n { delivered (s.line n) t with unsol := satInc (s.line n).unsol, unsolMark := true }).offerNotice {
            kind := .unsolicited, line := n, station := 0, detailA := 0, detailB := satInc (s.line n).unsol, cycle := 0, extra := 0 })))
      ∧ ((s.line n).engine = .sending → exec (.characterArrival n t) s = .next (s.setLine n
          { delivered (s.line n) t with readBack := some (CharSamples.decode t) }))
      ∧ ((s.line n).engine = .awaitReply ∨ (s.line n).engine = .quietWait ∨ (s.line n).engine = .breaking
          ∨ (s.line n).engine = .faulted →
        exec (.characterArrival n t) s = .next (s.setLine n (delivered (s.line n) t))))

/-- A reply character that fails a check of Table 2-4 (R33): the reception ends, the outcome is fixed, nothing is written.
The header and the sequence/length byte of a reply that pass are recorded (R33).
Payload byte i of a REPLY_OK to a READ or WRITE is written into byte i of the slot's reply block as it arrives, and nowhere
else (R33, R121).
The samples of the eleven positions are the row's operand, and RXDn stays at the stop bit's sample 6 (log entry 12, the model's
choice). The registers of the running check are log entry 22's. -/
def Obligations.ReplyCharactersAreCheckedAndStored : Prop :=
  (∀ (n : LineId) (t : CharSamples) (s : State) (a : Attempt) (o : OutcomeCode),
      (s.line n).rx = .assembling → (s.line n).engine = .receiving → (s.line n).attempt = some a → a.origin ≠ .sync →
      arrivalFails (a.received + 1) (CharSamples.decode t) o →
      exec (.characterArrival n t) s = .next (s.setLine n
        { delivered (s.line n) t with
          engine := .quietWait, attempt := some { a with received := a.received + 1, fixedOutcome := some o } }))
    ∧ (∀ (n : LineId) (t : CharSamples) (s : State) (a : Attempt),
      (s.line n).rx = .assembling → (s.line n).engine = .receiving → (s.line n).attempt = some a → (CharSamples.decode t).framing = false →
      (∀ k : ReplyKind, a.received = 0 → (CharSamples.decode t).mark = true →
        ((CharSamples.decode t).byte.extractLsb' 5 3).toNat = (match k with | .ok => 4 | .busy => 5 | .refused => 6) →
        exec (.characterArrival n t) s = .next (s.setLine n
          { delivered (s.line n) t with
            attempt := some { a with
              received := 1, replyKind := some k, replyAddress := some ((CharSamples.decode t).byte.extractLsb' 0 5)
              check := checkSequence [(CharSamples.decode t).byte] } }))
      ∧ (a.received = 1 → (CharSamples.decode t).mark = false → ((CharSamples.decode t).byte.extractLsb' 0 6).toNat ≤ 32 →
        exec (.characterArrival n t) s = .next (s.setLine n
          { delivered (s.line n) t with
            attempt := some { a with
              received := 2, replySeq := some ((CharSamples.decode t).byte.extractLsb' 6 2)
              replyLen := some ((CharSamples.decode t).byte.extractLsb' 0 6), check := checkByte a.check (CharSamples.decode t).byte } })))
    ∧ (∀ (n : LineId) (t : CharSamples) (s : State) (a : Attempt) (k : SlotIx) (len : BitVec 6) (i : Nat) (b : BlockIx),
      (s.line n).rx = .assembling → (s.line n).engine = .receiving → (s.line n).attempt = some a →
      a.origin = .acyclic k → a.replyKind = some .ok → a.replyLen = some len → a.received = i + 2 → i < len.toNat → i < 32 →
      (CharSamples.decode t).framing = false → (CharSamples.decode t).mark = false → (s.slot k).replyBlock.toNat = b.val → s.MemoryLawful →
      ∃ t', exec (.characterArrival n t) s = .next t'
        ∧ t' = { s.setLine n { delivered (s.line n) t with
                  attempt := some { a with received := i + 3, check := checkByte a.check (CharSamples.decode t).byte } } with
            payload := t'.payload }
        ∧ ∀ x, Memory.read t'.payload x = if x = 32 * b.val + i then (CharSamples.decode t).byte else Memory.read s.payload x)

/-- Payload byte i of a REPLY_OK to a POLL, cyclic or probe (R33, R107): byte i of the block of the station's image pair that is not CURRENT, and
no other byte; with i = 0 a reply held back there is destroyed, NEWER no and OVERWRITES counted.
A payload byte of REPLY_BUSY or REPLY_REFUSED, of a POLL of a station without a pair, and of a slot without a reply block is discarded (R33,
R107, R121): the record alone takes it. The first check byte (R33) is held in the record until the second arrives (log entry 22).
The samples of the eleven positions are the row's operand, and RXDn stays at the stop bit's sample 6 (log entry 12, the model's
choice). -/
def Obligations.ReplyBytesGoToTheirPlace : Prop :=
  ∀ (n : LineId) (t : CharSamples) (s : State) (a : Attempt) (len : BitVec 6),
    (s.line n).rx = .assembling → (s.line n).engine = .receiving → (s.line n).attempt = some a → a.replyLen = some len →
    (CharSamples.decode t).framing = false → (CharSamples.decode t).mark = false →
    let byte : Byte := (CharSamples.decode t).byte
    let taken (i : Nat) : State := s.setLine n { delivered (s.line n) t with
      attempt := some { a with received := i + 3, check := checkByte a.check byte } }
    (∀ (e : EntryIx) (u : StationIx) (x y : BlockIx) (i : Nat), a.received = i + 2 → i < len.toNat → i < 32 →
      a.origin = .cyclic e ∨ a.origin = .probe e → a.station = some u → a.replyKind = some .ok → (s.station u).image = some (x, y) →
      s.MemoryLawful →
      let next : BlockIx := if (s.station u).current = .a then y else x
      let first : State := if i = 0 ∧ (s.station u).newer = true then (taken i).setStation u { s.station u with
          newer := false, overwrites := satInc (s.station u).overwrites } else taken i
      ∃ t', exec (.characterArrival n t) s = .next t' ∧ t' = { first with payload := t'.payload }
        ∧ ∀ z, Memory.read t'.payload z = if z = 32 * next.val + i then byte else Memory.read s.payload z)
    ∧ (∀ i, a.received = i + 2 → i < len.toNat →
      a.replyKind = some .busy ∨ a.replyKind = some .refused
        ∨ (∃ e u, (a.origin = .cyclic e ∨ a.origin = .probe e) ∧ a.station = some u ∧ (s.station u).image = none)
        ∨ (∃ k, a.origin = .acyclic k ∧ (s.slot k).replyBlock = 255) →
      exec (.characterArrival n t) s = .next (taken i))
    ∧ (a.received = len.toNat + 2 → exec (.characterArrival n t) s = .next (s.setLine n { delivered (s.line n) t with
        attempt := some { a with received := len.toNat + 3, checkHigh := byte } }))

/-- A request frame (R8, R9, R11, R12, R13): header, sequence/length byte, payload, check high and low byte, with mark 1 on the header
alone; and the check sequence of the covered bytes followed by their own check bytes is 0.
The check register takes one bit (R12): it moves toward bit 15 and 0x1021 is combined in exactly when the bit differs from bit 15;
a byte enters most significant bit first, from 0xFFFF.
The payload of a request frame (R13, R103): byte i is byte i of the entry's active output block or of the slot's request block, in ascending
address order; an entry without a binding and a SYNC frame have none of it. -/
def Obligations.FramesAndTheirCheckSequence : Prop :=
  ((∀ (k : SentKind) (a : BitVec 5) (q : BitVec 2) (p : List Byte), p.length ≤ 32 →
      ∃ (h l : Byte) (x y : Byte),
        (requestFrame k a q p).map TxChar.byte = h :: l :: (p ++ [x, y])
        ∧ (requestFrame k a q p).map TxChar.mark = true :: List.replicate (p.length + 3) false
        ∧ h.toNat = 32 * k.code.toNat + a.toNat ∧ l.toNat = 64 * q.toNat + p.length
        ∧ x ++ y = checkSequence (h :: l :: p) ∧ checkSequence (h :: l :: (p ++ [x, y])) = 0)
      ∧ ∀ c : Word, ∃ x y : Byte,
        syncFrame c = [⟨0x60, true⟩, ⟨0x02, false⟩, ⟨c.extractLsb' 0 8, false⟩, ⟨c.extractLsb' 8 8, false⟩, ⟨x, false⟩, ⟨y, false⟩]
        ∧ x ++ y = checkSequence [0x60, 0x02, c.extractLsb' 0 8, c.extractLsb' 8 8])
    ∧ ((∀ (r : Word) (b : Bool), checkBit r b = if r.getLsbD 15 = b then r <<< 1 else (r <<< 1) ^^^ 0x1021)
      ∧ (∀ (r : Word) (v : Byte), checkByte r v = [7, 6, 5, 4, 3, 2, 1, 0].foldl (fun c i => checkBit c (v.getLsbD i)) r)
      ∧ checkSequence [] = 0xFFFF
      ∧ ∀ (l : List Byte) (v : Byte), checkSequence (l ++ [v]) = checkByte (checkSequence l) v)
    ∧ ∀ (s : State) (len : Nat),
      (∀ (e : EntryIx) (o : Origin), o = .cyclic e ∨ o = .probe e →
        ((s.entry e).binding = none → s.requestPayload o len = [])
        ∧ ∀ x y, (s.entry e).binding = some (x, y) → (s.requestPayload o len).length = len
          ∧ ∀ i, i < len → (s.requestPayload o len)[i]?
            = some (Memory.read s.payload (32 * (if (s.entry e).active = .a then x else y).val + i)))
      ∧ (∀ (k : SlotIx) (b : BlockIx), (s.slot k).reqBlock.toNat = b.val → (s.requestPayload (.acyclic k) len).length = len
        ∧ ∀ i, i < len → (s.requestPayload (.acyclic k) len)[i]? = some (Memory.read s.payload (32 * b.val + i)))
      ∧ s.requestPayload .sync len = []

/-- A transmitted character whose read-back agrees (R16, R29): the next character follows; after the last one a request frame clears
the line fault count and opens the reply window; a SYNC frame ends its work and leaves the count, and a break that waited starts (R48).
The latest delivery is the read-back (log entry 14, the model's choice). -/
def Obligations.CharacterSentAndReadBack : Prop :=
  ∀ (n : LineId) (s : State) (a : Attempt) (c : TxChar), sends s n a c → agrees s n c →
    (∀ d rest, (s.line n).frameRest = d :: rest →
      exec (.characterSent n) s = .next (s.setLine n { s.line n with
        attempt := some { a with sent := a.sent + 1 }, drive := .character d, frameRest := rest, readBack := none }))
    ∧ ((s.line n).frameRest = [] → a.origin ≠ .sync →
      exec (.characterSent n) s = .next (s.setLine n { s.line n with
        attempt := some { a with sent := a.sent + 1 }, drive := .released, readBack := none
        faults := 0, engine := .awaitReply }))
    ∧ ((s.line n).frameRest = [] → a.origin = .sync → s.mode = .run →
      exec (.characterSent n) s = .next (s.setLine n (breakBegun { s.line n with
        attempt := none, drive := .released, readBack := none, engine := .turnaround })))

/-- A read-back mismatch below the line fault limit (R16, R30, R43): nothing more is sent, the fault is counted, posted and raised, and the
engine waits for quiet with COLLISION fixed for a request frame.
The eighth line fault, by a collision on a SYNC frame (R30, R43, R44): LINE_FAULT then LINE_FAULTED are offered, the SYNC owed mark
clears and the SYNC work ends at once in FAULTED.
The eighth fault of a request frame, by a collision or by the quiet limit (R30, R35, R43, R44): LINE_FAULT, then LINE_FAULTED, then what the end
of the transaction posts. A cyclic transaction or a probe ends with COLLISION or the outcome fixed before (R41, R79, R81); a slot returns to
PENDING when a retry was due (R40, R124), else it completes (R125). The eighth by the quiet limit ends SYNC work likewise. A
break that waited starts, and a PARK that waited takes effect, in the same step (R41, R48, R87). That the fault's
notices come before the transaction's is log entry 5's.
The latest delivery is the read-back (log entry 14, the model's choice). -/
def Obligations.CollisionsAndTheEighthFault : Prop :=
  (∀ (n : LineId) (s : State) (a : Attempt) (c : TxChar), sends s n a c → ¬ agrees s n c →
      (s.line n).faults.toNat < 7 →
      exec (.characterSent n) s = .next (({ s.setLine n { s.line n with
          attempt := some { a with
            sent := a.sent + 1, fixedOutcome := if a.origin = .sync then none else some .collision }
          drive := .released, frameRest := [], readBack := none
          faults := (s.line n).faults + 1, engine := .quietWait } with
        edges := s.edges ||| lineFaultBit n } : State).offerNotice {
          kind := .lineFault, line := n, station := 0, detailA := ((s.line n).faults + 1).setWidth 6, detailB := 0
          cycle := 0, extra := 0 }))
    ∧ (∀ (n : LineId) (s : State) (a : Attempt) (c : TxChar), sends s n a c → ¬ agrees s n c → a.origin = .sync → a.station = none →
      (s.line n).faults = 7 → s.mode = .run →
      exec (.characterSent n) s = .next ((({ s.setLine n (breakBegun { s.line n with
          attempt := none, drive := .released, frameRest := [], readBack := none
          faults := 8, engine := .faulted, faulted := true, syncOwed := false }) with
        edges := s.edges ||| lineFaultBit n } : State).offerNotice {
          kind := .lineFault, line := n, station := 0, detailA := 8, detailB := 0, cycle := 0, extra := 0 }).offerNotice {
          kind := .lineFaulted, line := n, station := 0, detailA := 0, detailB := 0, cycle := 0, extra := 0 }))
    ∧ (∀ (n : LineId) (s : State) (a : Attempt), (s.line n).engine = .quietWait → (s.line n).attempt = some a → a.origin = .sync →
      a.station = none → (s.line n).faults = 7 → staysInMode s n →
      exec (.quietLimitExpiry n) s = .next (faultNotices n 1 (s.setLine n (breakBegun (faultedLine (s.line n))))))
    ∧ (∀ (n : LineId) (s : State) (c : Instr) (o : OutcomeCode) (cause : Word) (l : Line) (a : Attempt) (u : StationIx) (st : Station)
        (notices : List Event),
      eighthFault s n c o cause l a → a.station = some u → staysInMode s n →
      let faulted : Line := breakBegun (faultedLine l)
      (∀ j, parkClear s u st → a.origin = .cyclic j ∧ stationTakes s u o true st notices
          ∨ a.origin = .probe j ∧ (stationTakes s u o true st notices ∨ probeTakes s u o st notices) →
        exec c s = .next (offered (notices ++ parkRecords s u st.health) (faultNotices n cause
          (parkFinished s u (stationLeft u st ((s.setLine n faulted).setEntry j { s.entry j with last := o }))))))
      ∧ ∀ (k : SlotIx) (m : Nat) (sl : Slot), a.origin = .acyclic k → a.attempt = some m →
        (slotReturns s k a m o sl → exec c s = .next (faultNotices n cause
          (((s.setLine n faulted).setSlot k sl).setStation u (attemptCounted o (s.station u)))))
        ∧ (slotTakes s k a m o 0 sl → stationTakes s u o false st notices → parkClear s u st →
          answersWithCompletion (exec c s) (faultNotices n cause (parkFinished s u
            { (stationLeft u st (s.setLine n faulted)).setSlot k sl with submitted := s.submitted.filter (· ≠ k) }))
            (notices ++ parkRecords s u st.health) k (requestRecord s k sl)))

/-- The gap limit is exceeded (R33): the reception ends with FRAGMENT and the engine waits for quiet.
A cyclic attempt that ends with a miss or a collision, by whichever event ends it, the last check character of a reply that is CRC_ERROR,
WRONG_STATION or STALE included, within the entry's RETRIES and with no STOP reason, owes a retry (R32, R34, R35, R37, R38): the transaction
stays in flight in TURNAROUND and the station counts the attempt alone.
Quiet is as log entry 8 has it, the fixed outcome is held as in log entry 22, and the samples are the row's operand (log entry 12). -/
def Obligations.FailedAttemptsWaitOrRetry : Prop :=
  (∀ (n : LineId) (s : State) (a : Attempt),
      (s.line n).engine = .receiving → (s.line n).rx ≠ .assembling → (s.line n).attempt = some a → 1 ≤ a.received →
      a.origin ≠ .sync →
      exec (.gapLimitExceeded n) s = .next (s.setLine n { s.line n with
        engine := .quietWait, attempt := some { a with fixedOutcome := some .fragment } }))
    ∧ ∀ (n : LineId) (s : State) (c : Instr) (o : OutcomeCode) (l : Line) (a : Attempt) (e : EntryIx) (u : StationIx) (m : Nat) (b : State),
      attemptEnds s n c o l a b → s.mode = .run → a.origin = .cyclic e → a.station = some u → a.attempt = some m →
      m ≤ (s.entry e).retries.toNat → a.stop = noStop → o.isMiss = true ∨ o = .collision →
      exec c s = .next ((b.setLine n { l with
          engine := .turnaround
          attempt := some { a with outcome := some o, retryOwed := true, fixedOutcome := none } }).setStation u
            (attemptCounted o (s.station u)))

/-- A cyclic transaction that ends with a final miss or COLLISION below MISS_LIMIT (R32, R35, R38, R41, R60, R79, R81): LAST of the
entry and of the station, the counters, the miss count and the health; a miss of an ONLINE station posts the change.
A break that waited starts in the same step (R48).
Quiet is as log entry 8 has it, and the fixed outcome is held as in log entry 22 (the model's choices). -/
def Obligations.FinalMissOfACyclicTransaction : Prop :=
  ∀ (n : LineId) (s : State) (a : Attempt) (e : EntryIx) (u : StationIx) (m : Nat) (o : OutcomeCode),
    s.mode = .run → (s.line n).attempt = some a → a.origin = .cyclic e → a.station = some u → a.attempt = some m →
    ((s.entry e).retries.toNat < m ∨ a.stop ≠ ⟨false, false, false, false, false, false⟩) →
    ¬ parkWaits s u →
    ((s.line n).engine = .awaitReply ∧ o = .timeout
      ∨ (s.line n).engine = .quietWait ∧ isQuiet (s.line n) ∧ a.fixedOutcome = some o ∧ (o.isMiss = true ∨ o = .collision)) →
    let c : Instr := if (s.line n).engine = .awaitReply then .replyWindowExpiry n else .quietWaitEnd n
    let st := s.station u
    let line : Line := breakBegun { s.line n with engine := .turnaround, attempt := none }
    (o = .collision → exec c s = .next (((s.setLine n line).setEntry e { s.entry e with last := .collision }).setStation u
        { st with last := .collision }))
    ∧ (o ≠ .collision → st.health = .online ∨ st.health = .degraded → st.missCount.toNat + 1 < st.missLimit.toNat →
      let missed : State := ((s.setLine n line).setEntry e { s.entry e with last := o }).setStation u
          { st with
            last := o, failedAttempts := satInc st.failedAttempts, missed := satInc st.missed
            health := .degraded, missCount := st.missCount + 1 }
      exec c s = .next (if st.health = .degraded then missed else missed.offerNotice {
          kind := .stationState, line := st.line, station := u, detailA := (st.missCount + 1).setWidth 6, detailB := 0x0010
          cycle := 0, extra := 0 }))

/-- A final miss that reaches MISS_LIMIT takes the station OFFLINE (R79, R80, R131), whichever event ends the attempt and whichever transaction it
is, in RUN and in QUIESCING: the countdown is reloaded, the change is posted, STATION_DOWN is raised, and each PENDING slot of the station is
completed with STATION_OFFLINE and REPLY_LEN 0: FREE or DONE, and out of the submission order. The slot of a READ or WRITE takes its own outcome
(R125, R129).
The same for a transaction that a break request, QUIESCE or ABORT ends between attempts (R39, R41): its attempt was counted when it ended.
CYCLE is CycleStartOfAnIdleOrWaitingEngine's, PARK is Park's. The list of submission order is the model's form (log entry 26); quiet is log
entry 8's, the held outcome log entry 22's, the samples log entry 12's. -/
def Obligations.StationReachesOffline : Prop :=
  (∀ (n : LineId) (s : State) (c : Instr) (o : OutcomeCode) (l : Line) (a : Attempt) (u : StationIx) (m : Nat) (b : State),
    attemptEnds s n c o l a b → o.isMiss = true → a.station = some u → a.attempt = some m → s.mode = .run ∨ s.mode = .quiescing →
    ¬ parkWaits s u → reachesLimit (s.station u) →
    (∃ e, a.origin = .cyclic e ∧ ((s.entry e).retries.toNat < m ∨ a.stop ≠ noStop)) ∨ (∃ e, a.origin = .probe e)
      ∨ (∃ k sl, a.origin = .acyclic k ∧ slotTakes s k a m o 0 sl ∧ (s.slot k).state ≠ .pending) →
    ∃ t, exec c s = .next t
      ∧ t.station u = goneOffline o (attemptCounted o (s.station u))
      ∧ (∀ v, v ≠ u → t.station v = s.station v)
      ∧ t.line n = breakBegun { l with engine := if s.mode = .run then .turnaround else .hold, attempt := none }
      ∧ (s.mode = .run → t.mode = .run) ∧ t.edges.getLsbD 14 = true ∧ t.payload = s.payload
      ∧ (∀ k, k ∈ t.submitted → (s.slot k).station = u → (s.slot k).state ≠ .pending)
      ∧ (∀ k, k ∈ s.submitted → (s.slot k).state = .pending → (s.slot k).station = u → completedWith t k .stationOffline)
      ∧ (∀ k, a.origin ≠ .acyclic k → (s.slot k).state ≠ .pending ∨ (s.slot k).station ≠ u → t.slot k = s.slot k)
      ∧ (∀ e, t.entry e = if a.origin = .cyclic e ∨ a.origin = .probe e then { s.entry e with last := o } else s.entry e)
      ∧ (∀ k sl, a.origin = .acyclic k → slotTakes s k a m o 0 sl → completedWith t k sl.outcome)
      ∧ (s.mode = .run → (∀ k, a.origin ≠ .acyclic k) → s.pendingOf u = [] → b.events.length < 48 → t.events = b.events ++ [{
          kind := .stationState, line := (s.station u).line, station := u
          detailA := (s.station u).missLimit.setWidth 6
          detailB := 0#10 ++ (2#2 ++ (0#2 ++ (s.station u).health.code)), cycle := (s.line (s.station u).line).cycnum, extra := 0 }]))
    ∧ ∀ (n : LineId) (s : State) (c : Instr) (a : Attempt) (u : StationIx) (o : OutcomeCode), betweenAttempts s n a u o → o.isMiss = true →
      s.mode = .run → (s.line n).enable = true → ¬ parkWaits s u → reachesLimit (s.station u) →
      (c = .lineBreak ∧ s.accepts ∧ s.argIs 0 (lineNumber n) ∧ ∃ e, a.origin = .cyclic e)
        ∨ (c = .modereqQuiesce ∧ s.pendingRequest = none ∧ (∃ e, a.origin = .cyclic e)
          ∧ ∀ m x, m ≠ n → (s.line m).attempt = some x → x.retryOwed = false)
        ∨ (c = .abort ∧ s.accepts ∧ ∃ k : SlotIx, s.argIs 0 k.val ∧ a.origin = .acyclic k ∧ (s.slot k).state = .active
          ∧ (s.station (s.slot k).station).line = n) →
      ∃ t, exec c s = .next t
        ∧ t.station u = goneOffline o (s.station u)
        ∧ (∀ v, v ≠ u → t.station v = s.station v) ∧ (t.line n).attempt = none ∧ t.edges.getLsbD 14 = true
        ∧ (∀ k, k ∈ s.submitted → (s.slot k).state = .pending → (s.slot k).station = u → completedWith t k .stationOffline)
        ∧ (∀ k, a.origin = .acyclic k → completedWith t k .aborted)
        ∧ (∀ e, t.entry e = if a.origin = .cyclic e then { s.entry e with last := o } else s.entry e)

/-- A complete reply gives the outcome of R34; with the retry budget used up, or a contact, it is final for a cyclic transaction (R34, R38, R41,
R60, R81): LAST of the entry and of the station, the record discarded, the engine in TURNAROUND, or in BREAKING when a break waited (R48).
The samples of the eleven positions are the row's operand, and RXDn stays at the stop bit's sample 6 (log entry 12, the model's
choice). -/
def Obligations.CompleteReplyGivesItsOutcome : Prop :=
  ∀ (n : LineId) (t : CharSamples) (s : State) (a : Attempt) (len : BitVec 6) (e : EntryIx) (u : StationIx) (m : Nat) (o : OutcomeCode),
    replyEnds s n t a len → a.origin = .cyclic e → a.station = some u → a.attempt = some m →
    replyGives a (a.checkHigh ++ (CharSamples.decode t).byte) (s.station u).address o →
    ((s.entry e).retries.toNat < m ∨ o = .ok ∨ o = .busy ∨ o = .refused) →
    s.mode = .run → ¬ parkWaits s u →
    ∃ t', exec (.characterArrival n t) s = .next t'
      ∧ t'.line n = breakBegun { delivered (s.line n) t with engine := .turnaround, attempt := none }
      ∧ (t'.entry e) = { s.entry e with last := o } ∧ (∀ j, j ≠ e → t'.entry j = s.entry j)
      ∧ (t'.station u).last = o ∧ (∀ v, v ≠ u → t'.station v = s.station v) ∧ t'.payload = s.payload

/-- An OK POLL of an ONLINE station (R41, R78, R81, R89, R108, R109, R112): the counters, AGE 0, and its image pair: flipped with its notice, held
back under HOLD, or none. A break that waited starts in the same step (R48).
The samples of the eleven positions are the row's operand, and RXDn stays at the stop bit's sample 6 (log entry 12, the model's
choice). -/
def Obligations.OkPollIsAccepted : Prop :=
  ∀ (n : LineId) (t : CharSamples) (s : State) (a : Attempt) (len : BitVec 6) (e : EntryIx) (u : StationIx),
    replyEnds s n t a len → a.origin = .cyclic e → a.station = some u →
    replyGives a (a.checkHigh ++ (CharSamples.decode t).byte) (s.station u).address .ok →
    s.mode = .run → ¬ parkWaits s u → (s.station u).health = .online →
    let st : Station := { s.station u with
      missCount := 0, last := .ok, good := satInc (s.station u).good, age := 0 }
    let ended : State := (s.setLine n (breakBegun { delivered (s.line n) t with engine := .turnaround, attempt := none })).setEntry e
      { s.entry e with last := .ok }
    (st.image = none → exec (.characterArrival n t) s = .next (ended.setStation u st))
    ∧ ∀ x y, st.image = some (x, y) →
      (st.hold = true → exec (.characterArrival n t) s = .next (ended.setStation u { st with
        newer := true, nextLen := len
        overwrites := if len = 0 ∧ st.newer = true then satInc st.overwrites else st.overwrites }))
      ∧ (st.hold = false →
        let onA : Bool := st.current == .a
        let flipped : State := ((ended.setStation u { st with
            current := if onA then .b else .a, imageLen := len, imageSeq := st.imageSeq + 1, newer := false }).setOwner
              (if onA then y else x) (.imageCurrent u)).setOwner (if onA then x else y) (.imageNext u)
        exec (.characterArrival n t) s = .next (if st.notify then flipped.offerNotice {
            kind := .imageUpdate, line := st.line, station := u, detailA := len, detailB := st.imageSeq + 1
            cycle := 0, extra := 0 } else flipped))

/-- The final end of a cyclic transaction or a probe, by whichever event ends its last attempt, the quiet limit below the eighth fault
included (R32, R34, R35, R38, R41, R43, R60): LAST of the entry, the record discarded, the engine in TURNAROUND in RUN, and in HOLD in QUIESCING
while another line is active (R51). A break that waited starts at once (R48); a PARK that waited takes effect, its command completes
with the HEALTH the outcome left, and its notice follows the outcome's (R87).
A contact takes a DEGRADED station to ONLINE with its notice (R78, R85); a miss counts, and at MISS_LIMIT takes the station OFFLINE (R79, R80, R81;
with PENDING slots of the station: StationReachesOffline); COLLISION changes LAST
alone. A probe's contact takes an OFFLINE station to ONLINE under AUTO, and under HOST makes it REACHABLE with its notice; a miss takes
REACHABLE away and is no MISSED; the note that the outcome is a probe's is set aside when the station has left OFFLINE (R83, R84). A probe has
no retry (R38). OK counts GOOD, sets AGE 0 and is accepted into the image pair (R81, R89, R108, R109, R112).
The order of the two owners' notices is free (log entry 5). Quiet is as log entry 8 has it; the fixed outcome is held as in log entry 22; the
samples are the row's operand (log entry 12). -/
def Obligations.PollsAndProbesEnd : Prop :=
  ∀ (n : LineId) (s : State) (c : Instr) (o : OutcomeCode) (l : Line) (a : Attempt) (j : EntryIx) (u : StationIx) (len : BitVec 6)
    (e : EngineState) (st : Station) (notices : List Event) (b : State),
    attemptEnds s n c o l a b → a.station = some u → (o = .ok → a.replyLen = some len) → goesTo s n e → parkClear s u st →
    (∃ m, a.origin = .cyclic j ∧ a.attempt = some m ∧ stationTakes s u o true st notices
        ∧ ((s.entry j).retries.toNat < m ∨ a.stop ≠ noStop ∨ o = .ok ∨ o = .busy ∨ o = .refused))
      ∨ (a.origin = .probe j ∧ ((s.station u).health ≠ .offline ∧ stationTakes s u o true st notices ∨ probeTakes s u o st notices)) →
    let ended : State := stationLeft u st
      ((b.setLine n (breakBegun { l with engine := e, attempt := none })).setEntry j { s.entry j with last := o })
    answersInSomeOrder (exec c s) (parkFinished s u (if o = .ok then imageAccepted u len ended else ended))
      (notices ++ parkRecords s u st.health) (imageRecords s u o len)

/-- A contact reply to a READ or WRITE of an ACTIVE slot (R41, R42, R78, R81, R120, R121, R122, R125): OK and REFUSED complete the slot, its record
taken and its blocks back to HOST; BUSY below the seventh defers it and leaves ATTEMPTS. The station is ONLINE and its AGE stays. A break that waited
starts in the same step (R48).
The samples of the eleven positions are the row's operand, and RXDn stays at the stop bit's sample 6 (log entry 12, the model's
choice). The list of submission order and the held records with their slots are the model's form (log entry 26). -/
def Obligations.ContactReplyEndsASlotsTransaction : Prop :=
  ∀ (n : LineId) (t : CharSamples) (s : State) (a : Attempt) (len : BitVec 6) (k : SlotIx) (u : StationIx) (m : Nat) (o : OutcomeCode),
    replyEnds s n t a len → a.origin = .acyclic k → a.station = some u → a.attempt = some m → u = (s.slot k).station →
    a.stop = ⟨false, false, false, false, false, false⟩ →
    replyGives a (a.checkHigh ++ (CharSamples.decode t).byte) (s.station u).address o →
    s.mode = .run → ¬ parkWaits s u → (s.station u).health = .online →
    s.events.length < 64 → s.done = [] →
    let ended (st : Station) : State := (s.setLine n (breakBegun { delivered (s.line n) t with engine := .turnaround, attempt := none })).setStation u
      { st with missCount := 0, last := o }
    let sl : Slot := { s.slot k with
      outcome := o, attempts := BitVec.ofNat 4 m, replyLen := if o = .ok then len else 0, deferred := false }
    let record : Event := {
      kind := .requestDone, line := (s.station u).line, station := u, detailA := sl.replyLen
      detailB := BitVec.ofNat 16 (k.val + 16 * o.code.toNat + 256 * (bit sl.abortLate).toNat)
      cycle := (s.line (s.station u).line).cycnum
      extra := BitVec.ofNat 16 (sl.tag.toNat + 256 * sl.attempts.toNat + 4096 * sl.busyCount.toNat) }
    (o = .ok ∨ o = .refused → exec (.characterArrival n t) s = .next
      (slotReleased { (ended { s.station u with
          good := if o = .ok then satInc (s.station u).good else (s.station u).good }).setSlot k sl with
        submitted := s.submitted.filter (· ≠ k), events := s.events ++ [record] } k
        (fieldBlock? sl.reqBlock) (fieldBlock? sl.replyBlock)))
    ∧ (o = .busy → (s.slot k).busyCount.toNat < 6 → exec (.characterArrival n t) s = .next
      ((ended (s.station u)).setSlot k { s.slot k with
        state := .pending, deferred := true, outcome := .busy, busyCount := (s.slot k).busyCount + 1 }))

/-- The end of an attempt of a slot, by whichever event ends it (R32, R34, R35, R37, R43, R51).
Within the slot's RETRIES and with an empty STOP set a miss or COLLISION owes a retry (R38): OUTCOME and ATTEMPTS are set and the slot stays
ACTIVE. With a STOP reason other than ABORT and PARK the slot returns to PENDING in its place of the submission order, with no outcome for the
station but the attempt's count (R40, R116, R124). BUSY below the seventh defers it, the seventh completes it with BUSY (R122). OK and REFUSED,
and a miss or COLLISION with the budget used up or with PARK, are final (R41, R125). An ABORT_PENDING slot resolves (R129): OK and REFUSED stand
with ABORT_LATE, anything else is ABORTED, and BUSY is counted.
The station takes the final outcome (R78, R79, R80, R81); the order of its notices and the slot's record is free (log entry 5). A break that
waited starts at once (R48). A PARK that waited takes effect after the outcome (R87), and a slot that BUSY has just deferred then completes
with STATION_PARKED (R132). The list of submission
order is log entry 26's; quiet is log entry 8's, the held outcome log entry 22's, the samples log entry 12's. -/
def Obligations.SlotsAfterTheirAttempts : Prop :=
  ∀ (n : LineId) (s : State) (c : Instr) (o : OutcomeCode) (l : Line) (a : Attempt) (k : SlotIx) (u : StationIx) (m : Nat)
    (e : EngineState) (sl : Slot) (len : BitVec 6) (st : Station) (notices : List Event) (b : State),
    attemptEnds s n c o l a b → a.origin = .acyclic k → a.station = some u → a.attempt = some m → (o = .ok → a.replyLen = some len) →
    goesTo s n e →
    let ended : State := b.setLine n (breakBegun { l with engine := e, attempt := none })
    let deferred : Slot := { s.slot k with
      state := .pending, deferred := true, outcome := .busy, busyCount := (s.slot k).busyCount + 1 }
    (m ≤ (s.slot k).retries.toNat → o.isMiss = true ∨ o = .collision → a.stop = noStop → (s.line n).breakRequest = false →
      exec c s = .next (((b.setLine n { l with
          engine := e, attempt := some { a with outcome := some o, retryOwed := true, fixedOutcome := none } }).setSlot k
        { s.slot k with outcome := o, attempts := BitVec.ofNat 4 m }).setStation u (attemptCounted o (s.station u))))
    ∧ (slotReturns s k a m o sl → a.stop ≠ noStop →
      exec c s = .next ((ended.setSlot k sl).setStation u (attemptCounted o (s.station u))))
    ∧ (o = .busy → (s.slot k).busyCount.toNat < 6 → a.stop.abort = false → stationTakes s u o false st notices →
      (¬ parkWaits s u → exec c s = .next (offered notices ((ended.setSlot k deferred).setStation u st)))
      ∧ (parkWaits s u → k ∈ s.submitted → (s.slot k).station = u →
        ∃ t, exec c s = .next t ∧ t.station u = parked st ∧ t.line n = ended.line n
          ∧ t.cmdState = .done ∧ t.result = .ok ∧ t.cvalue = 0 ∧ t.edges.getLsbD 4 = true
          ∧ (∀ v, v ≠ u → t.station v = s.station v)
          ∧ ∀ j, j = k ∨ j ∈ s.submitted ∧ (s.slot j).state = .pending ∧ (s.slot j).station = u → completedWith t j .stationParked))
    ∧ (slotTakes s k a m o len sl → stationTakes s u o false st notices → parkClear s u st →
      answersWithCompletion (exec c s) (parkFinished s u { (stationLeft u st ended).setSlot k sl with
          submitted := s.submitted.filter (· ≠ k) })
        (notices ++ parkRecords s u st.health) k (requestRecord s k sl))

/-- The turnaround is satisfied with a retry owed (R25, R36, R38): the next attempt starts with the next number, SEQ is copied and
advances, and the frame is built anew; an attempt's frame opens with the header, DEn asserted.
Quiet is as log entry 8 has it, and the turnaround satisfied is the flag of log entry 7 (the model's choices);
the starting values of the running check and of the held outcome are log entry 22's. -/
def Obligations.OwedRetryStartsTheNextAttempt : Prop :=
  ∀ (n : LineId) (s : State) (a : Attempt) (u : StationIx) (m : Nat),
    turnaroundDone s n → (s.line n).attempt = some a → a.origin ≠ .sync → a.retryOwed = true → a.station = some u →
    a.attempt = some m →
    let st := s.station u
    let a1 : Attempt := { a with
      seqSent := st.seq, attempt := some (m + 1), sent := 0, received := 0, replyKind := none, replyAddress := none
      replySeq := none, replyLen := none, retryOwed := false, fixedOutcome := none, check := 0xFFFF, checkHigh := 0 }
    exec (.turnaroundSatisfied n) s = .next
      ((s.setStation u { st with seq := st.seq + 1 }).setLine n
        (sending (s.line n) a1 (requestFrame a.kind st.address st.seq (s.requestPayload a.origin a.reqLen))))

/-- At a decision point a waiting break goes before all (R27 step 1), and the SYNC frame of the cycle next (R14, R27 step 2, R28): it carries
CYCNUMn as it stands, and its owed mark clears.
No due entry remains and no slot is eligible (R27 steps 3.3 and 5, R56, R62): the cyclic phase ends, CYCLE_END_n is raised, the walk pointer
is 64 and the engine goes to IDLE.
Quiet is as log entry 8 has it, and the turnaround satisfied is the flag of log entry 7 (the model's choices). -/
def Obligations.DecisionsBeforeAndAfterTheWalk : Prop :=
  (∀ (n : LineId) (s : State), decides s n →
      ((s.line n).breakRequest = true → exec (.turnaroundSatisfied n) s = .next (s.setLine n { s.line n with
        settled := true, engine := .breaking, drive := .breakLow, breakRequest := false, readBack := none, frameRest := [] }))
      ∧ ((s.line n).breakRequest = false → (s.line n).syncOwed = true → ∃ a : Attempt,
        a.origin = .sync ∧ a.station = none ∧ a.kind = .sync ∧ a.attempt = none ∧ a.reqLen = 2 ∧ a.seqSent = 0
        ∧ exec (.turnaroundSatisfied n) s = .next (s.setLine n
            { sending (s.line n) a (syncFrame (s.line n).cycnum) with syncOwed := false })))
    ∧ (∀ (n : LineId) (s : State), decides s n → (s.line n).breakRequest = false → (s.line n).syncOwed = false →
      (s.line n).phase = .cyclic → (∀ k, s.eligible n k = false) →
      (∀ j : EntryIx, (s.line n).walk.val ≤ j.val → s.due n (s.line n).cycnum j = none) →
      exec (.turnaroundSatisfied n) s = .next { s.setLine n { s.line n with
          settled := true, phase := .acyclic, walk := 64, engine := .idle } with
        edges := s.edges ||| cycleEndBit n })

/-- The due rule (R61), in numbers: enabled, its station enabled on line n, c modulo the divider equal to PHASE, and the health. -/
def Obligations.DueRule : Prop :=
  ∀ (s : State) (n : LineId) (c : Word) (e : EntryIx),
    let en := s.entry e
    let st := s.station en.station
    (s.due n c e = some false ↔ en.enabled = true ∧ st.enabled = true ∧ st.line = n
      ∧ c.toNat % 2 ^ en.divExp.toNat = en.phase.toNat ∧ (st.health = .online ∨ st.health = .degraded))
    ∧ (s.due n c e = some true ↔ en.enabled = true ∧ st.enabled = true ∧ st.line = n
      ∧ c.toNat % 2 ^ en.divExp.toNat = en.phase.toNat ∧ st.health = .offline ∧ st.probeDue = true)

/-- The take of the next due entry in the CYCLIC phase, with no SYNC owed and no urgent slot to take (R25, R27 step 3.2, R29, R62, R66, R102):
the first due entry at or after the walk pointer is taken; a waiting commit is swapped in; the POLL goes out with the station's SEQ,
which advances; a probe clears PROBE_DUE; the walk pointer moves past the entry and the urgent mark clears.
Quiet is as log entry 8 has it, and the turnaround satisfied is the flag of log entry 7 (the model's choices). -/
def Obligations.WalkTakesTheNextDueEntry : Prop :=
  ∀ (n : LineId) (s : State) (e : EntryIx) (probe : Bool), decides s n → (s.line n).breakRequest = false → (s.line n).syncOwed = false →
    (s.line n).phase = .cyclic → ((s.line n).urgent = true ∨ s.eligibleOf n 3 = none) →
    (s.line n).walk.val ≤ e.val → s.due n (s.line n).cycnum e = some probe →
    (∀ j : EntryIx, (s.line n).walk.val ≤ j.val → j.val < e.val → s.due n (s.line n).cycnum j = none) →
    ∃ t a, exec (.turnaroundSatisfied n) s = .next t
      ∧ a.origin = (if probe then .probe e else .cyclic e) ∧ a.station = some (s.entry e).station ∧ a.kind = .poll
      ∧ a.attempt = some 1 ∧ a.seqSent = (s.station (s.entry e).station).seq ∧ a.reqLen = (if (t.entry e).binding = none then 0
          else (t.entry e).outputLen.toNat) ∧ a.stop = ⟨false, false, false, false, false, false⟩ ∧ a.retryOwed = false
      ∧ t = { ((s.setLine n { sending (s.line n) a (requestFrame .poll (s.station (s.entry e).station).address
                (s.station (s.entry e).station).seq (t.requestPayload a.origin a.reqLen)) with walk := e.succ, urgent := false }).setStation
              (s.entry e).station { s.station (s.entry e).station with
                seq := (s.station (s.entry e).station).seq + 1
                probeDue := if probe then false else (s.station (s.entry e).station).probeDue }) with
            entries := t.entries, owners := t.owners }
      ∧ (∀ j, j ≠ e → t.entry j = s.entry j)
      ∧ ((s.entry e).commitPending = false ∨ (s.entry e).binding = none → t.entry e = s.entry e ∧ t.owners = s.owners)
      ∧ ∀ p : BlockIx × BlockIx, (s.entry e).commitPending = true → (s.entry e).binding = some p → p.1 ≠ p.2 →
        t.entry e = { s.entry e with
          active := if (s.entry e).active = .a then .b else .a, outputLen := (s.entry e).stagedLen, commitPending := false }
        ∧ (∀ b, t.owner b = if b = p.1 then (if (s.entry e).active = .a then .outputStaged e else .outputActive e)
            else if b = p.2 then (if (s.entry e).active = .a then .outputActive e else .outputStaged e) else s.owner b)

/-- The take of a slot in the ACYCLIC phase (R27 step 4, R29, R119, R120): of the eligible slots of the line the one of highest PRIORITY, the
earliest in the pending list among equals; it becomes ACTIVE and its request goes out with ATTEMPT at ATTEMPTS + 1.
Quiet is as log entry 8 has it, and the turnaround satisfied is the flag of log entry 7 (the model's choices). -/
def Obligations.AcyclicPhaseTakesTheBestSlot : Prop :=
  ∀ (n : LineId) (s : State) (k : SlotIx) (before after : List SlotIx), decides s n → (s.line n).breakRequest = false →
    (s.line n).syncOwed = false → (s.line n).phase = .acyclic → s.pendingList = before ++ k :: after → s.eligible n k = true →
    (∀ j ∈ before, s.eligible n j = true → (s.slot j).priority.toNat < (s.slot k).priority.toNat) →
    (∀ j ∈ after, s.eligible n j = true → (s.slot j).priority.toNat ≤ (s.slot k).priority.toNat) →
    ∃ a : Attempt, a.origin = .acyclic k ∧ a.station = some (s.slot k).station
      ∧ a.kind = (match (s.slot k).kind with | .read => .read | .write => .write)
      ∧ a.attempt = some ((s.slot k).attempts.toNat + 1) ∧ a.reqLen = (s.slot k).reqLen.toNat
      ∧ a.seqSent = (s.station (s.slot k).station).seq
      ∧ exec (.turnaroundSatisfied n) s = .next (((s.setSlot k { s.slot k with state := .active }).setStation (s.slot k).station
          { s.station (s.slot k).station with seq := (s.station (s.slot k).station).seq + 1 }).setLine n
            (sending (s.line n) a (requestFrame a.kind (s.station (s.slot k).station).address
              (s.station (s.slot k).station).seq (s.requestPayload (.acyclic k) (s.slot k).reqLen.toNat))))

/-- An urgent slot in the CYCLIC phase (R27 step 3.1): with the urgent mark clear the earliest eligible slot of PRIORITY 3 goes before the walk and
sets the mark.
The walk has ended (R27 steps 3.3 and 4, R56): with no due entry left and no urgent slot to take, the cyclic phase ends, CYCLE_END_n is raised,
and at the same decision point the eligible slot of highest PRIORITY, the earliest among equals, is taken.
Quiet is as log entry 8 has it, and the turnaround satisfied is the flag of log entry 7 (the model's choices). -/
def Obligations.UrgentTakeAndTheTakeAfterTheWalk : Prop :=
  ∀ (n : LineId) (s : State) (k : SlotIx) (before after : List SlotIx), decides s n → (s.line n).breakRequest = false →
    (s.line n).syncOwed = false → (s.line n).phase = .cyclic → s.pendingList = before ++ k :: after → s.eligible n k = true →
    ((s.line n).urgent = false → (s.slot k).priority = 3 → (∀ j ∈ before, s.eligible n j = true → (s.slot j).priority ≠ 3) →
      ∃ a, slotAttempt s k a
        ∧ exec (.turnaroundSatisfied n) s = .next (slotTaken s n { s.line n with urgent := true } k a))
    ∧ ((∀ j : EntryIx, (s.line n).walk.val ≤ j.val → s.due n (s.line n).cycnum j = none) →
      (s.line n).urgent = true ∨ (∀ j ∈ s.pendingList, s.eligible n j = true → (s.slot j).priority ≠ 3) →
      (∀ j ∈ before, s.eligible n j = true → (s.slot j).priority.toNat < (s.slot k).priority.toNat) →
      (∀ j ∈ after, s.eligible n j = true → (s.slot j).priority.toNat ≤ (s.slot k).priority.toNat) →
      ∃ a, slotAttempt s k a
        ∧ exec (.turnaroundSatisfied n) s = .next { slotTaken s n { s.line n with phase := .acyclic, walk := 64 } k a with
          edges := s.edges ||| cycleEndBit n })

/-- A waiting break request starts its break once the work has ended (R17, R48); the low level and then the guard, DEn asserted (R17).
The end of the guard (R7, R49): DEn released, the line fault count 0, the receiver in WAIT_HIGH, TURNAROUND in RUN and HOLD otherwise (in
QUIESCING while the other line is still active). A faulted line is restored with its notice, and a LINE_BREAK that waited completes with 1 or 0.
The `settled` flag that the end of the guard clears is the model's (log entry 7). The last enabled line's end in QUIESCING is RestInQuiescing's.
The row that names a consequence repeats what the causing step has done (log entry 11, the model's choice). -/
def Obligations.LineBreakOnTheLine : Prop :=
  (∀ (n : LineId) (s : State),
      ((s.line n).breakRequest = true → (s.line n).attempt = none →
        (s.line n).engine = .idle ∨ (s.line n).engine = .turnaround ∨ (s.line n).engine = .hold ∨ (s.line n).engine = .faulted →
        exec (.breakStart n) s = .next (s.setLine n { s.line n with
          engine := .breaking, drive := .breakLow, breakRequest := false, readBack := none, frameRest := [] }))
      ∧ ((s.line n).breakRequest = false ∨ (s.line n).attempt ≠ none → exec (.breakStart n) s = .next s)
      ∧ ((s.line n).engine = .breaking → (s.line n).drive = .breakLow →
        exec (.breakLowEnd n) s = .next (s.setLine n { s.line n with drive := .breakGuard }))
      ∧ Drive.breakLow.txdLevels = [false] ∧ Drive.breakLow.deAsserted = true
      ∧ Drive.breakGuard.txdLevels = [true] ∧ Drive.breakGuard.deAsserted = true)
    ∧ (∀ (n : LineId) (s : State), (s.line n).engine = .breaking → (s.line n).drive = .breakGuard →
      (s.mode = .quiescing → ∃ m, m ≠ n ∧ (s.line m).enable = true ∧ (s.line m).engine ≠ .hold ∧ (s.line m).faulted = false) →
      (s.line n).breakRequest = false →
      let line : Line := { s.line n with
        drive := .released, faults := 0, faulted := false, rx := .waitHigh, settled := false
        engine := if s.mode = .run then .turnaround else .hold }
      let restored : State := if (s.line n).faulted then (s.setLine n line).offerNotice {
          kind := .lineRestored, line := n, station := 0, detailA := 0, detailB := 0, cycle := 0, extra := 0 }
        else s.setLine n line
      (s.cmdState ≠ .busy → exec (.lineBreakEnd n) s = .next restored)
      ∧ (s.cmdState = .busy → s.cmd = 0x0F → (s.args.get 0).toNat = lineNumber n →
        exec (.lineBreakEnd n) s = .next { restored with
          cmdState := .done, result := .ok, cvalue := if (s.line n).faulted then 1 else 0
          edges := restored.edges ||| 0x0010 }))

/-- A regular cycle start, and one that finds the engine faulted (R55, R69, R70): no accounting and no notice.
A late start (R69): phase ACYCLIC with an acyclic transaction in flight; CYCLE_LATE with the new number, and OVERRUN_n.
A break request that waits for the work in flight goes on waiting, and one that need not wait starts its break (R48).
The accounting stands first in the step (log entry 6). -/
def Obligations.CycleStartWithoutOverrun : Prop :=
  (∀ (n : LineId) (s : State), expires s n →
      ((s.line n).faulted = true
        ∨ ((s.line n).phase = .acyclic ∧ ∀ a k, (s.line n).attempt = some a → a.origin ≠ .acyclic k)) →
      ∃ t, exec (.cycleStart n) s = .next t
        ∧ t = { s.setLine n (breakBegun (cycleOpened (s.line n))) with
            stations := t.stations, slots := t.slots, edges := s.edges ||| cycleStartBit n }
        ∧ cycleHandedOver n s t)
    ∧ (∀ (n : LineId) (s : State) (a : Attempt) (k : SlotIx), expires s n → (s.line n).faulted = false → (s.line n).phase = .acyclic →
      (s.line n).attempt = some a → a.origin = .acyclic k →
      ∃ t, exec (.cycleStart n) s = .next t
        ∧ t = ({ s.setLine n (breakBegun (cycleOpened (s.line n))) with
            stations := t.stations, slots := t.slots
            edges := s.edges ||| cycleStartBit n ||| overrunBit n } : State).offerNotice {
              kind := .cycleLate, line := n, station := 0, detailA := 0, detailB := 0, cycle := 0, extra := 0 }
        ∧ cycleHandedOver n s t)

/-- An overrun (R68): each remaining due entry of the old cycle records SKIPPED and counts it; the notice carries how many, with the new
number; OVERRUN_n is raised; no other field of an entry changes.
A waiting break request is as in CycleStartWithoutOverrun.
The accounting stands first in the step (log entry 6). -/
def Obligations.OverrunSkipsTheRemainingEntries : Prop :=
  ∀ (n : LineId) (s : State), expires s n → (s.line n).faulted = false → (s.line n).phase = .cyclic →
    ∃ (t : State) (skipped : List EntryIx), exec (.cycleStart n) s = .next t
      ∧ skipped.Nodup ∧ (∀ e, e ∈ skipped ↔ remains s n e)
      ∧ t = ({ s.setLine n (breakBegun (cycleOpened (s.line n))) with
          stations := t.stations, slots := t.slots, entries := t.entries
          edges := s.edges ||| cycleStartBit n ||| overrunBit n } : State).offerNotice {
            kind := .cycleOverrun, line := n, station := 0, detailA := 0, detailB := BitVec.ofNat 16 skipped.length
            cycle := 0, extra := 0 }
      ∧ (∀ e, remains s n e → t.entry e = { s.entry e with last := .skipped, skipped := satInc (s.entry e).skipped })
      ∧ (∀ e, ¬ remains s n e → t.entry e = s.entry e)
      ∧ cycleHandedOver n s t

/-- A cycle start of an IDLE engine is a decision point (R26, R55, R70): the step answers what the decision answers on the state the start leaves,
with the SYNC frame first when SYNC is set (R27, R28). An IDLE engine has reached its decision with the line quiet (R56), which is the flag of
log entry 7.
A cycle start while a transaction waits for its retry (R39, R40, R68): CYCLE ends it at once with its last outcome, after the accounting. A
cyclic one ends as a miss below MISS_LIMIT or a COLLISION (R41, R60, R79, R81); a slot returns to PENDING with DEFERRED cleared (R123, R124), in
either phase (R68, R69). A break that waited then starts (R48). Which of that end and the Station Table's step comes first is free and changes
nothing here (log entry 6); the order of the notices of two owners is free (log entry 5).
The miss that reaches MISS_LIMIT takes the station OFFLINE and completes its PENDING slots (R80, R131); with the Station Table's step after
it the countdown just reloaded moves on (R82), with that step before it the countdown stays, and which comes first is free (log entry 6). -/
def Obligations.CycleStartOfAnIdleOrWaitingEngine : Prop :=
  (∀ (n : LineId) (s : State), s.mode = .run → (s.line n).enable = true → (s.line n).timerRunning = true → (s.line n).engine = .idle →
      (s.line n).attempt = none → (s.line n).breakRequest = false → (s.line n).faulted = false → (s.line n).phase = .acyclic →
      isQuiet (s.line n) → (s.line n).settled = true →
      ∃ h, h = { s.setLine n { cycleOpened (s.line n) with engine := .turnaround } with
            stations := h.stations, slots := h.slots, edges := s.edges ||| cycleStartBit n }
        ∧ cycleHandedOver n s h ∧ decides h n ∧ exec (.cycleStart n) s = exec (.turnaroundSatisfied n) h
        ∧ ((s.line n).sync = true → ∃ t, exec (.cycleStart n) s = .next t ∧ (t.line n).engine = .sending
          ∧ (t.line n).drive = .character ⟨0x60, true⟩ ∧ (t.line n).frameRest = (syncFrame ((s.line n).cycnum + 1)).tail))
    ∧ (∀ (n : LineId) (s : State) (a : Attempt) (j : EntryIx) (u : StationIx) (o : OutcomeCode), s.mode = .run →
      (s.line n).enable = true → (s.line n).timerRunning = true → (s.line n).engine = .turnaround →
      (s.line n).faulted = false → (s.line n).phase = .cyclic → ¬ parkWaits s u → (s.line n).attempt = some a → a.origin = .cyclic j →
      a.station = some u → a.retryOwed = true → a.outcome = some o → j.val < (s.line n).walk.val →
      (∃ (skipped : List EntryIx) (b : State),
        b = { s.setLine n (breakBegun { cycleOpened (s.line n) with attempt := none }) with
            stations := b.stations, slots := b.slots, entries := b.entries
            edges := s.edges ||| cycleStartBit n ||| overrunBit n, freeIndex := s.freeIndex + 1 }
        ∧ entriesSkipped n (s.setEntry j { s.entry j with last := o }) b skipped
        ∧ (o = .collision → cycleHandedOver n (s.setStation u { s.station u with last := o }) b
          ∧ exec (.cycleStart n) s = .next (b.offerNotice (overrunRecord n skipped.length)))
        ∧ (o.isMiss = true → (s.station u).health = .online ∨ (s.station u).health = .degraded →
          (s.station u).missCount.toNat + 1 < (s.station u).missLimit.toNat →
          cycleHandedOver n (s.setStation u { s.station u with
              last := o, missed := satInc (s.station u).missed, missCount := (s.station u).missCount + 1, health := .degraded }) b
          ∧ answersInSomeOrder (exec (.cycleStart n) s) b [overrunRecord n skipped.length]
            (if (s.station u).health = .online then [stateRecord s u .online .degraded ((s.station u).missCount + 1)] else [])))
      ∧ (o.isMiss = true → reachesLimit (s.station u) →
        let off : Station := goneOffline o (s.station u)
        ∃ (skipped : List EntryIx) (t : State), exec (.cycleStart n) s = .next t
          ∧ entriesSkipped n (s.setEntry j { s.entry j with last := o }) t skipped
          ∧ t.line n = breakBegun { cycleOpened (s.line n) with attempt := none }
          ∧ ((s.station u).line ≠ n → t.station u = off)
          ∧ ((s.station u).line = n → t.station u = { off with age := satInc off.age }
            ∨ (1 < off.probeInterval.toNat → t.station u = { off with age := satInc off.age, probeCountdown := off.probeInterval - 1 })
              ∧ (off.probeInterval = 1 → t.station u = { off with age := satInc off.age, probeDue := true }))
          ∧ t.edges.getLsbD 14 = true ∧ t.edges &&& cycleStartBit n ≠ 0 ∧ t.edges &&& overrunBit n ≠ 0
          ∧ ∀ k, k ∈ s.submitted → (s.slot k).state = .pending → (s.slot k).station = u → completedWith t k .stationOffline))
    ∧ (∀ (n : LineId) (s : State) (a : Attempt) (k : SlotIx) (u : StationIx) (o : OutcomeCode) (m : Nat), s.mode = .run →
      (s.line n).enable = true → (s.line n).timerRunning = true → (s.line n).engine = .turnaround →
      (s.line n).faulted = false → (s.line n).attempt = some a → a.origin = .acyclic k → a.station = some u → a.retryOwed = true →
      a.outcome = some o → o.isMiss = true ∨ o = .collision → a.attempt = some m → m ≤ (s.slot k).retries.toNat →
      a.stop = noStop →
      ∃ b, b = { s.setLine n (breakBegun { cycleOpened (s.line n) with attempt := none }) with
            stations := b.stations, slots := b.slots, entries := b.entries
            edges := s.edges ||| cycleStartBit n ||| overrunBit n, freeIndex := s.freeIndex + 1 }
        ∧ cycleHandedOver n (s.setSlot k { s.slot k with state := .pending }) b
        ∧ ((s.line n).phase = .acyclic → b.entries = s.entries ∧ exec (.cycleStart n) s = .next (b.offerNotice {
            kind := .cycleLate, line := n, station := 0, detailA := 0, detailB := 0, cycle := 0, extra := 0 }))
        ∧ ((s.line n).phase = .cyclic → ∃ skipped, entriesSkipped n s b skipped
          ∧ exec (.cycleStart n) s = .next (b.offerNotice (overrunRecord n skipped.length))))

/-- Every request that Table 8-2 does not accept sets REQ_REFUSED and changes nothing else (R151). -/
def Obligations.RefusedModeRequests : Prop :=
  (∀ s : State, s.mode ≠ .init →
    (s.pendingRequest ≠ none ∨ (s.mode ≠ .config ∧ s.mode ≠ .quiesced) →
      exec .modereqRun s = .next { s with reqRefused := true })
    ∧ (s.pendingRequest ≠ none ∨ s.mode ≠ .run → exec .modereqQuiesce s = .next { s with reqRefused := true })
    ∧ (s.pendingRequest ≠ none ∨ s.mode ≠ .quiesced → exec .modereqConfig s = .next { s with reqRefused := true })
    ∧ ∀ v : Word, v ≠ 1 → v ≠ 2 → v ≠ 3 → exec (.registerWrite 0x01 v) s = .next { s with reqRefused := true })
    ∧ ∀ (s : State) (v : Word), s.mode ≠ .init →
      exec (.devstatWrite v) s = .next { s with reqRefused := s.reqRefused && !v.getLsbD 4 }

/-- The configuration checks (R153, Table 8-3): they pass exactly when every check passes, and the first group that fails gives the error,
at the lowest index that fails. -/
def Obligations.ValidationInTheOrderOfTheTable : Prop :=
  ∀ s : State,
    (s.validate = none ↔ (s.line0.enable = true ∨ s.line1.enable = true) ∧ (∀ n, lineValid (s.line n))
      ∧ (∀ u, stationValid s u) ∧ ∀ e, entryValid s e)
    ∧ (s.line0.enable = false → s.line1.enable = false → s.validate = some (1, 0))
    ∧ (s.line0.enable = true ∨ s.line1.enable = true →
      (¬ lineValid s.line0 → s.validate = some (if s.line0.period.toNat < 10 then 2 else 3, 0))
      ∧ (lineValid s.line0 → ¬ lineValid s.line1 → s.validate = some (if s.line1.period.toNat < 10 then 2 else 3, 1))
      ∧ ((∀ n, lineValid (s.line n)) → ∀ u : StationIx, ¬ stationValid s u → (∀ v, v.val < u.val → stationValid s v) →
        s.validate = some (
          if (s.station u).address = 0 ∨ (s.station u).address = 31 then 4
          else if (s.station u).missLimit = 0 ∨ (s.station u).probeInterval = 0 then 5
          else if (s.line (s.station u).line).enable = false then 6 else 7, BitVec.ofNat 6 u.val))
      ∧ ((∀ n, lineValid (s.line n)) → (∀ u, stationValid s u) → ∀ e : EntryIx, ¬ entryValid s e →
        (∀ j, j.val < e.val → entryValid s j) →
        s.validate = some (if (s.station (s.entry e).station).enabled = true then 9 else 8, BitVec.ofNat 6 e.val)))

/-- A RUN request whose validation fails (R154): the error is recorded, posted and raised, and nothing else changes. -/
def Obligations.FailedValidation : Prop :=
  ∀ (s : State) (code : BitVec 4) (index : BitVec 6), s.mode = .config → s.pendingRequest = none →
    s.validate = some (code, index) →
    exec .modereqRun s = .next (({ s with
      errCode := code, errIndex := index, edges := s.edges ||| 0x0020 } : State).offerNotice (modeRecord 1 code.toNat index.toNat))

/-- RUN entry (R53, R62, R76, R155): in the step of the write the mode is RUN, every station that is not PARKED is ONLINE with its countdown
reloaded and AGE 255, the engines of enabled lines leave OFF with cycle 0 started, and disabled lines stay as they are.
A RUN entry that finds no station DEGRADED or OFFLINE and no slot PENDING posts its MODE notice alone (R152, R155). -/
def Obligations.RunEntry : Prop :=
  (∀ s : State, s.mode = .config → s.pendingRequest = none → s.validate = none →
      (∀ n, (s.line n).attempt = none ∧ (s.line n).breakRequest = false ∧ (s.line n).faulted = false ∧ (s.line n).engine = .off) →
      ∃ t, exec .modereqRun s = .next t ∧ t.mode = .run ∧ t.errCode = 0 ∧ t.errIndex = 0 ∧ t.reqRefused = s.reqRefused
        ∧ t.edges.getLsbD 5 = true ∧ t.payload = s.payload ∧ t.entries = s.entries
        ∧ (∀ u, (s.station u).health = .parked →
          t.station u = { s.station u with probeCountdown := (s.station u).probeInterval, age := 255 })
        ∧ (∀ u, (s.station u).health ≠ .parked → t.station u = { s.station u with
          health := .online, missCount := 0, reachable := false, probeDue := false
          probeCountdown := (s.station u).probeInterval, age := 255 })
        ∧ (∀ n, (s.line n).enable = false → t.line n = { s.line n with walk := 0 })
        ∧ ∀ n, (s.line n).enable = true → t.edges &&& cycleStartBit n ≠ 0
          ∧ (t.line n).cycnum = 0 ∧ (t.line n).timerRunning = true ∧ (t.line n).runningCount = (s.line n).period
          ∧ (t.line n).phase = .cyclic ∧ (t.line n).walk = 0
          ∧ (t.line n).syncOwed = ((s.line n).syncOwed || (s.line n).sync) ∧ (t.line n).attempt = none
          ∧ ((s.line n).breakOnStart = false → (t.line n).engine = .turnaround ∧ (t.line n).drive = (s.line n).drive)
          ∧ ((s.line n).breakOnStart = true → (t.line n).engine = .breaking ∧ (t.line n).drive = .breakLow))
    ∧ (∀ s : State, s.mode = .config → s.pendingRequest = none → s.validate = none →
      (∀ n, (s.line n).attempt = none ∧ (s.line n).breakRequest = false ∧ (s.line n).engine = .off) →
      (∀ u, (s.station u).health = .online ∨ (s.station u).health = .parked) → s.submitted = [] → s.events.length < 48 →
      ∃ t, exec .modereqRun s = .next t ∧ t.events = s.events ++ [modeRecord 2 0 0])

/-- RUN entry (R76, R133, R155): a PENDING slot whose station is disabled or whose line is disabled completes with CANCELLED, and every other one
stays PENDING in its place; a station that was DEGRADED or OFFLINE posts its change to ONLINE, in an order that is free (log entry 5), and MODE
comes last. CYCLE of these notices is the new cycle number 0 on an enabled line (R136).
The entry to CONFIG (R49, R133, R159): every PENDING slot completes with CANCELLED, the records in the order of the pending list, before MODE; a
LINE_BREAK that waits completes with WRONG_MODE and value 0.
The list of submission order is the model's form (log entry 26). -/
def Obligations.CancellationsAtModeChanges : Prop :=
  (∀ s : State, s.mode = .config → s.pendingRequest = none → s.validate = none →
      (∀ n, (s.line n).attempt = none ∧ (s.line n).breakRequest = false ∧ (s.line n).faulted = false ∧ (s.line n).engine = .off) →
      let valid (k : SlotIx) : Prop :=
        (s.station (s.slot k).station).enabled = true ∧ (s.line (s.station (s.slot k).station).line).enable = true
      ∃ t, exec .modereqRun s = .next t
        ∧ (∀ k, k ∈ s.submitted → (s.slot k).state = .pending → ¬ valid k → completedWith t k .cancelled)
        ∧ (∀ k, (s.slot k).state = .pending → valid k →
          t.slot k = { s.slot k with deferred := false } ∧ (k ∈ t.submitted ↔ k ∈ s.submitted))
        ∧ ((∀ k ∈ s.submitted, (s.slot k).state = .pending → valid k) → ∃ order : List StationIx, order.Nodup
          ∧ (∀ u, u ∈ order ↔ (s.station u).health = .degraded ∨ (s.station u).health = .offline)
          ∧ (s.events.length + order.length < 48 → t.events = s.events ++ (order.map fun u =>
              { stateRecord s u (s.station u).health .online 0 with
                cycle := if (s.line (s.station u).line).enable = true then 0 else (s.line (s.station u).line).cycnum })
            ++ [modeRecord 2 0 0])))
    ∧ (∀ s : State, s.mode = .quiesced → s.pendingRequest = none →
      ∃ t, exec .modereqConfig s = .next t ∧ t.mode = .config ∧ (∀ n, (t.line n).engine = .off)
        ∧ (∀ k, k ∈ s.submitted → (s.slot k).state = .pending → completedWith t k .cancelled)
        ∧ (∀ k, (s.slot k).state ≠ .pending → t.slot k = s.slot k)
        ∧ (s.done = [] → s.events.length + s.pendingList.length < 48 →
          t.events = s.events ++ (s.pendingList.map fun k =>
              s.stamp (requestRecord s k { s.slot k with outcome := .cancelled, replyLen := 0, deferred := false }))
            ++ [modeRecord 1 0 0])
        ∧ (∀ n : LineId, s.cmdState = .busy → s.cmd = 0x0F → (s.args.get 0).toNat = lineNumber n →
          t.cmdState = .done ∧ t.result = .wrongMode ∧ t.cvalue = 0 ∧ t.edges.getLsbD 4 = true))

/-- QUIESCE with every enabled line already at rest or idle (R51, R53, R156, R157): the timers stop, the engines rest in HOLD and QUIESCED is
reached in the same step.
QUIESCE with an attempt in flight on line n and the other line disabled (R39, R51, R151, R156): QUIESCING, with QUIESCE in the STOP set, and a
second request is refused.
QUIESCE while line n waits between two attempts (R39, R40, R41, R51): QUIESCE ends the transaction at once with its last outcome, a slot returns to
PENDING, and the engine goes to HOLD; with the other line disabled QUIESCED is reached in the same step, the order of its
notice and the station's free (log entry 5); with the other line in an attempt the mode is QUIESCING.
Every enabled line at rest in QUIESCING (R157): the mode becomes QUIESCED, REQ_PENDING clears, the MODE notice is posted and MODE_DONE
raised.
The row that names a consequence repeats what the causing step has done (log entry 11, the model's choice). -/
def Obligations.QuiesceAndItsEnd : Prop :=
  (∀ s : State, s.mode = .run → s.pendingRequest = none →
      (∀ n, (s.line n).enable = true → (s.line n).attempt = none
        ∧ ((s.line n).engine = .idle ∨ (s.line n).engine = .turnaround ∨ (s.line n).faulted = true ∧ (s.line n).engine = .faulted)) →
      exec .modereqQuiesce s = .next (({ s with
        mode := .quiesced, edges := s.edges ||| 0x0020
        line0 := if s.line0.enable then { s.line0 with
          timerRunning := false, engine := if s.line0.engine = .faulted then .faulted else .hold } else s.line0
        line1 := if s.line1.enable then { s.line1 with
          timerRunning := false, engine := if s.line1.engine = .faulted then .faulted else .hold } else s.line1 } : State).offerNotice
            (modeRecord 4 0 0)))
    ∧ (∀ (n m : LineId) (s : State) (a : Attempt), n ≠ m → s.mode = .run → s.pendingRequest = none → (s.line n).enable = true →
      (s.line m).enable = false → (s.line n).faulted = false → (s.line n).engine ≠ .hold → (s.line n).attempt = some a →
      a.origin ≠ .sync → a.retryOwed = false →
      let t : State := { s.setLine n { s.line n with
          timerRunning := false, attempt := some { a with stop := { a.stop with quiesce := true } } } with
        mode := .quiescing, pendingRequest := some .quiesce }
      exec .modereqQuiesce s = .next t ∧ t.readRegister 0x01 = 3 ∧ exec .modereqRun t = .next { t with reqRefused := true })
    ∧ (∀ (n m : LineId) (s : State) (a : Attempt) (u : StationIx) (o : OutcomeCode), n ≠ m → s.mode = .run → s.pendingRequest = none →
      (s.line n).enable = true → betweenAttempts s n a u o →
      let held : State := { s.setLine n { s.line n with timerRunning := false, engine := .hold, attempt := none } with
        mode := .quiescing, pendingRequest := some .quiesce }
      (∀ j st notices, a.origin = .cyclic j → lastTakes s u o true st notices → ¬ parkWaits s u →
        let left (x : State) : State := stationLeft u st (x.setEntry j { s.entry j with last := o })
        ((s.line m).enable = false →
          answersInSomeOrder (exec .modereqQuiesce s) (quiescedFrom (left held)) notices [modeRecord 4 0 0])
        ∧ ∀ x, (s.line m).enable = true → (s.line m).attempt = some x → x.origin ≠ .sync → x.retryOwed = false →
          (s.line m).engine ≠ .hold → (s.line m).faulted = false →
          exec .modereqQuiesce s = .next (offered notices (left (held.setLine m { s.line m with
            timerRunning := false, attempt := some { x with stop := { x.stop with quiesce := true } } }))))
      ∧ ∀ k i, a.origin = .acyclic k → a.attempt = some i → i ≤ (s.slot k).retries.toNat → a.stop = noStop →
        let left (x : State) : State := x.setSlot k { s.slot k with state := .pending }
        ((s.line m).enable = false →
          exec .modereqQuiesce s = .next ((quiescedFrom (left held)).offerNotice (modeRecord 4 0 0)))
        ∧ ∀ x, (s.line m).enable = true → (s.line m).attempt = some x → x.origin ≠ .sync → x.retryOwed = false →
          (s.line m).engine ≠ .hold → (s.line m).faulted = false →
          exec .modereqQuiesce s = .next (left (held.setLine m { s.line m with
            timerRunning := false, attempt := some { x with stop := { x.stop with quiesce := true } } })))
    ∧ (∀ s : State, s.mode = .quiescing →
      ((∀ n, (s.line n).enable = true → (s.line n).engine = .hold ∨ (s.line n).faulted = true) →
        exec .quiescedReached s = .next (({ s with
          mode := .quiesced, pendingRequest := none, edges := s.edges ||| 0x0020 } : State).offerNotice (modeRecord 4 0 0)))
      ∧ ∀ n, (s.line n).enable = true → (s.line n).engine ≠ .hold → (s.line n).faulted = false →
        exec .quiescedReached s = .next s)

/-- The end of a transaction's attempt in QUIESCING, with QUIESCE or another reason in its STOP set (R39, R51): no retry, the record is
discarded and the engine goes to HOLD, by whichever event ends it. While another enabled line is active the mode stays; at the last line's
end QUIESCED is reached in the same step, REQ_PENDING clears and MODE_DONE is raised (R157).
The last line's arrival, with its notices: the end of a cyclic transaction with a miss, a COLLISION, BUSY or REFUSED (R41, R78, R79), the end of
SYNC work (R29, R35) and the end of a break (R49) post MODE with theirs, the order of the two owners free (log entry 5); a PARK that waited takes
effect first (R87). SYNC work that ends elsewhere goes to TURNAROUND in RUN and to HOLD in QUIESCING (R51), and a break that waited starts (R48).
The `settled` flag is log entry 7's, quiet log entry 8's, the latest delivery as read-back log entry 14's. -/
def Obligations.RestInQuiescing : Prop :=
  (∀ (n : LineId) (s : State) (c : Instr) (o : OutcomeCode) (l : Line) (a : Attempt) (u : StationIx) (b : State),
      attemptEnds s n c o l a b → a.station = some u → a.stop ≠ noStop → s.mode = .quiescing → (s.line n).breakRequest = false →
      ∃ t, exec c s = .next t ∧ (t.line n).attempt = none ∧ (t.line n).engine = .hold ∧ (∀ m, m ≠ n → t.line m = s.line m)
        ∧ (goesTo s n .hold → t.mode = .quiescing ∧ t.pendingRequest = s.pendingRequest)
        ∧ (lastToRest s n → t.mode = .quiesced ∧ t.pendingRequest = none ∧ t.edges.getLsbD 5 = true))
    ∧ (∀ (n : LineId) (s : State) (c : Instr) (o : OutcomeCode) (l : Line) (a : Attempt) (j : EntryIx) (u : StationIx) (st : Station)
        (notices : List Event) (b : State),
      attemptEnds s n c o l a b → a.origin = .cyclic j → a.station = some u → a.stop ≠ noStop → o ≠ .ok →
      (s.line n).breakRequest = false → lastToRest s n → stationTakes s u o true st notices → parkClear s u st →
      answersInSomeOrder (exec c s) (quiescedFrom (parkFinished s u (stationLeft u st
        ((b.setLine n { l with engine := .hold, attempt := none }).setEntry j { s.entry j with last := o }))))
        (notices ++ parkRecords s u st.health) [modeRecord 4 0 0])
    ∧ (∀ (n : LineId) (s : State) (c : Instr) (l : Line) (b : State), syncEnds s n c l b →
      (∀ e, goesTo s n e → exec c s = .next (b.setLine n (breakBegun { l with engine := e, attempt := none })))
      ∧ (lastToRest s n → (s.line n).breakRequest = false →
        exec c s = .next ((quiescedFrom (b.setLine n { l with engine := .hold, attempt := none })).offerNotice (modeRecord 4 0 0))))
    ∧ (∀ (n : LineId) (s : State), (s.line n).engine = .breaking → (s.line n).drive = .breakGuard → (s.line n).breakRequest = false →
      lastToRest s n →
      let ended : State := s.setLine n { s.line n with
        drive := .released, faults := 0, faulted := false, rx := .waitHigh, settled := false, engine := .hold }
      let restored : List Event := if (s.line n).faulted = true then [{
        kind := .lineRestored, line := n, station := 0, detailA := 0, detailB := 0, cycle := 0, extra := 0 }] else []
      (s.cmdState ≠ .busy → answersInSomeOrder (exec (.lineBreakEnd n) s) (quiescedFrom ended) restored [modeRecord 4 0 0])
      ∧ (s.cmdState = .busy → s.cmd = 0x0F → (s.args.get 0).toNat = lineNumber n →
        answersInSomeOrder (exec (.lineBreakEnd n) s) (quiescedFrom { ended with
          cmdState := .done, result := .ok, cvalue := if (s.line n).faulted = true then 1 else 0
          edges := s.edges ||| 0x0010 }) restored [modeRecord 4 0 0]))

/-- The return to RUN (R51, R53, R71, R152, R158): line 0 and then line 1 take their new cycle start, a disabled line stays as it is, and MODE
is posted. Each enabled line's engine is in HOLD, FAULTED or in a break: one in HOLD on a line known to be quiet for TURNAROUND decides at once
on the new cycle, and on another it goes to TURNAROUND; a break goes on and a FAULTED engine stays (R49).
With one line enabled, its engine in HOLD on a line not yet known to be quiet, or FAULTED, all that the step changes.
That the station records stay, AGE and PROBE_COUNTDOWN included, is R76, R89 and R158 as log entry 29 reads them (the model's choice).
Quiet is as log entry 8 has it, and the turnaround satisfied is the flag of log entry 7 (the model's choices).
The entry to CONFIG from QUIESCED with no request pending, no slot PENDING and no command waiting (R22, R152, R159): the engines are OFF,
everything else is kept. The other entries are CancellationsAtModeChanges'. The `settled` flag that OFF clears is log entry 7's. -/
def Obligations.LeavingQuiesced : Prop :=
  (∀ s : State, s.mode = .quiesced → s.pendingRequest = none →
    (∀ n, (s.line n).enable = true → (s.line n).attempt = none ∧ (s.line n).breakRequest = false
      ∧ ((s.line n).engine = .hold ∨ (s.line n).engine = .faulted ∨ (s.line n).engine = .breaking)) →
    ∃ a b, lineResumed .zero { s with mode := .run } a ∧ lineResumed .one a b
      ∧ exec .modereqRun s = .next (({ b with edges := b.edges ||| 0x0020 } : State).offerNotice (modeRecord 2 0 0)))
    ∧ (∀ (n m : LineId) (s : State), n ≠ m → s.mode = .quiesced → s.pendingRequest = none → (s.line n).enable = true →
    (s.line m).enable = false → (s.line n).attempt = none → (s.line n).breakRequest = false →
    ((s.line n).engine = .hold ∧ (¬ isQuiet (s.line n) ∨ (s.line n).settled = false) ∨ (s.line n).engine = .faulted) →
    ∃ t, exec .modereqRun s = .next t
      ∧ t = ({ s.setLine n { cycleOpened (s.line n) with
                engine := if (s.line n).engine = .hold then .turnaround else .faulted } with
          mode := .run, slots := t.slots
          edges := s.edges ||| cycleStartBit n ||| 0x0020 } : State).offerNotice (modeRecord 2 0 0)
      ∧ deferralsReleased n s t)
    ∧ (∀ s : State, s.mode = .quiesced → s.pendingRequest = none → s.cmdState ≠ .busy → s.pendingList = [] →
    ∃ t, exec .modereqConfig s = .next t
      ∧ t = ({ s with
          mode := .config, line0 := t.line0, line1 := t.line1
          edges := s.edges ||| 0x0020 } : State).offerNotice (modeRecord 1 0 0)
      ∧ ∀ n, t.line n = { s.line n with
          engine := .off, faulted := false, faults := 0, attempt := none, breakRequest := false
          syncOwed := false, urgent := false, unsolMark := false, rx := .waitHigh, settled := false
          readBack := none, drive := .released, frameRest := [] })

/-- IFLAG, IENABLE, ILEVEL and ITHRESH writes outside INIT (R175, R176): a 1 clears an edge flag and is ignored for a level source; written
levels and thresholds are narrowed; no flag changes by a level or threshold.
INT# and ITOP (R177): asserted exactly while a source is pending; ITOP is the pending source of highest level, the lowest number
among equals, and 31 when none is pending.
The level sources follow the queue (R146, R174): EVENT_AVAILABLE from one record on, EVENT_THRESHOLD from EVTHRESH records on. -/
def Obligations.InterruptRegistersAndTop : Prop :=
  (∀ (s : State) (v : Word), s.mode ≠ .init →
      (exec (.iflagWrite v) s = .next { s with edges := s.edges &&& ~~~v })
      ∧ (∀ t, exec (.iflagWrite v) s = .next t → t.iflag = (s.iflag &&& ~~~v) ||| (s.iflag &&& 3))
      ∧ exec (.registerWrite 0x19 v) s = .next { s with ienable := v }
      ∧ (∃ x : BitVec 3, exec (.ithreshWrite v) s = .next { s with ithresh := x } ∧ x.toNat = max 1 (min 7 v.toNat))
      ∧ ∀ r : Fin 4, ∃ t, exec (.ilevelWrite r v) s = .next t ∧ t = { s with ilevel := t.ilevel }
        ∧ ∀ i : Fin 16, (t.ilevel.get i).toNat = if i.val / 4 = r.val then min 7 (v.toNat / 16 ^ (i.val % 4) % 16)
            else (s.ilevel.get i).toNat)
    ∧ (∀ s : State,
      (s.intAsserted = true ↔ ∃ i, sourceIsPending s i)
      ∧ ((∀ i, ¬ sourceIsPending s i) → s.itop.toNat = 31)
      ∧ ∀ i, sourceIsPending s i →
        (∀ j, sourceIsPending s j → (s.ilevel.get j).toNat < (s.ilevel.get i).toNat
          ∨ ((s.ilevel.get j).toNat = (s.ilevel.get i).toNat ∧ i.val ≤ j.val)) → s.itop.toNat = i.val)
    ∧ (∀ s : State, (s.iflag.getLsbD 0 = true ↔ 1 ≤ s.events.length) ∧ (s.iflag.getLsbD 1 = true ↔ s.evthresh.toNat ≤ s.events.length)
      ∧ ∀ i, 2 ≤ i → i < 16 → s.iflag.getLsbD i = s.edges.getLsbD i)

/-- The line configuration registers (R3, R18, R52, R163): stored in CONFIG, LINEnDIV not below 15, and refused in RUN, QUIESCING and
QUIESCED.
The other registers that take writes, outside INIT (R143, R145, R165, R168): CARG0 to CARG3, TAPADDR, EVLOST, EVTHRESH and DMACTL.
A write to a read-only or an unassigned position is refused and recorded with the byte offset (R164, R167); the record is loaded only
when ACCESS_ERROR was clear, and unassigned positions read 0. -/
def Obligations.RegisterWrites : Prop :=
  (∀ (n : LineId) (s : State) (v : Word),
    let base : Nat := 0x20 + 8 * lineNumber n
    let reg (i : Nat) : BitVec 6 := BitVec.ofNat 6 (base + i)
    let off (i : Nat) : Word := BitVec.ofNat 16 (2 * (base + i))
    (s.mode = .config →
      (∃ d : BitVec 12, d.toNat = max 15 (v.toNat % 4096)
        ∧ exec (.linedivWrite n v) s = .next (s.setLine n { s.line n with div := d }))
      ∧ exec (.registerWrite (reg 0) v) s = .next (s.setLine n { s.line n with
          enable := v.getLsbD 0, sync := v.getLsbD 1, breakOnStart := v.getLsbD 2 })
      ∧ exec (.registerWrite (reg 2) v) s = .next (s.setLine n { s.line n with
          replyWindow := v.extractLsb' 0 8, gapLimit := v.extractLsb' 8 4, turnaround := v.extractLsb' 12 4 })
      ∧ exec (.registerWrite (reg 3) v) s = .next (s.setLine n { s.line n with period := v }))
    ∧ (s.mode = .run ∨ s.mode = .quiescing ∨ s.mode = .quiesced →
      exec (.linedivWrite n v) s = .next (s.accessRefused .register .write (off 1))
      ∧ ∀ i ∈ [0, 2, 3], exec (.registerWrite (reg i) v) s = .next (s.accessRefused .register .write (off i))))
    ∧ ((∀ (s : State) (v : Word), s.mode ≠ .init →
      (∀ i : Fin 4, exec (.registerWrite (BitVec.ofNat 6 (9 + i.val)) v) s = .next { s with carg := s.carg.set i v })
      ∧ exec (.registerWrite 0x04 v) s = .next { s with tapaddr := v }
      ∧ exec (.evlostWrite v) s = .next { s with evlost := 0 }
      ∧ (∃ x : BitVec 7, exec (.evthreshWrite v) s = .next { s with evthresh := x } ∧ x.toNat = max 1 (min 64 v.toNat))
      ∧ exec (.dmactlWrite v) s = .next { s with
          drain := v.getLsbD 0, dmaWord := if s.drain = true ∧ v.getLsbD 0 = false then 0 else s.dmaWord })
    ∧ (∀ (s : State) (a : BitVec 6) (v : Word), s.mode ≠ .init →
      a.toNat ∈ [0x03, 0x06, 0x07, 0x0D, 0x0E, 0x0F, 0x10, 0x11, 0x12, 0x13, 0x14, 0x1F, 0x24, 0x25, 0x26, 0x27, 0x2C, 0x2D, 0x2E, 0x2F]
        ∨ 0x30 ≤ a.toNat →
      exec (.registerWrite a v) s = .next (s.accessRefused .register .write (BitVec.ofNat 16 (2 * a.toNat)))
      ∧ (a.toNat = 0x0F ∨ 0x30 ≤ a.toNat → s.readRegister a = 0)))

/-- A read of TAPDATA outside INIT (R94, R165, R166, R167): the word of the region, or 0 and a refusal; TAPADDR advances by 1 in every case. A word of a block has the byte of
the even address low (R92).
The word on the data bus is the model's register of log entry 10.
A host write to a payload block (R92, R94, R95, R165): stored for a HOST block and for a STAGED block without a commit waiting, both bytes
of the word and no other byte; refused in every other class and role. -/
def Obligations.TapReadsAndBlockWrites : Prop :=
  (∀ s : State, s.mode ≠ .init →
    (∀ w, tapWord s s.tapaddr.toNat (some w) → exec .tapdataRead s = .next { s with dout := w, tapaddr := s.tapaddr + 1 })
    ∧ (tapWord s s.tapaddr.toNat none → exec .tapdataRead s = .next
        { s.accessRefused .tap .read s.tapaddr with dout := 0, tapaddr := s.tapaddr + 1 })
    ∧ ((∃ w, tapWord s s.tapaddr.toNat (some w)) ∨ tapWord s s.tapaddr.toNat none)
    ∧ ∀ w, (Memory.readWord s.payload w).extractLsb' 0 8 = Memory.read s.payload (2 * w)
      ∧ (Memory.readWord s.payload w).extractLsb' 8 8 = Memory.read s.payload (2 * w + 1))
    ∧ (∀ (s : State) (b : BlockIx) (i : Nat) (v : Word), s.mode ≠ .init → i < 16 → s.tapaddr.toNat = 16 * b.val + i →
    let permitted : Prop := s.owner b = .host ∨ ∃ e, s.owner b = .outputStaged e ∧ (s.entry e).commitPending = false
    (permitted → ∃ t, exec (.tapdataWrite v) s = .next t ∧ t = { s with payload := t.payload, tapaddr := s.tapaddr + 1 }
      ∧ (s.MemoryLawful → ∀ x, Memory.read t.payload x = if x = 32 * b.val + 2 * i then v.extractLsb' 0 8
          else if x = 32 * b.val + 2 * i + 1 then v.extractLsb' 8 8 else Memory.read s.payload x))
    ∧ (¬ permitted → exec (.tapdataWrite v) s = .next
        { s.accessRefused .tap .write s.tapaddr with tapaddr := s.tapaddr + 1 }))

/-- A host write to a station record (R72, R73, R85): word 0 in CONFIG stores its fields and brings a station that is not PARKED to ONLINE,
posting a change of HEALTH; word 1 stores PROBE_INTERVAL; every other write is refused. That the notice carries the LINE just written is log entry 21's.
A host write to a schedule entry (R59, R179): word 0 in CONFIG stores ENABLED, STATION, RETRIES and DIV_EXP and outside it ENABLED alone;
word 1 in CONFIG stores PHASE and clears SKIPPED; every other write is refused. Slots, the block map and the rest of the address
space refuse writes. -/
def Obligations.TapWritesToRecords : Prop :=
  (∀ (s : State) (u : StationIx) (i : Nat) (v : Word), s.mode ≠ .init → i < 16 → s.tapaddr.toNat = 0x1000 + 16 * u.val + i →
      let stored : Station := { s.station u with
        enabled := v.getLsbD 0, line := if v.getLsbD 1 then .one else .zero, recovery := if v.getLsbD 2 then .host else .auto
        notify := v.getLsbD 3, missLimit := v.extractLsb' 4 4, address := v.extractLsb' 8 5 }
      (s.mode = .config → i = 0 → (s.station u).health = .parked →
        exec (.tapdataWrite v) s = .next { s.setStation u stored with tapaddr := s.tapaddr + 1 })
      ∧ (s.mode = .config → i = 0 → (s.station u).health ≠ .parked →
        let online : State := { s.setStation u { stored with
            health := .online, missCount := 0, reachable := false, probeDue := false } with tapaddr := s.tapaddr + 1 }
        exec (.tapdataWrite v) s = .next (if (s.station u).health = .online then online else online.offerNotice {
            kind := .stationState, line := stored.line, station := u, detailA := 0
            detailB := (s.station u).health.code.setWidth 16, cycle := 0, extra := 0 }))
      ∧ (s.mode = .config → i = 1 → exec (.tapdataWrite v) s = .next
          { s.setStation u { s.station u with probeInterval := v.extractLsb' 0 8 } with tapaddr := s.tapaddr + 1 })
      ∧ (s.mode ≠ .config ∨ 2 ≤ i → exec (.tapdataWrite v) s = .next
          { s.accessRefused .tap .write s.tapaddr with tapaddr := s.tapaddr + 1 }))
    ∧ ((∀ (s : State) (e : EntryIx) (i : Nat) (v : Word), s.mode ≠ .init → i < 4 → s.tapaddr.toNat = 0x1200 + 4 * e.val + i →
      (i = 0 → s.mode = .config → ∀ u : StationIx, u.val = v.toNat / 256 % 32 →
        exec (.tapdataWrite v) s = .next { s.setEntry e { s.entry e with
          enabled := v.getLsbD 0, retries := v.extractLsb' 3 2, divExp := v.extractLsb' 5 3, station := u } with
          tapaddr := s.tapaddr + 1 })
      ∧ (i = 0 → s.mode ≠ .config → exec (.tapdataWrite v) s = .next
          { s.setEntry e { s.entry e with enabled := v.getLsbD 0 } with tapaddr := s.tapaddr + 1 })
      ∧ (i = 1 → s.mode = .config → exec (.tapdataWrite v) s = .next
          { s.setEntry e { s.entry e with phase := v.extractLsb' 0 7, skipped := 0 } with tapaddr := s.tapaddr + 1 })
      ∧ (2 ≤ i ∨ (i = 1 ∧ s.mode ≠ .config) → exec (.tapdataWrite v) s = .next
          { s.accessRefused .tap .write s.tapaddr with tapaddr := s.tapaddr + 1 }))
      ∧ ∀ (s : State) (v : Word), s.mode ≠ .init →
        (0x800 ≤ s.tapaddr.toNat ∧ s.tapaddr.toNat < 0x1000) ∨ 0x1300 ≤ s.tapaddr.toNat →
        exec (.tapdataWrite v) s = .next { s.accessRefused .tap .write s.tapaddr with tapaddr := s.tapaddr + 1 })

/-- Record words (R179, Table 10-4, Table 10-5, Table 10-6): each field at its position, 0 in every other bit, said as sums. Without a pair the two block fields read 0 (log entry 15). -/
def Obligations.RecordWordLayouts : Prop :=
  (∀ st : Station,
    (st.word 0).toNat = (bit st.enabled).toNat + 2 * lineNumber st.line + 4 * st.recovery.bit.toNat + 8 * (bit st.notify).toNat
      + 16 * st.missLimit.toNat + 256 * st.address.toNat
    ∧ (st.word 1).toNat = st.probeInterval.toNat
    ∧ (st.word 2).toNat = st.health.code.toNat + 4 * (bit st.reachable).toNat + 8 * (bit st.probeDue).toNat
      + 16 * st.missCount.toNat + 256 * st.seq.toNat + 4096 * st.last.code.toNat
    ∧ (st.word 3).toNat = st.probeCountdown.toNat + 256 * st.age.toNat
    ∧ (st.word 4).toNat = (bit st.image.isSome).toNat + 2 * st.current.bit.toNat + 4 * (bit st.hold).toNat + 8 * (bit st.newer).toNat
    ∧ (∀ a b, st.image = some (a, b) → (st.word 5).toNat = a.val + 256 * b.val) ∧ (st.image = none → st.word 5 = 0)
    ∧ (st.word 6).toNat = st.imageLen.toNat + 256 * st.nextLen.toNat ∧ st.word 7 = st.imageSeq ∧ st.word 8 = st.good
    ∧ st.word 9 = st.missed ∧ st.word 10 = st.failedAttempts ∧ (st.word 11).toNat = st.overwrites.toNat
    ∧ ∀ i, 12 ≤ i → st.word i = 0)
    ∧ (∀ e : Entry,
      (e.word 0).toNat = (bit e.enabled).toNat + 2 * e.active.bit.toNat + 4 * (bit e.commitPending).toNat + 8 * e.retries.toNat
        + 32 * e.divExp.toNat + 256 * e.station.val
      ∧ (e.word 1).toNat = e.phase.toNat + 256 * e.skipped.toNat
      ∧ (∀ a b, e.binding = some (a, b) → (e.word 2).toNat = a.val + 256 * b.val + 32768) ∧ (e.binding = none → e.word 2 = 0)
      ∧ (e.word 3).toNat = e.outputLen.toNat + 64 * e.stagedLen.toNat + 4096 * e.last.code.toNat)
    ∧ (∀ k : Slot,
      (k.word 0).toNat = k.state.code.toNat + 8 * (bit k.deferred).toNat + 16 * (bit k.abortLate).toNat + 32 * k.kind.bit.toNat
        + 64 * k.priority.toNat
      ∧ (k.word 1).toNat = k.station.val + 256 * k.tag.toNat
      ∧ (k.word 2).toNat = k.retries.toNat + 16 * k.attempts.toNat + 256 * k.busyCount.toNat
      ∧ (k.word 3).toNat = k.reqBlock.toNat + 256 * k.replyBlock.toNat
      ∧ (k.word 4).toNat = k.reqLen.toNat + 256 * k.replyLen.toNat ∧ (k.word 5).toNat = k.outcome.code.toNat
      ∧ k.word 6 = 0 ∧ k.word 7 = 0)
    ∧ (∀ v : Event,
      (v.word 0).toNat = v.detailA.toNat + 64 * v.station.val + 2048 * lineNumber v.line + 4096 * v.kind.code.toNat
      ∧ v.word 1 = v.detailB ∧ v.word 2 = v.cycle ∧ v.word 3 = v.extra)
    ∧ ∀ s : State, ∀ b, (s.owner b).word.toNat = (s.owner b).cls.toNat + 8 * (s.owner b).role.toNat + 256 * (s.owner b).index.toNat

/-- The offer of a notice (R139, R140). At 48 records or more it is lost: EVLOST counts it, EVENT_LOSS is raised, and the queue
accounts for it by the first case that applies. Below 48 it joins the tail, its CYCLE the cycle number of its line, or 0 for a kind that belongs to no line (R135, R136). -/
def Obligations.NoticeTakenOrLost : Prop :=
  ∀ (s : State) (e : Event),
    (s.events.length < 48 → s.offerNotice e = { s with events := s.events ++ [{ e with
        cycle := if e.kind = .none ∨ e.kind = .mode ∨ e.kind = .loss then 0 else (s.line e.line).cycnum }] })
    ∧ (48 ≤ s.events.length → ∃ t, s.offerNotice e = t ∧ t = { s with
          events := t.events, evlost := satInc s.evlost, edges := s.edges ||| 0x0004 }
      ∧ (∀ l m, s.events = l ++ [m] → m.kind = .loss → m.detailB.toNat < 255 →
          t.events = l ++ [{ m with detailB := m.detailB + 1 }])
      ∧ ((∀ l m, s.events = l ++ [m] → m.kind = .loss → 255 ≤ m.detailB.toNat) →
          (s.events.length < 64 → t.events = s.events ++ [{
            kind := .loss, line := .zero, station := 0, detailA := 0, detailB := 1, cycle := 0, extra := 0 }])
          ∧ (64 ≤ s.events.length → t.events = s.events)))

/-- A read of EVREC3 (R141, R142): w3 of the head, which leaves; the DMA word pointer returns to w0; the head held completion is taken in its
place; on an empty queue 0 and no change.
A held completion is taken when there is room (R126, R141), and its slot becomes FREE with its blocks back to HOST.
A DMA read (R144, R145): the word the pointer names, and the next word; after w3 the head is removed, and DRAINED is raised when that leaves the
queue empty; a held completion is taken in its place, and then the queue is not empty (R145); 0 and no change while DRAIN is clear or the queue is empty. DREQ follows both.
The word on the data bus is the model's register of log entry 10. The row that names a consequence repeats what the causing step
has done (log entry 11, the model's choice). -/
def Obligations.RecordsLeaveTheQueue : Prop :=
  (∀ s : State,
      (s.events = [] → exec .evrec3Read s = .next { s with dout := 0 })
      ∧ ∀ e rest, s.events = e :: rest →
        (s.done = [] → exec .evrec3Read s = .next { s with dout := e.extra, events := rest, dmaWord := 0 })
        ∧ ∀ (k : SlotIx) (r : Event) ds, s.done = (k, r) :: ds → rest.length < 64 →
          exec .evrec3Read s = .next (slotReleased { s with
            dout := e.extra, dmaWord := 0, done := ds, events := rest ++ [s.stamp r] } k
            (fieldBlock? (s.slot k).reqBlock) (fieldBlock? (s.slot k).replyBlock)))
    ∧ (∀ s : State,
      (s.done = [] → exec .heldCompletionTaken s = .next s)
      ∧ ∀ (k : SlotIx) (r : Event) ds, s.done = (k, r) :: ds →
        (s.events.length < 64 → exec .heldCompletionTaken s = .next (slotReleased { s with
            done := ds, events := s.events ++ [s.stamp r] } k
            (fieldBlock? (s.slot k).reqBlock) (fieldBlock? (s.slot k).replyBlock)))
        ∧ (64 ≤ s.events.length → exec .heldCompletionTaken s = .next s))
    ∧ (∀ s : State, (s.dreq = true ↔ s.drain = true ∧ s.events ≠ [])
      ∧ (s.drain = false ∨ s.events = [] → exec .dmaRead s = .next { s with dout := 0 })
      ∧ ∀ e rest, s.drain = true → s.events = e :: rest →
        (s.dmaWord.toNat < 3 → exec .dmaRead s = .next { s with dout := e.word s.dmaWord.toNat, dmaWord := s.dmaWord + 1 })
        ∧ (s.dmaWord = 3 → s.done = [] → exec .dmaRead s = .next { s with
            dout := e.extra, events := rest, dmaWord := 0, edges := if rest = [] then s.edges ||| 0x0008 else s.edges })
        ∧ ∀ (k : SlotIx) (r : Event) ds, s.dmaWord = 3 → s.done = (k, r) :: ds → rest.length < 64 →
          exec .dmaRead s = .next (slotReleased { s with
            dout := e.extra, dmaWord := 0, done := ds, events := rest ++ [s.stamp r] } k
            (fieldBlock? (s.slot k).reqBlock) (fieldBlock? (s.slot k).replyBlock)))

/-- A CMD write while a command is BUSY is discarded and sets OVERRUN alone (R169); a code that names no command completes with BAD_COMMAND.
That the two code rows are ordinary CMD writes is log entry 17's. -/
def Obligations.CommandUnitDiscardsAndRejects : Prop :=
  (∀ (c : Instr) (code : Word) (s : State), commandCode? c = some code → s.mode ≠ .init → s.cmdState = .busy →
    exec c s = .next { s with overrun := true })
    ∧ ∀ (code : Word) (s : State), code = 0 ∨ 15 < code.toNat → s.accepts →
      exec (.badCommand code) s = .next (s.commandDone code .badCommand 0)
      ∧ exec (.registerWrite 0x08 code) s = .next (s.commandDone code .badCommand 0)

/-- ALLOC_BLOCK (R96): the lowest-numbered FREE block becomes HOST and is the result value; with none FREE, NO_BLOCK and no change.
FREE_BLOCK (R97): its two checks in order; a HOST block becomes FREE, with its content kept and hidden from the host. -/
def Obligations.AllocAndFreeBlock : Prop :=
  (∀ s : State, s.accepts →
      (∀ b : BlockIx, s.owner b = .free → (∀ c : BlockIx, c.val < b.val → s.owner c ≠ .free) →
        exec .allocBlock s = .next ((s.setOwner b .host).commandDone 0x01 .ok (BitVec.ofNat 16 b.val)))
      ∧ ((∀ b, s.owner b ≠ .free) → exec .allocBlock s = .next (s.commandDone 0x01 .noBlock 0)))
    ∧ (∀ s : State, s.accepts →
      (127 < (s.carg.get 0).toNat → exec .freeBlock s = .next (s.commandDone 0x02 .badArgument 0))
      ∧ ∀ b : BlockIx, s.argIs 0 b.val →
        (s.owner b ≠ .host → exec .freeBlock s = .next (s.commandDone 0x02 .notOwner 0))
        ∧ (s.owner b = .host → exec .freeBlock s = .next ((s.setOwner b .free).commandDone 0x02 .ok 0)
          ∧ ∀ i, i < 16 → (s.setOwner b .free).tapRead? (16 * b.val + i) = none))

/-- BIND_OUTPUT (R99): its four checks in order, then the pair is bound in one step.
BIND_IMAGE (R105): its four checks in order, then the pair is bound in one step; IMAGE_SEQ and OVERWRITES keep their values. -/
def Obligations.BindPairs : Prop :=
  (∀ s : State, s.accepts →
      (63 < (s.carg.get 0).toNat ∨ 127 < (s.carg.get 1).toNat ∨ 127 < (s.carg.get 2).toNat →
        exec .bindOutput s = .next (s.commandDone 0x03 .badArgument 0))
      ∧ ∀ (e : EntryIx) (a b : BlockIx), s.argIs 0 e.val → s.argIs 1 a.val → s.argIs 2 b.val →
        (s.mode ≠ .config → exec .bindOutput s = .next (s.commandDone 0x03 .wrongMode 0))
        ∧ (s.mode = .config → (s.entry e).binding ≠ none → exec .bindOutput s = .next (s.commandDone 0x03 .alreadyBound 0))
        ∧ (s.mode = .config → (s.entry e).binding = none → a = b ∨ s.owner a ≠ .host ∨ s.owner b ≠ .host →
          exec .bindOutput s = .next (s.commandDone 0x03 .notOwner 0))
        ∧ (s.mode = .config → (s.entry e).binding = none → a ≠ b → s.owner a = .host → s.owner b = .host →
          exec .bindOutput s = .next ((((s.setEntry e { s.entry e with
              binding := some (a, b), active := .a, outputLen := 0, stagedLen := 0, commitPending := false }).setOwner a
                (.outputActive e)).setOwner b (.outputStaged e)).commandDone 0x03 .ok 0)))
    ∧ (∀ s : State, s.accepts →
      (31 < (s.carg.get 0).toNat ∨ 127 < (s.carg.get 1).toNat ∨ 127 < (s.carg.get 2).toNat →
        exec .bindImage s = .next (s.commandDone 0x04 .badArgument 0))
      ∧ ∀ (u : StationIx) (a b : BlockIx), s.argIs 0 u.val → s.argIs 1 a.val → s.argIs 2 b.val →
        (s.mode ≠ .config → exec .bindImage s = .next (s.commandDone 0x04 .wrongMode 0))
        ∧ (s.mode = .config → (s.station u).image ≠ none → exec .bindImage s = .next (s.commandDone 0x04 .alreadyBound 0))
        ∧ (s.mode = .config → (s.station u).image = none → a = b ∨ s.owner a ≠ .host ∨ s.owner b ≠ .host →
          exec .bindImage s = .next (s.commandDone 0x04 .notOwner 0))
        ∧ (s.mode = .config → (s.station u).image = none → a ≠ b → s.owner a = .host → s.owner b = .host →
          exec .bindImage s = .next ((((s.setStation u { s.station u with
              image := some (a, b), current := .a, imageLen := 0, nextLen := 0, hold := false, newer := false }).setOwner a
                (.imageCurrent u)).setOwner b (.imageNext u)).commandDone 0x04 .ok 0)))

/-- UNBIND_OUTPUT (R100): its three checks in order, then both blocks are HOST and a waiting commit is dropped; no content changes.
UNBIND_IMAGE (R106): its three checks in order, then both blocks are HOST; IMAGE_SEQ and OVERWRITES keep their values. -/
def Obligations.UnbindPairs : Prop :=
  (∀ s : State, s.accepts →
      (63 < (s.carg.get 0).toNat → exec .unbindOutput s = .next (s.commandDone 0x05 .badArgument 0))
      ∧ ∀ e : EntryIx, s.argIs 0 e.val →
        (s.mode ≠ .config → exec .unbindOutput s = .next (s.commandDone 0x05 .wrongMode 0))
        ∧ (s.mode = .config → (s.entry e).binding = none → exec .unbindOutput s = .next (s.commandDone 0x05 .notBound 0))
        ∧ ∀ a b, s.mode = .config → (s.entry e).binding = some (a, b) →
          exec .unbindOutput s = .next ((((s.setEntry e { s.entry e with
              binding := none, active := .a, outputLen := 0, stagedLen := 0, commitPending := false }).setOwner a
                .host).setOwner b .host).commandDone 0x05 .ok 0))
    ∧ (∀ s : State, s.accepts →
      (31 < (s.carg.get 0).toNat → exec .unbindImage s = .next (s.commandDone 0x06 .badArgument 0))
      ∧ ∀ u : StationIx, s.argIs 0 u.val →
        (s.mode ≠ .config → exec .unbindImage s = .next (s.commandDone 0x06 .wrongMode 0))
        ∧ (s.mode = .config → (s.station u).image = none → exec .unbindImage s = .next (s.commandDone 0x06 .notBound 0))
        ∧ ∀ a b, s.mode = .config → (s.station u).image = some (a, b) →
          exec .unbindImage s = .next ((((s.setStation u { s.station u with
              image := none, current := .a, imageLen := 0, nextLen := 0, hold := false, newer := false }).setOwner a
                .host).setOwner b .host).commandDone 0x06 .ok 0))

/-- COMMIT_OUTPUT (R101): its four checks in order; COMMIT_PENDING and STAGED_LEN, and the staged block's index as the result value.
HOLD_IMAGE (R110): its three checks in order; HOLD becomes yes and the result value names the image held.
RELEASE_IMAGE (R111): its three checks in order; a reply held back becomes current in the same step, with its notice when NOTIFY is set. -/
def Obligations.CommitHoldAndRelease : Prop :=
  (∀ s : State, s.accepts →
    (63 < (s.carg.get 0).toNat → exec .commitOutput s = .next (s.commandDone 0x07 .badArgument 0))
    ∧ ∀ e : EntryIx, s.argIs 0 e.val →
      ((s.entry e).binding = none → exec .commitOutput s = .next (s.commandDone 0x07 .notBound 0))
      ∧ ∀ a b, (s.entry e).binding = some (a, b) →
        (32 < (s.carg.get 1).toNat → exec .commitOutput s = .next (s.commandDone 0x07 .badArgument 0))
        ∧ ((s.carg.get 1).toNat ≤ 32 → (s.entry e).commitPending = true →
          exec .commitOutput s = .next (s.commandDone 0x07 .commitPending 0))
        ∧ ∀ len : BitVec 6, s.argIs 1 len.toNat → len.toNat ≤ 32 → (s.entry e).commitPending = false →
          exec .commitOutput s = .next ((s.setEntry e { s.entry e with commitPending := true, stagedLen := len }).commandDone 0x07 .ok
            (BitVec.ofNat 16 (if (s.entry e).active = .a then b.val else a.val))))
    ∧ ((∀ s : State, s.accepts →
      (31 < (s.carg.get 0).toNat → exec .holdImage s = .next (s.commandDone 0x08 .badArgument 0))
      ∧ ∀ u : StationIx, s.argIs 0 u.val →
        ((s.station u).image = none → exec .holdImage s = .next (s.commandDone 0x08 .noImage 0))
        ∧ ((s.station u).image ≠ none → (s.station u).hold = true → exec .holdImage s = .next (s.commandDone 0x08 .wrongState 0))
        ∧ ((s.station u).image ≠ none → (s.station u).hold = false →
          exec .holdImage s = .next ((s.setStation u { s.station u with hold := true }).commandDone 0x08 .ok (s.station u).imageSeq)))
    ∧ (∀ s : State, s.accepts →
      (31 < (s.carg.get 0).toNat → exec .releaseImage s = .next (s.commandDone 0x09 .badArgument 0))
      ∧ ∀ u : StationIx, s.argIs 0 u.val →
        ((s.station u).image = none → exec .releaseImage s = .next (s.commandDone 0x09 .noImage 0))
        ∧ ∀ a b, (s.station u).image = some (a, b) →
          ((s.station u).hold = false → exec .releaseImage s = .next (s.commandDone 0x09 .wrongState 0))
          ∧ ((s.station u).hold = true → (s.station u).newer = false →
            exec .releaseImage s = .next ((s.setStation u { s.station u with hold := false }).commandDone 0x09 .ok 0))
          ∧ ((s.station u).hold = true → (s.station u).newer = true →
            let onA : Bool := (s.station u).current == .a
            let flipped : State := ((s.setStation u { s.station u with
                hold := false, newer := false, current := if onA then .b else .a
                imageLen := (s.station u).nextLen, imageSeq := (s.station u).imageSeq + 1 }).setOwner
                  (if onA then b else a) (.imageCurrent u)).setOwner (if onA then a else b) (.imageNext u)
            exec .releaseImage s = .next (State.commandDone 0x09 .ok 1 (if (s.station u).notify then flipped.offerNotice {
                kind := .imageUpdate, line := (s.station u).line, station := u, detailA := (s.station u).nextLen
                detailB := (s.station u).imageSeq + 1, cycle := 0, extra := 0 } else flipped)))))

/-- SUBMIT's checks (R117, R180): the first that fails gives the result, and a refused SUBMIT changes nothing else.
SUBMIT taken (R118): the lowest FREE slot is filled, joins the tail of the submission order, and its blocks are lent; with no IDLE
engine for it the request waits; in RUN an IDLE engine of its line takes the SUBMIT as a decision point (R26, R119): the step answers what the
decision answers on that state. An IDLE engine has reached its decision with the line quiet (R56), which is the flag of log entry 7.
The list of submission order and the held records with their slots are the model's form (log entry 26). -/
def Obligations.Submit : Prop :=
  (∀ (s : State) (i : Nat) (r : ResultCode), s.accepts → submitFails s i r → (∀ j q, j < i → ¬ submitFails s j q) →
    exec .submit s = .next (s.commandDone 0x0A r 0))
    ∧ (∀ (s : State) (k : SlotIx) (u : StationIx) (b : BlockIx), s.accepts → (∀ i r, ¬ submitFails s i r) →
    (s.slot k).state = .free → (∀ j : SlotIx, j.val < k.val → (s.slot j).state ≠ .free) →
    u.val = (s.carg.get 0).toNat % 64 → b.val = (s.carg.get 2).toNat % 256 →
    let filled : Slot := {
      state := .pending, deferred := false, abortLate := false
      kind := if (s.carg.get 0).toNat / 64 % 4 = 1 then .read else .write
      priority := (s.carg.get 0).extractLsb' 8 2, station := u, tag := (s.carg.get 1).setWidth 8
      retries := (s.carg.get 0).extractLsb' 11 3, attempts := 0, busyCount := 0
      reqBlock := (s.carg.get 2).extractLsb' 0 8, replyBlock := (s.carg.get 2).extractLsb' 8 8
      reqLen := (s.carg.get 3).setWidth 6, replyLen := 0, outcome := .ok }
    let lent : State := ({ s with submitted := s.submitted ++ [k] } : State).setSlot k filled |>.setOwner b (.request k)
    let answers (filled : State) : Prop :=
      let n : LineId := (s.station u).line
      let done : State := filled.commandDone 0x0A .ok (BitVec.ofNat 16 k.val)
      (s.mode ≠ .run ∨ (s.line n).engine ≠ .idle → exec .submit s = .next done)
      ∧ (s.mode = .run → (s.line n).engine = .idle → (s.line n).attempt = none → exec .submit s = .next (done.decisionPoint n)
        ∧ (isQuiet (s.line n) → (s.line n).settled = true →
          let h : State := done.setLine n { s.line n with engine := .turnaround }
          decides h n ∧ exec .submit s = exec (.turnaroundSatisfied n) h))
    ((s.carg.get 2).toNat / 256 = 255 → answers lent)
    ∧ ∀ c : BlockIx, c.val = (s.carg.get 2).toNat / 256 → answers (lent.setOwner c (.reply k)))

/-- ABORT (R128): its refusals; a PENDING slot completes at once with ABORTED, its record taken when there is room and held otherwise; an ACTIVE
slot becomes ABORT_PENDING and ABORT joins the STOP set of its transaction, in RUN and in QUIESCING.
A transaction that waits between attempts ends at once (R39, R40, R129): the slot completes with ABORTED, the station takes the last outcome,
and the order of their records is free (log entry 5).
The list of submission order and the held records with their slots are the model's form (log entry 26). -/
def Obligations.Abort : Prop :=
  ∀ s : State, s.accepts →
    (15 < (s.carg.get 0).toNat → exec .abort s = .next (s.commandDone 0x0B .badArgument 0))
    ∧ ∀ k : SlotIx, s.argIs 0 k.val →
      ((s.slot k).state = .free → exec .abort s = .next (s.commandDone 0x0B .noSuchRequest 0))
      ∧ ((s.slot k).state = .abortPending ∨ (s.slot k).state = .done →
        exec .abort s = .next (s.commandDone 0x0B .notAbortable 0))
      ∧ ((s.slot k).state = .pending →
        let sl : Slot := { s.slot k with outcome := .aborted, replyLen := 0, deferred := false }
        let record : Event := {
          kind := .requestDone, line := (s.station sl.station).line, station := sl.station, detailA := 0
          detailB := BitVec.ofNat 16 (k.val + 16 * 11 + 256 * (bit sl.abortLate).toNat), cycle := 0
          extra := BitVec.ofNat 16 (sl.tag.toNat + 256 * sl.attempts.toNat + 4096 * sl.busyCount.toNat) }
        let left : State := { s with submitted := s.submitted.filter (· ≠ k) }
        (s.events.length < 64 → s.done = [] →
          exec .abort s = .next ((slotReleased { left.setSlot k sl with
            events := s.events ++ [{ record with cycle := (s.line record.line).cycnum }] } k
            (fieldBlock? sl.reqBlock) (fieldBlock? sl.replyBlock)).commandDone 0x0B .ok 0))
        ∧ (64 ≤ s.events.length ∨ s.done ≠ [] →
          exec .abort s = .next (({ left.setSlot k { sl with state := .done } with
            done := s.done ++ [(k, record)] } : State).commandDone 0x0B .ok 0)))
      ∧ ∀ (n : LineId) (a : Attempt), (s.slot k).state = .active → n = (s.station (s.slot k).station).line →
        (s.line n).attempt = some a → a.origin = .acyclic k → activeIfQuiescing s n →
        (∀ u o st notices, betweenAttempts s n a u o → lastTakes s u o false st notices →
          let sl : Slot := { s.slot k with
            state := .abortPending, outcome := .aborted, abortLate := false, replyLen := 0, deferred := false }
          answersWithCompletion (exec .abort s) ({ (stationLeft u st (s.setLine n
              (breakBegun { s.line n with attempt := none }))).setSlot k sl with
            submitted := s.submitted.filter (· ≠ k) }.commandDone 0x0B .ok 1) notices k (requestRecord s k sl))
        ∧ (a.retryOwed = false → exec .abort s = .next (((s.setSlot k { s.slot k with state := .abortPending }).setLine n { s.line n with
          attempt := some { a with stop := { a.stop with abort := true } } }).commandDone 0x0B .ok 1))

/-- PARK (R86, R87, R132): its checks in order; with no transaction of the station in flight the park takes effect at once, with the HEALTH before as
the result value, and its PENDING slots complete with STATION_PARKED; with one in flight PARK joins its STOP set and the command stays BUSY, in
RUN and in QUIESCING. A transaction that waits between attempts ends at once with its last outcome (R39, R40, R41), the park takes effect in
the same step, and its notice follows the outcome's; the order of a slot's record among them is free (log entry 5).
A waiting PARK whose transaction has ended takes effect (R87): from whatever HEALTH the outcome left, which is the result value.
The list of submission order is the model's form (log entry 26).
The row that names a consequence repeats what the causing step has done (log entry 11, the model's choice). -/
def Obligations.Park : Prop :=
  (∀ s : State, s.accepts →
      (31 < (s.carg.get 0).toNat → exec .park s = .next (s.commandDone 0x0C .badArgument 0))
      ∧ ∀ u : StationIx, s.argIs 0 u.val →
        ((s.station u).health = .parked → exec .park s = .next (s.commandDone 0x0C .wrongState 0))
        ∧ ((s.station u).health ≠ .parked → s.pendingOf u = [] →
          (∀ a, (s.line (s.station u).line).attempt = some a → a.station ≠ some u) →
          exec .park s = .next (((s.setStation u (parked (s.station u))).offerNotice
            (stateRecord s u (s.station u).health .parked 0)).commandDone 0x0C .ok ((s.station u).health.code.setWidth 16)))
        ∧ ((s.station u).health ≠ .parked →
          (∀ a, (s.line (s.station u).line).attempt = some a → a.station ≠ some u) → ∃ t, exec .park s = .next t
            ∧ t.station u = parked (s.station u) ∧ ∀ k, k ∈ s.submitted → (s.slot k).state = .pending → (s.slot k).station = u →
              k ∉ t.submitted ∧ ((t.slot k).state = .free ∨ (t.slot k).state = .done) ∧ (t.slot k).outcome = .stationParked
                ∧ (t.slot k).replyLen = 0)
        ∧ ∀ (n : LineId) (a : Attempt), (s.station u).health ≠ .parked → s.pendingOf u = [] → n = (s.station u).line →
          (s.line n).attempt = some a → a.origin ≠ .sync → a.station = some u → activeIfQuiescing s n →
          (a.retryOwed = false → exec .park s = .next ((s.setLine n { s.line n with
            attempt := some { a with stop := { a.stop with park := true } } }).commandTaken 0x0C))
          ∧ ∀ o st notices, betweenAttempts s n a u o → st.health ≠ .parked →
            let free : State := s.setLine n (breakBegun { s.line n with attempt := none })
            let done (x : State) : State :=
              ((stationLeft u st x).setStation u (parked st)).commandDone 0x0C .ok (st.health.code.setWidth 16)
            (∀ j, a.origin = .cyclic j → lastTakes s u o true st notices →
              exec .park s = .next (offered (notices ++ [stateRecord s u st.health .parked 0])
                (done (free.setEntry j { s.entry j with last := o }))))
            ∧ ∀ k, a.origin = .acyclic k → a.stop.abort = false → (s.slot k).state ≠ .pending → lastTakes s u o false st notices →
              let sl : Slot := { s.slot k with outcome := o, replyLen := 0, deferred := false }
              answersWithCompletion (exec .park s) { (done free).setSlot k sl with submitted := s.submitted.filter (· ≠ k) }
                (notices ++ [stateRecord s u st.health .parked 0]) k (requestRecord s k sl))
    ∧ (∀ (s : State) (u : StationIx), s.cmdState = .busy → s.cmd = 0x0C → (s.args.get 0).toNat = u.val → s.pendingOf u = [] →
      (∀ a, (s.line (s.station u).line).attempt = some a → a.station ≠ some u) → (s.station u).health ≠ .parked →
      exec .parkTakesEffect s = .next (({ s.setStation u (parked (s.station u)) with
        cmdState := .done, result := .ok, cvalue := (s.station u).health.code.setWidth 16
        edges := s.edges ||| 0x0010 } : State).offerNotice (stateRecord s u (s.station u).health .parked 0)))

/-- RESUME (R88): its table of checks and effects. -/
def Obligations.Resume : Prop :=
  ∀ s : State, s.accepts →
    (31 < (s.carg.get 0).toNat → exec .resume s = .next (s.commandDone 0x0D .badArgument 0))
    ∧ ∀ u : StationIx, s.argIs 0 u.val →
      ((s.station u).health = .online ∨ (s.station u).health = .degraded →
        exec .resume s = .next (s.commandDone 0x0D .wrongState 0))
      ∧ ((s.station u).health = .offline → (s.station u).reachable = false →
        exec .resume s = .next (s.commandDone 0x0D .notReachable 0))
      ∧ ((s.station u).health = .parked ∨ (s.station u).health = .offline ∧ (s.station u).reachable = true →
        exec .resume s = .next (((s.setStation u { s.station u with
            health := .online, missCount := 0, reachable := false, probeDue := false }).offerNotice
          (stateRecord s u (s.station u).health .online 0)).commandDone 0x0D .ok (if (s.station u).health = .parked then 3 else 2)))

/-- CLEAR_COUNTERS (R90): for one station or for all 32 the four counters become 0 and every other field is kept; the result value is the number of
stations cleared; any other argument is BAD_ARGUMENT. -/
def Obligations.ClearCounters : Prop :=
  ∀ s : State, s.accepts →
    (∀ u : StationIx, s.argIs 0 u.val → exec .clearCounters s = .next ((s.setStation u { s.station u with
        good := 0, missed := 0, failedAttempts := 0, overwrites := 0 }).commandDone 0x0E .ok 1))
    ∧ (s.carg.get 0 = 0xFFFF → ∃ t, exec .clearCounters s = .next t
      ∧ t = ({ s with stations := t.stations } : State).commandDone 0x0E .ok 32
      ∧ ∀ u, t.station u = { s.station u with good := 0, missed := 0, failedAttempts := 0, overwrites := 0 })
    ∧ (31 < (s.carg.get 0).toNat → s.carg.get 0 ≠ 0xFFFF → exec .clearCounters s = .next (s.commandDone 0x0E .badArgument 0))

/-- LINE_BREAK (R47, R48, R171): its checks in order; a free engine starts the break at once, a break under way is joined, and a transaction in
flight receives BREAK while the request waits; the command stays BUSY.
A transaction that waits between attempts ends at once with its last outcome, or its slot returns to PENDING, and the break starts in the same
step (R39, R40, R41, R48). -/
def Obligations.LineBreak : Prop :=
  ∀ s : State, s.accepts →
    (1 < (s.carg.get 0).toNat → exec .lineBreak s = .next (s.commandDone 0x0F .badArgument 0))
    ∧ ∀ n : LineId, s.argIs 0 (lineNumber n) →
      (s.mode = .config → exec .lineBreak s = .next (s.commandDone 0x0F .wrongMode 0))
      ∧ (s.mode ≠ .config → (s.line n).enable = false → exec .lineBreak s = .next (s.commandDone 0x0F .lineDisabled 0))
      ∧ (s.mode ≠ .config → (s.line n).enable = true → (s.mode = .quiescing → (s.line n).faulted = false) →
        ((s.line n).attempt = none → (s.line n).engine = .idle ∨ (s.line n).engine = .turnaround ∨ (s.line n).engine = .hold
            ∨ (s.line n).engine = .faulted →
          exec .lineBreak s = .next ((s.setLine n { s.line n with
            engine := .breaking, drive := .breakLow, breakRequest := false, readBack := none, frameRest := [] }).commandTaken 0x0F))
        ∧ ((s.line n).engine = .breaking → exec .lineBreak s = .next (s.commandTaken 0x0F))
        ∧ (∀ a, (s.line n).attempt = some a → (s.line n).engine ≠ .breaking → (s.line n).engine ≠ .hold → a.origin ≠ .sync →
          a.retryOwed = false → exec .lineBreak s = .next ((s.setLine n { s.line n with
            breakRequest := true, attempt := some { a with stop := { a.stop with brk := true } } }).commandTaken 0x0F))
        ∧ ∀ a u o, betweenAttempts s n a u o →
          let begun : State := (s.setLine n { s.line n with
            engine := .breaking, drive := .breakLow, breakRequest := false, readBack := none, frameRest := []
            attempt := none }).commandTaken 0x0F
          (∀ j st notices, a.origin = .cyclic j → lastTakes s u o true st notices →
            exec .lineBreak s = .next (offered notices (stationLeft u st (begun.setEntry j { s.entry j with last := o }))))
          ∧ ∀ k m, a.origin = .acyclic k → a.attempt = some m → m ≤ (s.slot k).retries.toNat → a.stop = noStop →
            exec .lineBreak s = .next (begun.setSlot k { s.slot k with state := .pending }))

/-- The laws of the stations (R77, R84, R104) are kept by every step. -/
def Obligations.StationsStayLawful : Prop :=
  ∀ s t : State, s.StationsLawful → step s = .next t → t.StationsLawful

/-- The event queue's law (R137), with completions held only while the queue is full (R143), is kept by every step.
Payload memory keeps its canonical form (R92), and the narrowed registers and the edge flags keep their ranges (R143, R174, R176), at
every step. -/
def Obligations.QueueMemoryAndRegistersStayLawful : Prop :=
  (∀ s t : State, s.QueueLawful → step s = .next t → t.QueueLawful)
    ∧ ((∀ s t : State, s.MemoryLawful → step s = .next t → t.MemoryLawful)
    ∧ ∀ s t : State, s.RegistersLawful → step s = .next t → t.RegistersLawful)

/-- The line engines' laws (R3, R22, R43, R44), and REQ_PENDING set exactly throughout QUIESCING (R151), are kept together by every step. -/
def Obligations.EnginesAndRequestsStayLawful : Prop :=
  ∀ s t : State, s.EnginesLawful → s.RequestLawful → step s = .next t → t.EnginesLawful ∧ t.RequestLawful

/-- Every law of the invariants holds at reset. -/
def Obligations.ResetIsLawful : Prop :=
  State.reset.StationsLawful ∧ State.reset.QueueLawful ∧ State.reset.EnginesLawful ∧ State.reset.MemoryLawful
    ∧ State.reset.RequestLawful ∧ State.reset.RegistersLawful
end

