-- ==== Sys2Proof/Laws/State.lean ====
section
/-!
SUPPORT. Reading a part of the state after an update of it or of another part: one lemma per field per update.
-/

namespace Sys2Proof.Machine

/-! ## Tables -/

@[simp] theorem get_mapTable {α : Type} {n : Nat} (v : Vector α n) (f : Fin n → α → α) (i : Fin n) :
    (State.mapTable v f).get i = f i (v.get i) := by
  simp [State.mapTable, Vector.get]
  rfl

@[simp] theorem get_set {α : Type} {n : Nat} (v : Vector α n) (i j : Fin n) (x : α) :
    (v.set i x).get j = if i = j then x else v.get j := by
  simp [Vector.get, Vector.set, Array.getElem_set, Fin.ext_iff]
  rfl

namespace State

/-! ## A part read after it is set -/

@[simp] theorem line_setLine (n : LineId) (l : Line) (s : State) (m : LineId) :
    (s.setLine n l).line m = if n = m then l else s.line m := by
  cases n <;> cases m <;> rfl

@[simp] theorem station_setStation (t : StationIx) (x : Station) (s : State) (u : StationIx) :
    (s.setStation t x).station u = if t = u then x else s.station u := by
  simp [setStation, station]

@[simp] theorem entry_setEntry (t : EntryIx) (x : Entry) (s : State) (u : EntryIx) :
    (s.setEntry t x).entry u = if t = u then x else s.entry u := by
  simp [setEntry, entry]

@[simp] theorem slot_setSlot (t : SlotIx) (x : Slot) (s : State) (u : SlotIx) :
    (s.setSlot t x).slot u = if t = u then x else s.slot u := by
  simp [setSlot, slot]

@[simp] theorem owner_setOwner (t : BlockIx) (x : Owner) (s : State) (u : BlockIx) :
    (s.setOwner t x).owner u = if t = u then x else s.owner u := by
  simp [setOwner, owner]

@[simp] theorem station_mapStations (f : StationIx → Station → Station) (s : State) (u : StationIx) :
    (s.mapStations f).station u = f u (s.station u) := by
  simp [mapStations, station]

@[simp] theorem entry_mapEntries (f : EntryIx → Entry → Entry) (s : State) (u : EntryIx) :
    (s.mapEntries f).entry u = f u (s.entry u) := by
  simp [mapEntries, entry]

@[simp] theorem slot_mapSlots (f : SlotIx → Slot → Slot) (s : State) (u : SlotIx) :
    (s.mapSlots f).slot u = f u (s.slot u) := by
  simp [mapSlots, slot]

@[simp] theorem owner_mapOwners (f : BlockIx → Owner → Owner) (s : State) (u : BlockIx) :
    (s.mapOwners f).owner u = f u (s.owner u) := by
  simp [mapOwners, owner]

/-! ## setLine: what it leaves -/

@[simp] theorem setLine_resetLow (n : LineId) (l : Line) (s : State) : (s.setLine n l).resetLow = s.resetLow := by cases n <;> rfl
@[simp] theorem setLine_mode (n : LineId) (l : Line) (s : State) : (s.setLine n l).mode = s.mode := by cases n <;> rfl
@[simp] theorem setLine_pendingRequest (n : LineId) (l : Line) (s : State) : (s.setLine n l).pendingRequest = s.pendingRequest := by cases n <;> rfl
@[simp] theorem setLine_reqRefused (n : LineId) (l : Line) (s : State) : (s.setLine n l).reqRefused = s.reqRefused := by cases n <;> rfl
@[simp] theorem setLine_errCode (n : LineId) (l : Line) (s : State) : (s.setLine n l).errCode = s.errCode := by cases n <;> rfl
@[simp] theorem setLine_errIndex (n : LineId) (l : Line) (s : State) : (s.setLine n l).errIndex = s.errIndex := by cases n <;> rfl
@[simp] theorem setLine_tapaddr (n : LineId) (l : Line) (s : State) : (s.setLine n l).tapaddr = s.tapaddr := by cases n <;> rfl
@[simp] theorem setLine_accaddr (n : LineId) (l : Line) (s : State) : (s.setLine n l).accaddr = s.accaddr := by cases n <;> rfl
@[simp] theorem setLine_accSpace (n : LineId) (l : Line) (s : State) : (s.setLine n l).accSpace = s.accSpace := by cases n <;> rfl
@[simp] theorem setLine_accDir (n : LineId) (l : Line) (s : State) : (s.setLine n l).accDir = s.accDir := by cases n <;> rfl
@[simp] theorem setLine_accMode (n : LineId) (l : Line) (s : State) : (s.setLine n l).accMode = s.accMode := by cases n <;> rfl
@[simp] theorem setLine_dout (n : LineId) (l : Line) (s : State) : (s.setLine n l).dout = s.dout := by cases n <;> rfl
@[simp] theorem setLine_cmdState (n : LineId) (l : Line) (s : State) : (s.setLine n l).cmdState = s.cmdState := by cases n <;> rfl
@[simp] theorem setLine_cmd (n : LineId) (l : Line) (s : State) : (s.setLine n l).cmd = s.cmd := by cases n <;> rfl
@[simp] theorem setLine_carg (n : LineId) (l : Line) (s : State) : (s.setLine n l).carg = s.carg := by cases n <;> rfl
@[simp] theorem setLine_args (n : LineId) (l : Line) (s : State) : (s.setLine n l).args = s.args := by cases n <;> rfl
@[simp] theorem setLine_result (n : LineId) (l : Line) (s : State) : (s.setLine n l).result = s.result := by cases n <;> rfl
@[simp] theorem setLine_cvalue (n : LineId) (l : Line) (s : State) : (s.setLine n l).cvalue = s.cvalue := by cases n <;> rfl
@[simp] theorem setLine_overrun (n : LineId) (l : Line) (s : State) : (s.setLine n l).overrun = s.overrun := by cases n <;> rfl
@[simp] theorem setLine_entries (n : LineId) (l : Line) (s : State) : (s.setLine n l).entries = s.entries := by cases n <;> rfl
@[simp] theorem setLine_stations (n : LineId) (l : Line) (s : State) : (s.setLine n l).stations = s.stations := by cases n <;> rfl
@[simp] theorem setLine_payload (n : LineId) (l : Line) (s : State) : (s.setLine n l).payload = s.payload := by cases n <;> rfl
@[simp] theorem setLine_owners (n : LineId) (l : Line) (s : State) : (s.setLine n l).owners = s.owners := by cases n <;> rfl
@[simp] theorem setLine_slots (n : LineId) (l : Line) (s : State) : (s.setLine n l).slots = s.slots := by cases n <;> rfl
@[simp] theorem setLine_submitted (n : LineId) (l : Line) (s : State) : (s.setLine n l).submitted = s.submitted := by cases n <;> rfl
@[simp] theorem setLine_done (n : LineId) (l : Line) (s : State) : (s.setLine n l).done = s.done := by cases n <;> rfl
@[simp] theorem setLine_events (n : LineId) (l : Line) (s : State) : (s.setLine n l).events = s.events := by cases n <;> rfl
@[simp] theorem setLine_evlost (n : LineId) (l : Line) (s : State) : (s.setLine n l).evlost = s.evlost := by cases n <;> rfl
@[simp] theorem setLine_evthresh (n : LineId) (l : Line) (s : State) : (s.setLine n l).evthresh = s.evthresh := by cases n <;> rfl
@[simp] theorem setLine_drain (n : LineId) (l : Line) (s : State) : (s.setLine n l).drain = s.drain := by cases n <;> rfl
@[simp] theorem setLine_dmaWord (n : LineId) (l : Line) (s : State) : (s.setLine n l).dmaWord = s.dmaWord := by cases n <;> rfl
@[simp] theorem setLine_edges (n : LineId) (l : Line) (s : State) : (s.setLine n l).edges = s.edges := by cases n <;> rfl
@[simp] theorem setLine_ienable (n : LineId) (l : Line) (s : State) : (s.setLine n l).ienable = s.ienable := by cases n <;> rfl
@[simp] theorem setLine_ilevel (n : LineId) (l : Line) (s : State) : (s.setLine n l).ilevel = s.ilevel := by cases n <;> rfl
@[simp] theorem setLine_ithresh (n : LineId) (l : Line) (s : State) : (s.setLine n l).ithresh = s.ithresh := by cases n <;> rfl
@[simp] theorem setLine_freeIndex (n : LineId) (l : Line) (s : State) : (s.setLine n l).freeIndex = s.freeIndex := by cases n <;> rfl
@[simp] theorem setLine_pending (n : LineId) (l : Line) (s : State) : (s.setLine n l).pending = s.pending := by cases n <;> rfl
@[simp] theorem setLine_station (n : LineId) (l : Line) (s : State) (u : StationIx) : (s.setLine n l).station u = s.station u := by cases n <;> rfl
@[simp] theorem setLine_entry (n : LineId) (l : Line) (s : State) (j : EntryIx) : (s.setLine n l).entry j = s.entry j := by cases n <;> rfl
@[simp] theorem setLine_slot (n : LineId) (l : Line) (s : State) (j : SlotIx) : (s.setLine n l).slot j = s.slot j := by cases n <;> rfl
@[simp] theorem setLine_owner (n : LineId) (l : Line) (s : State) (c : BlockIx) : (s.setLine n l).owner c = s.owner c := by cases n <;> rfl

/-! ## setStation: what it leaves -/

@[simp] theorem setStation_resetLow (t : StationIx) (st : Station) (s : State) : (s.setStation t st).resetLow = s.resetLow := rfl
@[simp] theorem setStation_mode (t : StationIx) (st : Station) (s : State) : (s.setStation t st).mode = s.mode := rfl
@[simp] theorem setStation_pendingRequest (t : StationIx) (st : Station) (s : State) : (s.setStation t st).pendingRequest = s.pendingRequest := rfl
@[simp] theorem setStation_reqRefused (t : StationIx) (st : Station) (s : State) : (s.setStation t st).reqRefused = s.reqRefused := rfl
@[simp] theorem setStation_errCode (t : StationIx) (st : Station) (s : State) : (s.setStation t st).errCode = s.errCode := rfl
@[simp] theorem setStation_errIndex (t : StationIx) (st : Station) (s : State) : (s.setStation t st).errIndex = s.errIndex := rfl
@[simp] theorem setStation_tapaddr (t : StationIx) (st : Station) (s : State) : (s.setStation t st).tapaddr = s.tapaddr := rfl
@[simp] theorem setStation_accaddr (t : StationIx) (st : Station) (s : State) : (s.setStation t st).accaddr = s.accaddr := rfl
@[simp] theorem setStation_accSpace (t : StationIx) (st : Station) (s : State) : (s.setStation t st).accSpace = s.accSpace := rfl
@[simp] theorem setStation_accDir (t : StationIx) (st : Station) (s : State) : (s.setStation t st).accDir = s.accDir := rfl
@[simp] theorem setStation_accMode (t : StationIx) (st : Station) (s : State) : (s.setStation t st).accMode = s.accMode := rfl
@[simp] theorem setStation_dout (t : StationIx) (st : Station) (s : State) : (s.setStation t st).dout = s.dout := rfl
@[simp] theorem setStation_cmdState (t : StationIx) (st : Station) (s : State) : (s.setStation t st).cmdState = s.cmdState := rfl
@[simp] theorem setStation_cmd (t : StationIx) (st : Station) (s : State) : (s.setStation t st).cmd = s.cmd := rfl
@[simp] theorem setStation_carg (t : StationIx) (st : Station) (s : State) : (s.setStation t st).carg = s.carg := rfl
@[simp] theorem setStation_args (t : StationIx) (st : Station) (s : State) : (s.setStation t st).args = s.args := rfl
@[simp] theorem setStation_result (t : StationIx) (st : Station) (s : State) : (s.setStation t st).result = s.result := rfl
@[simp] theorem setStation_cvalue (t : StationIx) (st : Station) (s : State) : (s.setStation t st).cvalue = s.cvalue := rfl
@[simp] theorem setStation_overrun (t : StationIx) (st : Station) (s : State) : (s.setStation t st).overrun = s.overrun := rfl
@[simp] theorem setStation_line0 (t : StationIx) (st : Station) (s : State) : (s.setStation t st).line0 = s.line0 := rfl
@[simp] theorem setStation_line1 (t : StationIx) (st : Station) (s : State) : (s.setStation t st).line1 = s.line1 := rfl
@[simp] theorem setStation_entries (t : StationIx) (st : Station) (s : State) : (s.setStation t st).entries = s.entries := rfl
@[simp] theorem setStation_payload (t : StationIx) (st : Station) (s : State) : (s.setStation t st).payload = s.payload := rfl
@[simp] theorem setStation_owners (t : StationIx) (st : Station) (s : State) : (s.setStation t st).owners = s.owners := rfl
@[simp] theorem setStation_slots (t : StationIx) (st : Station) (s : State) : (s.setStation t st).slots = s.slots := rfl
@[simp] theorem setStation_submitted (t : StationIx) (st : Station) (s : State) : (s.setStation t st).submitted = s.submitted := rfl
@[simp] theorem setStation_done (t : StationIx) (st : Station) (s : State) : (s.setStation t st).done = s.done := rfl
@[simp] theorem setStation_events (t : StationIx) (st : Station) (s : State) : (s.setStation t st).events = s.events := rfl
@[simp] theorem setStation_evlost (t : StationIx) (st : Station) (s : State) : (s.setStation t st).evlost = s.evlost := rfl
@[simp] theorem setStation_evthresh (t : StationIx) (st : Station) (s : State) : (s.setStation t st).evthresh = s.evthresh := rfl
@[simp] theorem setStation_drain (t : StationIx) (st : Station) (s : State) : (s.setStation t st).drain = s.drain := rfl
@[simp] theorem setStation_dmaWord (t : StationIx) (st : Station) (s : State) : (s.setStation t st).dmaWord = s.dmaWord := rfl
@[simp] theorem setStation_edges (t : StationIx) (st : Station) (s : State) : (s.setStation t st).edges = s.edges := rfl
@[simp] theorem setStation_ienable (t : StationIx) (st : Station) (s : State) : (s.setStation t st).ienable = s.ienable := rfl
@[simp] theorem setStation_ilevel (t : StationIx) (st : Station) (s : State) : (s.setStation t st).ilevel = s.ilevel := rfl
@[simp] theorem setStation_ithresh (t : StationIx) (st : Station) (s : State) : (s.setStation t st).ithresh = s.ithresh := rfl
@[simp] theorem setStation_freeIndex (t : StationIx) (st : Station) (s : State) : (s.setStation t st).freeIndex = s.freeIndex := rfl
@[simp] theorem setStation_pending (t : StationIx) (st : Station) (s : State) : (s.setStation t st).pending = s.pending := rfl
@[simp] theorem setStation_line (t : StationIx) (st : Station) (s : State) (m : LineId) : (s.setStation t st).line m = s.line m := by cases m <;> rfl
@[simp] theorem setStation_entry (t : StationIx) (st : Station) (s : State) (j : EntryIx) : (s.setStation t st).entry j = s.entry j := rfl
@[simp] theorem setStation_slot (t : StationIx) (st : Station) (s : State) (j : SlotIx) : (s.setStation t st).slot j = s.slot j := rfl
@[simp] theorem setStation_owner (t : StationIx) (st : Station) (s : State) (c : BlockIx) : (s.setStation t st).owner c = s.owner c := rfl

/-! ## setEntry: what it leaves -/

@[simp] theorem setEntry_resetLow (e : EntryIx) (en : Entry) (s : State) : (s.setEntry e en).resetLow = s.resetLow := rfl
@[simp] theorem setEntry_mode (e : EntryIx) (en : Entry) (s : State) : (s.setEntry e en).mode = s.mode := rfl
@[simp] theorem setEntry_pendingRequest (e : EntryIx) (en : Entry) (s : State) : (s.setEntry e en).pendingRequest = s.pendingRequest := rfl
@[simp] theorem setEntry_reqRefused (e : EntryIx) (en : Entry) (s : State) : (s.setEntry e en).reqRefused = s.reqRefused := rfl
@[simp] theorem setEntry_errCode (e : EntryIx) (en : Entry) (s : State) : (s.setEntry e en).errCode = s.errCode := rfl
@[simp] theorem setEntry_errIndex (e : EntryIx) (en : Entry) (s : State) : (s.setEntry e en).errIndex = s.errIndex := rfl
@[simp] theorem setEntry_tapaddr (e : EntryIx) (en : Entry) (s : State) : (s.setEntry e en).tapaddr = s.tapaddr := rfl
@[simp] theorem setEntry_accaddr (e : EntryIx) (en : Entry) (s : State) : (s.setEntry e en).accaddr = s.accaddr := rfl
@[simp] theorem setEntry_accSpace (e : EntryIx) (en : Entry) (s : State) : (s.setEntry e en).accSpace = s.accSpace := rfl
@[simp] theorem setEntry_accDir (e : EntryIx) (en : Entry) (s : State) : (s.setEntry e en).accDir = s.accDir := rfl
@[simp] theorem setEntry_accMode (e : EntryIx) (en : Entry) (s : State) : (s.setEntry e en).accMode = s.accMode := rfl
@[simp] theorem setEntry_dout (e : EntryIx) (en : Entry) (s : State) : (s.setEntry e en).dout = s.dout := rfl
@[simp] theorem setEntry_cmdState (e : EntryIx) (en : Entry) (s : State) : (s.setEntry e en).cmdState = s.cmdState := rfl
@[simp] theorem setEntry_cmd (e : EntryIx) (en : Entry) (s : State) : (s.setEntry e en).cmd = s.cmd := rfl
@[simp] theorem setEntry_carg (e : EntryIx) (en : Entry) (s : State) : (s.setEntry e en).carg = s.carg := rfl
@[simp] theorem setEntry_args (e : EntryIx) (en : Entry) (s : State) : (s.setEntry e en).args = s.args := rfl
@[simp] theorem setEntry_result (e : EntryIx) (en : Entry) (s : State) : (s.setEntry e en).result = s.result := rfl
@[simp] theorem setEntry_cvalue (e : EntryIx) (en : Entry) (s : State) : (s.setEntry e en).cvalue = s.cvalue := rfl
@[simp] theorem setEntry_overrun (e : EntryIx) (en : Entry) (s : State) : (s.setEntry e en).overrun = s.overrun := rfl
@[simp] theorem setEntry_line0 (e : EntryIx) (en : Entry) (s : State) : (s.setEntry e en).line0 = s.line0 := rfl
@[simp] theorem setEntry_line1 (e : EntryIx) (en : Entry) (s : State) : (s.setEntry e en).line1 = s.line1 := rfl
@[simp] theorem setEntry_stations (e : EntryIx) (en : Entry) (s : State) : (s.setEntry e en).stations = s.stations := rfl
@[simp] theorem setEntry_payload (e : EntryIx) (en : Entry) (s : State) : (s.setEntry e en).payload = s.payload := rfl
@[simp] theorem setEntry_owners (e : EntryIx) (en : Entry) (s : State) : (s.setEntry e en).owners = s.owners := rfl
@[simp] theorem setEntry_slots (e : EntryIx) (en : Entry) (s : State) : (s.setEntry e en).slots = s.slots := rfl
@[simp] theorem setEntry_submitted (e : EntryIx) (en : Entry) (s : State) : (s.setEntry e en).submitted = s.submitted := rfl
@[simp] theorem setEntry_done (e : EntryIx) (en : Entry) (s : State) : (s.setEntry e en).done = s.done := rfl
@[simp] theorem setEntry_events (e : EntryIx) (en : Entry) (s : State) : (s.setEntry e en).events = s.events := rfl
@[simp] theorem setEntry_evlost (e : EntryIx) (en : Entry) (s : State) : (s.setEntry e en).evlost = s.evlost := rfl
@[simp] theorem setEntry_evthresh (e : EntryIx) (en : Entry) (s : State) : (s.setEntry e en).evthresh = s.evthresh := rfl
@[simp] theorem setEntry_drain (e : EntryIx) (en : Entry) (s : State) : (s.setEntry e en).drain = s.drain := rfl
@[simp] theorem setEntry_dmaWord (e : EntryIx) (en : Entry) (s : State) : (s.setEntry e en).dmaWord = s.dmaWord := rfl
@[simp] theorem setEntry_edges (e : EntryIx) (en : Entry) (s : State) : (s.setEntry e en).edges = s.edges := rfl
@[simp] theorem setEntry_ienable (e : EntryIx) (en : Entry) (s : State) : (s.setEntry e en).ienable = s.ienable := rfl
@[simp] theorem setEntry_ilevel (e : EntryIx) (en : Entry) (s : State) : (s.setEntry e en).ilevel = s.ilevel := rfl
@[simp] theorem setEntry_ithresh (e : EntryIx) (en : Entry) (s : State) : (s.setEntry e en).ithresh = s.ithresh := rfl
@[simp] theorem setEntry_freeIndex (e : EntryIx) (en : Entry) (s : State) : (s.setEntry e en).freeIndex = s.freeIndex := rfl
@[simp] theorem setEntry_pending (e : EntryIx) (en : Entry) (s : State) : (s.setEntry e en).pending = s.pending := rfl
@[simp] theorem setEntry_line (e : EntryIx) (en : Entry) (s : State) (m : LineId) : (s.setEntry e en).line m = s.line m := by cases m <;> rfl
@[simp] theorem setEntry_station (e : EntryIx) (en : Entry) (s : State) (u : StationIx) : (s.setEntry e en).station u = s.station u := rfl
@[simp] theorem setEntry_slot (e : EntryIx) (en : Entry) (s : State) (j : SlotIx) : (s.setEntry e en).slot j = s.slot j := rfl
@[simp] theorem setEntry_owner (e : EntryIx) (en : Entry) (s : State) (c : BlockIx) : (s.setEntry e en).owner c = s.owner c := rfl

/-! ## setSlot: what it leaves -/

@[simp] theorem setSlot_resetLow (k : SlotIx) (sl : Slot) (s : State) : (s.setSlot k sl).resetLow = s.resetLow := rfl
@[simp] theorem setSlot_mode (k : SlotIx) (sl : Slot) (s : State) : (s.setSlot k sl).mode = s.mode := rfl
@[simp] theorem setSlot_pendingRequest (k : SlotIx) (sl : Slot) (s : State) : (s.setSlot k sl).pendingRequest = s.pendingRequest := rfl
@[simp] theorem setSlot_reqRefused (k : SlotIx) (sl : Slot) (s : State) : (s.setSlot k sl).reqRefused = s.reqRefused := rfl
@[simp] theorem setSlot_errCode (k : SlotIx) (sl : Slot) (s : State) : (s.setSlot k sl).errCode = s.errCode := rfl
@[simp] theorem setSlot_errIndex (k : SlotIx) (sl : Slot) (s : State) : (s.setSlot k sl).errIndex = s.errIndex := rfl
@[simp] theorem setSlot_tapaddr (k : SlotIx) (sl : Slot) (s : State) : (s.setSlot k sl).tapaddr = s.tapaddr := rfl
@[simp] theorem setSlot_accaddr (k : SlotIx) (sl : Slot) (s : State) : (s.setSlot k sl).accaddr = s.accaddr := rfl
@[simp] theorem setSlot_accSpace (k : SlotIx) (sl : Slot) (s : State) : (s.setSlot k sl).accSpace = s.accSpace := rfl
@[simp] theorem setSlot_accDir (k : SlotIx) (sl : Slot) (s : State) : (s.setSlot k sl).accDir = s.accDir := rfl
@[simp] theorem setSlot_accMode (k : SlotIx) (sl : Slot) (s : State) : (s.setSlot k sl).accMode = s.accMode := rfl
@[simp] theorem setSlot_dout (k : SlotIx) (sl : Slot) (s : State) : (s.setSlot k sl).dout = s.dout := rfl
@[simp] theorem setSlot_cmdState (k : SlotIx) (sl : Slot) (s : State) : (s.setSlot k sl).cmdState = s.cmdState := rfl
@[simp] theorem setSlot_cmd (k : SlotIx) (sl : Slot) (s : State) : (s.setSlot k sl).cmd = s.cmd := rfl
@[simp] theorem setSlot_carg (k : SlotIx) (sl : Slot) (s : State) : (s.setSlot k sl).carg = s.carg := rfl
@[simp] theorem setSlot_args (k : SlotIx) (sl : Slot) (s : State) : (s.setSlot k sl).args = s.args := rfl
@[simp] theorem setSlot_result (k : SlotIx) (sl : Slot) (s : State) : (s.setSlot k sl).result = s.result := rfl
@[simp] theorem setSlot_cvalue (k : SlotIx) (sl : Slot) (s : State) : (s.setSlot k sl).cvalue = s.cvalue := rfl
@[simp] theorem setSlot_overrun (k : SlotIx) (sl : Slot) (s : State) : (s.setSlot k sl).overrun = s.overrun := rfl
@[simp] theorem setSlot_line0 (k : SlotIx) (sl : Slot) (s : State) : (s.setSlot k sl).line0 = s.line0 := rfl
@[simp] theorem setSlot_line1 (k : SlotIx) (sl : Slot) (s : State) : (s.setSlot k sl).line1 = s.line1 := rfl
@[simp] theorem setSlot_entries (k : SlotIx) (sl : Slot) (s : State) : (s.setSlot k sl).entries = s.entries := rfl
@[simp] theorem setSlot_stations (k : SlotIx) (sl : Slot) (s : State) : (s.setSlot k sl).stations = s.stations := rfl
@[simp] theorem setSlot_payload (k : SlotIx) (sl : Slot) (s : State) : (s.setSlot k sl).payload = s.payload := rfl
@[simp] theorem setSlot_owners (k : SlotIx) (sl : Slot) (s : State) : (s.setSlot k sl).owners = s.owners := rfl
@[simp] theorem setSlot_submitted (k : SlotIx) (sl : Slot) (s : State) : (s.setSlot k sl).submitted = s.submitted := rfl
@[simp] theorem setSlot_done (k : SlotIx) (sl : Slot) (s : State) : (s.setSlot k sl).done = s.done := rfl
@[simp] theorem setSlot_events (k : SlotIx) (sl : Slot) (s : State) : (s.setSlot k sl).events = s.events := rfl
@[simp] theorem setSlot_evlost (k : SlotIx) (sl : Slot) (s : State) : (s.setSlot k sl).evlost = s.evlost := rfl
@[simp] theorem setSlot_evthresh (k : SlotIx) (sl : Slot) (s : State) : (s.setSlot k sl).evthresh = s.evthresh := rfl
@[simp] theorem setSlot_drain (k : SlotIx) (sl : Slot) (s : State) : (s.setSlot k sl).drain = s.drain := rfl
@[simp] theorem setSlot_dmaWord (k : SlotIx) (sl : Slot) (s : State) : (s.setSlot k sl).dmaWord = s.dmaWord := rfl
@[simp] theorem setSlot_edges (k : SlotIx) (sl : Slot) (s : State) : (s.setSlot k sl).edges = s.edges := rfl
@[simp] theorem setSlot_ienable (k : SlotIx) (sl : Slot) (s : State) : (s.setSlot k sl).ienable = s.ienable := rfl
@[simp] theorem setSlot_ilevel (k : SlotIx) (sl : Slot) (s : State) : (s.setSlot k sl).ilevel = s.ilevel := rfl
@[simp] theorem setSlot_ithresh (k : SlotIx) (sl : Slot) (s : State) : (s.setSlot k sl).ithresh = s.ithresh := rfl
@[simp] theorem setSlot_freeIndex (k : SlotIx) (sl : Slot) (s : State) : (s.setSlot k sl).freeIndex = s.freeIndex := rfl
@[simp] theorem setSlot_pending (k : SlotIx) (sl : Slot) (s : State) : (s.setSlot k sl).pending = s.pending := rfl
@[simp] theorem setSlot_line (k : SlotIx) (sl : Slot) (s : State) (m : LineId) : (s.setSlot k sl).line m = s.line m := by cases m <;> rfl
@[simp] theorem setSlot_station (k : SlotIx) (sl : Slot) (s : State) (u : StationIx) : (s.setSlot k sl).station u = s.station u := rfl
@[simp] theorem setSlot_entry (k : SlotIx) (sl : Slot) (s : State) (j : EntryIx) : (s.setSlot k sl).entry j = s.entry j := rfl
@[simp] theorem setSlot_owner (k : SlotIx) (sl : Slot) (s : State) (c : BlockIx) : (s.setSlot k sl).owner c = s.owner c := rfl

/-! ## setOwner: what it leaves -/

@[simp] theorem setOwner_resetLow (b : BlockIx) (o : Owner) (s : State) : (s.setOwner b o).resetLow = s.resetLow := rfl
@[simp] theorem setOwner_mode (b : BlockIx) (o : Owner) (s : State) : (s.setOwner b o).mode = s.mode := rfl
@[simp] theorem setOwner_pendingRequest (b : BlockIx) (o : Owner) (s : State) : (s.setOwner b o).pendingRequest = s.pendingRequest := rfl
@[simp] theorem setOwner_reqRefused (b : BlockIx) (o : Owner) (s : State) : (s.setOwner b o).reqRefused = s.reqRefused := rfl
@[simp] theorem setOwner_errCode (b : BlockIx) (o : Owner) (s : State) : (s.setOwner b o).errCode = s.errCode := rfl
@[simp] theorem setOwner_errIndex (b : BlockIx) (o : Owner) (s : State) : (s.setOwner b o).errIndex = s.errIndex := rfl
@[simp] theorem setOwner_tapaddr (b : BlockIx) (o : Owner) (s : State) : (s.setOwner b o).tapaddr = s.tapaddr := rfl
@[simp] theorem setOwner_accaddr (b : BlockIx) (o : Owner) (s : State) : (s.setOwner b o).accaddr = s.accaddr := rfl
@[simp] theorem setOwner_accSpace (b : BlockIx) (o : Owner) (s : State) : (s.setOwner b o).accSpace = s.accSpace := rfl
@[simp] theorem setOwner_accDir (b : BlockIx) (o : Owner) (s : State) : (s.setOwner b o).accDir = s.accDir := rfl
@[simp] theorem setOwner_accMode (b : BlockIx) (o : Owner) (s : State) : (s.setOwner b o).accMode = s.accMode := rfl
@[simp] theorem setOwner_dout (b : BlockIx) (o : Owner) (s : State) : (s.setOwner b o).dout = s.dout := rfl
@[simp] theorem setOwner_cmdState (b : BlockIx) (o : Owner) (s : State) : (s.setOwner b o).cmdState = s.cmdState := rfl
@[simp] theorem setOwner_cmd (b : BlockIx) (o : Owner) (s : State) : (s.setOwner b o).cmd = s.cmd := rfl
@[simp] theorem setOwner_carg (b : BlockIx) (o : Owner) (s : State) : (s.setOwner b o).carg = s.carg := rfl
@[simp] theorem setOwner_args (b : BlockIx) (o : Owner) (s : State) : (s.setOwner b o).args = s.args := rfl
@[simp] theorem setOwner_result (b : BlockIx) (o : Owner) (s : State) : (s.setOwner b o).result = s.result := rfl
@[simp] theorem setOwner_cvalue (b : BlockIx) (o : Owner) (s : State) : (s.setOwner b o).cvalue = s.cvalue := rfl
@[simp] theorem setOwner_overrun (b : BlockIx) (o : Owner) (s : State) : (s.setOwner b o).overrun = s.overrun := rfl
@[simp] theorem setOwner_line0 (b : BlockIx) (o : Owner) (s : State) : (s.setOwner b o).line0 = s.line0 := rfl
@[simp] theorem setOwner_line1 (b : BlockIx) (o : Owner) (s : State) : (s.setOwner b o).line1 = s.line1 := rfl
@[simp] theorem setOwner_entries (b : BlockIx) (o : Owner) (s : State) : (s.setOwner b o).entries = s.entries := rfl
@[simp] theorem setOwner_stations (b : BlockIx) (o : Owner) (s : State) : (s.setOwner b o).stations = s.stations := rfl
@[simp] theorem setOwner_payload (b : BlockIx) (o : Owner) (s : State) : (s.setOwner b o).payload = s.payload := rfl
@[simp] theorem setOwner_slots (b : BlockIx) (o : Owner) (s : State) : (s.setOwner b o).slots = s.slots := rfl
@[simp] theorem setOwner_submitted (b : BlockIx) (o : Owner) (s : State) : (s.setOwner b o).submitted = s.submitted := rfl
@[simp] theorem setOwner_done (b : BlockIx) (o : Owner) (s : State) : (s.setOwner b o).done = s.done := rfl
@[simp] theorem setOwner_events (b : BlockIx) (o : Owner) (s : State) : (s.setOwner b o).events = s.events := rfl
@[simp] theorem setOwner_evlost (b : BlockIx) (o : Owner) (s : State) : (s.setOwner b o).evlost = s.evlost := rfl
@[simp] theorem setOwner_evthresh (b : BlockIx) (o : Owner) (s : State) : (s.setOwner b o).evthresh = s.evthresh := rfl
@[simp] theorem setOwner_drain (b : BlockIx) (o : Owner) (s : State) : (s.setOwner b o).drain = s.drain := rfl
@[simp] theorem setOwner_dmaWord (b : BlockIx) (o : Owner) (s : State) : (s.setOwner b o).dmaWord = s.dmaWord := rfl
@[simp] theorem setOwner_edges (b : BlockIx) (o : Owner) (s : State) : (s.setOwner b o).edges = s.edges := rfl
@[simp] theorem setOwner_ienable (b : BlockIx) (o : Owner) (s : State) : (s.setOwner b o).ienable = s.ienable := rfl
@[simp] theorem setOwner_ilevel (b : BlockIx) (o : Owner) (s : State) : (s.setOwner b o).ilevel = s.ilevel := rfl
@[simp] theorem setOwner_ithresh (b : BlockIx) (o : Owner) (s : State) : (s.setOwner b o).ithresh = s.ithresh := rfl
@[simp] theorem setOwner_freeIndex (b : BlockIx) (o : Owner) (s : State) : (s.setOwner b o).freeIndex = s.freeIndex := rfl
@[simp] theorem setOwner_pending (b : BlockIx) (o : Owner) (s : State) : (s.setOwner b o).pending = s.pending := rfl
@[simp] theorem setOwner_line (b : BlockIx) (o : Owner) (s : State) (m : LineId) : (s.setOwner b o).line m = s.line m := by cases m <;> rfl
@[simp] theorem setOwner_station (b : BlockIx) (o : Owner) (s : State) (u : StationIx) : (s.setOwner b o).station u = s.station u := rfl
@[simp] theorem setOwner_entry (b : BlockIx) (o : Owner) (s : State) (j : EntryIx) : (s.setOwner b o).entry j = s.entry j := rfl
@[simp] theorem setOwner_slot (b : BlockIx) (o : Owner) (s : State) (j : SlotIx) : (s.setOwner b o).slot j = s.slot j := rfl

/-! ## mapStations: what it leaves -/

@[simp] theorem mapStations_resetLow (f : StationIx → Station → Station) (s : State) : (s.mapStations f).resetLow = s.resetLow := rfl
@[simp] theorem mapStations_mode (f : StationIx → Station → Station) (s : State) : (s.mapStations f).mode = s.mode := rfl
@[simp] theorem mapStations_pendingRequest (f : StationIx → Station → Station) (s : State) : (s.mapStations f).pendingRequest = s.pendingRequest := rfl
@[simp] theorem mapStations_reqRefused (f : StationIx → Station → Station) (s : State) : (s.mapStations f).reqRefused = s.reqRefused := rfl
@[simp] theorem mapStations_errCode (f : StationIx → Station → Station) (s : State) : (s.mapStations f).errCode = s.errCode := rfl
@[simp] theorem mapStations_errIndex (f : StationIx → Station → Station) (s : State) : (s.mapStations f).errIndex = s.errIndex := rfl
@[simp] theorem mapStations_tapaddr (f : StationIx → Station → Station) (s : State) : (s.mapStations f).tapaddr = s.tapaddr := rfl
@[simp] theorem mapStations_accaddr (f : StationIx → Station → Station) (s : State) : (s.mapStations f).accaddr = s.accaddr := rfl
@[simp] theorem mapStations_accSpace (f : StationIx → Station → Station) (s : State) : (s.mapStations f).accSpace = s.accSpace := rfl
@[simp] theorem mapStations_accDir (f : StationIx → Station → Station) (s : State) : (s.mapStations f).accDir = s.accDir := rfl
@[simp] theorem mapStations_accMode (f : StationIx → Station → Station) (s : State) : (s.mapStations f).accMode = s.accMode := rfl
@[simp] theorem mapStations_dout (f : StationIx → Station → Station) (s : State) : (s.mapStations f).dout = s.dout := rfl
@[simp] theorem mapStations_cmdState (f : StationIx → Station → Station) (s : State) : (s.mapStations f).cmdState = s.cmdState := rfl
@[simp] theorem mapStations_cmd (f : StationIx → Station → Station) (s : State) : (s.mapStations f).cmd = s.cmd := rfl
@[simp] theorem mapStations_carg (f : StationIx → Station → Station) (s : State) : (s.mapStations f).carg = s.carg := rfl
@[simp] theorem mapStations_args (f : StationIx → Station → Station) (s : State) : (s.mapStations f).args = s.args := rfl
@[simp] theorem mapStations_result (f : StationIx → Station → Station) (s : State) : (s.mapStations f).result = s.result := rfl
@[simp] theorem mapStations_cvalue (f : StationIx → Station → Station) (s : State) : (s.mapStations f).cvalue = s.cvalue := rfl
@[simp] theorem mapStations_overrun (f : StationIx → Station → Station) (s : State) : (s.mapStations f).overrun = s.overrun := rfl
@[simp] theorem mapStations_line0 (f : StationIx → Station → Station) (s : State) : (s.mapStations f).line0 = s.line0 := rfl
@[simp] theorem mapStations_line1 (f : StationIx → Station → Station) (s : State) : (s.mapStations f).line1 = s.line1 := rfl
@[simp] theorem mapStations_entries (f : StationIx → Station → Station) (s : State) : (s.mapStations f).entries = s.entries := rfl
@[simp] theorem mapStations_payload (f : StationIx → Station → Station) (s : State) : (s.mapStations f).payload = s.payload := rfl
@[simp] theorem mapStations_owners (f : StationIx → Station → Station) (s : State) : (s.mapStations f).owners = s.owners := rfl
@[simp] theorem mapStations_slots (f : StationIx → Station → Station) (s : State) : (s.mapStations f).slots = s.slots := rfl
@[simp] theorem mapStations_submitted (f : StationIx → Station → Station) (s : State) : (s.mapStations f).submitted = s.submitted := rfl
@[simp] theorem mapStations_done (f : StationIx → Station → Station) (s : State) : (s.mapStations f).done = s.done := rfl
@[simp] theorem mapStations_events (f : StationIx → Station → Station) (s : State) : (s.mapStations f).events = s.events := rfl
@[simp] theorem mapStations_evlost (f : StationIx → Station → Station) (s : State) : (s.mapStations f).evlost = s.evlost := rfl
@[simp] theorem mapStations_evthresh (f : StationIx → Station → Station) (s : State) : (s.mapStations f).evthresh = s.evthresh := rfl
@[simp] theorem mapStations_drain (f : StationIx → Station → Station) (s : State) : (s.mapStations f).drain = s.drain := rfl
@[simp] theorem mapStations_dmaWord (f : StationIx → Station → Station) (s : State) : (s.mapStations f).dmaWord = s.dmaWord := rfl
@[simp] theorem mapStations_edges (f : StationIx → Station → Station) (s : State) : (s.mapStations f).edges = s.edges := rfl
@[simp] theorem mapStations_ienable (f : StationIx → Station → Station) (s : State) : (s.mapStations f).ienable = s.ienable := rfl
@[simp] theorem mapStations_ilevel (f : StationIx → Station → Station) (s : State) : (s.mapStations f).ilevel = s.ilevel := rfl
@[simp] theorem mapStations_ithresh (f : StationIx → Station → Station) (s : State) : (s.mapStations f).ithresh = s.ithresh := rfl
@[simp] theorem mapStations_freeIndex (f : StationIx → Station → Station) (s : State) : (s.mapStations f).freeIndex = s.freeIndex := rfl
@[simp] theorem mapStations_pending (f : StationIx → Station → Station) (s : State) : (s.mapStations f).pending = s.pending := rfl
@[simp] theorem mapStations_line (f : StationIx → Station → Station) (s : State) (m : LineId) : (s.mapStations f).line m = s.line m := by cases m <;> rfl
@[simp] theorem mapStations_entry (f : StationIx → Station → Station) (s : State) (j : EntryIx) : (s.mapStations f).entry j = s.entry j := rfl
@[simp] theorem mapStations_slot (f : StationIx → Station → Station) (s : State) (j : SlotIx) : (s.mapStations f).slot j = s.slot j := rfl
@[simp] theorem mapStations_owner (f : StationIx → Station → Station) (s : State) (c : BlockIx) : (s.mapStations f).owner c = s.owner c := rfl

/-! ## mapEntries: what it leaves -/

@[simp] theorem mapEntries_resetLow (f : EntryIx → Entry → Entry) (s : State) : (s.mapEntries f).resetLow = s.resetLow := rfl
@[simp] theorem mapEntries_mode (f : EntryIx → Entry → Entry) (s : State) : (s.mapEntries f).mode = s.mode := rfl
@[simp] theorem mapEntries_pendingRequest (f : EntryIx → Entry → Entry) (s : State) : (s.mapEntries f).pendingRequest = s.pendingRequest := rfl
@[simp] theorem mapEntries_reqRefused (f : EntryIx → Entry → Entry) (s : State) : (s.mapEntries f).reqRefused = s.reqRefused := rfl
@[simp] theorem mapEntries_errCode (f : EntryIx → Entry → Entry) (s : State) : (s.mapEntries f).errCode = s.errCode := rfl
@[simp] theorem mapEntries_errIndex (f : EntryIx → Entry → Entry) (s : State) : (s.mapEntries f).errIndex = s.errIndex := rfl
@[simp] theorem mapEntries_tapaddr (f : EntryIx → Entry → Entry) (s : State) : (s.mapEntries f).tapaddr = s.tapaddr := rfl
@[simp] theorem mapEntries_accaddr (f : EntryIx → Entry → Entry) (s : State) : (s.mapEntries f).accaddr = s.accaddr := rfl
@[simp] theorem mapEntries_accSpace (f : EntryIx → Entry → Entry) (s : State) : (s.mapEntries f).accSpace = s.accSpace := rfl
@[simp] theorem mapEntries_accDir (f : EntryIx → Entry → Entry) (s : State) : (s.mapEntries f).accDir = s.accDir := rfl
@[simp] theorem mapEntries_accMode (f : EntryIx → Entry → Entry) (s : State) : (s.mapEntries f).accMode = s.accMode := rfl
@[simp] theorem mapEntries_dout (f : EntryIx → Entry → Entry) (s : State) : (s.mapEntries f).dout = s.dout := rfl
@[simp] theorem mapEntries_cmdState (f : EntryIx → Entry → Entry) (s : State) : (s.mapEntries f).cmdState = s.cmdState := rfl
@[simp] theorem mapEntries_cmd (f : EntryIx → Entry → Entry) (s : State) : (s.mapEntries f).cmd = s.cmd := rfl
@[simp] theorem mapEntries_carg (f : EntryIx → Entry → Entry) (s : State) : (s.mapEntries f).carg = s.carg := rfl
@[simp] theorem mapEntries_args (f : EntryIx → Entry → Entry) (s : State) : (s.mapEntries f).args = s.args := rfl
@[simp] theorem mapEntries_result (f : EntryIx → Entry → Entry) (s : State) : (s.mapEntries f).result = s.result := rfl
@[simp] theorem mapEntries_cvalue (f : EntryIx → Entry → Entry) (s : State) : (s.mapEntries f).cvalue = s.cvalue := rfl
@[simp] theorem mapEntries_overrun (f : EntryIx → Entry → Entry) (s : State) : (s.mapEntries f).overrun = s.overrun := rfl
@[simp] theorem mapEntries_line0 (f : EntryIx → Entry → Entry) (s : State) : (s.mapEntries f).line0 = s.line0 := rfl
@[simp] theorem mapEntries_line1 (f : EntryIx → Entry → Entry) (s : State) : (s.mapEntries f).line1 = s.line1 := rfl
@[simp] theorem mapEntries_stations (f : EntryIx → Entry → Entry) (s : State) : (s.mapEntries f).stations = s.stations := rfl
@[simp] theorem mapEntries_payload (f : EntryIx → Entry → Entry) (s : State) : (s.mapEntries f).payload = s.payload := rfl
@[simp] theorem mapEntries_owners (f : EntryIx → Entry → Entry) (s : State) : (s.mapEntries f).owners = s.owners := rfl
@[simp] theorem mapEntries_slots (f : EntryIx → Entry → Entry) (s : State) : (s.mapEntries f).slots = s.slots := rfl
@[simp] theorem mapEntries_submitted (f : EntryIx → Entry → Entry) (s : State) : (s.mapEntries f).submitted = s.submitted := rfl
@[simp] theorem mapEntries_done (f : EntryIx → Entry → Entry) (s : State) : (s.mapEntries f).done = s.done := rfl
@[simp] theorem mapEntries_events (f : EntryIx → Entry → Entry) (s : State) : (s.mapEntries f).events = s.events := rfl
@[simp] theorem mapEntries_evlost (f : EntryIx → Entry → Entry) (s : State) : (s.mapEntries f).evlost = s.evlost := rfl
@[simp] theorem mapEntries_evthresh (f : EntryIx → Entry → Entry) (s : State) : (s.mapEntries f).evthresh = s.evthresh := rfl
@[simp] theorem mapEntries_drain (f : EntryIx → Entry → Entry) (s : State) : (s.mapEntries f).drain = s.drain := rfl
@[simp] theorem mapEntries_dmaWord (f : EntryIx → Entry → Entry) (s : State) : (s.mapEntries f).dmaWord = s.dmaWord := rfl
@[simp] theorem mapEntries_edges (f : EntryIx → Entry → Entry) (s : State) : (s.mapEntries f).edges = s.edges := rfl
@[simp] theorem mapEntries_ienable (f : EntryIx → Entry → Entry) (s : State) : (s.mapEntries f).ienable = s.ienable := rfl
@[simp] theorem mapEntries_ilevel (f : EntryIx → Entry → Entry) (s : State) : (s.mapEntries f).ilevel = s.ilevel := rfl
@[simp] theorem mapEntries_ithresh (f : EntryIx → Entry → Entry) (s : State) : (s.mapEntries f).ithresh = s.ithresh := rfl
@[simp] theorem mapEntries_freeIndex (f : EntryIx → Entry → Entry) (s : State) : (s.mapEntries f).freeIndex = s.freeIndex := rfl
@[simp] theorem mapEntries_pending (f : EntryIx → Entry → Entry) (s : State) : (s.mapEntries f).pending = s.pending := rfl
@[simp] theorem mapEntries_line (f : EntryIx → Entry → Entry) (s : State) (m : LineId) : (s.mapEntries f).line m = s.line m := by cases m <;> rfl
@[simp] theorem mapEntries_station (f : EntryIx → Entry → Entry) (s : State) (u : StationIx) : (s.mapEntries f).station u = s.station u := rfl
@[simp] theorem mapEntries_slot (f : EntryIx → Entry → Entry) (s : State) (j : SlotIx) : (s.mapEntries f).slot j = s.slot j := rfl
@[simp] theorem mapEntries_owner (f : EntryIx → Entry → Entry) (s : State) (c : BlockIx) : (s.mapEntries f).owner c = s.owner c := rfl

/-! ## mapSlots: what it leaves -/

@[simp] theorem mapSlots_resetLow (f : SlotIx → Slot → Slot) (s : State) : (s.mapSlots f).resetLow = s.resetLow := rfl
@[simp] theorem mapSlots_mode (f : SlotIx → Slot → Slot) (s : State) : (s.mapSlots f).mode = s.mode := rfl
@[simp] theorem mapSlots_pendingRequest (f : SlotIx → Slot → Slot) (s : State) : (s.mapSlots f).pendingRequest = s.pendingRequest := rfl
@[simp] theorem mapSlots_reqRefused (f : SlotIx → Slot → Slot) (s : State) : (s.mapSlots f).reqRefused = s.reqRefused := rfl
@[simp] theorem mapSlots_errCode (f : SlotIx → Slot → Slot) (s : State) : (s.mapSlots f).errCode = s.errCode := rfl
@[simp] theorem mapSlots_errIndex (f : SlotIx → Slot → Slot) (s : State) : (s.mapSlots f).errIndex = s.errIndex := rfl
@[simp] theorem mapSlots_tapaddr (f : SlotIx → Slot → Slot) (s : State) : (s.mapSlots f).tapaddr = s.tapaddr := rfl
@[simp] theorem mapSlots_accaddr (f : SlotIx → Slot → Slot) (s : State) : (s.mapSlots f).accaddr = s.accaddr := rfl
@[simp] theorem mapSlots_accSpace (f : SlotIx → Slot → Slot) (s : State) : (s.mapSlots f).accSpace = s.accSpace := rfl
@[simp] theorem mapSlots_accDir (f : SlotIx → Slot → Slot) (s : State) : (s.mapSlots f).accDir = s.accDir := rfl
@[simp] theorem mapSlots_accMode (f : SlotIx → Slot → Slot) (s : State) : (s.mapSlots f).accMode = s.accMode := rfl
@[simp] theorem mapSlots_dout (f : SlotIx → Slot → Slot) (s : State) : (s.mapSlots f).dout = s.dout := rfl
@[simp] theorem mapSlots_cmdState (f : SlotIx → Slot → Slot) (s : State) : (s.mapSlots f).cmdState = s.cmdState := rfl
@[simp] theorem mapSlots_cmd (f : SlotIx → Slot → Slot) (s : State) : (s.mapSlots f).cmd = s.cmd := rfl
@[simp] theorem mapSlots_carg (f : SlotIx → Slot → Slot) (s : State) : (s.mapSlots f).carg = s.carg := rfl
@[simp] theorem mapSlots_args (f : SlotIx → Slot → Slot) (s : State) : (s.mapSlots f).args = s.args := rfl
@[simp] theorem mapSlots_result (f : SlotIx → Slot → Slot) (s : State) : (s.mapSlots f).result = s.result := rfl
@[simp] theorem mapSlots_cvalue (f : SlotIx → Slot → Slot) (s : State) : (s.mapSlots f).cvalue = s.cvalue := rfl
@[simp] theorem mapSlots_overrun (f : SlotIx → Slot → Slot) (s : State) : (s.mapSlots f).overrun = s.overrun := rfl
@[simp] theorem mapSlots_line0 (f : SlotIx → Slot → Slot) (s : State) : (s.mapSlots f).line0 = s.line0 := rfl
@[simp] theorem mapSlots_line1 (f : SlotIx → Slot → Slot) (s : State) : (s.mapSlots f).line1 = s.line1 := rfl
@[simp] theorem mapSlots_entries (f : SlotIx → Slot → Slot) (s : State) : (s.mapSlots f).entries = s.entries := rfl
@[simp] theorem mapSlots_stations (f : SlotIx → Slot → Slot) (s : State) : (s.mapSlots f).stations = s.stations := rfl
@[simp] theorem mapSlots_payload (f : SlotIx → Slot → Slot) (s : State) : (s.mapSlots f).payload = s.payload := rfl
@[simp] theorem mapSlots_owners (f : SlotIx → Slot → Slot) (s : State) : (s.mapSlots f).owners = s.owners := rfl
@[simp] theorem mapSlots_submitted (f : SlotIx → Slot → Slot) (s : State) : (s.mapSlots f).submitted = s.submitted := rfl
@[simp] theorem mapSlots_done (f : SlotIx → Slot → Slot) (s : State) : (s.mapSlots f).done = s.done := rfl
@[simp] theorem mapSlots_events (f : SlotIx → Slot → Slot) (s : State) : (s.mapSlots f).events = s.events := rfl
@[simp] theorem mapSlots_evlost (f : SlotIx → Slot → Slot) (s : State) : (s.mapSlots f).evlost = s.evlost := rfl
@[simp] theorem mapSlots_evthresh (f : SlotIx → Slot → Slot) (s : State) : (s.mapSlots f).evthresh = s.evthresh := rfl
@[simp] theorem mapSlots_drain (f : SlotIx → Slot → Slot) (s : State) : (s.mapSlots f).drain = s.drain := rfl
@[simp] theorem mapSlots_dmaWord (f : SlotIx → Slot → Slot) (s : State) : (s.mapSlots f).dmaWord = s.dmaWord := rfl
@[simp] theorem mapSlots_edges (f : SlotIx → Slot → Slot) (s : State) : (s.mapSlots f).edges = s.edges := rfl
@[simp] theorem mapSlots_ienable (f : SlotIx → Slot → Slot) (s : State) : (s.mapSlots f).ienable = s.ienable := rfl
@[simp] theorem mapSlots_ilevel (f : SlotIx → Slot → Slot) (s : State) : (s.mapSlots f).ilevel = s.ilevel := rfl
@[simp] theorem mapSlots_ithresh (f : SlotIx → Slot → Slot) (s : State) : (s.mapSlots f).ithresh = s.ithresh := rfl
@[simp] theorem mapSlots_freeIndex (f : SlotIx → Slot → Slot) (s : State) : (s.mapSlots f).freeIndex = s.freeIndex := rfl
@[simp] theorem mapSlots_pending (f : SlotIx → Slot → Slot) (s : State) : (s.mapSlots f).pending = s.pending := rfl
@[simp] theorem mapSlots_line (f : SlotIx → Slot → Slot) (s : State) (m : LineId) : (s.mapSlots f).line m = s.line m := by cases m <;> rfl
@[simp] theorem mapSlots_station (f : SlotIx → Slot → Slot) (s : State) (u : StationIx) : (s.mapSlots f).station u = s.station u := rfl
@[simp] theorem mapSlots_entry (f : SlotIx → Slot → Slot) (s : State) (j : EntryIx) : (s.mapSlots f).entry j = s.entry j := rfl
@[simp] theorem mapSlots_owner (f : SlotIx → Slot → Slot) (s : State) (c : BlockIx) : (s.mapSlots f).owner c = s.owner c := rfl

/-! ## mapOwners: what it leaves -/

@[simp] theorem mapOwners_resetLow (f : BlockIx → Owner → Owner) (s : State) : (s.mapOwners f).resetLow = s.resetLow := rfl
@[simp] theorem mapOwners_mode (f : BlockIx → Owner → Owner) (s : State) : (s.mapOwners f).mode = s.mode := rfl
@[simp] theorem mapOwners_pendingRequest (f : BlockIx → Owner → Owner) (s : State) : (s.mapOwners f).pendingRequest = s.pendingRequest := rfl
@[simp] theorem mapOwners_reqRefused (f : BlockIx → Owner → Owner) (s : State) : (s.mapOwners f).reqRefused = s.reqRefused := rfl
@[simp] theorem mapOwners_errCode (f : BlockIx → Owner → Owner) (s : State) : (s.mapOwners f).errCode = s.errCode := rfl
@[simp] theorem mapOwners_errIndex (f : BlockIx → Owner → Owner) (s : State) : (s.mapOwners f).errIndex = s.errIndex := rfl
@[simp] theorem mapOwners_tapaddr (f : BlockIx → Owner → Owner) (s : State) : (s.mapOwners f).tapaddr = s.tapaddr := rfl
@[simp] theorem mapOwners_accaddr (f : BlockIx → Owner → Owner) (s : State) : (s.mapOwners f).accaddr = s.accaddr := rfl
@[simp] theorem mapOwners_accSpace (f : BlockIx → Owner → Owner) (s : State) : (s.mapOwners f).accSpace = s.accSpace := rfl
@[simp] theorem mapOwners_accDir (f : BlockIx → Owner → Owner) (s : State) : (s.mapOwners f).accDir = s.accDir := rfl
@[simp] theorem mapOwners_accMode (f : BlockIx → Owner → Owner) (s : State) : (s.mapOwners f).accMode = s.accMode := rfl
@[simp] theorem mapOwners_dout (f : BlockIx → Owner → Owner) (s : State) : (s.mapOwners f).dout = s.dout := rfl
@[simp] theorem mapOwners_cmdState (f : BlockIx → Owner → Owner) (s : State) : (s.mapOwners f).cmdState = s.cmdState := rfl
@[simp] theorem mapOwners_cmd (f : BlockIx → Owner → Owner) (s : State) : (s.mapOwners f).cmd = s.cmd := rfl
@[simp] theorem mapOwners_carg (f : BlockIx → Owner → Owner) (s : State) : (s.mapOwners f).carg = s.carg := rfl
@[simp] theorem mapOwners_args (f : BlockIx → Owner → Owner) (s : State) : (s.mapOwners f).args = s.args := rfl
@[simp] theorem mapOwners_result (f : BlockIx → Owner → Owner) (s : State) : (s.mapOwners f).result = s.result := rfl
@[simp] theorem mapOwners_cvalue (f : BlockIx → Owner → Owner) (s : State) : (s.mapOwners f).cvalue = s.cvalue := rfl
@[simp] theorem mapOwners_overrun (f : BlockIx → Owner → Owner) (s : State) : (s.mapOwners f).overrun = s.overrun := rfl
@[simp] theorem mapOwners_line0 (f : BlockIx → Owner → Owner) (s : State) : (s.mapOwners f).line0 = s.line0 := rfl
@[simp] theorem mapOwners_line1 (f : BlockIx → Owner → Owner) (s : State) : (s.mapOwners f).line1 = s.line1 := rfl
@[simp] theorem mapOwners_entries (f : BlockIx → Owner → Owner) (s : State) : (s.mapOwners f).entries = s.entries := rfl
@[simp] theorem mapOwners_stations (f : BlockIx → Owner → Owner) (s : State) : (s.mapOwners f).stations = s.stations := rfl
@[simp] theorem mapOwners_payload (f : BlockIx → Owner → Owner) (s : State) : (s.mapOwners f).payload = s.payload := rfl
@[simp] theorem mapOwners_slots (f : BlockIx → Owner → Owner) (s : State) : (s.mapOwners f).slots = s.slots := rfl
@[simp] theorem mapOwners_submitted (f : BlockIx → Owner → Owner) (s : State) : (s.mapOwners f).submitted = s.submitted := rfl
@[simp] theorem mapOwners_done (f : BlockIx → Owner → Owner) (s : State) : (s.mapOwners f).done = s.done := rfl
@[simp] theorem mapOwners_events (f : BlockIx → Owner → Owner) (s : State) : (s.mapOwners f).events = s.events := rfl
@[simp] theorem mapOwners_evlost (f : BlockIx → Owner → Owner) (s : State) : (s.mapOwners f).evlost = s.evlost := rfl
@[simp] theorem mapOwners_evthresh (f : BlockIx → Owner → Owner) (s : State) : (s.mapOwners f).evthresh = s.evthresh := rfl
@[simp] theorem mapOwners_drain (f : BlockIx → Owner → Owner) (s : State) : (s.mapOwners f).drain = s.drain := rfl
@[simp] theorem mapOwners_dmaWord (f : BlockIx → Owner → Owner) (s : State) : (s.mapOwners f).dmaWord = s.dmaWord := rfl
@[simp] theorem mapOwners_edges (f : BlockIx → Owner → Owner) (s : State) : (s.mapOwners f).edges = s.edges := rfl
@[simp] theorem mapOwners_ienable (f : BlockIx → Owner → Owner) (s : State) : (s.mapOwners f).ienable = s.ienable := rfl
@[simp] theorem mapOwners_ilevel (f : BlockIx → Owner → Owner) (s : State) : (s.mapOwners f).ilevel = s.ilevel := rfl
@[simp] theorem mapOwners_ithresh (f : BlockIx → Owner → Owner) (s : State) : (s.mapOwners f).ithresh = s.ithresh := rfl
@[simp] theorem mapOwners_freeIndex (f : BlockIx → Owner → Owner) (s : State) : (s.mapOwners f).freeIndex = s.freeIndex := rfl
@[simp] theorem mapOwners_pending (f : BlockIx → Owner → Owner) (s : State) : (s.mapOwners f).pending = s.pending := rfl
@[simp] theorem mapOwners_line (f : BlockIx → Owner → Owner) (s : State) (m : LineId) : (s.mapOwners f).line m = s.line m := by cases m <;> rfl
@[simp] theorem mapOwners_station (f : BlockIx → Owner → Owner) (s : State) (u : StationIx) : (s.mapOwners f).station u = s.station u := rfl
@[simp] theorem mapOwners_entry (f : BlockIx → Owner → Owner) (s : State) (j : EntryIx) : (s.mapOwners f).entry j = s.entry j := rfl
@[simp] theorem mapOwners_slot (f : BlockIx → Owner → Owner) (s : State) (j : SlotIx) : (s.mapOwners f).slot j = s.slot j := rfl

/-! ## raise: what it leaves -/

@[simp] theorem raise_resetLow (x : Source) (s : State) : (s.raise x).resetLow = s.resetLow := rfl
@[simp] theorem raise_mode (x : Source) (s : State) : (s.raise x).mode = s.mode := rfl
@[simp] theorem raise_pendingRequest (x : Source) (s : State) : (s.raise x).pendingRequest = s.pendingRequest := rfl
@[simp] theorem raise_reqRefused (x : Source) (s : State) : (s.raise x).reqRefused = s.reqRefused := rfl
@[simp] theorem raise_errCode (x : Source) (s : State) : (s.raise x).errCode = s.errCode := rfl
@[simp] theorem raise_errIndex (x : Source) (s : State) : (s.raise x).errIndex = s.errIndex := rfl
@[simp] theorem raise_tapaddr (x : Source) (s : State) : (s.raise x).tapaddr = s.tapaddr := rfl
@[simp] theorem raise_accaddr (x : Source) (s : State) : (s.raise x).accaddr = s.accaddr := rfl
@[simp] theorem raise_accSpace (x : Source) (s : State) : (s.raise x).accSpace = s.accSpace := rfl
@[simp] theorem raise_accDir (x : Source) (s : State) : (s.raise x).accDir = s.accDir := rfl
@[simp] theorem raise_accMode (x : Source) (s : State) : (s.raise x).accMode = s.accMode := rfl
@[simp] theorem raise_dout (x : Source) (s : State) : (s.raise x).dout = s.dout := rfl
@[simp] theorem raise_cmdState (x : Source) (s : State) : (s.raise x).cmdState = s.cmdState := rfl
@[simp] theorem raise_cmd (x : Source) (s : State) : (s.raise x).cmd = s.cmd := rfl
@[simp] theorem raise_carg (x : Source) (s : State) : (s.raise x).carg = s.carg := rfl
@[simp] theorem raise_args (x : Source) (s : State) : (s.raise x).args = s.args := rfl
@[simp] theorem raise_result (x : Source) (s : State) : (s.raise x).result = s.result := rfl
@[simp] theorem raise_cvalue (x : Source) (s : State) : (s.raise x).cvalue = s.cvalue := rfl
@[simp] theorem raise_overrun (x : Source) (s : State) : (s.raise x).overrun = s.overrun := rfl
@[simp] theorem raise_line0 (x : Source) (s : State) : (s.raise x).line0 = s.line0 := rfl
@[simp] theorem raise_line1 (x : Source) (s : State) : (s.raise x).line1 = s.line1 := rfl
@[simp] theorem raise_entries (x : Source) (s : State) : (s.raise x).entries = s.entries := rfl
@[simp] theorem raise_stations (x : Source) (s : State) : (s.raise x).stations = s.stations := rfl
@[simp] theorem raise_payload (x : Source) (s : State) : (s.raise x).payload = s.payload := rfl
@[simp] theorem raise_owners (x : Source) (s : State) : (s.raise x).owners = s.owners := rfl
@[simp] theorem raise_slots (x : Source) (s : State) : (s.raise x).slots = s.slots := rfl
@[simp] theorem raise_submitted (x : Source) (s : State) : (s.raise x).submitted = s.submitted := rfl
@[simp] theorem raise_done (x : Source) (s : State) : (s.raise x).done = s.done := rfl
@[simp] theorem raise_events (x : Source) (s : State) : (s.raise x).events = s.events := rfl
@[simp] theorem raise_evlost (x : Source) (s : State) : (s.raise x).evlost = s.evlost := rfl
@[simp] theorem raise_evthresh (x : Source) (s : State) : (s.raise x).evthresh = s.evthresh := rfl
@[simp] theorem raise_drain (x : Source) (s : State) : (s.raise x).drain = s.drain := rfl
@[simp] theorem raise_dmaWord (x : Source) (s : State) : (s.raise x).dmaWord = s.dmaWord := rfl
@[simp] theorem raise_ienable (x : Source) (s : State) : (s.raise x).ienable = s.ienable := rfl
@[simp] theorem raise_ilevel (x : Source) (s : State) : (s.raise x).ilevel = s.ilevel := rfl
@[simp] theorem raise_ithresh (x : Source) (s : State) : (s.raise x).ithresh = s.ithresh := rfl
@[simp] theorem raise_freeIndex (x : Source) (s : State) : (s.raise x).freeIndex = s.freeIndex := rfl
@[simp] theorem raise_pending (x : Source) (s : State) : (s.raise x).pending = s.pending := rfl
@[simp] theorem raise_line (x : Source) (s : State) (m : LineId) : (s.raise x).line m = s.line m := by cases m <;> rfl
@[simp] theorem raise_station (x : Source) (s : State) (u : StationIx) : (s.raise x).station u = s.station u := rfl
@[simp] theorem raise_entry (x : Source) (s : State) (j : EntryIx) : (s.raise x).entry j = s.entry j := rfl
@[simp] theorem raise_slot (x : Source) (s : State) (j : SlotIx) : (s.raise x).slot j = s.slot j := rfl
@[simp] theorem raise_owner (x : Source) (s : State) (c : BlockIx) : (s.raise x).owner c = s.owner c := rfl

/-! ## writeBlockByte: what it leaves -/

@[simp] theorem writeBlockByte_resetLow (b : BlockIx) (i : Fin 32) (v : Byte) (s : State) : (s.writeBlockByte b i v).resetLow = s.resetLow := rfl
@[simp] theorem writeBlockByte_mode (b : BlockIx) (i : Fin 32) (v : Byte) (s : State) : (s.writeBlockByte b i v).mode = s.mode := rfl
@[simp] theorem writeBlockByte_pendingRequest (b : BlockIx) (i : Fin 32) (v : Byte) (s : State) : (s.writeBlockByte b i v).pendingRequest = s.pendingRequest := rfl
@[simp] theorem writeBlockByte_reqRefused (b : BlockIx) (i : Fin 32) (v : Byte) (s : State) : (s.writeBlockByte b i v).reqRefused = s.reqRefused := rfl
@[simp] theorem writeBlockByte_errCode (b : BlockIx) (i : Fin 32) (v : Byte) (s : State) : (s.writeBlockByte b i v).errCode = s.errCode := rfl
@[simp] theorem writeBlockByte_errIndex (b : BlockIx) (i : Fin 32) (v : Byte) (s : State) : (s.writeBlockByte b i v).errIndex = s.errIndex := rfl
@[simp] theorem writeBlockByte_tapaddr (b : BlockIx) (i : Fin 32) (v : Byte) (s : State) : (s.writeBlockByte b i v).tapaddr = s.tapaddr := rfl
@[simp] theorem writeBlockByte_accaddr (b : BlockIx) (i : Fin 32) (v : Byte) (s : State) : (s.writeBlockByte b i v).accaddr = s.accaddr := rfl
@[simp] theorem writeBlockByte_accSpace (b : BlockIx) (i : Fin 32) (v : Byte) (s : State) : (s.writeBlockByte b i v).accSpace = s.accSpace := rfl
@[simp] theorem writeBlockByte_accDir (b : BlockIx) (i : Fin 32) (v : Byte) (s : State) : (s.writeBlockByte b i v).accDir = s.accDir := rfl
@[simp] theorem writeBlockByte_accMode (b : BlockIx) (i : Fin 32) (v : Byte) (s : State) : (s.writeBlockByte b i v).accMode = s.accMode := rfl
@[simp] theorem writeBlockByte_dout (b : BlockIx) (i : Fin 32) (v : Byte) (s : State) : (s.writeBlockByte b i v).dout = s.dout := rfl
@[simp] theorem writeBlockByte_cmdState (b : BlockIx) (i : Fin 32) (v : Byte) (s : State) : (s.writeBlockByte b i v).cmdState = s.cmdState := rfl
@[simp] theorem writeBlockByte_cmd (b : BlockIx) (i : Fin 32) (v : Byte) (s : State) : (s.writeBlockByte b i v).cmd = s.cmd := rfl
@[simp] theorem writeBlockByte_carg (b : BlockIx) (i : Fin 32) (v : Byte) (s : State) : (s.writeBlockByte b i v).carg = s.carg := rfl
@[simp] theorem writeBlockByte_args (b : BlockIx) (i : Fin 32) (v : Byte) (s : State) : (s.writeBlockByte b i v).args = s.args := rfl
@[simp] theorem writeBlockByte_result (b : BlockIx) (i : Fin 32) (v : Byte) (s : State) : (s.writeBlockByte b i v).result = s.result := rfl
@[simp] theorem writeBlockByte_cvalue (b : BlockIx) (i : Fin 32) (v : Byte) (s : State) : (s.writeBlockByte b i v).cvalue = s.cvalue := rfl
@[simp] theorem writeBlockByte_overrun (b : BlockIx) (i : Fin 32) (v : Byte) (s : State) : (s.writeBlockByte b i v).overrun = s.overrun := rfl
@[simp] theorem writeBlockByte_line0 (b : BlockIx) (i : Fin 32) (v : Byte) (s : State) : (s.writeBlockByte b i v).line0 = s.line0 := rfl
@[simp] theorem writeBlockByte_line1 (b : BlockIx) (i : Fin 32) (v : Byte) (s : State) : (s.writeBlockByte b i v).line1 = s.line1 := rfl
@[simp] theorem writeBlockByte_entries (b : BlockIx) (i : Fin 32) (v : Byte) (s : State) : (s.writeBlockByte b i v).entries = s.entries := rfl
@[simp] theorem writeBlockByte_stations (b : BlockIx) (i : Fin 32) (v : Byte) (s : State) : (s.writeBlockByte b i v).stations = s.stations := rfl
@[simp] theorem writeBlockByte_owners (b : BlockIx) (i : Fin 32) (v : Byte) (s : State) : (s.writeBlockByte b i v).owners = s.owners := rfl
@[simp] theorem writeBlockByte_slots (b : BlockIx) (i : Fin 32) (v : Byte) (s : State) : (s.writeBlockByte b i v).slots = s.slots := rfl
@[simp] theorem writeBlockByte_submitted (b : BlockIx) (i : Fin 32) (v : Byte) (s : State) : (s.writeBlockByte b i v).submitted = s.submitted := rfl
@[simp] theorem writeBlockByte_done (b : BlockIx) (i : Fin 32) (v : Byte) (s : State) : (s.writeBlockByte b i v).done = s.done := rfl
@[simp] theorem writeBlockByte_events (b : BlockIx) (i : Fin 32) (v : Byte) (s : State) : (s.writeBlockByte b i v).events = s.events := rfl
@[simp] theorem writeBlockByte_evlost (b : BlockIx) (i : Fin 32) (v : Byte) (s : State) : (s.writeBlockByte b i v).evlost = s.evlost := rfl
@[simp] theorem writeBlockByte_evthresh (b : BlockIx) (i : Fin 32) (v : Byte) (s : State) : (s.writeBlockByte b i v).evthresh = s.evthresh := rfl
@[simp] theorem writeBlockByte_drain (b : BlockIx) (i : Fin 32) (v : Byte) (s : State) : (s.writeBlockByte b i v).drain = s.drain := rfl
@[simp] theorem writeBlockByte_dmaWord (b : BlockIx) (i : Fin 32) (v : Byte) (s : State) : (s.writeBlockByte b i v).dmaWord = s.dmaWord := rfl
@[simp] theorem writeBlockByte_edges (b : BlockIx) (i : Fin 32) (v : Byte) (s : State) : (s.writeBlockByte b i v).edges = s.edges := rfl
@[simp] theorem writeBlockByte_ienable (b : BlockIx) (i : Fin 32) (v : Byte) (s : State) : (s.writeBlockByte b i v).ienable = s.ienable := rfl
@[simp] theorem writeBlockByte_ilevel (b : BlockIx) (i : Fin 32) (v : Byte) (s : State) : (s.writeBlockByte b i v).ilevel = s.ilevel := rfl
@[simp] theorem writeBlockByte_ithresh (b : BlockIx) (i : Fin 32) (v : Byte) (s : State) : (s.writeBlockByte b i v).ithresh = s.ithresh := rfl
@[simp] theorem writeBlockByte_freeIndex (b : BlockIx) (i : Fin 32) (v : Byte) (s : State) : (s.writeBlockByte b i v).freeIndex = s.freeIndex := rfl
@[simp] theorem writeBlockByte_pending (b : BlockIx) (i : Fin 32) (v : Byte) (s : State) : (s.writeBlockByte b i v).pending = s.pending := rfl
@[simp] theorem writeBlockByte_line (b : BlockIx) (i : Fin 32) (v : Byte) (s : State) (m : LineId) : (s.writeBlockByte b i v).line m = s.line m := by cases m <;> rfl
@[simp] theorem writeBlockByte_station (b : BlockIx) (i : Fin 32) (v : Byte) (s : State) (u : StationIx) : (s.writeBlockByte b i v).station u = s.station u := rfl
@[simp] theorem writeBlockByte_entry (b : BlockIx) (i : Fin 32) (v : Byte) (s : State) (j : EntryIx) : (s.writeBlockByte b i v).entry j = s.entry j := rfl
@[simp] theorem writeBlockByte_slot (b : BlockIx) (i : Fin 32) (v : Byte) (s : State) (j : SlotIx) : (s.writeBlockByte b i v).slot j = s.slot j := rfl
@[simp] theorem writeBlockByte_owner (b : BlockIx) (i : Fin 32) (v : Byte) (s : State) (c : BlockIx) : (s.writeBlockByte b i v).owner c = s.owner c := rfl

/-! ## Setting twice -/

@[simp] theorem setLine_setLine (n : LineId) (l m : Line) (s : State) : (s.setLine n l).setLine n m = s.setLine n m := by
  cases n <;> rfl

@[simp] theorem setLine_line (n : LineId) (s : State) : s.setLine n (s.line n) = s := by
  cases n <;> rfl

end State

end Sys2Proof.Machine
end

