-- ==== Sys2Proof/Laws/Memory.lean ====
section
/-!
SUPPORT. Payload memory: a write is read back and leaves every other byte, and every memory operation keeps the canonical form.
-/

namespace Sys2Proof.Machine

namespace Memory

/-- The canonical form, written for a recursion over the list. -/
theorem wf_cons (a : Nat) (b : Byte) (m : Memory) :
    wf ((a, b) :: m) ↔ (∀ c ∈ m, a < c.1) ∧ a < size ∧ b ≠ unlisted ∧ wf m := by
  simp only [wf, List.map_cons, List.pairwise_cons, List.mem_map, List.mem_cons]
  constructor
  · rintro ⟨⟨h1, h2⟩, h3⟩
    exact ⟨fun c hc => h1 _ ⟨c, hc, rfl⟩, (h3 _ (Or.inl rfl)).1, (h3 _ (Or.inl rfl)).2, h2, fun c hc => h3 _ (Or.inr hc)⟩
  · rintro ⟨h1, h2, h3, h4, h5⟩
    refine ⟨⟨?_, h4⟩, ?_⟩
    · rintro x ⟨c, hc, rfl⟩; exact h1 c hc
    · rintro c (rfl | hc)
      · exact ⟨h2, h3⟩
      · exact h5 c hc

theorem wf_nil : wf [] := by simp [wf]

/-- An address below every listed one reads as unlisted. -/
theorem read_of_below (m : Memory) (a : Nat) (h : ∀ c ∈ m, a < c.1) : read m a = unlisted := by
  induction m with
  | nil => rfl
  | cons c m ih =>
    have h1 := h c (by simp)
    have : a ≠ c.1 := by omega
    simp [read, this, ih fun d hd => h d (by simp [hd])]

/-- What a written memory lists, an old entry or the written byte. -/
theorem mem_write (m : Memory) (a : Nat) (v : Byte) (c : Host.Cell) (h : c ∈ write m a v) :
    c ∈ m ∨ (c = (a, v) ∧ v ≠ unlisted) := by
  induction m with
  | nil => simp only [write, cell] at h; split at h <;> simp_all
  | cons d m ih =>
    obtain ⟨k, b⟩ := d
    simp only [write, cell] at h
    split at h
    · split at h <;> simp_all
      tauto
    · split at h
      · split at h <;> simp_all
        tauto
      · simp only [List.mem_cons] at h ⊢
        rcases h with h | h
        · exact Or.inl (Or.inl h)
        · rcases ih h with h | h
          · exact Or.inl (Or.inr h)
          · exact Or.inr h

/-- A write inside the memory keeps the canonical form. -/
theorem write_wf (m : Memory) (a : Nat) (v : Byte) (h : wf m) (ha : a < size) : wf (write m a v) := by
  induction m with
  | nil =>
    simp only [write, cell]
    split
    · exact wf_nil
    · rename_i hv; rw [wf_cons]; exact ⟨by simp, ha, hv, wf_nil⟩
  | cons d m ih =>
    obtain ⟨k, b⟩ := d
    obtain ⟨h1, h2, h3, h4⟩ := (wf_cons k b m).1 h
    simp only [write]
    split
    · rename_i hk
      simp only [cell]
      split
      · exact h
      · rename_i hv
        refine (wf_cons _ _ _).2 ⟨?_, ha, hv, h⟩
        intro c hc
        rcases List.mem_cons.1 hc with rfl | hc
        · exact hk
        · exact lt_trans hk (h1 c hc)
    · split
      · rename_i hk
        subst hk
        simp only [cell]
        split
        · exact h4
        · rename_i hv
          exact (wf_cons _ _ _).2 ⟨h1, ha, hv, h4⟩
      · refine (wf_cons _ _ _).2 ⟨?_, h2, h3, ih h4⟩
        intro c hc
        rcases mem_write m a v c hc with hc | ⟨rfl, _⟩
        · exact h1 c hc
        · show k < a
          omega

/-- Reading after a write of one byte. -/
theorem read_write (m : Memory) (a : Nat) (v : Byte) (x : Nat) (h : wf m) :
    read (write m a v) x = if x = a then v else read m x := by
  induction m with
  | nil =>
    simp only [write, cell]
    split <;> simp_all [read]
  | cons d m ih =>
    obtain ⟨k, b⟩ := d
    obtain ⟨h1, h2, h3, h4⟩ := (wf_cons k b m).1 h
    have hb : ∀ y, y ≤ k → read m y = unlisted := fun y hy =>
      read_of_below m y fun c hc => lt_of_le_of_lt hy (h1 c hc)
    simp only [write]
    split
    · rename_i hk
      simp only [cell]
      split
      · by_cases hx : x = a
        · subst hx; simp [read, show x ≠ k by omega, hb x (by omega), *]
        · simp [hx]
      · simp [read]
    · split
      · rename_i hk; subst hk
        simp only [cell]
        split
        · by_cases hx : x = a
          · subst hx; simp [hb x le_rfl, *]
          · simp [read, hx]
        · by_cases hx : x = a <;> simp [read, hx]
      · rename_i hk
        by_cases hx : x = k
        · subst hx; simp [read, show x ≠ a by omega]
        · simp [read, hx, ih h4]

/-- A word write inside the memory keeps the canonical form. -/
theorem writeWord_wf (m : Memory) (w : Nat) (v : Word) (h : wf m) (hw : w < 0x800) : wf (writeWord m w v) := by
  refine write_wf _ _ _ (write_wf _ _ _ h ?_) ?_ <;> simp only [size] <;> omega

/-- Reading after a word write. -/
theorem read_writeWord (m : Memory) (w : Nat) (v : Word) (x : Nat) (h : wf m) (hw : w < 0x800) :
    read (writeWord m w v) x = if x = 2 * w then v.extractLsb' 0 8
      else if x = 2 * w + 1 then v.extractLsb' 8 8 else read m x := by
  have h2 : wf (write m (2 * w) (v.extractLsb' 0 8)) := write_wf _ _ _ h (by simp only [size]; omega)
  rw [writeWord, read_write _ _ _ _ h2, read_write _ _ _ _ h]
  by_cases hx : x = 2 * w
  · subst hx; simp
  · simp [hx]

end Memory

/-- The line engine's write of a reply byte keeps the canonical form. -/
theorem State.writeBlockByte_wf (b : BlockIx) (i : Fin 32) (v : Byte) (s : State) (h : Memory.wf s.payload) :
    Memory.wf (s.writeBlockByte b i v).payload := by
  refine Memory.write_wf _ _ _ h ?_
  have := b.isLt; have := i.isLt
  simp only [blockByte, Memory.size]; omega

/-- Reading after the line engine's write of a reply byte. -/
theorem State.read_writeBlockByte (b : BlockIx) (i : Fin 32) (v : Byte) (s : State) (x : Nat) (h : Memory.wf s.payload) :
    Memory.read (s.writeBlockByte b i v).payload x
      = if x = 32 * b.val + i.val then v else Memory.read s.payload x :=
  Memory.read_write _ _ _ _ h

/-- The memory at reset is in canonical form and lists nothing. -/
theorem State.reset_payload_wf : Memory.wf State.reset.payload := Memory.wf_nil

end Sys2Proof.Machine
end

