-- ==== Sys2Proof/Laws/Queue.lean ====
section
/-!
SUPPORT. What the operations of the event queue change, and that they keep the laws of the machine.
A frame lemma `f_frame` says which fields an operation may change: every other field is the old one.
-/

namespace Sys2Proof.Machine

namespace State

/-! ## Frames -/

theorem markLoss_frame (s : State) : ∃ ev, s.markLoss = { s with events := ev } := by
  unfold markLoss
  split
  · exact ⟨_, rfl⟩
  · split
    · exact ⟨_, rfl⟩
    · exact ⟨_, rfl⟩

/-- A lost notice changes the queue, EVLOST and EVENT_LOSS alone. -/
theorem loseNotice_frame (s : State) :
    ∃ ev, s.loseNotice = { s with events := ev, evlost := satInc s.evlost, edges := s.edges ||| 0x0004 } := by
  have h2 : Source.mask .eventLoss &&& edgeMask = 0x0004 := by decide
  obtain ⟨ev, h⟩ := markLoss_frame (raise .eventLoss { s with evlost := satInc s.evlost })
  exact ⟨ev, by rw [loseNotice, h, raise, h2]⟩

/-- A notice changes the queue, EVLOST and EVENT_LOSS alone. -/
theorem offerNotice_frame (e : Event) (s : State) :
    ∃ ev lost ed, s.offerNotice e = { s with events := ev, evlost := lost, edges := ed } := by
  unfold offerNotice
  split
  · exact ⟨_, _, _, rfl⟩
  · obtain ⟨ev, h⟩ := loseNotice_frame s
    exact ⟨_, _, _, h⟩

theorem releaseBlock_frame (b : Option BlockIx) (s : State) : ∃ ow, s.releaseBlock b = { s with owners := ow } := by
  cases b
  · exact ⟨_, rfl⟩
  · exact ⟨_, rfl⟩

/-- A released slot changes the slots and the owner records alone. -/
theorem freeSlot_frame (k : SlotIx) (s : State) : ∃ ow, s.freeSlot k = { s with
    slots := s.slots.set k { s.slot k with state := .free, deferred := false }, owners := ow } := by
  obtain ⟨a, h1⟩ := releaseBlock_frame (fieldBlock? (s.slot k).reqBlock)
    (s.setSlot k { s.slot k with state := .free, deferred := false })
  obtain ⟨b, h2⟩ := releaseBlock_frame (fieldBlock? (s.slot k).replyBlock)
    { s.setSlot k { s.slot k with state := .free, deferred := false } with owners := a }
  exact ⟨b, by rw [freeSlot]; simp only []; rw [h1, h2]; rfl⟩

/-- A completion taken joins the tail; its slot is released. -/
theorem takeCompletion_frame (k : SlotIx) (e : Event) (s : State) : ∃ ow, s.takeCompletion k e = { s with
    events := s.events ++ [s.stamp e]
    slots := s.slots.set k { s.slot k with state := .free, deferred := false }, owners := ow } := by
  obtain ⟨ow, h⟩ := freeSlot_frame k (s.pushEvent e)
  exact ⟨ow, by rw [takeCompletion, h]; rfl⟩

theorem holdCompletion_frame (k : SlotIx) (e : Event) (s : State) : s.holdCompletion k e = { s with
    slots := s.slots.set k { s.slot k with state := .done }, done := s.done ++ [(k, e)] } := rfl

/-- A completion offered changes the queue, the slots, the owner records and the done list alone. -/
theorem offerCompletion_frame (k : SlotIx) (e : Event) (s : State) :
    ∃ ev sl ow dn, s.offerCompletion k e = { s with events := ev, slots := sl, owners := ow, done := dn } := by
  unfold offerCompletion
  split
  · obtain ⟨ow, h⟩ := takeCompletion_frame k e s
    exact ⟨_, _, _, _, h⟩
  · exact ⟨_, _, _, _, rfl⟩

theorem takeHeld_frame (s : State) :
    ∃ ev sl ow dn, s.takeHeld = { s with events := ev, slots := sl, owners := ow, done := dn } := by
  unfold takeHeld
  split
  · exact ⟨_, _, _, _, rfl⟩
  · rename_i k e rest _
    split
    · obtain ⟨ow, h⟩ := takeCompletion_frame k e { s with done := rest }
      exact ⟨_, _, _, _, h⟩
    · exact ⟨_, _, _, _, rfl⟩

/-- A removal changes the queue, the DMA word pointer, and what a held completion changes. -/
theorem removeHead_frame (s : State) : ∃ ev sl ow dn w, s.removeHead = { s with
    events := ev, slots := sl, owners := ow, done := dn, dmaWord := w } := by
  unfold removeHead
  split
  · exact ⟨_, _, _, _, _, rfl⟩
  · rename_i rest _
    obtain ⟨ev, sl, ow, dn, h⟩ := takeHeld_frame { s with events := rest, dmaWord := 0 }
    exact ⟨_, _, _, _, _, h⟩

theorem post_frame (s : State) (p : Post) : ∃ ev lost ed sl ow dn, s.post p = { s with
    events := ev, evlost := lost, edges := ed, slots := sl, owners := ow, done := dn } := by
  cases p with
  | notice e =>
    obtain ⟨ev, lost, ed, h⟩ := offerNotice_frame e s
    exact ⟨_, _, _, _, _, _, h⟩
  | completion k e =>
    obtain ⟨ev, sl, ow, dn, h⟩ := offerCompletion_frame k e s
    exact ⟨_, _, _, _, _, _, h⟩

theorem postAll_frame (ps : List Post) (s : State) : ∃ ev lost ed sl ow dn, s.postAll ps = { s with
    events := ev, evlost := lost, edges := ed, slots := sl, owners := ow, done := dn } := by
  induction ps generalizing s with
  | nil => exact ⟨_, _, _, _, _, _, rfl⟩
  | cons p ps ih =>
    obtain ⟨ev, lost, ed, sl, ow, dn, h1⟩ := post_frame s p
    obtain ⟨ev, lost, ed, sl, ow, dn, h2⟩ := ih (s.post p)
    rw [h1] at h2
    refine ⟨ev, lost, ed, sl, ow, dn, ?_⟩
    show (s.post p).postAll ps = _
    rw [h1, h2]

/-- The posts of a step change the queue, the slots, the owner records, the done list and the free index alone. -/
theorem flush_frame (gs : Groups) (s : State) : ∃ ev lost ed sl ow dn i, s.flush gs = { s with
    events := ev, evlost := lost, edges := ed, slots := sl, owners := ow, done := dn, freeIndex := i } := by
  unfold flush
  split
  · exact ⟨_, _, _, _, _, _, _, rfl⟩
  · rename_i g _
    obtain ⟨ev, lost, ed, sl, ow, dn, h⟩ := postAll_frame g s
    exact ⟨_, _, _, _, _, _, _, h⟩
  · rename_i g k rest _
    obtain ⟨ev, lost, ed, sl, ow, dn, h⟩ := postAll_frame
      (interleave s.freeIndex (g :: k :: rest).flatten.length (g :: k :: rest)) { s with freeIndex := s.freeIndex + 1 }
    exact ⟨_, _, _, _, _, _, _, h⟩

/-! ## Posts of one step -/

@[simp] theorem flush_nil (s : State) : s.flush [] = s := rfl

@[simp] theorem flush_empty (gs : Groups) (s : State) : s.flush ([] :: gs) = s.flush gs := rfl

/-- A notice alone in its step is simply offered. -/
@[simp] theorem flush_notice (e : Event) (s : State) : s.flush [[.notice e]] = s.offerNotice e := rfl

/-- A completion alone in its step is simply offered. -/
@[simp] theorem flush_completion (k : SlotIx) (e : Event) (s : State) :
    s.flush [[.completion k e]] = s.offerCompletion k e := rfl

end State

/-- A post that may be made: a completion carries a REQUEST_DONE record. -/
def Post.ok : Post → Prop
  | .notice _ => True
  | .completion _ e => e.kind = .requestDone

/-- Every post of a step may be made. -/
def Groups.ok (gs : Groups) : Prop := ∀ g ∈ gs, ∀ p ∈ g, p.ok

theorem takeFrom_mem (gs : Groups) (i : Nat) (p : Post) (hs : Groups) (h : takeFrom gs i = some (p, hs)) :
    p ∈ gs.flatten ∧ ∀ q ∈ hs.flatten, q ∈ gs.flatten := by
  induction gs generalizing i p hs with
  | nil => simp [takeFrom] at h
  | cons g gs ih =>
    cases g with
    | nil => simp only [takeFrom] at h; simpa using ih i p hs h
    | cons q g =>
      cases i with
      | zero =>
        simp only [takeFrom, Option.some.injEq, Prod.mk.injEq] at h
        obtain ⟨rfl, rfl⟩ := h
        simp
        tauto
      | succ i =>
        simp only [takeFrom] at h
        cases h2 : takeFrom gs i with
        | none =>
          simp only [h2, Option.some.injEq, Prod.mk.injEq] at h
          obtain ⟨rfl, rfl⟩ := h
          simp
          tauto
        | some r =>
          obtain ⟨r, rs⟩ := r
          simp only [h2, Option.some.injEq, Prod.mk.injEq] at h
          obtain ⟨rfl, rfl⟩ := h
          have := ih i r rs h2
          simp only [List.flatten_cons, List.cons_append, List.mem_cons, List.mem_append] at this ⊢
          refine ⟨Or.inr (Or.inr this.1), ?_⟩
          rintro x (rfl | hx | hx)
          · exact Or.inl rfl
          · exact Or.inr (Or.inl hx)
          · exact Or.inr (Or.inr (this.2 x hx))

/-- An order of the groups' posts holds posts of the groups alone. -/
theorem mem_interleave (c fuel : Nat) (gs : Groups) : ∀ p ∈ interleave c fuel gs, p ∈ gs.flatten := by
  induction fuel generalizing gs with
  | zero => simp [interleave]
  | succ fuel ih =>
    intro p hp
    have hf : ∀ q, q ∈ (gs.filter fun g => !g.isEmpty).flatten → q ∈ gs.flatten := by
      intro q hq
      simp only [List.mem_flatten, List.mem_filter] at hq ⊢
      obtain ⟨g, hg, hq⟩ := hq
      exact ⟨g, hg.1, hq⟩
    apply hf
    revert hp
    simp only [interleave]
    split
    · simp
    · rename_i g h; rw [h]; simp
    · rename_i g h rest heq
      rw [heq]
      split
      · simp
      · rename_i q gs' ht
        have := takeFrom_mem _ _ _ _ ht
        simp only [List.mem_cons]
        rintro (rfl | hp)
        · exact this.1
        · exact this.2 _ (ih gs' p hp)

/-! ## The laws of the machine through the queue -/

/-- What every operation keeps: the laws of stations, memory, registers and the queue, and the waiting commands. -/
structure Keeps (s t : State) : Prop where
  stations : s.StationsLawful → t.StationsLawful
  memory : s.MemoryLawful → t.MemoryLawful
  registers : s.RegistersLawful → t.RegistersLawful
  queue : s.QueueLawful → t.QueueLawful
  pending : t.pending = s.pending

theorem Keeps.refl (s : State) : Keeps s s := ⟨id, id, id, id, rfl⟩

theorem Keeps.trans {s t u : State} (h : Keeps s t) (k : Keeps t u) : Keeps s u :=
  ⟨k.stations ∘ h.stations, k.memory ∘ h.memory, k.registers ∘ h.registers, k.queue ∘ h.queue, k.pending.trans h.pending⟩

/-- An operation that leaves the fields the laws speak of. -/
theorem Keeps.of_same {s t : State} (h1 : t.stations = s.stations) (h2 : t.payload = s.payload)
    (h3 : t.evthresh = s.evthresh) (h4 : t.ithresh = s.ithresh) (h5 : t.edges = s.edges) (h6 : t.events = s.events)
    (h7 : t.done = s.done) (h8 : t.pending = s.pending) : Keeps s t := by
  refine ⟨?_, ?_, ?_, ?_, h8⟩
  · simp only [State.StationsLawful, State.station, h1]; exact id
  · simp only [State.MemoryLawful, h2]; exact id
  · simp only [State.RegistersLawful, h3, h4, h5]; exact id
  · simp only [State.QueueLawful, h6, h7]; exact id

/-- An operation that leaves every field the laws speak of but the stations. -/
theorem Keeps.of_stations {s t : State} (h1 : s.StationsLawful → t.StationsLawful) (h2 : t.payload = s.payload)
    (h3 : t.evthresh = s.evthresh) (h4 : t.ithresh = s.ithresh) (h5 : t.edges = s.edges) (h6 : t.events = s.events)
    (h7 : t.done = s.done) (h8 : t.pending = s.pending) : Keeps s t := by
  refine ⟨h1, ?_, ?_, ?_, h8⟩
  · simp only [State.MemoryLawful, h2]; exact id
  · simp only [State.RegistersLawful, h3, h4, h5]; exact id
  · simp only [State.QueueLawful, h6, h7]; exact id

namespace State

/-- Raising an edge source leaves the level positions of the stored flags clear. -/
theorem raise_registers (x : Source) (s : State) (h : s.RegistersLawful) : (s.raise x).RegistersLawful := by
  obtain ⟨h1, h2, h3, h4, h5⟩ := h
  refine ⟨h1, h2, h3, ?_, ?_⟩
  · simp only [raise, BitVec.getLsbD_or, BitVec.getLsbD_and, h4]; simp [edgeMask]
  · simp only [raise, BitVec.getLsbD_or, BitVec.getLsbD_and, h5]; simp [edgeMask]

theorem raise_keeps (x : Source) (s : State) : Keeps s (s.raise x) :=
  ⟨id, id, raise_registers x s, id, rfl⟩

@[simp] theorem stamp_kind (s : State) (e : Event) : (s.stamp e).kind = e.kind := rfl

theorem openMarker?_some (evs : List Event) (m : Event) (h : openMarker? evs = some m) :
    evs = evs.dropLast ++ [m] ∧ m.kind = .loss ∧ m.detailB.toNat < 255 := by
  unfold openMarker? at h
  split at h
  · simp at h
  · rename_i x hx
    split at h
    · rename_i hm
      simp only [Option.some.injEq] at h
      subst h
      refine ⟨?_, hm⟩
      have hne : evs ≠ [] := by rintro rfl; simp at hx
      rw [List.getLast?_eq_some_getLast hne, Option.some.injEq] at hx
      rw [← hx, List.dropLast_append_getLast]
    · simp at h

/-- The accounting of a loss keeps the queue's law: it adds no notice, and a marker only when there is room. -/
theorem markLoss_queue (s : State) (h : s.QueueLawful) : s.markLoss.QueueLawful := by
  obtain ⟨h1, h2, h3, h4⟩ := h
  unfold markLoss
  split
  · rename_i m hm
    obtain ⟨he, hk, _⟩ := openMarker?_some _ _ hm
    have hlen : s.events.length = s.events.dropLast.length + 1 := by
      conv_lhs => rw [he]
      simp
    refine ⟨?_, ?_, ?_, h4⟩
    · show (s.events.dropLast ++ [_]).length ≤ _
      simp only [List.length_append, List.length_singleton]
      omega
    · have h2' := h2
      rw [he] at h2'
      simp only [List.filter_append, List.length_append] at h2' ⊢
      simpa [hk, EventKind.isNotice] using h2'
    · intro hd
      have := h3 hd
      show (s.events.dropLast ++ [_]).length = _
      simp only [List.length_append, List.length_singleton]
      omega
  · split
    · rename_i hl
      refine ⟨?_, ?_, ?_, h4⟩
      · simp only [pushEvent, List.length_append, List.length_singleton]; omega
      · simp only [pushEvent, List.filter_append, List.length_append]
        simpa [lossMarker, Event.blank, EventKind.isNotice] using h2
      · intro hd
        have := h3 hd
        omega
    · exact ⟨h1, h2, h3, h4⟩

/-- The offer of a notice keeps every law. -/
theorem offerNotice_keeps (e : Event) (s : State) : Keeps s (s.offerNotice e) := by
  refine ⟨?_, ?_, ?_, ?_, ?_⟩
  · obtain ⟨_, _, _, hf⟩ := offerNotice_frame e s; rw [hf]; exact id
  · obtain ⟨_, _, _, hf⟩ := offerNotice_frame e s; rw [hf]; exact id
  · intro h
    unfold offerNotice
    split
    · exact h
    · obtain ⟨h1, h2, h3, h4, h5⟩ := h
      obtain ⟨_, hf⟩ := loseNotice_frame s
      rw [hf]
      exact ⟨h1, h2, h3, by simp only [BitVec.getLsbD_or, h4]; rfl, by simp only [BitVec.getLsbD_or, h5]; rfl⟩
  · intro h
    unfold offerNotice
    split
    · rename_i hl
      obtain ⟨h1, h2, h3, h4⟩ := h
      have hl' : s.events.length < 48 := hl
      refine ⟨?_, ?_, ?_, h4⟩
      · simp only [pushEvent, List.length_append, List.length_singleton, Config.queueLimit]; omega
      · simp only [pushEvent, List.filter_append, List.length_append]
        have := List.length_filter_le (fun e : Event => e.kind.isNotice) s.events
        have h5 : (List.filter (fun e : Event => e.kind.isNotice) [s.stamp e]).length ≤ 1 := List.length_filter_le _ _
        simp only [Config.noticeLimit]; omega
      · intro hd
        have := h3 hd
        simp only [Config.queueLimit] at this
        omega
    · exact markLoss_queue _ h
  · obtain ⟨_, _, _, hf⟩ := offerNotice_frame e s; rw [hf]

theorem freeSlot_keeps (k : SlotIx) (s : State) : Keeps s (s.freeSlot k) := by
  obtain ⟨_, hf⟩ := freeSlot_frame k s
  rw [hf]; exact Keeps.of_same rfl rfl rfl rfl rfl rfl rfl rfl

/-- The offer of a completion keeps every law. -/
theorem offerCompletion_keeps (k : SlotIx) (e : Event) (s : State) (he : e.kind = .requestDone) :
    Keeps s (s.offerCompletion k e) := by
  refine ⟨?_, ?_, ?_, ?_, ?_⟩
  · obtain ⟨_, _, _, _, hf⟩ := offerCompletion_frame k e s; rw [hf]; exact id
  · obtain ⟨_, _, _, _, hf⟩ := offerCompletion_frame k e s; rw [hf]; exact id
  · obtain ⟨_, _, _, _, hf⟩ := offerCompletion_frame k e s; rw [hf]; exact id
  · intro h
    obtain ⟨h1, h2, h3, h4⟩ := h
    unfold offerCompletion
    split
    · rename_i hl
      obtain ⟨_, hf⟩ := takeCompletion_frame k e s
      rw [hf]
      refine ⟨?_, ?_, ?_, h4⟩
      · simp only [List.length_append, List.length_singleton]; omega
      · simp only [List.filter_append, List.length_append]
        simpa [he, EventKind.isNotice] using h2
      · intro hd; exact absurd hl.2 hd
    · rename_i hl
      refine ⟨h1, h2, ?_, ?_⟩
      · intro _
        by_cases hd : s.done = []
        · have : ¬ s.events.length < Config.queueLimit := fun hlt => hl ⟨hlt, hd⟩
          show s.events.length = _
          omega
        · exact h3 hd
      · intro p hp
        simp only [holdCompletion, List.mem_append, List.mem_singleton] at hp
        rcases hp with hp | rfl
        · exact h4 p hp
        · exact he
  · obtain ⟨_, _, _, _, hf⟩ := offerCompletion_frame k e s; rw [hf]

/-- A removal keeps every law: the room it makes goes to a held completion (R141). -/
theorem removeHead_keeps (s : State) : Keeps s s.removeHead := by
  refine ⟨?_, ?_, ?_, ?_, ?_⟩
  · obtain ⟨_, _, _, _, _, hf⟩ := removeHead_frame s; rw [hf]; exact id
  · obtain ⟨_, _, _, _, _, hf⟩ := removeHead_frame s; rw [hf]; exact id
  · obtain ⟨_, _, _, _, _, hf⟩ := removeHead_frame s; rw [hf]; exact id
  · intro h
    obtain ⟨h1, h2, h3, h4⟩ := h
    unfold removeHead
    split
    · exact ⟨h1, h2, h3, h4⟩
    · rename_i x rest hx
      rw [hx] at h1 h2 h3
      have hn : (rest.filter fun e => e.kind.isNotice).length ≤ Config.noticeLimit :=
        le_trans (List.Sublist.length_le ((List.sublist_cons_self x rest).filter _)) h2
      simp only [List.length_cons] at h1 h3
      unfold takeHeld
      split
      · rename_i hd
        refine ⟨?_, hn, ?_, h4⟩
        · show rest.length ≤ _; omega
        · intro hne; exact absurd hd hne
      · rename_i k e ds hd
        have hd' : s.done = (k, e) :: ds := hd
        have hlen := h3 (by rw [hd']; simp)
        have hlt : rest.length < Config.queueLimit := by omega
        obtain ⟨_, hf⟩ := takeCompletion_frame k e { s with events := rest, dmaWord := 0, done := ds }
        rw [if_pos hlt, hf]
        have hk : e.kind = .requestDone := h4 (k, e) (by rw [hd']; simp)
        refine ⟨?_, ?_, ?_, ?_⟩
        · simp only [List.length_append, List.length_singleton]; omega
        · simp only [List.filter_append, List.length_append]
          simpa [hk, EventKind.isNotice] using hn
        · intro _; simp only [List.length_append, List.length_singleton]; omega
        · intro p hp; exact h4 p (by rw [hd']; exact List.mem_cons_of_mem _ hp)
  · obtain ⟨_, _, _, _, _, hf⟩ := removeHead_frame s; rw [hf]

/-- The take of a held completion on its own keeps every law. -/
theorem takeHeld_keeps (s : State) : Keeps s s.takeHeld := by
  refine ⟨?_, ?_, ?_, ?_, ?_⟩
  · obtain ⟨_, _, _, _, hf⟩ := takeHeld_frame s; rw [hf]; exact id
  · obtain ⟨_, _, _, _, hf⟩ := takeHeld_frame s; rw [hf]; exact id
  · obtain ⟨_, _, _, _, hf⟩ := takeHeld_frame s; rw [hf]; exact id
  · intro h
    obtain ⟨h1, h2, h3, h4⟩ := h
    unfold takeHeld
    split
    · exact ⟨h1, h2, h3, h4⟩
    · rename_i k e ds hd
      have := h3 (by rw [hd]; simp)
      rw [if_neg (by omega)]
      exact ⟨h1, h2, h3, h4⟩
  · obtain ⟨_, _, _, _, hf⟩ := takeHeld_frame s; rw [hf]

theorem post_keeps (s : State) (p : Post) (h : p.ok) : Keeps s (s.post p) := by
  cases p with
  | notice e => exact offerNotice_keeps e s
  | completion k e => exact offerCompletion_keeps k e s h

theorem postAll_keeps (ps : List Post) (s : State) (h : ∀ p ∈ ps, p.ok) : Keeps s (s.postAll ps) := by
  induction ps generalizing s with
  | nil => exact Keeps.refl s
  | cons p ps ih =>
    exact (post_keeps s p (h p (by simp))).trans (ih (s.post p) fun q hq => h q (by simp [hq]))

/-- The posts of a step keep every law. -/
theorem flush_keeps (gs : Groups) (s : State) (h : Groups.ok gs) : Keeps s (s.flush gs) := by
  have hf : ∀ g, g ∈ gs.filter (fun g => !g.isEmpty) → ∀ p ∈ g, p.ok := fun g hg => h g (List.mem_filter.1 hg).1
  unfold flush
  split
  · exact Keeps.refl s
  · rename_i g hg
    exact postAll_keeps g s (hf g (by rw [hg]; simp))
  · rename_i g k rest hg
    rw [← hg]
    refine (Keeps.of_same rfl rfl rfl rfl rfl rfl rfl rfl : Keeps s { s with freeIndex := s.freeIndex + 1 }).trans
      (postAll_keeps _ _ ?_)
    intro p hp
    obtain ⟨g', hg', hp'⟩ := List.mem_flatten.1 (mem_interleave _ _ _ p hp)
    exact hf g' hg' p hp'

end State

end Sys2Proof.Machine
end

