-- ==== Sys2Proof/Laws/Owners.lean ====
section
/-!
SUPPORT. What the operations of the Acyclic Request Queue, the Block Manager and the Station Table change, and that they keep the
laws of the machine.
-/

namespace Sys2Proof.Machine

/-- An operation that keeps the laws and makes posts that may be made. -/
structure Makes (s : State) (r : State × List Post) : Prop where
  keeps : Keeps s r.1
  posts : ∀ p ∈ r.2, p.ok

/-- The same for posts in groups. -/
structure MakesGroups (s : State) (r : State × Groups) : Prop where
  keeps : Keeps s r.1
  posts : Groups.ok r.2

theorem Makes.nothing {s t : State} (h : Keeps s t) : Makes s (t, []) := ⟨h, by simp⟩

theorem MakesGroups.nothing {s t : State} (h : Keeps s t) : MakesGroups s (t, []) := ⟨h, by simp [Groups.ok]⟩

theorem Groups.ok_nil : Groups.ok [] := by simp [Groups.ok]

theorem Groups.ok_cons {g : List Post} {gs : Groups} (h : ∀ p ∈ g, p.ok) (k : Groups.ok gs) : Groups.ok (g :: gs) := by
  intro x hx
  rcases List.mem_cons.1 hx with rfl | hx
  · exact h
  · exact k x hx

theorem Groups.ok_append {gs hs : Groups} (h : Groups.ok gs) (k : Groups.ok hs) : Groups.ok (gs ++ hs) := by
  intro x hx
  rcases List.mem_append.1 hx with hx | hx
  · exact h x hx
  · exact k x hx

theorem posts_append {g h : List Post} (a : ∀ p ∈ g, p.ok) (b : ∀ p ∈ h, p.ok) : ∀ p ∈ g ++ h, p.ok := by
  intro p hp
  rcases List.mem_append.1 hp with hp | hp
  · exact a p hp
  · exact b p hp

/-- A table with one lawful record more holds lawful records. -/
theorem setStation_keeps (t : StationIx) (st : Station) (s : State)
    (h : (s.station t).lawful = true → st.lawful = true) : Keeps s (s.setStation t st) := by
  refine ⟨?_, id, id, id, rfl⟩
  intro hs u
  rw [State.station_setStation]
  split
  · exact h (hs t)
  · exact hs u

theorem mapStations_keeps (f : StationIx → Station → Station) (s : State)
    (h : ∀ u, (s.station u).lawful = true → (f u (s.station u)).lawful = true) : Keeps s (s.mapStations f) := by
  refine ⟨?_, id, id, id, rfl⟩
  intro hs u
  rw [State.station_mapStations]
  exact h u (hs u)

theorem setLine_keeps (n : LineId) (l : Line) (s : State) : Keeps s (s.setLine n l) := by
  cases n
  · exact Keeps.of_same rfl rfl rfl rfl rfl rfl rfl rfl
  · exact Keeps.of_same rfl rfl rfl rfl rfl rfl rfl rfl

namespace State

theorem modifyLine_keeps (n : LineId) (f : Line → Line) (s : State) : Keeps s (s.modifyLine n f) := setLine_keeps n _ s

/-! ## Slots -/

/-- A completed slot leaves the submission order; its post is its REQUEST_DONE record. -/
theorem finishSlot_eq (k : SlotIx) (o : OutcomeCode) (len : BitVec 6) (s : State) :
    s.finishSlot k o len
      = ({ s with
            slots := s.slots.set k { s.slot k with outcome := o, replyLen := len, deferred := false }
            submitted := s.submitted.filter (· ≠ k) },
          .completion k (requestDone k { s.slot k with outcome := o, replyLen := len, deferred := false } (s.slotLine k))) := rfl

theorem finishSlot_keeps (k : SlotIx) (o : OutcomeCode) (len : BitVec 6) (s : State) : Keeps s (s.finishSlot k o len).1 :=
  Keeps.of_same rfl rfl rfl rfl rfl rfl rfl rfl

theorem finishSlot_post (k : SlotIx) (o : OutcomeCode) (len : BitVec 6) (s : State) : (s.finishSlot k o len).2.ok := rfl

/-- Completions change the slots and the submission order alone. -/
theorem finishSlots_frame (o : OutcomeCode) (ks : List SlotIx) (s : State) :
    ∃ sl sub, (s.finishSlots o ks).1 = { s with slots := sl, submitted := sub } := by
  induction ks generalizing s with
  | nil => exact ⟨_, _, rfl⟩
  | cons k ks ih =>
    obtain ⟨sl, sub, h⟩ := ih (s.finishSlot k o 0).1
    exact ⟨sl, sub, h⟩

theorem finishSlots_makes (o : OutcomeCode) (ks : List SlotIx) (s : State) : Makes s (s.finishSlots o ks) := by
  induction ks generalizing s with
  | nil => exact Makes.nothing (Keeps.refl s)
  | cons k ks ih =>
    have h := ih (s.finishSlot k o 0).1
    refine ⟨(finishSlot_keeps k o 0 s).trans h.keeps, ?_⟩
    intro p hp
    rcases List.mem_cons.1 hp with rfl | hp
    · exact finishSlot_post k o 0 s
    · exact h.posts p hp

theorem finishPendingOf_makes (t : StationIx) (o : OutcomeCode) (s : State) : Makes s (s.finishPendingOf t o) :=
  finishSlots_makes o _ s

theorem modifySlot_keeps (k : SlotIx) (f : Slot → Slot) (s : State) : Keeps s (s.modifySlot k f) :=
  Keeps.of_same rfl rfl rfl rfl rfl rfl rfl rfl

theorem deferSlot_makes (k : SlotIx) (s : State) : Makes s (s.deferSlot k) := by
  unfold deferSlot
  simp only []
  split
  · exact Makes.nothing ((modifySlot_keeps k _ s).trans (modifySlot_keeps k _ _))
  · refine ⟨(modifySlot_keeps k _ s).trans (finishSlot_keeps k _ _ _), ?_⟩
    intro p hp
    rw [List.mem_singleton.1 hp]
    exact finishSlot_post k _ _ _

theorem completeSlot_makes (k : SlotIx) (o : OutcomeCode) (len : BitVec 6) (s : State) : Makes s (s.completeSlot k o len) := by
  unfold completeSlot
  split
  · exact deferSlot_makes k s
  · refine ⟨finishSlot_keeps k _ _ _, ?_⟩
    intro p hp
    rw [List.mem_singleton.1 hp]
    exact finishSlot_post k _ _ _

theorem resolveAbort_makes (k : SlotIx) (o : OutcomeCode) (len : BitVec 6) (s : State) : Makes s (s.resolveAbort k o len) := by
  unfold resolveAbort
  have h : Keeps s (if o = .busy then s.countBusy k else s) := by
    split
    · exact modifySlot_keeps k _ s
    · exact Keeps.refl s
  refine ⟨(h.trans (modifySlot_keeps k _ _)).trans (finishSlot_keeps k _ _ _), ?_⟩
  intro p hp
  rw [List.mem_singleton.1 hp]
  exact finishSlot_post k _ _ _

theorem releaseDeferred_keeps (n : LineId) (s : State) : Keeps s (s.releaseDeferred n) :=
  Keeps.of_same rfl rfl rfl rfl rfl rfl rfl rfl

/-! ## Blocks -/

theorem setOwner_keeps (b : BlockIx) (o : Owner) (s : State) : Keeps s (s.setOwner b o) :=
  Keeps.of_same rfl rfl rfl rfl rfl rfl rfl rfl

theorem modifyEntry_keeps (e : EntryIx) (f : Entry → Entry) (s : State) : Keeps s (s.modifyEntry e f) :=
  Keeps.of_same rfl rfl rfl rfl rfl rfl rfl rfl

/-- An output swap changes its entry and two owner records alone. -/
theorem swapOutput_frame (e : EntryIx) (s : State) : ∃ en ow, s.swapOutput e = { s with entries := en, owners := ow } := by
  unfold swapOutput
  simp only []
  split
  · exact ⟨_, _, rfl⟩
  · split
    · exact ⟨_, _, rfl⟩
    · exact ⟨_, _, rfl⟩

theorem swapOutput_keeps (e : EntryIx) (s : State) : Keeps s (s.swapOutput e) := by
  obtain ⟨_, _, hf⟩ := swapOutput_frame e s
  rw [hf]; exact Keeps.of_same rfl rfl rfl rfl rfl rfl rfl rfl

theorem flipImage_keeps (t : StationIx) (p : BlockIx × BlockIx) (len : BitVec 6) (s : State) : Keeps s (s.flipImage t p len) := by
  unfold flipImage
  refine ((setStation_keeps t _ s ?_).trans (setOwner_keeps _ _ _)).trans (setOwner_keeps _ _ _)
  simp only [Station.lawful, Station.healthOk, Bool.and_eq_true]
  intro h
  exact ⟨h.1, rfl⟩

theorem imageNotice_ok (t : StationIx) (s : State) : ∀ p ∈ s.imageNotice t, p.ok := by
  unfold imageNotice
  split
  · simp [Post.ok]
  · simp

theorem acceptImage_makes (t : StationIx) (len : BitVec 6) (s : State) : Makes s (s.acceptImage t len) := by
  unfold acceptImage
  simp only []
  split
  · exact Makes.nothing (Keeps.refl s)
  · split
    · rename_i hh
      refine Makes.nothing (setStation_keeps t _ s ?_)
      simp only [Station.lawful, Station.healthOk, heldBack, Bool.and_eq_true]
      intro h
      exact ⟨h.1, by simp [hh]⟩
    · exact ⟨flipImage_keeps t _ len s, imageNotice_ok t _⟩

theorem destroyNewer_lawful (st : Station) (h : st.lawful = true) : (destroyNewer st).lawful = true := by
  unfold destroyNewer
  split
  · simp only [Station.lawful, Station.healthOk, Bool.and_eq_true] at h ⊢
    exact ⟨h.1, rfl⟩
  · exact h

theorem writeBlockByte_keeps (b : BlockIx) (i : Fin 32) (v : Byte) (s : State) : Keeps s (s.writeBlockByte b i v) :=
  ⟨id, writeBlockByte_wf b i v s, id, id, rfl⟩

theorem writeImageByte_keeps (t : StationIx) (i : Fin 32) (v : Byte) (s : State) : Keeps s (s.writeImageByte t i v) := by
  unfold writeImageByte
  split
  · exact Keeps.refl s
  · refine Keeps.trans ?_ (writeBlockByte_keeps _ i v _)
    split
    · exact setStation_keeps t _ s (destroyNewer_lawful _)
    · exact Keeps.refl s

theorem writeSlotByte_keeps (k : SlotIx) (i : Fin 32) (v : Byte) (s : State) : Keeps s (s.writeSlotByte k i v) := by
  unfold writeSlotByte
  split
  · exact Keeps.refl s
  · exact writeBlockByte_keeps _ i v s

end State

/-! ## Stations -/

namespace Station

/-- The law of a station record, spelled out. -/
theorem lawful_iff (st : Station) : st.lawful = true ↔
    st.healthOk = true ∧ (st.reachable = true → st.health = .offline) ∧ (st.probeDue = true → st.health = .offline)
      ∧ (st.newer = true → st.hold = true) := by
  simp only [lawful, Bool.and_eq_true, Bool.or_eq_true, Bool.not_eq_true', beq_iff_eq]
  cases st.reachable <;> cases st.probeDue <;> cases st.newer <;> simp [and_assoc]

theorem toOnline_lawful (st : Station) (h : st.lawful = true) : st.toOnline.lawful = true := by
  rw [lawful_iff] at h ⊢
  exact ⟨rfl, by simp [toOnline], by simp [toOnline], h.2.2.2⟩

theorem toParked_lawful (st : Station) (h : st.lawful = true) : st.toParked.lawful = true := by
  rw [lawful_iff] at h ⊢
  exact ⟨rfl, by simp [toParked], by simp [toParked], h.2.2.2⟩

theorem toOffline_lawful (st : Station) (h : st.lawful = true) : st.toOffline.lawful = true := by
  rw [lawful_iff] at h ⊢
  exact ⟨by simp [healthOk, toOffline], by simp [toOffline], by simp [toOffline], h.2.2.2⟩

theorem countMiss_lawful (st : Station) (h : st.lawful = true) (ho : st.health ≠ .offline) : st.countMiss.lawful = true := by
  unfold countMiss
  split
  · exact h
  · split
    · rename_i h1
      have h' := (lawful_iff st).1 h
      rw [lawful_iff]
      refine ⟨?_, fun hr => absurd (h'.2.1 hr) ho, fun hr => absurd (h'.2.2.1 hr) ho, h'.2.2.2⟩
      have hlt := st.missLimit.isLt
      have : (st.missCount + 1).toNat = st.missCount.toNat + 1 := by
        rw [BitVec.toNat_add]
        exact Nat.mod_eq_of_lt (by simp; omega)
      simp only [healthOk, Bool.and_eq_true, decide_eq_true_eq, this]
      omega
    · exact toOffline_lawful st h

theorem ordinaryOutcome_lawful (o : OutcomeCode) (st : Station) (h : st.lawful = true) (ho : st.health ≠ .offline) :
    (st.ordinaryOutcome o).lawful = true := by
  unfold ordinaryOutcome
  split
  · have h' := (lawful_iff st).1 h
    rw [lawful_iff]
    exact ⟨rfl, fun hr => absurd (h'.2.1 hr) ho, fun hr => absurd (h'.2.2.1 hr) ho, h'.2.2.2⟩
  · split
    · exact countMiss_lawful st h ho
    · exact h

theorem probeOutcome_lawful (o : OutcomeCode) (st : Station) (h : st.lawful = true) (ho : st.health = .offline) :
    (st.probeOutcome o).lawful = true := by
  have h' := (lawful_iff st).1 h
  unfold probeOutcome
  split
  · split
    · exact toOnline_lawful st h
    · rw [lawful_iff]
      exact ⟨by simpa [healthOk] using h'.1, fun _ => ho, h'.2.2.1, h'.2.2.2⟩
  · split
    · rw [lawful_iff]
      exact ⟨by simpa [healthOk] using h'.1, by simp, h'.2.2.1, h'.2.2.2⟩
    · exact h

theorem applyHealth_lawful (o : OutcomeCode) (probe : Bool) (st : Station) (h : st.lawful = true) :
    (st.applyHealth o probe).lawful = true := by
  unfold applyHealth
  split
  · rename_i hh; exact ordinaryOutcome_lawful o st h (by rw [hh]; decide)
  · rename_i hh; exact ordinaryOutcome_lawful o st h (by rw [hh]; decide)
  · rename_i hh
    split
    · exact probeOutcome_lawful o st h hh
    · exact h
  · exact h

theorem countOutcome_lawful (o : OutcomeCode) (probe poll : Bool) (st : Station) (h : st.lawful = true) :
    (st.countOutcome o probe poll).lawful = true := h

theorem countAttempt_lawful (o : OutcomeCode) (st : Station) (h : st.lawful = true) : (countAttempt o st).lawful = true := by
  unfold countAttempt
  split
  · exact h
  · exact h

theorem countdown_lawful (st : Station) (h : st.lawful = true) : st.countdown.lawful = true := by
  unfold countdown
  split
  · rename_i ho
    have h' := (lawful_iff st).1 h
    split
    · rw [lawful_iff]
      exact ⟨h'.1, h'.2.1, fun _ => ho, h'.2.2.2⟩
    · exact h
  · exact h

theorem cycleStart_lawful (st : Station) (h : st.lawful = true) : st.cycleStart.lawful = true := countdown_lawful st h

/-- A word-0 write in CONFIG keeps the law: a station that is not PARKED becomes ONLINE, and PARKED holds no count. -/
theorem writeWord0_lawful (v : Word) (st : Station) (h : st.lawful = true) : (st.writeWord0 v).lawful = true := by
  have h' := (lawful_iff st).1 h
  unfold writeWord0
  simp only []
  split
  · rename_i hp
    rw [lawful_iff]
    refine ⟨?_, h'.2.1, h'.2.2.1, h'.2.2.2⟩
    have := h'.1
    simp only [healthOk, hp, storeWord0] at this ⊢
    exact this
  · rw [lawful_iff]
    exact ⟨rfl, by simp [toOnline], by simp [toOnline], h'.2.2.2⟩

theorem runEntry_lawful (st : Station) (h : st.lawful = true) : st.runEntry.lawful = true := by
  unfold runEntry
  simp only []
  split
  · exact h
  · exact toOnline_lawful st h

theorem controlReset_lawful (st : Station) : st.controlReset.lawful = true := by
  rw [lawful_iff]
  exact ⟨rfl, by simp [controlReset, toOnline], by simp [controlReset, toOnline], by simp [controlReset]⟩

theorem reset_lawful : Station.reset.lawful = true := by decide

end Station

namespace State

theorem healthNotice_ok (t : StationIx) (old new : Station) : ∀ p ∈ healthNotice t old new, p.ok := by
  unfold healthNotice
  split
  · simp
  · simp [Post.ok]

theorem reachableNotice_ok (t : StationIx) (old new : Station) : ∀ p ∈ reachableNotice t old new, p.ok := by
  unfold reachableNotice
  split
  · simp [Post.ok]
  · simp

theorem modifyStation_keeps (t : StationIx) (f : Station → Station) (s : State)
    (h : ∀ st : Station, st.lawful = true → (f st).lawful = true) : Keeps s (s.modifyStation t f) :=
  setStation_keeps t _ s (h _)

/-- A final outcome at the Station Table keeps the laws. -/
theorem stationOutcome_makes (t : StationIx) (o : OutcomeCode) (probe poll : Bool) (s : State) :
    Makes s (s.stationOutcome t o probe poll) := by
  unfold stationOutcome
  simp only []
  have hk : Keeps s (s.setStation t (((s.station t).countOutcome o ((s.station t).probeNote probe) poll).applyHealth o probe)) :=
    setStation_keeps t _ s fun h => Station.applyHealth_lawful o probe _ (Station.countOutcome_lawful o _ poll _ h)
  have hp := posts_append
    (healthNotice_ok t (s.station t) (((s.station t).countOutcome o ((s.station t).probeNote probe) poll).applyHealth o probe))
    (reachableNotice_ok t (s.station t) (((s.station t).countOutcome o ((s.station t).probeNote probe) poll).applyHealth o probe))
  split
  · have := finishPendingOf_makes t .stationOffline (raise .stationDown (s.setStation t
      (((s.station t).countOutcome o ((s.station t).probeNote probe) poll).applyHealth o probe)))
    exact ⟨(hk.trans (raise_keeps _ _)).trans this.keeps, posts_append hp this.posts⟩
  · exact ⟨hk, hp⟩

/-- A completed command sets CSTAT, CVALUE and CMD_DONE alone. -/
theorem complete_eq (r : ResultCode) (v : Word) (s : State) :
    s.complete r v = { s with result := r, cvalue := v, cmdState := .done, edges := s.edges ||| 0x0010 } := rfl

theorem complete_keeps (r : ResultCode) (v : Word) (s : State) : Keeps s (s.complete r v) :=
  (Keeps.of_same rfl rfl rfl rfl rfl rfl rfl rfl : Keeps s { s with result := r, cvalue := v, cmdState := .done }).trans
    (raise_keeps _ _)

theorem refuse_keeps (r : ResultCode) (s : State) : Keeps s (s.refuse r) := complete_keeps r 0 s

/-- What a park makes: the laws are kept, and both lists of posts may be made. -/
theorem parkNow_keeps (t : StationIx) (s : State) : Keeps s (s.parkNow t).1 ∧ (∀ p ∈ (s.parkNow t).2.1, p.ok)
    ∧ ∀ p ∈ (s.parkNow t).2.2, p.ok := by
  have h := finishPendingOf_makes t .stationParked (s.setStation t (s.station t).toParked)
  refine ⟨?_, healthNotice_ok t _ _, h.posts⟩
  exact ((setStation_keeps t _ s (Station.toParked_lawful _)).trans h.keeps).trans (complete_keeps _ _ _)

theorem parkIfWaiting_keeps (t : StationIx) (s : State) : Keeps s (s.parkIfWaiting t).1 ∧ (∀ p ∈ (s.parkIfWaiting t).2.1, p.ok)
    ∧ ∀ p ∈ (s.parkIfWaiting t).2.2, p.ok := by
  unfold parkIfWaiting
  split
  · exact parkNow_keeps t s
  · exact ⟨Keeps.refl s, by simp, by simp⟩

theorem stationsCycleStart_keeps (n : LineId) (s : State) : Keeps s (s.stationsCycleStart n) := by
  refine mapStations_keeps _ s fun u h => ?_
  show (if _ then _ else _ : Station).lawful = true
  split
  · exact Station.cycleStart_lawful _ h
  · exact h

end State

end Sys2Proof.Machine
end

