-- ==== Sys2Proof/Laws/Engine.lean ====
section
/-!
SUPPORT. The line engines' operations and the rows of the lines keep the laws of stations, memory, registers and the queue.
-/

namespace Sys2Proof.Machine

namespace State

theorem setEngine_keeps (n : LineId) (e : EngineState) (s : State) : Keeps s (s.setEngine n e) := modifyLine_keeps n _ s

theorem setAttempt_keeps (n : LineId) (a : Option Attempt) (s : State) : Keeps s (s.setAttempt n a) := modifyLine_keeps n _ s

theorem sendFrame_keeps (n : LineId) (a : Attempt) (cs : List TxChar) (s : State) : Keeps s (s.sendFrame n a cs) :=
  modifyLine_keeps n _ s

theorem startAttempt_keeps (n : LineId) (number : Nat) (a : Attempt) (t : StationIx) (s : State) :
    Keeps s (s.startAttempt n number a t) := by
  unfold startAttempt
  exact (modifyStation_keeps t (fun st => { st with seq := st.seq + 1 }) s fun _ h => h).trans (sendFrame_keeps n _ _ _)

theorem clearProbeDue_lawful (st : Station) (h : st.lawful = true) : ({ st with probeDue := false } : Station).lawful = true := by
  rw [Station.lawful_iff] at h ⊢
  exact ⟨h.1, h.2.1, by simp, h.2.2.2⟩

theorem takeEntry_keeps (n : LineId) (e : EntryIx) (probe : Bool) (s : State) : Keeps s (s.takeEntry n e probe) := by
  unfold takeEntry
  simp only []
  refine Keeps.trans ?_ (startAttempt_keeps n _ _ _ _)
  refine Keeps.trans ?_ (modifyLine_keeps n _ _)
  split
  · exact (swapOutput_keeps e s).trans (modifyStation_keeps _ _ _ clearProbeDue_lawful)
  · exact swapOutput_keeps e s

theorem setSlot_keeps (k : SlotIx) (sl : Slot) (s : State) : Keeps s (s.setSlot k sl) :=
  Keeps.of_same rfl rfl rfl rfl rfl rfl rfl rfl

theorem takeSlot_keeps (n : LineId) (k : SlotIx) (s : State) : Keeps s (s.takeSlot n k) :=
  ((setSlot_keeps k _ s).trans (modifyLine_keeps n _ _)).trans (startAttempt_keeps n _ _ _ _)

theorem takeSync_keeps (n : LineId) (s : State) : Keeps s (s.takeSync n) :=
  (modifyLine_keeps n _ s).trans (sendFrame_keeps n _ _ _)

theorem startBreak_keeps (n : LineId) (s : State) : Keeps s (s.startBreak n) := modifyLine_keeps n _ s

theorem acyclicChoice_keeps (n : LineId) (s : State) : Keeps s (s.acyclicChoice n) := by
  unfold acyclicChoice
  split
  · exact takeSlot_keeps n _ s
  · exact setEngine_keeps n _ s

theorem walkChoice_keeps (n : LineId) (s : State) : Keeps s (s.walkChoice n) := by
  unfold walkChoice
  split
  · exact takeEntry_keeps n _ _ s
  · exact ((modifyLine_keeps n _ s).trans (raise_keeps _ _)).trans (acyclicChoice_keeps n _)

theorem cyclicChoice_keeps (n : LineId) (s : State) : Keeps s (s.cyclicChoice n) := by
  unfold cyclicChoice
  split
  · exact takeSlot_keeps n _ s
  · exact walkChoice_keeps n s

/-- A decision point keeps every law. -/
theorem decisionPoint_keeps (n : LineId) (s : State) : Keeps s (s.decisionPoint n) := by
  unfold decisionPoint
  simp only []
  split
  · exact startBreak_keeps n s
  · split
    · exact takeSync_keeps n s
    · split
      · exact cyclicChoice_keeps n s
      · exact acyclicChoice_keeps n s

theorem wakeIdle_keeps (n : LineId) (s : State) : Keeps s (s.wakeIdle n) := by
  unfold wakeIdle
  split
  · exact decisionPoint_keeps n s
  · exact Keeps.refl s

theorem recordAttempt_keeps (a : Attempt) (o : OutcomeCode) (s : State) : Keeps s (s.recordAttempt a o) := by
  unfold recordAttempt
  split
  · exact modifySlot_keeps _ _ s
  · exact Keeps.refl s
  · exact Keeps.refl s
  · exact Keeps.refl s

theorem pollEnd_makes (e : EntryIx) (t : StationIx) (probe : Bool) (a : Attempt) (o : OutcomeCode) (s : State) :
    MakesGroups s (s.pollEnd e t probe a o) := by
  unfold pollEnd
  simp only []
  have h1 := modifyEntry_keeps e (fun en => { en with last := o }) s
  have h2 := stationOutcome_makes t o probe true (s.modifyEntry e fun en => { en with last := o })
  have h3 : ∀ u : State, Makes u (if o = .ok then u.acceptImage t (a.replyLen.getD 0) else (u, [])) := by
    intro u
    split
    · exact acceptImage_makes t _ u
    · exact Makes.nothing (Keeps.refl u)
  have h4 := parkIfWaiting_keeps t
  refine ⟨((h1.trans h2.keeps).trans (h3 _).keeps).trans (h4 _).1, ?_⟩
  exact Groups.ok_cons (posts_append h2.posts (h4 _).2.1) (Groups.ok_cons (h3 _).posts (Groups.ok_cons (h4 _).2.2 Groups.ok_nil))

theorem slotEnd_makes (t : StationIx) (o : OutcomeCode) (resolve : State → State × List Post) (s : State)
    (h : ∀ u, Makes u (resolve u)) : MakesGroups s (s.slotEnd t o resolve) := by
  unfold slotEnd
  simp only []
  have h2 := stationOutcome_makes t o false false s
  have h4 := parkIfWaiting_keeps t
  refine ⟨(h2.keeps.trans (h _).keeps).trans (h4 _).1, ?_⟩
  exact Groups.ok_cons (posts_append h2.posts (h4 _).2.1)
    (Groups.ok_cons (posts_append (h _).posts (h4 _).2.2) Groups.ok_nil)

theorem acyclicEnd_makes (k : SlotIx) (t : StationIx) (a : Attempt) (o : OutcomeCode) (s : State) :
    MakesGroups s (s.acyclicEnd k t a o) := by
  unfold acyclicEnd
  simp only []
  split
  · exact slotEnd_makes t o _ s fun u => resolveAbort_makes k o _ u
  · split
    · exact MakesGroups.nothing (modifySlot_keeps k _ s)
    · exact slotEnd_makes t o _ s fun u => completeSlot_makes k o _ u

theorem endTransaction_makes (n : LineId) (a : Attempt) (t : StationIx) (o : OutcomeCode) (s : State) :
    MakesGroups s (s.endTransaction n a t o) := by
  unfold endTransaction
  simp only []
  have h := setAttempt_keeps n none s
  split
  · have := pollEnd_makes ‹_› t false a o (s.setAttempt n none); exact ⟨h.trans this.keeps, this.posts⟩
  · have := pollEnd_makes ‹_› t true a o (s.setAttempt n none); exact ⟨h.trans this.keeps, this.posts⟩
  · have := acyclicEnd_makes ‹_› t a o (s.setAttempt n none); exact ⟨h.trans this.keeps, this.posts⟩
  · exact MakesGroups.nothing h

/-- The end of an attempt keeps every law, and its posts may be made. -/
theorem endAttempt_makes (n : LineId) (o : OutcomeCode) (s : State) : MakesGroups s (s.endAttempt n o) := by
  unfold endAttempt
  split
  · exact MakesGroups.nothing (Keeps.refl s)
  · rename_i a _
    split
    · exact MakesGroups.nothing (setAttempt_keeps n _ s)
    · rename_i t _
      simp only []
      have h := (modifyStation_keeps t (Station.countAttempt o) s (Station.countAttempt_lawful o)).trans
        (recordAttempt_keeps a o _)
      split
      · exact MakesGroups.nothing (h.trans (setAttempt_keeps n _ _))
      · have := endTransaction_makes n
          { a with
            outcome := some o, fixedOutcome := none
            retryOwed := ((s.modifyStation t (Station.countAttempt o)).recordAttempt a o).retryDue a o && a.stop.isEmpty
              && (s.line n).engine != .faulted } t o ((s.modifyStation t (Station.countAttempt o)).recordAttempt a o)
        exact ⟨h.trans this.keeps, this.posts⟩

theorem stopTransaction_makes (n : LineId) (x : StopReason) (s : State) : MakesGroups s (s.stopTransaction n x) := by
  unfold stopTransaction
  split
  · exact MakesGroups.nothing (Keeps.refl s)
  · split
    · simp only []
      split
      · exact endTransaction_makes n _ _ _ s
      · exact MakesGroups.nothing (setAttempt_keeps n _ s)
    · exact MakesGroups.nothing (Keeps.refl s)

theorem startWaitingBreak_keeps (n : LineId) (s : State) : Keeps s (s.startWaitingBreak n) := by
  unfold startWaitingBreak
  split
  · exact startBreak_keeps n s
  · exact Keeps.refl s

theorem modeOccasion_keeps (err : BitVec 4) (index : BitVec 6) (s : State) : Keeps s (s.modeOccasion err index).1 :=
  raise_keeps _ s

theorem reachQuiesced_makes (s : State) : Makes s s.reachQuiesced := by
  unfold reachQuiesced
  split
  · refine ⟨(Keeps.of_same rfl rfl rfl rfl rfl rfl rfl rfl : Keeps s { s with mode := .quiesced, pendingRequest := none }).trans
      (modeOccasion_keeps 0 0 _), ?_⟩
    intro p hp
    rw [List.mem_singleton.1 hp]
    trivial
  · exact Makes.nothing (Keeps.refl s)

/-- The rest of a step keeps every law. -/
theorem settle_keeps (n : LineId) (s : State) (r : State × Groups) (h : MakesGroups s r) : Keeps s (settle n r) := by
  unfold settle
  have h2 := reachQuiesced_makes (r.1.startWaitingBreak n)
  exact ((h.keeps.trans (startWaitingBreak_keeps n _)).trans h2.keeps).trans
    (flush_keeps _ _ (Groups.ok_append h.posts (Groups.ok_cons h2.posts Groups.ok_nil)))

theorem enterFaulted_keeps (n : LineId) (s : State) : Keeps s (s.enterFaulted n) :=
  (modifyLine_keeps n _ s).trans (offerNotice_keeps _ _)

theorem countFault_keeps (n : LineId) (q : Bool) (s : State) : Keeps s (s.countFault n q) := by
  unfold countFault
  simp only []
  have h := ((modifyLine_keeps n (fun l => { l with faults := l.faults + 1 }) s).trans (offerNotice_keeps
    (lineFaultNotice n q ((s.modifyLine n fun l => { l with faults := l.faults + 1 }).line n).faults) _)).trans
      (raise_keeps (.lineFault n) _)
  split
  · exact h.trans (enterFaulted_keeps n _)
  · exact h

theorem quietWait_keeps (n : LineId) (o : OutcomeCode) (s : State) : Keeps s (s.quietWait n o) := modifyLine_keeps n _ s

theorem endQuietWait_keeps (n : LineId) (s : State) : Keeps s (s.endQuietWait n) := by
  unfold endQuietWait
  split
  · exact settle_keeps n s _ (MakesGroups.nothing (Keeps.refl s))
  · exact settle_keeps n s _ (endAttempt_makes n _ s)

/-! ## Reception -/

theorem storeReplyByte_keeps (a : Attempt) (i : Nat) (v : Byte) (s : State) : Keeps s (s.storeReplyByte a i v) := by
  unfold storeReplyByte
  split
  · split
    · exact writeImageByte_keeps _ _ v s
    · exact writeImageByte_keeps _ _ v s
    · exact writeSlotByte_keeps _ _ v s
    · exact Keeps.refl s
  · exact Keeps.refl s

theorem replyComplete_keeps (n : LineId) (a : Attempt) (v : Byte) (s : State) : Keeps s (s.replyComplete n a v) := by
  unfold replyComplete
  split
  · exact Keeps.refl s
  · simp only []
    have h := (setAttempt_keeps n (some { a with received := a.received + 1 }) s).trans
      (setEngine_keeps n (restState s.mode) _)
    have h2 := endAttempt_makes n
    exact settle_keeps n s _ ⟨h.trans (h2 _ _).keeps, (h2 _ _).posts⟩

theorem takeReplyChar_keeps (n : LineId) (a : Attempt) (v : Byte) (s : State) : Keeps s (s.takeReplyChar n a v) := by
  unfold takeReplyChar
  simp only []
  split
  · exact setAttempt_keeps n _ s
  · split
    · exact (storeReplyByte_keeps a _ v s).trans (setAttempt_keeps n _ _)
    · split
      · exact setAttempt_keeps n _ s
      · exact replyComplete_keeps n a v s

theorem receiveChar_keeps (n : LineId) (c : RxChar) (s : State) : Keeps s (s.receiveChar n c) := by
  unfold receiveChar
  split
  · exact Keeps.refl s
  · split
    · exact (setAttempt_keeps n _ s).trans (quietWait_keeps n _ _)
    · exact takeReplyChar_keeps n _ _ s

theorem unsolicited_keeps (n : LineId) (s : State) : Keeps s (s.unsolicited n) := by
  unfold unsolicited
  simp only []
  have h := modifyLine_keeps n (fun l => { l with unsol := satInc (s.line n).unsol, unsolMark := true }) s
  split
  · exact h
  · exact h.trans (offerNotice_keeps _ _)

theorem engineArrival_keeps (n : LineId) (c : RxChar) (s : State) : Keeps s (s.engineArrival n c) := by
  unfold engineArrival
  split
  · exact unsolicited_keeps n s
  · exact unsolicited_keeps n s
  · exact unsolicited_keeps n s
  · exact modifyLine_keeps n _ s
  · exact receiveChar_keeps n c s
  all_goals exact Keeps.refl s

/-- A delivered character keeps every law. -/
theorem deliver_keeps (n : LineId) (t : CharSamples) (s : State) : Keeps s (s.deliver n t) := by
  have h : ∀ (c : RxChar) (u : State), Keeps u (u.countNoise n c) := by
    intro c u
    unfold countNoise
    split
    · exact modifyLine_keeps n _ u
    · exact Keeps.refl u
  exact ((modifyLine_keeps n _ s).trans (h _ _)).trans (engineArrival_keeps n _ _)

/-! ## The rows of the line engine -/

theorem frameSent_keeps (n : LineId) (a : Attempt) (s : State) : Keeps s (s.frameSent n a) := by
  unfold frameSent
  simp only []
  split
  · exact ((modifyLine_keeps n _ s).trans (modifyLine_keeps n _ _)).trans (setEngine_keeps n _ _)
  · exact settle_keeps n s _ (MakesGroups.nothing
      (((modifyLine_keeps n _ s).trans (setAttempt_keeps n _ _)).trans (setEngine_keeps n _ _)))

theorem collision_keeps (n : LineId) (s : State) : Keeps s (s.collision n) := by
  unfold collision
  simp only []
  have h := (modifyLine_keeps n Line.release s).trans (countFault_keeps n false _)
  split
  · have h2 := endAttempt_makes n .collision ((s.modifyLine n Line.release).countFault n false)
    exact settle_keeps n s _ ⟨h.trans h2.keeps, h2.posts⟩
  · exact h.trans (quietWait_keeps n _ _)

theorem charSent_keeps (n : LineId) (a : Attempt) (c : TxChar) (s : State) : Keeps s (s.charSent n a c) := by
  unfold charSent
  simp only []
  refine Keeps.trans (setAttempt_keeps n (some { a with sent := a.sent + 1 }) s) ?_
  split
  · split
    · exact frameSent_keeps n _ _
    · exact modifyLine_keeps n _ _
  · exact collision_keeps n _

theorem breakEnd_keeps (n : LineId) (s : State) : Keeps s (s.breakEnd n) := by
  unfold breakEnd
  simp only []
  refine settle_keeps n s _ ⟨?_, ?_⟩
  · show Keeps s (if _ then _ else _)
    split
    · exact (modifyLine_keeps n _ s).trans (complete_keeps _ _ _)
    · exact modifyLine_keeps n _ s
  · refine Groups.ok_cons ?_ Groups.ok_nil
    split
    · simp [Post.ok]
    · simp

theorem turnaroundEnd_keeps (n : LineId) (s : State) : Keeps s (s.turnaroundEnd n) := by
  unfold turnaroundEnd
  split
  · split
    · exact startAttempt_keeps n _ _ _ s
    · exact Keeps.refl s
  · split
    · exact decisionPoint_keeps n s
    · exact settle_keeps n s _ (MakesGroups.nothing (setEngine_keeps n _ s))
    all_goals exact Keeps.refl s

/-! ## Cycle starts -/

theorem cycleAccounting_makes (n : LineId) (old : Word) (c : CycleCase) (s : State) : Makes s (s.cycleAccounting n old c) := by
  unfold cycleAccounting
  split
  · refine ⟨(Keeps.of_same rfl rfl rfl rfl rfl rfl rfl rfl : Keeps s (s.markSkipped n old)).trans (raise_keeps _ _), ?_⟩
    simp [Post.ok]
  · refine ⟨raise_keeps _ _, ?_⟩
    simp [Post.ok]
  all_goals exact Makes.nothing (Keeps.refl s)

theorem openCycle_keeps (n : LineId) (s : State) : Keeps s (s.openCycle n) := (modifyLine_keeps n _ s).trans (raise_keeps _ _)

theorem cycleHandOver_makes (n : LineId) (s : State) : MakesGroups s (s.cycleHandOver n) := by
  have hi : ∀ i, Keeps s { s with freeIndex := i } := fun i => Keeps.of_same rfl rfl rfl rfl rfl rfl rfl rfl
  unfold cycleHandOver
  split
  · have h := stopTransaction_makes n .cycle { s with freeIndex := s.freeIndex + 1 }
    exact ⟨((hi _).trans h.keeps).trans (stationsCycleStart_keeps n _), h.posts⟩
  · have h := stopTransaction_makes n .cycle (({ s with
      freeIndex := if s.waitsForRetry n then s.freeIndex + 1 else s.freeIndex } : State).stationsCycleStart n)
    exact ⟨((hi _).trans (stationsCycleStart_keeps n _)).trans h.keeps, h.posts⟩

theorem startHandOver_makes (n : LineId) (c : CycleCase) (s : State) : MakesGroups s (s.startHandOver n c) := by
  cases c
  · exact stopTransaction_makes n .cycle s
  all_goals exact cycleHandOver_makes n s

/-- A cycle start keeps every law. -/
theorem startCycle_keeps (n : LineId) (old : Word) (c : CycleCase) (s : State) : Keeps s (s.startCycle n old c) := by
  unfold startCycle
  simp only []
  have h1 := cycleAccounting_makes n old c s
  have h2 := startHandOver_makes n c ((s.cycleAccounting n old c).1.openCycle n)
  refine ((settle_keeps n s _ ⟨?_, ?_⟩).trans (releaseDeferred_keeps n _)).trans (wakeIdle_keeps n _)
  · exact (h1.keeps.trans (openCycle_keeps n _)).trans h2.keeps
  · exact Groups.ok_cons h1.posts h2.posts

theorem loadTimer_keeps (n : LineId) (c : Word) (s : State) : Keeps s (s.loadTimer n c) := modifyLine_keeps n _ s

theorem expireTimer_keeps (n : LineId) (s : State) : Keeps s (s.expireTimer n) :=
  (loadTimer_keeps n _ s).trans (startCycle_keeps n _ _ _)

end State

end Sys2Proof.Machine
end

