-- ==== Sys2Proof/Laws/Host.lean ====
section
/-!
SUPPORT. Modes, the Table Access Port, the commands and the register window keep the laws of stations, memory, registers and the
queue.
-/

namespace Sys2Proof.Machine

namespace State

/-! ## Modes -/

theorem validationFailed_keeps (c : BitVec 4) (i : BitVec 6) (s : State) : Keeps s (s.validationFailed c i) := by
  unfold validationFailed
  simp only []
  exact ((Keeps.of_same rfl rfl rfl rfl rfl rfl rfl rfl : Keeps s { s with errCode := c, errIndex := i }).trans
    (modeOccasion_keeps c i _)).trans (flush_keeps _ _ (Groups.ok_cons (by simp [modeOccasion, Post.ok]) Groups.ok_nil))

theorem leaveOff_keeps (n : LineId) (s : State) : Keeps s (s.leaveOff n) := by
  unfold leaveOff
  split
  · exact startBreak_keeps n s
  · exact setEngine_keeps n _ s

theorem lineEntry_keeps (n : LineId) (s : State) : Keeps s (s.lineEntry n) := by
  unfold lineEntry
  split
  · exact (leaveOff_keeps n s).trans (startCycle_keeps n _ _ _)
  · exact Keeps.refl s

theorem prepareLine_keeps (n : LineId) (s : State) : Keeps s (s.prepareLine n) := by
  unfold prepareLine
  simp only []
  split
  · exact (modifyLine_keeps n _ s).trans (loadTimer_keeps n _ _)
  · exact modifyLine_keeps n _ s

theorem modeFlush_keeps (s : State) : Keeps s ((s.modeOccasion 0 0).1.flush [[(s.modeOccasion 0 0).2]]) :=
  (modeOccasion_keeps 0 0 s).trans (flush_keeps _ _ (Groups.ok_cons (by simp [modeOccasion, Post.ok]) Groups.ok_nil))

/-- RUN entry keeps every law. -/
theorem runEntry_keeps (s : State) : Keeps s s.runEntry := by
  unfold runEntry
  simp only []
  have h0 : Keeps s { s with errCode := 0, errIndex := 0 } := Keeps.of_same rfl rfl rfl rfl rfl rfl rfl rfl
  have h1 := (h0.trans (prepareLine_keeps .zero _)).trans (prepareLine_keeps .one _)
  have hn : ∀ u : State, Groups.ok u.entryNotices := by
    intro u g hg
    obtain ⟨t, _, rfl⟩ := List.mem_map.1 hg
    exact healthNotice_ok t _ _
  have h2 : ∀ u : State, Keeps u (u.mapStations fun _ st => st.runEntry) := fun u =>
    mapStations_keeps _ u fun _ h => Station.runEntry_lawful _ h
  have h3 : ∀ (ks : List SlotIx) (u : State), Makes u (u.finishSlots .cancelled ks) := fun ks u => finishSlots_makes _ ks u
  have h4 : ∀ u : State, Keeps u { u with mode := .run } := fun u => Keeps.of_same rfl rfl rfl rfl rfl rfl rfl rfl
  refine Keeps.trans ?_ (modeFlush_keeps _)
  refine Keeps.trans (Keeps.trans ?_ (lineEntry_keeps .zero _)) (lineEntry_keeps .one _)
  refine Keeps.trans ?_ (h4 _)
  refine Keeps.trans ?_ (flush_keeps _ _ (Groups.ok_append (hn _) (Groups.ok_cons (h3 _ _).posts Groups.ok_nil)))
  exact (h1.trans (h2 _)).trans (h3 _ _).keeps

theorem quiesceLine_makes (n : LineId) (s : State) : MakesGroups s (s.quiesceLine n) := by
  unfold quiesceLine
  split
  · simp only []
    have h := stopTransaction_makes n .quiesce (s.stopTimer n)
    have h1 := (modifyLine_keeps n (fun l => { l with timerRunning := false }) s).trans h.keeps
    split
    · exact ⟨h1.trans (setEngine_keeps n _ _), h.posts⟩
    · exact ⟨h1, h.posts⟩
  · exact MakesGroups.nothing (Keeps.refl s)

/-- QUIESCE in RUN keeps every law. -/
theorem quiesce_keeps (s : State) : Keeps s s.quiesce := by
  unfold quiesce
  simp only []
  have h0 : Keeps s { s with mode := .quiescing, pendingRequest := some .quiesce } := Keeps.of_same rfl rfl rfl rfl rfl rfl rfl rfl
  have h1 := quiesceLine_makes .zero { s with mode := .quiescing, pendingRequest := some .quiesce }
  have h2 := quiesceLine_makes .one (({ s with mode := .quiescing, pendingRequest := some .quiesce } : State).quiesceLine .zero).1
  have h3 := reachQuiesced_makes ((({ s with
    mode := .quiescing, pendingRequest := some .quiesce } : State).quiesceLine .zero).1.quiesceLine .one).1
  exact (((h0.trans h1.keeps).trans h2.keeps).trans h3.keeps).trans
    (flush_keeps _ _ (Groups.ok_append (Groups.ok_append h1.posts h2.posts) (Groups.ok_cons h3.posts Groups.ok_nil)))

theorem resumeLine_keeps (n : LineId) (s : State) : Keeps s (s.resumeLine n) := by
  unfold resumeLine
  split
  · exact ((modifyLine_keeps n resumeEngine s).trans (loadTimer_keeps n _ _)).trans (startCycle_keeps n _ _ _)
  · exact Keeps.refl s

theorem returnToRun_keeps (s : State) : Keeps s s.returnToRun := by
  unfold returnToRun
  simp only []
  have h0 : Keeps s { s with mode := .run } := Keeps.of_same rfl rfl rfl rfl rfl rfl rfl rfl
  exact ((h0.trans (resumeLine_keeps .zero _)).trans (resumeLine_keeps .one _)).trans (modeFlush_keeps _)

theorem dropWaitingBreak_keeps (s : State) : Keeps s s.dropWaitingBreak := by
  unfold dropWaitingBreak
  split
  · exact refuse_keeps _ s
  · exact Keeps.refl s

theorem enterConfig_keeps (s : State) : Keeps s s.enterConfig := by
  unfold enterConfig
  simp only []
  have h0 : Keeps s { s with mode := .config } := Keeps.of_same rfl rfl rfl rfl rfl rfl rfl rfl
  have h1 := ((h0.trans (modifyLine_keeps .zero Line.enterOff _)).trans (modifyLine_keeps .one Line.enterOff _)).trans
    (dropWaitingBreak_keeps _)
  have h2 : ∀ (ks : List SlotIx) (u : State),
      Keeps u ((u.finishSlots .cancelled ks).1.flush [(u.finishSlots .cancelled ks).2]) := fun ks u =>
    (finishSlots_makes .cancelled ks u).keeps.trans
      (flush_keeps _ _ (Groups.ok_cons (finishSlots_makes .cancelled ks u).posts Groups.ok_nil))
  exact (h1.trans (h2 _ _)).trans (modeFlush_keeps _)

/-- A mode request keeps every law. -/
theorem modeRequest_keeps (v : Word) (s : State) : Keeps s (s.modeRequest v) := by
  have hr : Keeps s s.refuseRequest := Keeps.of_same rfl rfl rfl rfl rfl rfl rfl rfl
  unfold modeRequest runFromConfig
  split
  · exact Keeps.refl s
  · split
    · exact hr
    · split
      · split
        · exact validationFailed_keeps _ _ s
        · exact runEntry_keeps s
      · split
        · exact quiesce_keeps s
        · split
          · exact returnToRun_keeps s
          · split
            · exact enterConfig_keeps s
            · exact hr

/-- A queue without records, and nothing held, is lawful. -/
theorem queueLawful_empty (s : State) (h : s.events = []) (k : s.done = []) : s.QueueLawful := by
  refine ⟨?_, ?_, ?_, ?_⟩
  · rw [h]; simp
  · rw [h]; simp
  · intro hd; exact absurd k hd
  · rw [k]; simp

/-- A control reset as one update of the state (R160). -/
theorem controlReset_eq (s : State) : s.controlReset = { s with
    mode := .config, pendingRequest := none, reqRefused := false
    line0 := resetLine s.line0, line1 := resetLine s.line1
    stations := mapTable s.stations fun _ st => st.controlReset
    slots := mapTable s.slots fun _ sl => if sl.state = .free then sl else { sl with state := .free, deferred := false }
    owners := mapTable s.owners fun _ o => if o.isRequest then .host else o
    submitted := [], done := [], events := [], evlost := 0, dmaWord := 0, edges := 0
    cmdState := .idle, overrun := false, result := .ok, cvalue := 0, tapaddr := 0 } := by
  simp [controlReset, resetSlots, modifyLine, setLine, mapStations, mapSlots, mapOwners, line]

/-- A control reset keeps every law: it makes the stations, the queue and the flags lawful whatever they were. -/
theorem controlReset_keeps (s : State) : Keeps s s.controlReset := by
  rw [controlReset_eq]
  refine ⟨?_, id, ?_, ?_, rfl⟩
  · intro _ u
    show ((mapTable s.stations fun _ st => st.controlReset).get u).lawful = true
    rw [get_mapTable]
    exact Station.controlReset_lawful _
  · rintro ⟨h1, h2, h3, _, _⟩
    exact ⟨h1, h2, h3, (by decide : (0#16).getLsbD 0 = false), (by decide : (0#16).getLsbD 1 = false)⟩
  · intro _; exact queueLawful_empty _ rfl rfl

/-- Hard reset keeps every law; internal memory waits for the clearing. -/
theorem hardReset_keeps (s : State) : Keeps s s.hardReset := by
  refine ⟨id, id, ?_, ?_, rfl⟩
  · intro _
    have h1 : s.hardReset.evthresh = 1 := rfl
    have h2 : s.hardReset.ithresh = 1 := rfl
    have h3 : s.hardReset.edges = 0 := rfl
    simp only [RegistersLawful, h1, h2, h3]
    decide
  · intro _; exact queueLawful_empty _ rfl rfl

theorem finishClearing_keeps (s : State) : Keeps s s.finishClearing := by
  refine ⟨?_, ?_, id, ?_, rfl⟩
  · intro _ u
    show ((Vector.replicate 32 Station.reset).get u).lawful = true
    revert u; decide
  · intro _; exact Memory.wf_nil
  · intro _; exact queueLawful_empty _ rfl rfl

/-! ## The Table Access Port -/

/-- A refused access sets ACCESS_ERROR and its record alone. -/
theorem refuseAccess_keeps (sp : AccessSpace) (d : AccessDirection) (a : Word) (s : State) : Keeps s (s.refuseAccess sp d a) := by
  unfold refuseAccess
  split
  · exact Keeps.refl s
  · exact (Keeps.of_same rfl rfl rfl rfl rfl rfl rfl rfl : Keeps s
      { s with accaddr := a, accSpace := sp, accDir := d, accMode := s.mode }).trans (raise_keeps _ _)

theorem writeStation?_keeps (t : StationIx) (i : Nat) (v : Word) (s s1 : State) (h : s.writeStation? t i v = some s1) :
    Keeps s s1 := by
  unfold writeStation? at h
  split at h
  · split at h
    · simp only [Option.some.injEq] at h
      subst h
      exact (setStation_keeps t _ s (Station.writeWord0_lawful v _)).trans
        (flush_keeps _ _ (Groups.ok_cons (healthNotice_ok t _ _) Groups.ok_nil))
    · simp only [Option.some.injEq] at h
      subst h
      exact modifyStation_keeps t (Station.storeWord1 v) s fun _ h => h
    · simp at h
  · simp at h

theorem writeEntry?_keeps (e : EntryIx) (i : Nat) (v : Word) (s s1 : State) (h : s.writeEntry? e i v = some s1) :
    Keeps s s1 := by
  unfold writeEntry? at h
  split at h
  · simp only [Option.some.injEq] at h
    subst h
    exact modifyEntry_keeps e _ s
  · split at h
    · simp only [Option.some.injEq] at h
      subst h
      exact modifyEntry_keeps e _ s
    · simp at h
  · simp at h

theorem tapPlace_block (a : Nat) (b : BlockIx) (h : tapPlace a = .block b) : a < 0x800 := by
  unfold tapPlace at h
  split at h
  · assumption
  · repeat' split at h
    all_goals simp at h

/-- A host write through the Table Access Port keeps every law. -/
theorem tapWrite?_keeps (a : Nat) (v : Word) (s s1 : State) (h : s.tapWrite? a v = some s1) : Keeps s s1 := by
  unfold tapWrite? at h
  split at h
  · rename_i b hb
    split at h
    · simp only [Option.some.injEq] at h
      subst h
      exact ⟨id, fun hm => Memory.writeWord_wf _ a v hm (tapPlace_block a b hb), id, id, rfl⟩
    · simp at h
  · exact writeStation?_keeps _ _ v s s1 h
  · exact writeEntry?_keeps _ _ v s s1 h
  · simp at h
  · simp at h
  · simp at h

theorem advanceTap_keeps (s : State) : Keeps s s.advanceTap := Keeps.of_same rfl rfl rfl rfl rfl rfl rfl rfl

theorem setDout_keeps (v : Word) (s : State) : Keeps s { s with dout := v } := Keeps.of_same rfl rfl rfl rfl rfl rfl rfl rfl

theorem tapdataRead_keeps (s : State) : Keeps s s.tapdataRead := by
  unfold tapdataRead
  split
  · exact setDout_keeps _ s
  · split
    · exact (setDout_keeps _ s).trans (advanceTap_keeps _)
    · exact ((refuseAccess_keeps _ _ _ s).trans (setDout_keeps _ _)).trans (advanceTap_keeps _)

theorem tapdataWrite_keeps (v : Word) (s : State) : Keeps s (s.tapdataWrite v) := by
  unfold tapdataWrite
  split
  · exact Keeps.refl s
  · split
    · rename_i s1 h
      exact (tapWrite?_keeps _ v s s1 h).trans (advanceTap_keeps _)
    · exact (refuseAccess_keeps _ _ _ s).trans (advanceTap_keeps _)

/-! ## Commands -/

theorem allocBlockBody_keeps (s : State) : Keeps s s.allocBlockBody := by
  unfold allocBlockBody
  split
  · exact refuse_keeps _ s
  · exact (setOwner_keeps _ _ s).trans (complete_keeps _ _ _)

theorem freeBlockBody_keeps (s : State) : Keeps s s.freeBlockBody := by
  unfold freeBlockBody
  split
  · exact refuse_keeps _ s
  · split
    · exact (setOwner_keeps _ _ s).trans (complete_keeps _ _ _)
    · exact refuse_keeps _ s

theorem bindEntry_keeps (e : EntryIx) (a b : BlockIx) (s : State) : Keeps s (s.bindEntry e a b) :=
  ((modifyEntry_keeps e _ s).trans (setOwner_keeps _ _ _)).trans (setOwner_keeps _ _ _)

theorem bindOutputBody_keeps (s : State) : Keeps s s.bindOutputBody := by
  unfold bindOutputBody
  split
  · split
    · exact refuse_keeps _ s
    · split
      · exact refuse_keeps _ s
      · split
        · exact (bindEntry_keeps _ _ _ s).trans (complete_keeps _ _ _)
        · exact refuse_keeps _ s
  · exact refuse_keeps _ s

theorem noHold_lawful (im : Option (BlockIx × BlockIx)) (st : Station) (h : st.lawful = true) :
    ({ st with image := im, current := .a, imageLen := 0, nextLen := 0, hold := false, newer := false } : Station).lawful = true := by
  rw [Station.lawful_iff] at h ⊢
  exact ⟨h.1, h.2.1, h.2.2.1, by simp⟩

theorem bindStation_keeps (t : StationIx) (a b : BlockIx) (s : State) : Keeps s (s.bindStation t a b) := by
  unfold bindStation
  exact ((modifyStation_keeps t _ s (noHold_lawful _)).trans (setOwner_keeps _ _ _)).trans (setOwner_keeps _ _ _)

theorem bindImageBody_keeps (s : State) : Keeps s s.bindImageBody := by
  unfold bindImageBody
  split
  · split
    · exact refuse_keeps _ s
    · split
      · exact refuse_keeps _ s
      · split
        · exact (bindStation_keeps _ _ _ s).trans (complete_keeps _ _ _)
        · exact refuse_keeps _ s
  · exact refuse_keeps _ s

theorem unbindOutputBody_keeps (s : State) : Keeps s s.unbindOutputBody := by
  unfold unbindOutputBody
  split
  · exact refuse_keeps _ s
  · split
    · exact refuse_keeps _ s
    · split
      · exact refuse_keeps _ s
      · exact (((modifyEntry_keeps _ _ s).trans (setOwner_keeps _ _ _)).trans (setOwner_keeps _ _ _)).trans (complete_keeps _ _ _)

theorem unbindStation_keeps (t : StationIx) (p : BlockIx × BlockIx) (s : State) : Keeps s (s.unbindStation t p) := by
  unfold unbindStation
  exact ((modifyStation_keeps t _ s (noHold_lawful _)).trans (setOwner_keeps _ _ _)).trans (setOwner_keeps _ _ _)

theorem unbindImageBody_keeps (s : State) : Keeps s s.unbindImageBody := by
  unfold unbindImageBody
  split
  · exact refuse_keeps _ s
  · split
    · exact refuse_keeps _ s
    · split
      · exact refuse_keeps _ s
      · exact (unbindStation_keeps _ _ s).trans (complete_keeps _ _ _)

theorem commitOutputBody_keeps (s : State) : Keeps s s.commitOutputBody := by
  unfold commitOutputBody
  split
  · exact refuse_keeps _ s
  · split
    · exact refuse_keeps _ s
    · split
      · exact refuse_keeps _ s
      · split
        · exact refuse_keeps _ s
        · exact (modifyEntry_keeps _ _ s).trans (complete_keeps _ _ _)

theorem holdImageBody_keeps (s : State) : Keeps s s.holdImageBody := by
  unfold holdImageBody
  split
  · exact refuse_keeps _ s
  · split
    · exact refuse_keeps _ s
    · split
      · exact refuse_keeps _ s
      · refine (modifyStation_keeps _ (fun st => { st with hold := true }) s ?_).trans (complete_keeps _ _ _)
        intro st h
        rw [Station.lawful_iff] at h ⊢
        exact ⟨h.1, h.2.1, h.2.2.1, by simp⟩

theorem releaseFlip_keeps (t : StationIx) (p : BlockIx × BlockIx) (len : BitVec 6) (s : State) :
    Keeps s ((s.modifyStation t fun st => { st with hold := false }).flipImage t p len) := by
  refine Keeps.of_stations ?_ (by simp [flipImage, modifyStation]) (by simp [flipImage, modifyStation])
    (by simp [flipImage, modifyStation]) (by simp [flipImage, modifyStation]) (by simp [flipImage, modifyStation])
    (by simp [flipImage, modifyStation]) (by simp [flipImage, modifyStation])
  intro hs u
  have h := (Station.lawful_iff _).1 (hs t)
  simp only [flipImage, modifyStation, setOwner_station, station_setStation, if_true]
  split
  · rw [Station.lawful_iff]
    exact ⟨h.1, h.2.1, h.2.2.1, by simp⟩
  · exact hs u

/-- RELEASE_IMAGE keeps every law: a reply held back is flipped in, so NEWER does not stay without HOLD. -/
theorem releaseImageBody_keeps (s : State) : Keeps s s.releaseImageBody := by
  unfold releaseImageBody
  split
  · exact refuse_keeps _ s
  · rename_i t _
    split
    · exact refuse_keeps _ s
    · split
      · exact refuse_keeps _ s
      · simp only []
        split
        · refine Keeps.trans (Keeps.trans ?_ (flush_keeps _ _ (Groups.ok_cons (imageNotice_ok t _) Groups.ok_nil)))
            (complete_keeps _ _ _)
          exact releaseFlip_keeps t _ _ s
        · rename_i hn
          refine Keeps.trans (setStation_keeps t _ s ?_) (complete_keeps _ _ _)
          intro h
          rw [Station.lawful_iff] at h ⊢
          exact ⟨h.1, h.2.1, h.2.2.1, fun hw => absurd hw hn⟩

theorem fillSlot_keeps (k : SlotIx) (r : Request) (s : State) : Keeps s (s.fillSlot k r) := by
  unfold fillSlot lendReply
  split <;> exact Keeps.of_same rfl rfl rfl rfl rfl rfl rfl rfl

theorem submitBody_keeps (s : State) : Keeps s s.submitBody := by
  unfold submitBody
  split
  · exact refuse_keeps _ s
  · split
    · exact refuse_keeps _ s
    · exact refuse_keeps _ s
    · exact ((fillSlot_keeps _ _ s).trans (complete_keeps _ _ _)).trans (wakeIdle_keeps _ _)

theorem abortBody_keeps (s : State) : Keeps s s.abortBody := by
  unfold abortBody
  split
  · exact refuse_keeps _ s
  · rename_i k _
    split
    · exact refuse_keeps _ s
    · exact refuse_keeps _ s
    · exact refuse_keeps _ s
    · simp only []
      refine Keeps.trans (Keeps.trans (finishSlot_keeps k .aborted 0 s) ?_) (complete_keeps _ _ _)
      refine flush_keeps _ _ (Groups.ok_cons ?_ Groups.ok_nil)
      intro p hp
      rw [List.mem_singleton.1 hp]
      exact finishSlot_post k _ _ _
    · simp only []
      have h := (modifySlot_keeps k (fun sl => { sl with state := .abortPending }) s).trans (complete_keeps .ok 1 _)
      split
      · have h2 := stopTransaction_makes (s.slotLine k) .abort
          ((s.modifySlot k fun sl => { sl with state := .abortPending }).complete .ok 1)
        exact settle_keeps _ s _ ⟨h.trans h2.keeps, h2.posts⟩
      · exact h

theorem parkAtOnce_keeps (t : StationIx) (s : State) : Keeps s (s.parkAtOnce t) := by
  unfold parkAtOnce
  have h := parkNow_keeps t s
  exact h.1.trans (flush_keeps _ _ (Groups.ok_cons h.2.1 (Groups.ok_cons h.2.2 Groups.ok_nil)))

theorem parkBody_keeps (s : State) : Keeps s s.parkBody := by
  unfold parkBody
  split
  · exact refuse_keeps _ s
  · rename_i t _
    split
    · exact refuse_keeps _ s
    · simp only []
      have h := finishPendingOf_makes t .stationParked s
      have h1 := h.keeps.trans (flush_keeps [(s.finishPendingOf t .stationParked).2] _ (Groups.ok_cons h.posts Groups.ok_nil))
      split
      · have h2 := stopTransaction_makes (s.station t).line .park
          ((s.finishPendingOf t .stationParked).1.flush [(s.finishPendingOf t .stationParked).2])
        exact settle_keeps _ s _ ⟨h1.trans h2.keeps, h2.posts⟩
      · exact h1.trans (parkAtOnce_keeps t _)

theorem resumeStation_keeps (t : StationIx) (s : State) : Keeps s (s.resumeStation t) := by
  unfold resumeStation
  exact ((setStation_keeps t _ s (Station.toOnline_lawful _)).trans
    (flush_keeps _ _ (Groups.ok_cons (healthNotice_ok t _ _) Groups.ok_nil))).trans (complete_keeps _ _ _)

theorem resumeBody_keeps (s : State) : Keeps s s.resumeBody := by
  unfold resumeBody
  split
  · exact refuse_keeps _ s
  · split
    · exact refuse_keeps _ s
    · exact refuse_keeps _ s
    · split
      · exact resumeStation_keeps _ s
      · exact refuse_keeps _ s
    · exact resumeStation_keeps _ s

theorem clearCountersBody_keeps (s : State) : Keeps s s.clearCountersBody := by
  unfold clearCountersBody
  split
  · exact (mapStations_keeps _ s fun _ h => h).trans (complete_keeps _ _ _)
  · split
    · exact refuse_keeps _ s
    · exact (modifyStation_keeps _ Station.clearCounters s fun _ h => h).trans (complete_keeps _ _ _)

theorem requestBreak_keeps (n : LineId) (s : State) : Keeps s (s.requestBreak n) := by
  unfold requestBreak
  split
  · exact Keeps.refl s
  · have h := stopTransaction_makes n .brk (s.modifyLine n fun l => { l with breakRequest := true })
    exact settle_keeps n s _ ⟨(modifyLine_keeps n _ s).trans h.keeps, h.posts⟩

theorem lineBreakBody_keeps (s : State) : Keeps s s.lineBreakBody := by
  unfold lineBreakBody
  split
  · exact refuse_keeps _ s
  · split
    · exact refuse_keeps _ s
    · split
      · exact refuse_keeps _ s
      · exact requestBreak_keeps _ s

/-- The bodies a code can have. -/
theorem commandBody_mem (c : Word) : commandBody c ∈ [allocBlockBody, freeBlockBody, bindOutputBody, bindImageBody,
    unbindOutputBody, unbindImageBody, commitOutputBody, holdImageBody, releaseImageBody, submitBody, abortBody, parkBody,
    resumeBody, clearCountersBody, lineBreakBody, refuse .badCommand] := by
  unfold commandBody
  split <;> simp

/-- Every command body keeps every law. -/
theorem commandBody_keeps (c : Word) (s : State) : Keeps s (commandBody c s) := by
  have h := commandBody_mem c
  simp only [List.mem_cons, List.not_mem_nil, or_false] at h
  rcases h with h | h | h | h | h | h | h | h | h | h | h | h | h | h | h | h <;> rw [h]
  · exact allocBlockBody_keeps s
  · exact freeBlockBody_keeps s
  · exact bindOutputBody_keeps s
  · exact bindImageBody_keeps s
  · exact unbindOutputBody_keeps s
  · exact unbindImageBody_keeps s
  · exact commitOutputBody_keeps s
  · exact holdImageBody_keeps s
  · exact releaseImageBody_keeps s
  · exact submitBody_keeps s
  · exact abortBody_keeps s
  · exact parkBody_keeps s
  · exact resumeBody_keeps s
  · exact clearCountersBody_keeps s
  · exact lineBreakBody_keeps s
  · exact refuse_keeps _ s

theorem hostCommand_keeps (c : Word) (body : State → State) (s : State) (h : ∀ u, Keeps u (body u)) :
    Keeps s (s.hostCommand c body) := by
  unfold hostCommand
  split
  · exact Keeps.refl s
  · split
    · exact Keeps.of_same rfl rfl rfl rfl rfl rfl rfl rfl
    · exact (Keeps.of_same rfl rfl rfl rfl rfl rfl rfl rfl : Keeps s (s.takeCommand c)).trans (h _)

theorem cmdWrite_keeps (c : Word) (s : State) : Keeps s (s.cmdWrite c) := hostCommand_keeps c _ s (commandBody_keeps c)

/-! ## The register window -/

/-- A write of ITHRESH stores 1 to 7 (R176). -/
theorem narrowThresh_toNat (v : Word) : (narrowThresh v).toNat = max 1 (min 7 v.toNat) := by
  unfold narrowThresh
  split
  · rename_i h; subst h; rfl
  · rename_i h
    have : v.toNat ≠ 0 := fun h2 => h (BitVec.eq_of_toNat_eq h2)
    split
    · show 7 = _; omega
    · rw [BitVec.toNat_setWidth]; omega

/-- A write of EVTHRESH stores 1 to 64 (R143). -/
theorem narrowEvthresh_toNat (v : Word) : (narrowEvthresh v).toNat = max 1 (min 64 v.toNat) := by
  unfold narrowEvthresh
  split
  · rename_i h; subst h; rfl
  · rename_i h
    have : v.toNat ≠ 0 := fun h2 => h (BitVec.eq_of_toNat_eq h2)
    split
    · show 64 = _; omega
    · rw [BitVec.toNat_setWidth]; omega

theorem writeLineConfig_keeps (a : BitVec 6) (n : LineId) (f : Line → Line) (s : State) : Keeps s (s.writeLineConfig a n f) := by
  unfold writeLineConfig
  split
  · exact modifyLine_keeps n f s
  · exact refuseAccess_keeps _ _ _ s

theorem clearFlags_keeps (v : Word) (s : State) : Keeps s (s.clearFlags v) := by
  refine ⟨id, id, ?_, id, rfl⟩
  rintro ⟨h1, h2, h3, h4, h5⟩
  exact ⟨h1, h2, h3, by simp only [clearFlags, BitVec.getLsbD_and, h4]; rfl, by simp only [clearFlags, BitVec.getLsbD_and, h5]; rfl⟩

theorem evthreshWrite_keeps (v : Word) (s : State) : Keeps s (s.evthreshWrite v) := by
  refine ⟨id, id, ?_, id, rfl⟩
  rintro ⟨h1, h2, h3, h4, h5⟩
  have := narrowEvthresh_toNat v
  refine ⟨?_, ?_, h3, h4, h5⟩ <;> simp only [evthreshWrite] <;> omega

theorem storeThresh_keeps (v : Word) (s : State) : Keeps s (s.storeThresh v) := by
  refine ⟨id, id, ?_, id, rfl⟩
  rintro ⟨h1, h2, h3, h4, h5⟩
  have := narrowThresh_toNat v
  refine ⟨h1, h2, ?_, h4, h5⟩
  simp only [storeThresh]; omega

/-- A host write to the window keeps every law. -/
theorem writeRegister_keeps (a : BitVec 6) (v : Word) (s : State) : Keeps s (s.writeRegister a v) := by
  unfold writeRegister
  split
  · unfold devstatWrite
    split
    · exact Keeps.of_same rfl rfl rfl rfl rfl rfl rfl rfl
    · exact Keeps.refl s
  · exact modeRequest_keeps v s
  · unfold ctrlWrite
    split
    · exact controlReset_keeps s
    · exact Keeps.refl s
  · exact Keeps.of_same rfl rfl rfl rfl rfl rfl rfl rfl
  · exact tapdataWrite_keeps v s
  · exact cmdWrite_keeps v s
  · exact Keeps.of_same rfl rfl rfl rfl rfl rfl rfl rfl
  · exact Keeps.of_same rfl rfl rfl rfl rfl rfl rfl rfl
  · exact Keeps.of_same rfl rfl rfl rfl rfl rfl rfl rfl
  · exact Keeps.of_same rfl rfl rfl rfl rfl rfl rfl rfl
  · exact Keeps.of_same rfl rfl rfl rfl rfl rfl rfl rfl
  · exact evthreshWrite_keeps v s
  · exact Keeps.of_same rfl rfl rfl rfl rfl rfl rfl rfl
  · exact clearFlags_keeps v s
  · exact Keeps.of_same rfl rfl rfl rfl rfl rfl rfl rfl
  · exact Keeps.of_same rfl rfl rfl rfl rfl rfl rfl rfl
  · exact Keeps.of_same rfl rfl rfl rfl rfl rfl rfl rfl
  · exact Keeps.of_same rfl rfl rfl rfl rfl rfl rfl rfl
  · exact Keeps.of_same rfl rfl rfl rfl rfl rfl rfl rfl
  · exact storeThresh_keeps v s
  all_goals first
    | exact writeLineConfig_keeps _ _ _ s
    | exact refuseAccess_keeps _ _ _ s

theorem hostWrite_keeps (a : BitVec 6) (v : Word) (s : State) : Keeps s (s.hostWrite a v) := by
  unfold hostWrite
  split
  · exact Keeps.refl s
  · exact writeRegister_keeps a v s

theorem advanceDma_keeps (s : State) : Keeps s s.advanceDma := by
  unfold advanceDma
  split
  · simp only []
    split
    · exact (removeHead_keeps s).trans (raise_keeps _ _)
    · exact removeHead_keeps s
  · exact Keeps.of_same rfl rfl rfl rfl rfl rfl rfl rfl

theorem dmaRead_keeps (s : State) : Keeps s s.dmaRead := by
  unfold dmaRead
  split
  · exact (setDout_keeps _ s).trans (advanceDma_keeps _)
  · exact setDout_keeps _ s

end State

/-! ## Every command -/

theorem next_keeps {s t u : State} (h : (Host.Outcome.next t : Host.Outcome State Fault Refusal) = .next u) (k : Keeps s t) :
    Keeps s u := by
  cases h; exact k

/-- Every command that answers a next state keeps the laws of stations, memory, registers and the queue. -/
theorem exec_keeps (c : Instr) (s t : State) (h : exec c s = .next t) : Keeps s t := by
  cases c <;> simp only [exec] at h
  case hardReset => exact next_keeps h (State.hardReset_keeps s)
  case resetRelease => exact next_keeps h (Keeps.of_same rfl rfl rfl rfl rfl rfl rfl rfl)
  case clearingComplete =>
    refine next_keeps h ?_
    split
    · exact State.finishClearing_keeps s
    · exact Keeps.refl s
  case controlReset =>
    refine next_keeps h ?_
    unfold State.controlResetWrite
    split
    · exact Keeps.refl s
    · exact State.controlReset_keeps s
  case startConfirmed n =>
    refine next_keeps h ?_
    split
    · exact (State.modifyLine_keeps n _ s).trans (State.modifyLine_keeps n _ _)
    · exact Keeps.refl s
  case characterArrival n x =>
    refine next_keeps h ?_
    split
    · exact State.deliver_keeps n x s
    · exact Keeps.refl s
  case characterSent n =>
    refine next_keeps h ?_
    split
    · exact State.charSent_keeps n _ _ s
    · exact Keeps.refl s
  case replyWindowExpiry n =>
    refine next_keeps h ?_
    split
    · have h2 := State.endAttempt_makes n .timeout (s.setEngine n (restState s.mode))
      exact State.settle_keeps n s _ ⟨(State.setEngine_keeps n _ s).trans h2.keeps, h2.posts⟩
    · exact Keeps.refl s
  case gapLimitExceeded n =>
    refine next_keeps h ?_
    split
    · exact State.quietWait_keeps n _ s
    · exact Keeps.refl s
  case quietWaitEnd n =>
    refine next_keeps h ?_
    split
    · exact (State.setEngine_keeps n _ s).trans (State.endQuietWait_keeps n _)
    · exact Keeps.refl s
  case quietLimitExpiry n =>
    refine next_keeps h ?_
    split
    · exact ((State.setEngine_keeps n _ s).trans (State.countFault_keeps n true _)).trans (State.endQuietWait_keeps n _)
    · exact Keeps.refl s
  case turnaroundSatisfied n =>
    refine next_keeps h ?_
    split
    · simp only []
      split
      · exact (State.modifyLine_keeps n _ s).trans (State.turnaroundEnd_keeps n _)
      · exact State.modifyLine_keeps n _ s
    · exact Keeps.refl s
  case cycleStart n =>
    refine next_keeps h ?_
    split
    · exact State.expireTimer_keeps n s
    · exact Keeps.refl s
  case breakStart n => exact next_keeps h (State.startWaitingBreak_keeps n s)
  case breakLowEnd n =>
    refine next_keeps h ?_
    split
    · exact State.modifyLine_keeps n _ s
    · exact Keeps.refl s
  case lineBreakEnd n =>
    refine next_keeps h ?_
    split
    · exact State.breakEnd_keeps n s
    · exact Keeps.refl s
  case parkTakesEffect =>
    refine next_keeps h ?_
    split
    · exact Keeps.refl s
    · split
      · exact Keeps.refl s
      · exact State.parkAtOnce_keeps _ s
  case quiescedReached =>
    have h2 := State.reachQuiesced_makes s
    exact next_keeps h (h2.keeps.trans (State.flush_keeps _ _ (Groups.ok_cons h2.posts Groups.ok_nil)))
  case heldCompletionTaken => exact next_keeps h (State.takeHeld_keeps s)
  case modereqRun => exact next_keeps h (State.modeRequest_keeps _ s)
  case modereqQuiesce => exact next_keeps h (State.modeRequest_keeps _ s)
  case modereqConfig => exact next_keeps h (State.modeRequest_keeps _ s)
  case tapdataRead => exact next_keeps h (State.tapdataRead_keeps s)
  case tapdataWrite v => exact next_keeps h (State.tapdataWrite_keeps v s)
  case evrec3Read => exact next_keeps h ((State.setDout_keeps _ s).trans (State.removeHead_keeps _))
  case dmaRead => exact next_keeps h (State.dmaRead_keeps s)
  case linedivWrite n v => cases n <;> exact next_keeps h (State.hostWrite_keeps _ v s)
  case devstatWrite v => exact next_keeps h (State.hostWrite_keeps _ v s)
  case evlostWrite v => exact next_keeps h (State.hostWrite_keeps _ v s)
  case evthreshWrite v => exact next_keeps h (State.hostWrite_keeps _ v s)
  case dmactlWrite v => exact next_keeps h (State.hostWrite_keeps _ v s)
  case iflagWrite v => exact next_keeps h (State.hostWrite_keeps _ v s)
  case ilevelWrite r v => exact next_keeps h (State.hostWrite_keeps _ v s)
  case ithreshWrite v => exact next_keeps h (State.hostWrite_keeps _ v s)
  case registerWrite a v => exact next_keeps h (State.hostWrite_keeps a v s)
  case commandOverrun v => exact next_keeps h (State.cmdWrite_keeps v s)
  case badCommand v => exact next_keeps h (State.cmdWrite_keeps v s)
  case allocBlock => exact next_keeps h (State.hostCommand_keeps _ _ s State.allocBlockBody_keeps)
  case freeBlock => exact next_keeps h (State.hostCommand_keeps _ _ s State.freeBlockBody_keeps)
  case bindOutput => exact next_keeps h (State.hostCommand_keeps _ _ s State.bindOutputBody_keeps)
  case bindImage => exact next_keeps h (State.hostCommand_keeps _ _ s State.bindImageBody_keeps)
  case unbindOutput => exact next_keeps h (State.hostCommand_keeps _ _ s State.unbindOutputBody_keeps)
  case unbindImage => exact next_keeps h (State.hostCommand_keeps _ _ s State.unbindImageBody_keeps)
  case commitOutput => exact next_keeps h (State.hostCommand_keeps _ _ s State.commitOutputBody_keeps)
  case holdImage => exact next_keeps h (State.hostCommand_keeps _ _ s State.holdImageBody_keeps)
  case releaseImage => exact next_keeps h (State.hostCommand_keeps _ _ s State.releaseImageBody_keeps)
  case submit => exact next_keeps h (State.hostCommand_keeps _ _ s State.submitBody_keeps)
  case abort => exact next_keeps h (State.hostCommand_keeps _ _ s State.abortBody_keeps)
  case park => exact next_keeps h (State.hostCommand_keeps _ _ s State.parkBody_keeps)
  case resume => exact next_keeps h (State.hostCommand_keeps _ _ s State.resumeBody_keeps)
  case clearCounters => exact next_keeps h (State.hostCommand_keeps _ _ s State.clearCountersBody_keeps)
  case lineBreak => exact next_keeps h (State.hostCommand_keeps _ _ s State.lineBreakBody_keeps)
  case candidateStartBit n => exact next_keeps h (State.modifyLine_keeps n _ s)
  case startNotConfirmed n =>
    refine next_keeps h ?_
    split
    · exact State.modifyLine_keeps n _ s
    · exact Keeps.refl s
  case lineReturnsTo1 n => exact next_keeps h (State.modifyLine_keeps n _ s)

end Sys2Proof.Machine
end

