-- ==== Sys2Proof/Laws/Lines.lean ====
section
/-!
SUPPORT. The operations keep the laws of the line engines and of the mode request.
-/

namespace Sys2Proof.Machine

/-- The law of a line engine, spelled out. -/
theorem Line.lawful_iff (l : Line) : l.lawful = true ↔ l.faults.toNat ≤ 8 ∧ (l.faulted = false → l.faults.toNat < 8)
    ∧ (l.faulted = true → l.engine = .faulted ∨ l.engine = .breaking) ∧ (l.engine = .faulted → l.faulted = true)
    ∧ 15 ≤ l.div.toNat := by
  have h8 : Config.faultLimit = 8 := rfl
  simp only [Line.lawful, Bool.and_eq_true, Bool.or_eq_true, decide_eq_true_eq, Bool.not_eq_true', beq_iff_eq, bne_iff_ne,
    ne_eq, h8]
  cases l.faulted <;> simp [and_assoc]

/-- What an operation of line n may do to the lines, the mode and the mode request: the other line stays, an engine that is OFF stays OFF,
the engine's law is kept, and the mode stays or goes from QUIESCING to QUIESCED. -/
structure Works (n : LineId) (s t : State) : Prop where
  mode : (t.mode = s.mode ∧ t.pendingRequest = s.pendingRequest)
    ∨ (s.mode = .quiescing ∧ t.mode = .quiesced ∧ t.pendingRequest = none)
  other : ∀ m, m ≠ n → t.line m = s.line m
  enable : (t.line n).enable = (s.line n).enable
  off : (s.line n).engine = .off → (t.line n).engine = .off
  lawful : (s.line n).lawful = true → (t.line n).lawful = true

theorem Works.refl (n : LineId) (s : State) : Works n s s := ⟨Or.inl ⟨rfl, rfl⟩, fun _ _ => rfl, rfl, id, id⟩

theorem Works.trans {n : LineId} {s t u : State} (h : Works n s t) (k : Works n t u) : Works n s u := by
  refine ⟨?_, fun m hm => (k.other m hm).trans (h.other m hm), k.enable.trans h.enable, k.off ∘ h.off, k.lawful ∘ h.lawful⟩
  rcases h.mode with ⟨a, b⟩ | ⟨a, b, c⟩
  · rcases k.mode with ⟨d, e⟩ | ⟨d, e, f⟩
    · exact Or.inl ⟨d.trans a, e.trans b⟩
    · exact Or.inr ⟨a ▸ d, e, f⟩
  · rcases k.mode with ⟨d, e⟩ | ⟨d, e, f⟩
    · exact Or.inr ⟨a, d.trans b, e.trans c⟩
    · rw [b] at d; cases d

/-- An operation that leaves the lines, the mode and the mode request. -/
theorem Works.of_same {n : LineId} {s t : State} (h1 : t.mode = s.mode) (h2 : t.pendingRequest = s.pendingRequest)
    (h3 : t.line0 = s.line0) (h4 : t.line1 = s.line1) : Works n s t := by
  have h : ∀ m, t.line m = s.line m := by
    intro m; cases m
    · exact h3
    · exact h4
  exact ⟨Or.inl ⟨h1, h2⟩, fun m _ => h m, by rw [h], by rw [h]; exact id, by rw [h]; exact id⟩

/-- A change of line n alone. -/
theorem Works.of_line {n : LineId} {s : State} {l : Line} (h1 : l.enable = (s.line n).enable)
    (h2 : (s.line n).engine = .off → l.engine = .off) (h3 : (s.line n).lawful = true → l.lawful = true) :
    Works n s (s.setLine n l) := by
  refine ⟨by simp, ?_, by simpa using h1, by simpa using h2, by simpa using h3⟩
  intro m hm
  simp [Ne.symm hm]

/-- A change of line n that leaves what its law speaks of. -/
theorem Works.of_sameEngine {n : LineId} {s : State} {l : Line} (h1 : l.enable = (s.line n).enable)
    (h2 : l.engine = (s.line n).engine) (h3 : l.faulted = (s.line n).faulted) (h4 : l.faults = (s.line n).faults)
    (h5 : l.div = (s.line n).div) : Works n s (s.setLine n l) :=
  Works.of_line h1 (by rw [h2]; exact id) (by simp only [Line.lawful, h2, h3, h4, h5]; exact id)

/-- The engine of line n changes state while it is not faulted. -/
theorem Works.of_engine {n : LineId} {s : State} {l : Line} (h1 : l.enable = (s.line n).enable)
    (h2 : (s.line n).engine ≠ .off) (h3 : (s.line n).faulted = false) (h4 : l.faulted = false) (h5 : l.faults = (s.line n).faults)
    (h6 : l.div = (s.line n).div) (h7 : l.engine ≠ .faulted) : Works n s (s.setLine n l) := by
  refine Works.of_line h1 (fun h => absurd h h2) ?_
  intro h
  rw [Line.lawful_iff] at h ⊢
  rw [h5, h6]
  exact ⟨h.1, fun _ => h.2.1 h3, by simp [h4], fun h8 => absurd h8 h7, h.2.2.2.2⟩

/-- The laws of engines and requests follow one operation of a line. -/
theorem Works.engines {n : LineId} {s t : State} (h : Works n s t) (k : s.EnginesLawful) : t.EnginesLawful := by
  have hm : t.mode = .init ∨ t.mode = .config → s.mode = .init ∨ s.mode = .config := by
    rcases h.mode with ⟨a, _⟩ | ⟨_, b, _⟩
    · rw [a]; exact id
    · rw [b]; simp
  intro m
  by_cases hmn : m = n
  · subst hmn
    refine ⟨h.lawful (k m).1, ?_⟩
    intro hd
    refine h.off ((k m).2 ?_)
    rcases hd with hd | hd
    · exact Or.inl (h.enable ▸ hd)
    · exact Or.inr (hm hd)
  · rw [h.other m hmn]
    exact ⟨(k m).1, fun hd => (k m).2 (hd.imp_right hm)⟩

theorem Works.request {n : LineId} {s t : State} (h : Works n s t) (k : s.RequestLawful) : t.RequestLawful := by
  unfold State.RequestLawful at k ⊢
  rcases h.mode with ⟨a, b⟩ | ⟨_, b, c⟩
  · rw [a, b, k]
  · rw [b, c]; rfl

/-- A step of the queue or of another block, seen from a line. -/
theorem Works.line_eq {n : LineId} {s t : State} (h3 : t.line0 = s.line0) (h4 : t.line1 = s.line1) : t.line n = s.line n := by
  cases n
  · exact h3
  · exact h4

namespace State

/-! ## Operations that leave the lines and the mode -/

/-- The lines, the mode and the request are the old ones. -/
def SameLines (s t : State) : Prop :=
  t.mode = s.mode ∧ t.pendingRequest = s.pendingRequest ∧ t.line0 = s.line0 ∧ t.line1 = s.line1

theorem SameLines.refl (s : State) : SameLines s s := ⟨rfl, rfl, rfl, rfl⟩

theorem SameLines.trans {s t u : State} (h : SameLines s t) (k : SameLines t u) : SameLines s u :=
  ⟨k.1.trans h.1, k.2.1.trans h.2.1, k.2.2.1.trans h.2.2.1, k.2.2.2.trans h.2.2.2⟩

theorem SameLines.works {s t : State} (h : SameLines s t) (n : LineId) : Works n s t := Works.of_same h.1 h.2.1 h.2.2.1 h.2.2.2

theorem SameLines.line {s t : State} (h : SameLines s t) (n : LineId) : t.line n = s.line n := Works.line_eq h.2.2.1 h.2.2.2

theorem raise_same (x : Source) (s : State) : SameLines s (s.raise x) := ⟨rfl, rfl, rfl, rfl⟩

theorem modifyStation_same (t : StationIx) (f : Station → Station) (s : State) : SameLines s (s.modifyStation t f) :=
  ⟨rfl, rfl, rfl, rfl⟩

theorem modifyEntry_same (e : EntryIx) (f : Entry → Entry) (s : State) : SameLines s (s.modifyEntry e f) := ⟨rfl, rfl, rfl, rfl⟩

theorem modifySlot_same (k : SlotIx) (f : Slot → Slot) (s : State) : SameLines s (s.modifySlot k f) := ⟨rfl, rfl, rfl, rfl⟩

theorem setOwner_same (b : BlockIx) (o : Owner) (s : State) : SameLines s (s.setOwner b o) := ⟨rfl, rfl, rfl, rfl⟩

theorem offerNotice_same (e : Event) (s : State) : SameLines s (s.offerNotice e) := by
  obtain ⟨_, _, _, h⟩ := offerNotice_frame e s
  rw [h]; exact ⟨rfl, rfl, rfl, rfl⟩

theorem removeHead_same (s : State) : SameLines s s.removeHead := by
  obtain ⟨_, _, _, _, _, h⟩ := removeHead_frame s
  rw [h]; exact ⟨rfl, rfl, rfl, rfl⟩

theorem takeHeld_same (s : State) : SameLines s s.takeHeld := by
  obtain ⟨_, _, _, _, h⟩ := takeHeld_frame s
  rw [h]; exact ⟨rfl, rfl, rfl, rfl⟩

theorem flush_same (gs : Groups) (s : State) : SameLines s (s.flush gs) := by
  obtain ⟨_, _, _, _, _, _, _, h⟩ := flush_frame gs s
  rw [h]; exact ⟨rfl, rfl, rfl, rfl⟩

theorem finishSlots_same (o : OutcomeCode) (ks : List SlotIx) (s : State) : SameLines s (s.finishSlots o ks).1 := by
  obtain ⟨_, _, h⟩ := finishSlots_frame o ks s
  rw [h]; exact ⟨rfl, rfl, rfl, rfl⟩

theorem finishPendingOf_same (t : StationIx) (o : OutcomeCode) (s : State) : SameLines s (s.finishPendingOf t o).1 :=
  finishSlots_same o _ s

theorem deferSlot_same (k : SlotIx) (s : State) : SameLines s (s.deferSlot k).1 := by
  unfold deferSlot
  simp only []
  split
  · exact ⟨rfl, rfl, rfl, rfl⟩
  · exact ⟨rfl, rfl, rfl, rfl⟩

theorem completeSlot_same (k : SlotIx) (o : OutcomeCode) (len : BitVec 6) (s : State) : SameLines s (s.completeSlot k o len).1 := by
  unfold completeSlot
  split
  · exact deferSlot_same k s
  · exact ⟨rfl, rfl, rfl, rfl⟩

theorem resolveAbort_same (k : SlotIx) (o : OutcomeCode) (len : BitVec 6) (s : State) : SameLines s (s.resolveAbort k o len).1 := by
  have h : SameLines s (if o = .busy then s.countBusy k else s) := by
    split
    · exact ⟨rfl, rfl, rfl, rfl⟩
    · exact SameLines.refl s
  have h1 : ∀ (f : Slot → Slot) (u : State), SameLines u (u.modifySlot k f) := fun _ _ => ⟨rfl, rfl, rfl, rfl⟩
  have h2 : ∀ (x : OutcomeCode) (l : BitVec 6) (u : State), SameLines u (u.finishSlot k x l).1 := fun _ _ _ => ⟨rfl, rfl, rfl, rfl⟩
  unfold resolveAbort
  exact (h.trans (h1 _ _)).trans (h2 _ _ _)

theorem swapOutput_same (e : EntryIx) (s : State) : SameLines s (s.swapOutput e) := by
  obtain ⟨_, _, h⟩ := swapOutput_frame e s
  rw [h]; exact ⟨rfl, rfl, rfl, rfl⟩

theorem acceptImage_same (t : StationIx) (len : BitVec 6) (s : State) : SameLines s (s.acceptImage t len).1 := by
  unfold acceptImage
  simp only []
  split
  · exact SameLines.refl s
  · split
    · exact ⟨rfl, rfl, rfl, rfl⟩
    · exact ⟨rfl, rfl, rfl, rfl⟩

theorem writeImageByte_same (t : StationIx) (i : Fin 32) (v : Byte) (s : State) : SameLines s (s.writeImageByte t i v) := by
  unfold writeImageByte
  split
  · exact SameLines.refl s
  · split
    · exact ⟨rfl, rfl, rfl, rfl⟩
    · exact ⟨rfl, rfl, rfl, rfl⟩

theorem writeSlotByte_same (k : SlotIx) (i : Fin 32) (v : Byte) (s : State) : SameLines s (s.writeSlotByte k i v) := by
  unfold writeSlotByte
  split
  · exact SameLines.refl s
  · exact ⟨rfl, rfl, rfl, rfl⟩

theorem stationOutcome_same (t : StationIx) (o : OutcomeCode) (probe poll : Bool) (s : State) :
    SameLines s (s.stationOutcome t o probe poll).1 := by
  unfold stationOutcome
  simp only []
  split
  · exact SameLines.trans ⟨rfl, rfl, rfl, rfl⟩ (finishPendingOf_same t .stationOffline (raise .stationDown (s.setStation t _)))
  · exact ⟨rfl, rfl, rfl, rfl⟩

theorem parkNow_same (t : StationIx) (s : State) : SameLines s (s.parkNow t).1 := by
  unfold parkNow
  exact (SameLines.trans ⟨rfl, rfl, rfl, rfl⟩ (finishPendingOf_same t .stationParked (s.setStation t _))).trans
    ⟨rfl, rfl, rfl, rfl⟩

theorem parkIfWaiting_same (t : StationIx) (s : State) : SameLines s (s.parkIfWaiting t).1 := by
  unfold parkIfWaiting
  split
  · exact parkNow_same t s
  · exact SameLines.refl s

theorem recordAttempt_same (a : Attempt) (o : OutcomeCode) (s : State) : SameLines s (s.recordAttempt a o) := by
  unfold recordAttempt
  split <;> exact ⟨rfl, rfl, rfl, rfl⟩

theorem pollEnd_same (e : EntryIx) (t : StationIx) (probe : Bool) (a : Attempt) (o : OutcomeCode) (s : State) :
    SameLines s (s.pollEnd e t probe a o).1 := by
  unfold pollEnd
  simp only []
  have h3 : ∀ u : State, SameLines u (if o = .ok then u.acceptImage t (a.replyLen.getD 0) else (u, [])).1 := by
    intro u
    split
    · exact acceptImage_same t _ u
    · exact SameLines.refl u
  have h0 : SameLines s (s.modifyEntry e fun en => { en with last := o }) := ⟨rfl, rfl, rfl, rfl⟩
  exact ((h0.trans (stationOutcome_same t o probe true _)).trans (h3 _)).trans (parkIfWaiting_same t _)

theorem slotEnd_same (t : StationIx) (o : OutcomeCode) (resolve : State → State × List Post) (s : State)
    (h : ∀ u, SameLines u (resolve u).1) : SameLines s (s.slotEnd t o resolve).1 := by
  unfold slotEnd
  exact ((stationOutcome_same t o false false s).trans (h _)).trans (parkIfWaiting_same t _)

theorem acyclicEnd_same (k : SlotIx) (t : StationIx) (a : Attempt) (o : OutcomeCode) (s : State) :
    SameLines s (s.acyclicEnd k t a o).1 := by
  unfold acyclicEnd
  simp only []
  split
  · exact slotEnd_same t o _ s fun u => resolveAbort_same k o _ u
  · split
    · exact ⟨rfl, rfl, rfl, rfl⟩
    · exact slotEnd_same t o _ s fun u => completeSlot_same k o _ u

/-! ## Operations of one line -/

theorem modifyLine_works (n : LineId) (f : Line → Line) (s : State) (h : (f (s.line n)).enable = (s.line n).enable
    ∧ (f (s.line n)).engine = (s.line n).engine ∧ (f (s.line n)).faulted = (s.line n).faulted
    ∧ (f (s.line n)).faults = (s.line n).faults ∧ (f (s.line n)).div = (s.line n).div) : Works n s (s.modifyLine n f) :=
  Works.of_sameEngine h.1 h.2.1 h.2.2.1 h.2.2.2.1 h.2.2.2.2

theorem setAttempt_works (n : LineId) (a : Option Attempt) (s : State) : Works n s (s.setAttempt n a) :=
  Works.of_sameEngine rfl rfl rfl rfl rfl

theorem setEngine_works (n : LineId) (e : EngineState) (s : State) (h1 : (s.line n).engine ≠ .off)
    (h2 : (s.line n).faulted = false) (h3 : e ≠ .faulted) : Works n s (s.setEngine n e) :=
  Works.of_engine rfl h1 h2 h2 rfl rfl h3

@[simp] theorem setEngine_line (n : LineId) (e : EngineState) (s : State) :
    (s.setEngine n e).line n = { s.line n with engine := e } := by simp [setEngine, modifyLine]

@[simp] theorem setAttempt_line (n : LineId) (a : Option Attempt) (s : State) :
    (s.setAttempt n a).line n = { s.line n with attempt := a } := by simp [setAttempt, modifyLine]

@[simp] theorem modifyLine_line (n : LineId) (f : Line → Line) (s : State) : (s.modifyLine n f).line n = f (s.line n) := by
  simp [modifyLine]

theorem sendFrame_works (n : LineId) (a : Attempt) (cs : List TxChar) (s : State) (h1 : (s.line n).engine ≠ .off)
    (h2 : (s.line n).faulted = false) : Works n s (s.sendFrame n a cs) :=
  Works.of_engine rfl h1 h2 h2 rfl rfl (by simp)

theorem startAttempt_works (n : LineId) (number : Nat) (a : Attempt) (t : StationIx) (s : State)
    (h1 : (s.line n).engine ≠ .off) (h2 : (s.line n).faulted = false) : Works n s (s.startAttempt n number a t) := by
  unfold startAttempt
  simp only []
  have h : SameLines s (s.modifyStation t fun st => { st with seq := st.seq + 1 }) := ⟨rfl, rfl, rfl, rfl⟩
  exact (h.works n).trans (sendFrame_works n _ _ _ (by rw [h.line n]; exact h1) (by rw [h.line n]; exact h2))

theorem takeEntry_works (n : LineId) (e : EntryIx) (probe : Bool) (s : State) (h1 : (s.line n).engine ≠ .off)
    (h2 : (s.line n).faulted = false) : Works n s (s.takeEntry n e probe) := by
  unfold takeEntry
  simp only []
  have h3 : ∀ (u : State) (t : StationIx), SameLines s u →
      SameLines s (if probe then u.modifyStation t fun st => { st with probeDue := false } else u) := by
    intro u t hu
    split
    · exact hu.trans ⟨rfl, rfl, rfl, rfl⟩
    · exact hu
  have h := h3 _ ((s.swapOutput e).entry e).station (swapOutput_same e s)
  refine ((h.works n).trans (modifyLine_works n _ _ ⟨rfl, rfl, rfl, rfl, rfl⟩)).trans (startAttempt_works n _ _ _ _ ?_ ?_)
  · simp only [modifyLine_line, h.line n]; exact h1
  · simp only [modifyLine_line, h.line n]; exact h2

theorem takeSlot_works (n : LineId) (k : SlotIx) (s : State) (h1 : (s.line n).engine ≠ .off)
    (h2 : (s.line n).faulted = false) : Works n s (s.takeSlot n k) := by
  unfold takeSlot
  simp only []
  have h : SameLines s (s.setSlot k { s.slot k with state := .active }) := ⟨rfl, rfl, rfl, rfl⟩
  refine ((h.works n).trans (modifyLine_works n _ _ ⟨rfl, rfl, rfl, rfl, rfl⟩)).trans (startAttempt_works n _ _ _ _ ?_ ?_)
  · simp only [modifyLine_line, h.line n]; exact h1
  · simp only [modifyLine_line, h.line n]; exact h2

theorem takeSync_works (n : LineId) (s : State) (h1 : (s.line n).engine ≠ .off) (h2 : (s.line n).faulted = false) :
    Works n s (s.takeSync n) := by
  unfold takeSync
  refine (modifyLine_works n (fun l => { l with syncOwed := false }) s ⟨rfl, rfl, rfl, rfl, rfl⟩).trans
    (sendFrame_works n _ _ _ ?_ ?_)
  · simp only [modifyLine_line]; exact h1
  · simp only [modifyLine_line]; exact h2

/-- A break starts: a faulted line stays faulted until it ends (R44). -/
theorem startBreak_works (n : LineId) (s : State) (h1 : (s.line n).engine ≠ .off) : Works n s (s.startBreak n) := by
  refine Works.of_line rfl (fun h => absurd h h1) ?_
  intro h
  rw [Line.lawful_iff] at h ⊢
  exact ⟨h.1, h.2.1, fun _ => Or.inr rfl, by simp [Line.startBreak], h.2.2.2.2⟩

theorem acyclicChoice_works (n : LineId) (s : State) (h1 : (s.line n).engine ≠ .off) (h2 : (s.line n).faulted = false) :
    Works n s (s.acyclicChoice n) := by
  unfold acyclicChoice
  split
  · exact takeSlot_works n _ s h1 h2
  · exact setEngine_works n _ s h1 h2 (by decide)

theorem walkChoice_works (n : LineId) (s : State) (h1 : (s.line n).engine ≠ .off) (h2 : (s.line n).faulted = false) :
    Works n s (s.walkChoice n) := by
  unfold walkChoice
  split
  · exact takeEntry_works n _ _ s h1 h2
  · have h : Works n s (s.endCyclic n) :=
      (modifyLine_works n (fun l => { l with phase := .acyclic, walk := 64 }) s ⟨rfl, rfl, rfl, rfl, rfl⟩).trans
        (SameLines.works (raise_same _ _) n)
    have hl : (s.endCyclic n).line n = { s.line n with phase := .acyclic, walk := 64 } := by simp [endCyclic]
    refine h.trans (acyclicChoice_works n _ ?_ ?_)
    · rw [hl]; exact h1
    · rw [hl]; exact h2

theorem cyclicChoice_works (n : LineId) (s : State) (h1 : (s.line n).engine ≠ .off) (h2 : (s.line n).faulted = false) :
    Works n s (s.cyclicChoice n) := by
  unfold cyclicChoice
  split
  · exact takeSlot_works n _ s h1 h2
  · exact walkChoice_works n s h1 h2

theorem decisionPoint_works (n : LineId) (s : State) (h1 : (s.line n).engine ≠ .off) (h2 : (s.line n).faulted = false) :
    Works n s (s.decisionPoint n) := by
  unfold decisionPoint
  simp only []
  split
  · exact startBreak_works n s h1
  · split
    · exact takeSync_works n s h1 h2
    · split
      · exact cyclicChoice_works n s h1 h2
      · exact acyclicChoice_works n s h1 h2

/-- A lawful engine in a state that is neither FAULTED nor BREAKING is not faulted. -/
theorem not_faulted {l : Line} (h : l.lawful = true) (h1 : l.engine ≠ .faulted) (h2 : l.engine ≠ .breaking) :
    l.faulted = false := by
  cases hf : l.faulted
  · rfl
  · rcases ((Line.lawful_iff l).1 h).2.2.1 hf with h3 | h3
    · exact absurd h3 h1
    · exact absurd h3 h2

/-- A change whose law follows from a lawful engine alone. -/
theorem Works.of_lawful {n : LineId} {s t : State} (h : (s.line n).lawful = true → Works n s t)
    (k : ¬ (s.line n).lawful = true → Works n s t) : Works n s t := by
  by_cases hl : (s.line n).lawful = true
  · exact h hl
  · exact k hl

theorem endTransaction_works (n : LineId) (a : Attempt) (t : StationIx) (o : OutcomeCode) (s : State) :
    Works n s (s.endTransaction n a t o).1 := by
  unfold endTransaction
  simp only []
  have h := setAttempt_works n none s
  split
  · exact h.trans ((pollEnd_same _ t false a o _).works n)
  · exact h.trans ((pollEnd_same _ t true a o _).works n)
  · exact h.trans ((acyclicEnd_same _ t a o _).works n)
  · exact h

/-- What the end of a transaction leaves of its line: all but the record. -/
theorem endTransaction_line (n : LineId) (a : Attempt) (t : StationIx) (o : OutcomeCode) (s : State) :
    (s.endTransaction n a t o).1.line n = { s.line n with attempt := none } := by
  unfold endTransaction
  simp only []
  split
  · rw [(pollEnd_same _ t false a o _).line n]; simp
  · rw [(pollEnd_same _ t true a o _).line n]; simp
  · rw [(acyclicEnd_same _ t a o _).line n]; simp
  · simp

/-- What the end of an attempt leaves of its line: all but the record. -/
theorem endAttempt_line (n : LineId) (o : OutcomeCode) (s : State) :
    ∃ a, (s.endAttempt n o).1.line n = { s.line n with attempt := a } := by
  unfold endAttempt
  split
  · exact ⟨(s.line n).attempt, rfl⟩
  · rename_i a ha
    split
    · exact ⟨none, by simp⟩
    · rename_i t _
      simp only []
      have h : SameLines s ((s.modifyStation t (Station.countAttempt o)).recordAttempt a o) :=
        SameLines.trans ⟨rfl, rfl, rfl, rfl⟩ (recordAttempt_same a o _)
      split
      · exact ⟨_, by rw [setAttempt_line, h.line n]⟩
      · exact ⟨none, by rw [endTransaction_line, h.line n]⟩

theorem endAttempt_works (n : LineId) (o : OutcomeCode) (s : State) : Works n s (s.endAttempt n o).1 := by
  unfold endAttempt
  split
  · exact Works.refl n s
  · rename_i a ha
    split
    · exact setAttempt_works n _ s
    · rename_i t _
      simp only []
      have h : SameLines s ((s.modifyStation t (Station.countAttempt o)).recordAttempt a o) :=
        SameLines.trans ⟨rfl, rfl, rfl, rfl⟩ (recordAttempt_same a o _)
      split
      · exact (h.works n).trans (setAttempt_works n _ _)
      · exact (h.works n).trans (endTransaction_works n _ t o _)

theorem stopTransaction_works (n : LineId) (x : StopReason) (s : State) : Works n s (s.stopTransaction n x).1 := by
  unfold stopTransaction
  split
  · exact Works.refl n s
  · split
    · simp only []
      split
      · exact endTransaction_works n _ _ _ s
      · exact setAttempt_works n _ s
    · exact Works.refl n s

theorem stopTransaction_line (n : LineId) (x : StopReason) (s : State) :
    ∃ a, (s.stopTransaction n x).1.line n = { s.line n with attempt := a } := by
  unfold stopTransaction
  split
  · exact ⟨(s.line n).attempt, rfl⟩
  · split
    · simp only []
      split
      · exact ⟨none, endTransaction_line n _ _ _ s⟩
      · exact ⟨_, setAttempt_line n _ s⟩
    · exact ⟨(s.line n).attempt, rfl⟩

theorem startWaitingBreak_works (n : LineId) (s : State) : Works n s (s.startWaitingBreak n) := by
  unfold startWaitingBreak
  split
  · rename_i h
    refine startBreak_works n s ?_
    intro ho
    simp [Line.breakReady, ho] at h
  · exact Works.refl n s

theorem reachQuiesced_works (n : LineId) (s : State) : Works n s s.reachQuiesced.1 := by
  unfold reachQuiesced
  split
  · rename_i h
    have hl : ∀ m, (modeOccasion 0 0 { s with mode := .quiesced, pendingRequest := none }).1.line m = s.line m := by
      intro m; cases m <;> rfl
    exact ⟨Or.inr ⟨h.1, rfl, rfl⟩, fun m _ => hl m, by rw [hl], by rw [hl]; exact id, by rw [hl]; exact id⟩
  · exact Works.refl n s

theorem settle_works (n : LineId) (s : State) (r : State × Groups) (h : Works n s r.1) : Works n s (settle n r) := by
  unfold settle
  exact ((h.trans (startWaitingBreak_works n _)).trans (reachQuiesced_works n _)).trans ((flush_same _ _).works n)

/-- The line after its eighth fault (R44). -/
theorem enterFaulted_line (n : LineId) (s : State) : ∃ a, (s.enterFaulted n).line n = { s.line n with
    engine := .faulted, faulted := true, syncOwed := false, attempt := a } := by
  unfold enterFaulted
  exact ⟨_, by rw [(offerNotice_same _ _).line n, modifyLine_line]⟩

theorem enterFaulted_other (n m : LineId) (s : State) (h : m ≠ n) : (s.enterFaulted n).line m = s.line m := by
  unfold enterFaulted
  rw [(offerNotice_same _ _).line m]
  simp [modifyLine, Ne.symm h]

theorem enterFaulted_mode (n : LineId) (s : State) :
    (s.enterFaulted n).mode = s.mode ∧ (s.enterFaulted n).pendingRequest = s.pendingRequest := by
  unfold enterFaulted
  rw [(offerNotice_same _ _).1, (offerNotice_same _ _).2.1]
  simp [modifyLine]

/-- A counted fault, up to the eighth: the count, then what the notice and the source do elsewhere. -/
theorem countFault_eq (n : LineId) (q : Bool) (s : State) :
    ∃ u, SameLines (s.setLine n { s.line n with faults := (s.line n).faults + 1 }) u
      ∧ (¬ 8 ≤ ((s.line n).faults + 1).toNat → s.countFault n q = u)
      ∧ (8 ≤ ((s.line n).faults + 1).toNat → s.countFault n q = u.enterFaulted n) := by
  refine ⟨raise (.lineFault n) ((s.setLine n { s.line n with faults := (s.line n).faults + 1 }).offerNotice
    (lineFaultNotice n q ((s.line n).faults + 1))), (offerNotice_same _ _).trans (raise_same _ _), ?_, ?_⟩
  · intro h
    simp only [countFault, modifyLine, line_setLine, if_true, Config.faultLimit, if_neg h]
  · intro h
    simp only [countFault, modifyLine, line_setLine, if_true, Config.faultLimit, if_pos h]

/-- A counted line fault keeps the engine's law: the eighth faults it (R43, R44). -/
theorem countFault_works (n : LineId) (q : Bool) (s : State) (hl : (s.line n).lawful = true) (h1 : (s.line n).engine ≠ .off)
    (h2 : (s.line n).faulted = false) : Works n s (s.countFault n q) := by
  obtain ⟨a, b, c, d, e⟩ := (Line.lawful_iff _).1 hl
  have hlt := b h2
  have hf : ((s.line n).faults + 1).toNat = (s.line n).faults.toNat + 1 := by
    rw [BitVec.toNat_add]; exact Nat.mod_eq_of_lt (by simp; omega)
  obtain ⟨u, hu, h0, hc⟩ := countFault_eq n q s
  have hline : u.line n = { s.line n with faults := (s.line n).faults + 1 } := by rw [hu.line n]; simp
  have hother : ∀ m, m ≠ n → u.line m = s.line m := by
    intro m hm
    rw [hu.line m]
    simp [Ne.symm hm]
  have hmode : u.mode = s.mode ∧ u.pendingRequest = s.pendingRequest := by
    rw [hu.1, hu.2.1]; simp
  by_cases h8 : 8 ≤ ((s.line n).faults + 1).toNat
  · rw [hc h8]
    obtain ⟨a', ha⟩ := enterFaulted_line n u
    rw [hline] at ha
    refine ⟨Or.inl ⟨(enterFaulted_mode n u).1.trans hmode.1, (enterFaulted_mode n u).2.trans hmode.2⟩, ?_, ?_,
      fun ho => absurd ho h1, ?_⟩
    · intro m hm; rw [enterFaulted_other n m u hm, hother m hm]
    · rw [ha]
    · intro _
      rw [ha, Line.lawful_iff]
      exact ⟨by simp only [hf]; omega, by simp, fun _ => Or.inl rfl, fun _ => rfl, e⟩
  · rw [h0 h8]
    refine ⟨Or.inl hmode, hother, by rw [hline], fun ho => absurd ho h1, ?_⟩
    intro _
    rw [hline, Line.lawful_iff]
    exact ⟨by simp only [hf]; omega, fun _ => by simp only [hf] at h8 ⊢; omega, c, d, e⟩

/-- After a counted fault the engine is either in FAULTED or still not faulted. -/
theorem countFault_faulted (n : LineId) (q : Bool) (s : State) (h2 : (s.line n).faulted = false)
    (h3 : (s.line n).engine ≠ .off) (h : ((s.countFault n q).line n).engine ≠ .faulted) :
    ((s.countFault n q).line n).faulted = false ∧ ((s.countFault n q).line n).engine ≠ .off := by
  obtain ⟨u, hu, h0, hc⟩ := countFault_eq n q s
  have hline : u.line n = { s.line n with faults := (s.line n).faults + 1 } := by rw [hu.line n]; simp
  by_cases h8 : 8 ≤ ((s.line n).faults + 1).toNat
  · rw [hc h8] at h
    obtain ⟨a, ha⟩ := enterFaulted_line n u
    rw [ha] at h
    exact absurd rfl h
  · rw [h0 h8, hline]
    exact ⟨h2, h3⟩

theorem quietWait_works (n : LineId) (o : OutcomeCode) (s : State) (h1 : (s.line n).engine ≠ .off)
    (h2 : (s.line n).faulted = false) : Works n s (s.quietWait n o) :=
  Works.of_engine rfl h1 h2 h2 rfl rfl (by simp)

theorem endQuietWait_works (n : LineId) (s : State) : Works n s (s.endQuietWait n) := by
  unfold endQuietWait
  split
  · exact settle_works n s _ (Works.refl n s)
  · exact settle_works n s _ (endAttempt_works n _ s)

/-! ## Reception and the rows of the line engine -/

theorem restState_ne_off (m : Mode) : restState m ≠ .off := by cases m <;> decide

theorem restState_ne_faulted (m : Mode) : restState m ≠ .faulted := by cases m <;> decide

theorem storeReplyByte_same (a : Attempt) (i : Nat) (v : Byte) (s : State) : SameLines s (s.storeReplyByte a i v) := by
  unfold storeReplyByte
  split
  · split
    · exact writeImageByte_same _ _ v s
    · exact writeImageByte_same _ _ v s
    · exact writeSlotByte_same _ _ v s
    · exact SameLines.refl s
  · exact SameLines.refl s

theorem replyComplete_works (n : LineId) (a : Attempt) (v : Byte) (s : State) (h1 : (s.line n).engine ≠ .off)
    (h2 : (s.line n).faulted = false) : Works n s (s.replyComplete n a v) := by
  unfold replyComplete
  split
  · exact Works.refl n s
  · simp only []
    refine settle_works n s _ (((setAttempt_works n (some { a with received := a.received + 1 }) s).trans
      (setEngine_works n (restState s.mode) _ ?_ ?_ (restState_ne_faulted _))).trans (endAttempt_works n _ _))
    · simpa using h1
    · simpa using h2

theorem takeReplyChar_works (n : LineId) (a : Attempt) (v : Byte) (s : State) (h1 : (s.line n).engine ≠ .off)
    (h2 : (s.line n).faulted = false) : Works n s (s.takeReplyChar n a v) := by
  unfold takeReplyChar
  simp only []
  split
  · exact setAttempt_works n _ s
  · split
    · exact ((storeReplyByte_same a _ v s).works n).trans (setAttempt_works n _ _)
    · split
      · exact setAttempt_works n _ s
      · exact replyComplete_works n a v s h1 h2

theorem receiveChar_works (n : LineId) (c : RxChar) (s : State) (h1 : (s.line n).engine ≠ .off)
    (h2 : (s.line n).faulted = false) : Works n s (s.receiveChar n c) := by
  unfold receiveChar
  split
  · exact Works.refl n s
  · split
    · exact (setAttempt_works n _ s).trans (quietWait_works n _ _ (by simpa using h1) (by simpa using h2))
    · exact takeReplyChar_works n _ _ s h1 h2

theorem unsolicited_works (n : LineId) (s : State) : Works n s (s.unsolicited n) := by
  unfold unsolicited
  simp only []
  have h : Works n s (s.modifyLine n fun l => { l with unsol := satInc (s.line n).unsol, unsolMark := true }) :=
    modifyLine_works n _ s ⟨rfl, rfl, rfl, rfl, rfl⟩
  split
  · exact h
  · exact h.trans ((offerNotice_same _ _).works n)

theorem engineArrival_works (n : LineId) (c : RxChar) (s : State) (h : (s.line n).engine = .receiving → (s.line n).faulted = false) :
    Works n s (s.engineArrival n c) := by
  unfold engineArrival
  split
  · exact unsolicited_works n s
  · exact unsolicited_works n s
  · exact unsolicited_works n s
  · exact modifyLine_works n _ s ⟨rfl, rfl, rfl, rfl, rfl⟩
  · rename_i he
    exact receiveChar_works n c s (by rw [he]; decide) (h he)
  all_goals exact Works.refl n s

theorem deliver_works (n : LineId) (t : CharSamples) (s : State) (h : (s.line n).engine = .receiving → (s.line n).faulted = false) :
    Works n s (s.deliver n t) := by
  unfold deliver
  simp only []
  have h1 : ∀ (c : RxChar) (u : State), Works n u (u.countNoise n c) ∧ ((u.countNoise n c).line n).engine = (u.line n).engine
      ∧ ((u.countNoise n c).line n).faulted = (u.line n).faulted := by
    intro c u
    unfold countNoise
    split
    · exact ⟨modifyLine_works n _ u ⟨rfl, rfl, rfl, rfl, rfl⟩, by simp, by simp⟩
    · exact ⟨Works.refl n u, rfl, rfl⟩
  refine Works.trans (Works.trans (modifyLine_works n _ s ⟨rfl, rfl, rfl, rfl, rfl⟩) (h1 _ _).1) (engineArrival_works n _ _ ?_)
  rw [(h1 _ _).2.1, (h1 _ _).2.2]
  simpa using h

theorem startEvent_works (n : LineId) (s : State) (hl : (s.line n).engine = .idle ∨ (s.line n).engine = .awaitReply →
    (s.line n).faulted = false) : Works n s (s.startEvent n) := by
  unfold startEvent
  by_cases hi : (s.line n).engine = .idle ∨ (s.line n).engine = .awaitReply
  · have hne : (s.line n).engine ≠ .off := by rcases hi with h | h <;> rw [h] <;> decide
    refine Works.of_engine rfl hne (hl hi) (hl hi) rfl rfl ?_
    rcases hi with h | h <;> simp [h]
  · refine Works.of_sameEngine rfl ?_ rfl rfl rfl
    cases he : (s.line n).engine <;> simp_all

theorem frameSent_works (n : LineId) (a : Attempt) (s : State) (h1 : (s.line n).engine ≠ .off)
    (h2 : (s.line n).faulted = false) : Works n s (s.frameSent n a) := by
  unfold frameSent
  simp only []
  have hr : Works n s (s.modifyLine n Line.release) := modifyLine_works n _ s ⟨rfl, rfl, rfl, rfl, rfl⟩
  split
  · have hz : Works n (s.modifyLine n Line.release) ((s.modifyLine n Line.release).modifyLine n fun l => { l with faults := 0 }) := by
      refine Works.of_line rfl id ?_
      intro h
      rw [Line.lawful_iff] at h ⊢
      exact ⟨by simp, by simp, h.2.2.1, h.2.2.2.1, h.2.2.2.2⟩
    exact (hr.trans hz).trans (setEngine_works n _ _ (by simpa [Line.release] using h1) (by simpa [Line.release] using h2) (by decide))
  · exact settle_works n s _ ((hr.trans (setAttempt_works n _ _)).trans
      (setEngine_works n _ _ (by simpa [Line.release] using h1) (by simpa [Line.release] using h2) (restState_ne_faulted _)))

theorem collision_works (n : LineId) (s : State) (hl : (s.line n).lawful = true) (h1 : (s.line n).engine ≠ .off)
    (h2 : (s.line n).faulted = false) : Works n s (s.collision n) := by
  unfold collision
  simp only []
  have hr : Works n s (s.modifyLine n Line.release) := modifyLine_works n _ s ⟨rfl, rfl, rfl, rfl, rfl⟩
  have e1 : ((s.modifyLine n Line.release).line n).engine ≠ .off := by simpa [Line.release] using h1
  have e2 : ((s.modifyLine n Line.release).line n).faulted = false := by simpa [Line.release] using h2
  have h := hr.trans (countFault_works n false _ (hr.lawful hl) e1 e2)
  split
  · exact settle_works n s _ (h.trans (endAttempt_works n _ _))
  · rename_i hne
    have := countFault_faulted n false _ e2 e1 hne
    exact h.trans (quietWait_works n _ _ this.2 this.1)

theorem charSent_works (n : LineId) (a : Attempt) (c : TxChar) (s : State) (hl : (s.line n).lawful = true)
    (h1 : (s.line n).engine ≠ .off) (h2 : (s.line n).faulted = false) : Works n s (s.charSent n a c) := by
  unfold charSent
  simp only []
  have ha := setAttempt_works n (some { a with sent := a.sent + 1 }) s
  have e1 : ((s.setAttempt n (some { a with sent := a.sent + 1 })).line n).engine ≠ .off := by simpa using h1
  have e2 : ((s.setAttempt n (some { a with sent := a.sent + 1 })).line n).faulted = false := by simpa using h2
  split
  · split
    · exact ha.trans (frameSent_works n _ _ e1 e2)
    · exact ha.trans (modifyLine_works n _ _ ⟨rfl, rfl, rfl, rfl, rfl⟩)
  · exact ha.trans (collision_works n _ (ha.lawful hl) e1 e2)

theorem complete_same (r : ResultCode) (v : Word) (s : State) : SameLines s (s.complete r v) := ⟨rfl, rfl, rfl, rfl⟩

/-- The end of a break: the line is no longer faulted, its count is 0 (R49). -/
theorem breakEnd_works (n : LineId) (s : State) (h1 : (s.line n).engine ≠ .off) : Works n s (s.breakEnd n) := by
  unfold breakEnd
  simp only []
  have hb : Works n s (s.modifyLine n fun l => { l with
      drive := .released, faults := 0, faulted := false, rx := .waitHigh, settled := false, engine := restState s.mode }) := by
    refine Works.of_line rfl (fun h => absurd h h1) ?_
    intro h
    rw [Line.lawful_iff] at h ⊢
    exact ⟨by simp, by simp, by simp, fun h => absurd h (restState_ne_faulted _), h.2.2.2.2⟩
  refine settle_works n s _ ?_
  show Works n s (if _ then _ else _)
  split
  · exact hb.trans ((complete_same _ _ _).works n)
  · exact hb

theorem turnaroundEnd_works (n : LineId) (s : State) (h1 : (s.line n).engine ≠ .off) (h2 : (s.line n).faulted = false) :
    Works n s (s.turnaroundEnd n) := by
  unfold turnaroundEnd
  split
  · split
    · exact startAttempt_works n _ _ _ s h1 h2
    · exact Works.refl n s
  · split
    · exact decisionPoint_works n s h1 h2
    · exact settle_works n s _ (setEngine_works n _ s h1 h2 (by decide))
    all_goals exact Works.refl n s

/-! ## Cycle starts -/

theorem cycleAccounting_same (n : LineId) (old : Word) (c : CycleCase) (s : State) : SameLines s (s.cycleAccounting n old c).1 := by
  unfold cycleAccounting
  split <;> exact ⟨rfl, rfl, rfl, rfl⟩

theorem openCycle_works (n : LineId) (s : State) : Works n s (s.openCycle n) := by
  unfold openCycle
  exact (modifyLine_works n _ s ⟨rfl, rfl, rfl, rfl, rfl⟩).trans ((raise_same _ _).works n)

theorem cycleHandOver_works (n : LineId) (s : State) : Works n s (s.cycleHandOver n).1 := by
  have hi : ∀ i, SameLines s { s with freeIndex := i } := fun _ => ⟨rfl, rfl, rfl, rfl⟩
  have hs : ∀ u : State, SameLines u (u.stationsCycleStart n) := fun _ => ⟨rfl, rfl, rfl, rfl⟩
  unfold cycleHandOver
  split
  · exact (((hi _).works n).trans (stopTransaction_works n .cycle _)).trans ((hs _).works n)
  · exact (((hi _).works n).trans ((hs _).works n)).trans (stopTransaction_works n .cycle _)

theorem startHandOver_works (n : LineId) (c : CycleCase) (s : State) : Works n s (s.startHandOver n c).1 := by
  cases c
  · exact stopTransaction_works n .cycle s
  all_goals exact cycleHandOver_works n s

theorem wakeIdle_works (n : LineId) (s : State) (h : (s.line n).lawful = true) : Works n s (s.wakeIdle n) := by
  unfold wakeIdle
  split
  · rename_i hi
    refine decisionPoint_works n s (by rw [hi.2.1]; decide) (not_faulted h (by rw [hi.2.1]; decide) (by rw [hi.2.1]; decide))
  · exact Works.refl n s

theorem startCycle_works (n : LineId) (old : Word) (c : CycleCase) (s : State) (h : (s.line n).lawful = true) :
    Works n s (s.startCycle n old c) := by
  unfold startCycle
  simp only []
  have h1 : Works n s (settle n ((((s.cycleAccounting n old c).1.openCycle n).startHandOver n c).1,
      (s.cycleAccounting n old c).2 :: (((s.cycleAccounting n old c).1.openCycle n).startHandOver n c).2)) :=
    settle_works n s _ ((((cycleAccounting_same n old c s).works n).trans (openCycle_works n _)).trans (startHandOver_works n c _))
  have h2 : ∀ u : State, SameLines u (u.releaseDeferred n) := fun _ => ⟨rfl, rfl, rfl, rfl⟩
  have h3 := h1.trans ((h2 _).works n)
  exact h3.trans (wakeIdle_works n _ (h3.lawful h))

theorem loadTimer_works (n : LineId) (c : Word) (s : State) : Works n s (s.loadTimer n c) :=
  modifyLine_works n _ s ⟨rfl, rfl, rfl, rfl, rfl⟩

theorem expireTimer_works (n : LineId) (s : State) (h : (s.line n).lawful = true) : Works n s (s.expireTimer n) := by
  have h1 := loadTimer_works n ((s.line n).cycnum + 1) s
  exact h1.trans (startCycle_works n _ _ _ (h1.lawful h))

end State

end Sys2Proof.Machine
end

