-- ==== Sys2Proof/Laws/Modes.lean ====
section
/-!
SUPPORT. Every command keeps the laws of the line engines and of the mode request.
-/

namespace Sys2Proof.Machine

namespace State

/-- The laws of both engines and of the mode request. -/
def EngineLaws (s : State) : Prop := s.EnginesLawful ∧ s.RequestLawful

theorem works_laws {n : LineId} {s t : State} (h : Works n s t) (k : s.EngineLaws) : t.EngineLaws :=
  ⟨h.engines k.1, h.request k.2⟩

theorem same_laws {s t : State} (h : SameLines s t) (k : s.EngineLaws) : t.EngineLaws := works_laws (h.works .zero) k

theorem laws_lawful {s : State} (k : s.EngineLaws) (n : LineId) : (s.line n).lawful = true := (k.1 n).1

/-- A lawful engine in a working state may change state. -/
theorem laws_calm {s : State} (k : s.EngineLaws) (n : LineId) (h1 : (s.line n).engine ≠ .faulted)
    (h2 : (s.line n).engine ≠ .breaking) : (s.line n).faulted = false := not_faulted (laws_lawful k n) h1 h2

/-- In INIT and CONFIG both engines are OFF. -/
theorem laws_off {s : State} (k : s.EngineLaws) (h : s.mode = .init ∨ s.mode = .config) (n : LineId) :
    (s.line n).engine = .off := (k.1 n).2 (Or.inr h)

/-- A change of mode and request alone, to a mode other than INIT and CONFIG. -/
theorem setMode_laws (s : State) (m : Mode) (r : Option ModeRequest) (k : s.EnginesLawful) (h1 : m ≠ .init) (h2 : m ≠ .config)
    (h3 : r = if m = .quiescing then some .quiesce else none) :
    ({ s with mode := m, pendingRequest := r } : State).EngineLaws := by
  refine ⟨?_, h3⟩
  intro n
  have hl : ({ s with mode := m, pendingRequest := r } : State).line n = s.line n := by cases n <;> rfl
  rw [hl]
  refine ⟨(k n).1, ?_⟩
  rintro (h | h | h)
  · exact (k n).2 (Or.inl h)
  · exact absurd h h1
  · exact absurd h h2

/-! ## Requests -/

theorem modeOccasion_same (err : BitVec 4) (index : BitVec 6) (s : State) : SameLines s (s.modeOccasion err index).1 :=
  ⟨rfl, rfl, rfl, rfl⟩

theorem validationFailed_same (c : BitVec 4) (i : BitVec 6) (s : State) : SameLines s (s.validationFailed c i) := by
  unfold validationFailed
  exact (SameLines.trans ⟨rfl, rfl, rfl, rfl⟩ (modeOccasion_same c i { s with errCode := c, errIndex := i })).trans (flush_same _ _)

/-- An enabled line in RUN whose engine is OFF leaves OFF. -/
theorem leaveOff_laws (n : LineId) (s : State) (k : s.EngineLaws) (h1 : s.mode = .run) (h2 : (s.line n).enable = true)
    (h3 : (s.line n).engine = .off) : (s.leaveOff n).EngineLaws := by
  have hf := not_faulted (laws_lawful k n) (by rw [h3]; decide) (by rw [h3]; decide)
  obtain ⟨a, b, _, _, e⟩ := (Line.lawful_iff _).1 (laws_lawful k n)
  have hg : ∀ l : Line, l.enable = true → l.lawful = true → (s.setLine n l).EngineLaws := by
    intro l he hl
    refine ⟨?_, by have := k.2; simpa [RequestLawful] using this⟩
    intro m
    rw [line_setLine]
    split
    · refine ⟨hl, ?_⟩
      rintro (h | h)
      · rw [he] at h; cases h
      · simp only [setLine_mode, h1] at h; rcases h with h | h <;> cases h
    · have := k.1 m
      rw [setLine_mode]
      exact this
  unfold leaveOff
  split
  · exact hg _ h2 ((Line.lawful_iff _).2 ⟨a, b, fun _ => Or.inr rfl, by simp [Line.startBreak], e⟩)
  · exact hg _ h2 ((Line.lawful_iff _).2 ⟨a, b, fun h => absurd (hf.symm.trans h) (by decide), by simp, e⟩)

theorem works_mode {n : LineId} {s t : State} (h : Works n s t) (k : s.mode = .run) : t.mode = .run := by
  rcases h.mode with ⟨a, _⟩ | ⟨a, _, _⟩
  · exact a.trans k
  · rw [k] at a; cases a

theorem lineEntry_laws (n : LineId) (s : State) (k : s.EngineLaws) (h1 : s.mode = .run) (h3 : (s.line n).engine = .off) :
    (s.lineEntry n).EngineLaws ∧ (s.lineEntry n).mode = .run ∧ ∀ m, m ≠ n → (s.lineEntry n).line m = s.line m := by
  unfold lineEntry
  split
  · rename_i h2
    have hk := leaveOff_laws n s k h1 h2 h3
    have hm : (s.leaveOff n).mode = .run ∧ ∀ m, m ≠ n → (s.leaveOff n).line m = s.line m := by
      unfold leaveOff startBreak setEngine modifyLine
      split
      · exact ⟨by simpa using h1, fun m hm => by simp [Ne.symm hm]⟩
      · exact ⟨by simpa using h1, fun m hm => by simp [Ne.symm hm]⟩
    have hw := startCycle_works n 0 .startOfRunning (s.leaveOff n) (laws_lawful hk n)
    exact ⟨works_laws hw hk, works_mode hw hm.1, fun m h => (hw.other m h).trans (hm.2 m h)⟩
  · exact ⟨k, h1, fun _ _ => rfl⟩

theorem prepareLine_works (n : LineId) (s : State) : Works n s (s.prepareLine n) := by
  unfold prepareLine
  simp only []
  have h : Works n s (s.modifyLine n fun l => { l with walk := 0 }) := modifyLine_works n _ s ⟨rfl, rfl, rfl, rfl, rfl⟩
  split
  · exact h.trans (loadTimer_works n 0 _)
  · exact h

/-- RUN entry keeps the laws: the engines of enabled lines alone leave OFF (R22, R155). -/
theorem runEntry_laws (s : State) (k : s.EngineLaws) (h1 : s.mode = .config) : s.runEntry.EngineLaws := by
  unfold runEntry
  simp only []
  have hw0 := (prepareLine_works .zero { s with errCode := 0, errIndex := 0 })
  have hw1 := (prepareLine_works .one (({ s with errCode := 0, errIndex := 0 } : State).prepareLine .zero))
  have k0 : ({ s with errCode := 0, errIndex := 0 } : State).EngineLaws := same_laws ⟨rfl, rfl, rfl, rfl⟩ k
  have k1 := works_laws hw1 (works_laws hw0 k0)
  have hm1 : ((({ s with errCode := 0, errIndex := 0 } : State).prepareLine .zero).prepareLine .one).mode = .config := by
    rcases hw1.mode with ⟨a, _⟩ | ⟨a, _, _⟩ <;> rcases hw0.mode with ⟨b, _⟩ | ⟨b, b', _⟩
    · rw [a, b]; exact h1
    · rw [show ({ s with errCode := 0, errIndex := 0 } : State).mode = s.mode from rfl, h1] at b; cases b
    · rw [b, show ({ s with errCode := 0, errIndex := 0 } : State).mode = s.mode from rfl, h1] at a; cases a
    · rw [show ({ s with errCode := 0, errIndex := 0 } : State).mode = s.mode from rfl, h1] at b; cases b
  generalize ((({ s with errCode := 0, errIndex := 0 } : State).prepareLine .zero).prepareLine .one) = u at k1 hm1 ⊢
  have hoff := laws_off k1 (Or.inr hm1)
  have hreq : u.pendingRequest = none := by have := k1.2; rwa [RequestLawful, hm1] at this
  have hfin : ∀ (ks : List SlotIx) (v : State), SameLines v (v.finishSlots .cancelled ks).1 := fun ks v => finishSlots_same _ ks v
  have hmap : SameLines u (u.mapStations fun _ st => st.runEntry) := ⟨rfl, rfl, rfl, rfl⟩
  have hs := (hmap.trans (hfin ((u.mapStations fun _ st => st.runEntry).pendingList.filter
    (u.mapStations fun _ st => st.runEntry).invalidSlot) _)).trans (flush_same (u.entryNotices ++
      [((u.mapStations fun _ st => st.runEntry).finishSlots .cancelled ((u.mapStations fun _ st => st.runEntry).pendingList.filter
        (u.mapStations fun _ st => st.runEntry).invalidSlot)).2]) _)
  generalize State.flush _ _ = w at hs ⊢
  have k2 : ({ w with mode := .run } : State).EngineLaws := by
    have := setMode_laws w .run none (same_laws hs k1).1 (by decide) (by decide) (by simp)
    rwa [← hreq, ← hs.2.1] at this
  have ho2 : ∀ n, ({ w with mode := .run } : State).line n = u.line n := fun n => by rw [← hs.line n]; cases n <;> rfl
  have e0 := lineEntry_laws .zero { w with mode := .run } k2 rfl (by rw [ho2]; exact hoff _)
  have e1 := lineEntry_laws .one _ e0.1 e0.2.1 (by rw [e0.2.2 .one (by decide), ho2]; exact hoff _)
  exact same_laws ((modeOccasion_same 0 0 _).trans (flush_same _ _)) e1.1

theorem quiesceLine_works (n : LineId) (s : State) (k : (s.line n).lawful = true) : Works n s (s.quiesceLine n).1 := by
  unfold quiesceLine
  split
  · simp only []
    have h1 : Works n s (s.stopTimer n) := modifyLine_works n _ s ⟨rfl, rfl, rfl, rfl, rfl⟩
    have h := h1.trans (stopTransaction_works n .quiesce (s.stopTimer n))
    split
    · rename_i he
      have hne : ((((s.stopTimer n).stopTransaction n .quiesce).1).line n).engine ≠ .faulted
          ∧ ((((s.stopTimer n).stopTransaction n .quiesce).1).line n).engine ≠ .breaking
          ∧ ((((s.stopTimer n).stopTransaction n .quiesce).1).line n).engine ≠ .off := by
        rcases he.2 with e | e <;> rw [e] <;> decide
      exact h.trans (setEngine_works n .hold _ hne.2.2 (not_faulted (h.lawful k) hne.1 hne.2.1) (by decide))
    · exact h
  · exact Works.refl n s

theorem quiesce_laws (s : State) (k : s.EngineLaws) : s.quiesce.EngineLaws := by
  unfold quiesce
  simp only []
  have k0 := setMode_laws s .quiescing (some .quiesce) k.1 (by decide) (by decide) (by simp)
  have k1 := works_laws (quiesceLine_works .zero _ (laws_lawful k0 .zero)) k0
  have k2 := works_laws (quiesceLine_works .one _ (laws_lawful k1 .one)) k1
  exact same_laws (flush_same _ _) (works_laws (reachQuiesced_works .zero _) k2)

theorem resumeLine_works (n : LineId) (s : State) (k : (s.line n).lawful = true) : Works n s (s.resumeLine n) := by
  unfold resumeLine
  split
  · have h1 : Works n s (s.modifyLine n resumeEngine) := by
      by_cases hh : (s.line n).engine = .hold
      · have hne : (s.line n).engine ≠ .faulted ∧ (s.line n).engine ≠ .breaking := by rw [hh]; decide
        have hf := not_faulted k hne.1 hne.2
        refine Works.of_engine ?_ (by rw [hh]; decide) hf ?_ ?_ ?_ ?_
        · simp [resumeEngine, hh]
        · simp [resumeEngine, hh, hf]
        · simp [resumeEngine, hh]
        · simp [resumeEngine, hh]
        · simp only [resumeEngine, hh, if_true]; split <;> decide
      · refine modifyLine_works n _ s ?_
        simp [resumeEngine, hh]
    have h2 := h1.trans (loadTimer_works n ((s.line n).cycnum + 1) _)
    exact h2.trans (startCycle_works n _ _ _ (h2.lawful k))
  · exact Works.refl n s

theorem returnToRun_laws (s : State) (k : s.EngineLaws) (h : s.pendingRequest = none) : s.returnToRun.EngineLaws := by
  unfold returnToRun
  simp only []
  have k0 : ({ s with mode := .run } : State).EngineLaws := by
    have := setMode_laws s .run none k.1 (by decide) (by decide) (by simp)
    rwa [← h] at this
  have k1 := works_laws (resumeLine_works .zero _ (laws_lawful k0 .zero)) k0
  have k2 := works_laws (resumeLine_works .one _ (laws_lawful k1 .one)) k1
  exact same_laws ((modeOccasion_same 0 0 _).trans (flush_same _ _)) k2

/-- A line whose engine has been put in OFF is lawful. -/
theorem enterOff_lawful (l : Line) (h : l.lawful = true) : l.enterOff.lawful = true := by
  rw [Line.lawful_iff] at h ⊢
  exact ⟨by simp [Line.enterOff], by simp [Line.enterOff], by simp [Line.enterOff], by simp [Line.enterOff], h.2.2.2.2⟩

theorem enterConfig_laws (s : State) (k : s.EngineLaws) (h : s.pendingRequest = none) : s.enterConfig.EngineLaws := by
  unfold enterConfig
  simp only []
  have k1 : ((({ s with mode := .config } : State).modifyLine .zero Line.enterOff).modifyLine .one Line.enterOff).EngineLaws := by
    refine ⟨?_, by simp [RequestLawful, modifyLine, h]⟩
    intro n
    have hl : ((({ s with mode := .config } : State).modifyLine .zero Line.enterOff).modifyLine .one Line.enterOff).line n
        = (s.line n).enterOff := by cases n <;> rfl
    rw [hl]
    exact ⟨enterOff_lawful _ (laws_lawful k n), fun _ => rfl⟩
  have hd : ∀ u : State, SameLines u u.dropWaitingBreak := by
    intro u
    unfold dropWaitingBreak
    split
    · exact ⟨rfl, rfl, rfl, rfl⟩
    · exact SameLines.refl u
  have hs : ∀ (ks : List SlotIx) (u : State), SameLines u ((u.finishSlots .cancelled ks).1.flush [(u.finishSlots .cancelled ks).2]) :=
    fun ks u => (finishSlots_same _ ks u).trans (flush_same _ _)
  exact same_laws (((hd _).trans (hs _ _)).trans ((modeOccasion_same 0 0 _).trans (flush_same _ _))) k1

/-- A mode request keeps the laws of engines and requests. -/
theorem modeRequest_laws (v : Word) (s : State) (k : s.EngineLaws) : (s.modeRequest v).EngineLaws := by
  have hr : s.refuseRequest.EngineLaws := same_laws ⟨rfl, rfl, rfl, rfl⟩ k
  unfold modeRequest runFromConfig
  split
  · exact k
  · split
    · exact hr
    · rename_i hp
      have hp' : s.pendingRequest = none := by simpa using hp
      split
      · rename_i hc
        split
        · exact same_laws (validationFailed_same _ _ s) k
        · exact runEntry_laws s k hc.1
      · split
        · exact quiesce_laws s k
        · split
          · exact returnToRun_laws s k hp'
          · split
            · exact enterConfig_laws s k hp'
            · exact hr

/-! ## Resets -/

theorem controlReset_laws (s : State) (k : s.EngineLaws) : s.controlReset.EngineLaws := by
  rw [controlReset_eq]
  refine ⟨?_, rfl⟩
  intro n
  have h : ∀ l : Line, l.lawful = true → (resetLine l).lawful = true := fun l h => by
    have := enterOff_lawful l h
    rw [Line.lawful_iff] at this ⊢
    exact this
  cases n
  · exact ⟨h _ (laws_lawful k .zero), fun _ => rfl⟩
  · exact ⟨h _ (laws_lawful k .one), fun _ => rfl⟩

theorem hardReset_laws (s : State) : s.hardReset.EngineLaws := by
  refine ⟨?_, rfl⟩
  intro n
  have h : ∀ b, ({ Line.reset with rxd := b } : Line).lawful = true := by decide
  cases n
  · exact ⟨h _, fun _ => rfl⟩
  · exact ⟨h _, fun _ => rfl⟩

theorem finishClearing_laws (s : State) (k : s.EngineLaws) (h : s.mode = .init) : s.finishClearing.EngineLaws := by
  refine ⟨?_, ?_⟩
  · intro n
    have hl : s.finishClearing.line n = s.line n := by cases n <;> rfl
    rw [hl]
    exact ⟨laws_lawful k n, fun _ => laws_off k (Or.inl h) n⟩
  · have := k.2
    rw [RequestLawful, h] at this
    exact this

/-! ## The Table Access Port and the commands -/

theorem refuseAccess_same (sp : AccessSpace) (d : AccessDirection) (a : Word) (s : State) : SameLines s (s.refuseAccess sp d a) := by
  unfold refuseAccess
  split
  · exact SameLines.refl s
  · exact ⟨rfl, rfl, rfl, rfl⟩

theorem tapWrite?_same (a : Nat) (v : Word) (s s1 : State) (h : s.tapWrite? a v = some s1) : SameLines s s1 := by
  unfold tapWrite? at h
  split at h
  · split at h
    · simp only [Option.some.injEq] at h
      subst h
      exact ⟨rfl, rfl, rfl, rfl⟩
    · simp at h
  · unfold writeStation? at h
    split at h
    · split at h
      · simp only [Option.some.injEq] at h
        subst h
        unfold writeStationWord0
        exact SameLines.trans ⟨rfl, rfl, rfl, rfl⟩ (flush_same _ (s.setStation _ _))
      · simp only [Option.some.injEq] at h
        subst h
        exact ⟨rfl, rfl, rfl, rfl⟩
      · simp at h
    · simp at h
  · unfold writeEntry? at h
    split at h
    · simp only [Option.some.injEq] at h
      subst h
      exact ⟨rfl, rfl, rfl, rfl⟩
    · split at h
      · simp only [Option.some.injEq] at h
        subst h
        exact ⟨rfl, rfl, rfl, rfl⟩
      · simp at h
    · simp at h
  · simp at h
  · simp at h
  · simp at h

theorem tapdataRead_same (s : State) : SameLines s s.tapdataRead := by
  unfold tapdataRead
  split
  · exact ⟨rfl, rfl, rfl, rfl⟩
  · split
    · exact ⟨rfl, rfl, rfl, rfl⟩
    · exact (refuseAccess_same _ _ _ s).trans ⟨rfl, rfl, rfl, rfl⟩

theorem tapdataWrite_same (v : Word) (s : State) : SameLines s (s.tapdataWrite v) := by
  unfold tapdataWrite
  split
  · exact SameLines.refl s
  · split
    · rename_i s1 h
      exact (tapWrite?_same _ v s s1 h).trans ⟨rfl, rfl, rfl, rfl⟩
    · exact (refuseAccess_same _ _ _ s).trans ⟨rfl, rfl, rfl, rfl⟩

theorem releaseImageBody_same (s : State) : SameLines s s.releaseImageBody := by
  unfold releaseImageBody
  split
  · exact ⟨rfl, rfl, rfl, rfl⟩
  · rename_i t _
    split
    · exact ⟨rfl, rfl, rfl, rfl⟩
    · split
      · exact ⟨rfl, rfl, rfl, rfl⟩
      · simp only []
        have h1 : SameLines s (s.modifyStation t fun st => { st with hold := false }) := ⟨rfl, rfl, rfl, rfl⟩
        have h2 : ∀ (p : BlockIx × BlockIx) (len : BitVec 6) (u : State), SameLines u (u.flipImage t p len) := fun _ _ _ =>
          ⟨rfl, rfl, rfl, rfl⟩
        have h3 : ∀ (v : Word) (u : State), SameLines u (u.complete .ok v) := fun _ _ => ⟨rfl, rfl, rfl, rfl⟩
        split
        · exact ((h1.trans (h2 _ _ _)).trans (flush_same _ _)).trans (h3 _ _)
        · exact h1.trans (h3 _ _)

theorem refuse_same (r : ResultCode) (s : State) : SameLines s (s.refuse r) := ⟨rfl, rfl, rfl, rfl⟩

theorem bindOutputBody_same (s : State) : SameLines s s.bindOutputBody := by
  unfold bindOutputBody
  split
  · split
    · exact refuse_same _ s
    · split
      · exact refuse_same _ s
      · split
        · exact (((modifyEntry_same _ _ s).trans (setOwner_same _ _ _)).trans (setOwner_same _ _ _)).trans (complete_same _ _ _)
        · exact refuse_same _ s
  · exact refuse_same _ s

theorem bindImageBody_same (s : State) : SameLines s s.bindImageBody := by
  unfold bindImageBody
  split
  · split
    · exact refuse_same _ s
    · split
      · exact refuse_same _ s
      · split
        · exact (((modifyStation_same _ _ s).trans (setOwner_same _ _ _)).trans (setOwner_same _ _ _)).trans (complete_same _ _ _)
        · exact refuse_same _ s
  · exact refuse_same _ s

theorem unbindOutputBody_same (s : State) : SameLines s s.unbindOutputBody := by
  unfold unbindOutputBody
  split
  · exact refuse_same _ s
  · split
    · exact refuse_same _ s
    · split
      · exact refuse_same _ s
      · exact (((modifyEntry_same _ _ s).trans (setOwner_same _ _ _)).trans (setOwner_same _ _ _)).trans (complete_same _ _ _)

theorem unbindImageBody_same (s : State) : SameLines s s.unbindImageBody := by
  unfold unbindImageBody
  split
  · exact refuse_same _ s
  · split
    · exact refuse_same _ s
    · split
      · exact refuse_same _ s
      · exact (((modifyStation_same _ _ s).trans (setOwner_same _ _ _)).trans (setOwner_same _ _ _)).trans (complete_same _ _ _)

theorem commitOutputBody_same (s : State) : SameLines s s.commitOutputBody := by
  unfold commitOutputBody
  split
  · exact refuse_same _ s
  · split
    · exact refuse_same _ s
    · split
      · exact refuse_same _ s
      · split
        · exact refuse_same _ s
        · exact (modifyEntry_same _ _ s).trans (complete_same _ _ _)

theorem holdImageBody_same (s : State) : SameLines s s.holdImageBody := by
  unfold holdImageBody
  split
  · exact refuse_same _ s
  · split
    · exact refuse_same _ s
    · split
      · exact refuse_same _ s
      · exact (modifyStation_same _ _ s).trans (complete_same _ _ _)

theorem submitBody_laws (s : State) (k : s.EngineLaws) : s.submitBody.EngineLaws := by
  unfold submitBody
  split
  · exact same_laws (refuse_same _ s) k
  · split
    · exact same_laws (refuse_same _ s) k
    · exact same_laws (refuse_same _ s) k
    · have hf : ∀ (x : SlotIx) (r : Request), SameLines s (s.fillSlot x r) := by
        intro x r
        unfold fillSlot lendReply
        split <;> exact ⟨rfl, rfl, rfl, rfl⟩
      have hk : ∀ (x : SlotIx) (r : Request) (v : BitVec 16), ((s.fillSlot x r).complete .ok v).EngineLaws :=
        fun x r v => same_laws ((hf x r).trans (complete_same _ _ _)) k
      exact works_laws (wakeIdle_works _ _ (laws_lawful (hk _ _ _) _)) (hk _ _ _)

theorem abortBody_laws (s : State) (k : s.EngineLaws) : s.abortBody.EngineLaws := by
  unfold abortBody
  split
  · exact same_laws (refuse_same _ s) k
  · rename_i x _
    split
    · exact same_laws (refuse_same _ s) k
    · exact same_laws (refuse_same _ s) k
    · exact same_laws (refuse_same _ s) k
    · simp only []
      have h : SameLines s (s.finishSlot x .aborted 0).1 := ⟨rfl, rfl, rfl, rfl⟩
      exact same_laws ((h.trans (flush_same _ _)).trans (complete_same _ _ _)) k
    · simp only []
      have h : SameLines s ((s.modifySlot x fun sl => { sl with state := .abortPending }).complete .ok 1) := ⟨rfl, rfl, rfl, rfl⟩
      split
      · exact works_laws (settle_works _ _ _ (stopTransaction_works _ _ _)) (same_laws h k)
      · exact same_laws h k

theorem parkAtOnce_same (t : StationIx) (s : State) : SameLines s (s.parkAtOnce t) := by
  unfold parkAtOnce
  exact (parkNow_same t s).trans (flush_same _ _)

theorem parkBody_laws (s : State) (k : s.EngineLaws) : s.parkBody.EngineLaws := by
  unfold parkBody
  split
  · exact same_laws (refuse_same _ s) k
  · rename_i t _
    split
    · exact same_laws (refuse_same _ s) k
    · simp only []
      have k1 := same_laws ((finishPendingOf_same t .stationParked s).trans
        (flush_same [(s.finishPendingOf t .stationParked).2] _)) k
      split
      · exact works_laws (settle_works _ _ _ (stopTransaction_works _ _ _)) k1
      · exact same_laws (parkAtOnce_same t _) k1

theorem resumeStation_same (t : StationIx) (s : State) : SameLines s (s.resumeStation t) := by
  unfold resumeStation
  exact (SameLines.trans ⟨rfl, rfl, rfl, rfl⟩ (flush_same _ (s.setStation t _))).trans (complete_same _ _ _)

theorem requestBreak_works (n : LineId) (s : State) : Works n s (s.requestBreak n) := by
  unfold requestBreak
  split
  · exact Works.refl n s
  · have h : Works n s (s.modifyLine n fun l => { l with breakRequest := true }) :=
      modifyLine_works n _ s ⟨rfl, rfl, rfl, rfl, rfl⟩
    exact settle_works n s _ (h.trans (stopTransaction_works n .brk _))

/-- Every command body keeps the laws of engines and requests. -/
theorem commandBody_laws (c : Word) (s : State) (k : s.EngineLaws) : (commandBody c s).EngineLaws := by
  have h := commandBody_mem c
  simp only [List.mem_cons, List.not_mem_nil, or_false] at h
  rcases h with h | h | h | h | h | h | h | h | h | h | h | h | h | h | h | h <;> rw [h]
  · unfold allocBlockBody
    refine same_laws ?_ k
    split <;> exact ⟨rfl, rfl, rfl, rfl⟩
  · unfold freeBlockBody
    refine same_laws ?_ k
    split
    · exact ⟨rfl, rfl, rfl, rfl⟩
    · split <;> exact ⟨rfl, rfl, rfl, rfl⟩
  · exact same_laws (bindOutputBody_same s) k
  · exact same_laws (bindImageBody_same s) k
  · exact same_laws (unbindOutputBody_same s) k
  · exact same_laws (unbindImageBody_same s) k
  · exact same_laws (commitOutputBody_same s) k
  · exact same_laws (holdImageBody_same s) k
  · exact same_laws (releaseImageBody_same s) k
  · exact submitBody_laws s k
  · exact abortBody_laws s k
  · exact parkBody_laws s k
  · unfold resumeBody
    refine same_laws ?_ k
    split
    · exact ⟨rfl, rfl, rfl, rfl⟩
    · split
      · exact ⟨rfl, rfl, rfl, rfl⟩
      · exact ⟨rfl, rfl, rfl, rfl⟩
      · split
        · exact resumeStation_same _ s
        · exact ⟨rfl, rfl, rfl, rfl⟩
      · exact resumeStation_same _ s
  · unfold clearCountersBody
    refine same_laws ?_ k
    repeat' split
    all_goals exact ⟨rfl, rfl, rfl, rfl⟩
  · unfold lineBreakBody
    split
    · exact same_laws (refuse_same _ s) k
    · split
      · exact same_laws (refuse_same _ s) k
      · split
        · exact same_laws (refuse_same _ s) k
        · exact works_laws (requestBreak_works _ s) k
  · exact same_laws (refuse_same _ s) k

theorem hostCommand_laws (c : Word) (body : State → State) (s : State) (k : s.EngineLaws)
    (h : ∀ u : State, u.EngineLaws → (body u).EngineLaws) : (s.hostCommand c body).EngineLaws := by
  unfold hostCommand
  split
  · exact k
  · split
    · exact same_laws ⟨rfl, rfl, rfl, rfl⟩ k
    · exact h _ (same_laws ⟨rfl, rfl, rfl, rfl⟩ k)

theorem cmdWrite_laws (c : Word) (s : State) (k : s.EngineLaws) : (s.cmdWrite c).EngineLaws :=
  hostCommand_laws c _ s k (commandBody_laws c)

/-! ## The register window -/

/-- A line configuration write in CONFIG, where the engine is OFF. -/
theorem writeLineConfig_laws (a : BitVec 6) (n : LineId) (f : Line → Line) (s : State) (k : s.EngineLaws)
    (h : ∀ l : Line, l.engine = .off → l.lawful = true → (f l).engine = .off ∧ (f l).lawful = true) :
    (s.writeLineConfig a n f).EngineLaws := by
  unfold writeLineConfig
  split
  · rename_i hm
    have hf := h _ (laws_off k (Or.inr hm) n) (laws_lawful k n)
    refine ⟨?_, by have := k.2; simpa [RequestLawful, modifyLine] using this⟩
    intro m
    simp only [modifyLine, line_setLine, setLine_mode]
    split
    · exact ⟨hf.2, fun _ => hf.1⟩
    · exact k.1 m
  · exact same_laws (refuseAccess_same _ _ _ s) k

theorem storeCfg_lawful (v : Word) (l : Line) (h : l.engine = .off) (k : l.lawful = true) :
    (l.storeCfg v).engine = .off ∧ (l.storeCfg v).lawful = true := ⟨h, k⟩

theorem storeTime_lawful (v : Word) (l : Line) (h : l.engine = .off) (k : l.lawful = true) :
    (l.storeTime v).engine = .off ∧ (l.storeTime v).lawful = true := ⟨h, k⟩

theorem storePeriod_lawful (v : Word) (l : Line) (h : l.engine = .off) (k : l.lawful = true) :
    (l.storePeriod v).engine = .off ∧ (l.storePeriod v).lawful = true := ⟨h, k⟩

/-- LINEnDIV never holds less than 15 (R3). -/
theorem storeDiv_lawful (v : Word) (l : Line) (h : l.engine = .off) (k : l.lawful = true) :
    (l.storeDiv v).engine = .off ∧ (l.storeDiv v).lawful = true := by
  refine ⟨h, ?_⟩
  rw [Line.lawful_iff] at k ⊢
  refine ⟨k.1, k.2.1, k.2.2.1, k.2.2.2.1, ?_⟩
  simp only [Line.storeDiv]
  split
  · decide
  · omega

theorem writeRegister_laws (a : BitVec 6) (v : Word) (s : State) (k : s.EngineLaws) : (s.writeRegister a v).EngineLaws := by
  unfold writeRegister
  split
  · unfold devstatWrite
    split
    · exact same_laws ⟨rfl, rfl, rfl, rfl⟩ k
    · exact k
  · exact modeRequest_laws v s k
  · unfold ctrlWrite
    split
    · exact controlReset_laws s k
    · exact k
  · exact same_laws ⟨rfl, rfl, rfl, rfl⟩ k
  · exact same_laws (tapdataWrite_same v s) k
  · exact cmdWrite_laws v s k
  · exact same_laws ⟨rfl, rfl, rfl, rfl⟩ k
  · exact same_laws ⟨rfl, rfl, rfl, rfl⟩ k
  · exact same_laws ⟨rfl, rfl, rfl, rfl⟩ k
  · exact same_laws ⟨rfl, rfl, rfl, rfl⟩ k
  · exact same_laws ⟨rfl, rfl, rfl, rfl⟩ k
  · exact same_laws ⟨rfl, rfl, rfl, rfl⟩ k
  · exact same_laws ⟨rfl, rfl, rfl, rfl⟩ k
  · exact same_laws ⟨rfl, rfl, rfl, rfl⟩ k
  · exact same_laws ⟨rfl, rfl, rfl, rfl⟩ k
  · exact same_laws ⟨rfl, rfl, rfl, rfl⟩ k
  · exact same_laws ⟨rfl, rfl, rfl, rfl⟩ k
  · exact same_laws ⟨rfl, rfl, rfl, rfl⟩ k
  · exact same_laws ⟨rfl, rfl, rfl, rfl⟩ k
  · exact same_laws ⟨rfl, rfl, rfl, rfl⟩ k
  · exact writeLineConfig_laws a .zero _ s k (storeCfg_lawful v)
  · exact writeLineConfig_laws a .zero _ s k (storeDiv_lawful v)
  · exact writeLineConfig_laws a .zero _ s k (storeTime_lawful v)
  · exact writeLineConfig_laws a .zero _ s k (storePeriod_lawful v)
  · exact writeLineConfig_laws a .one _ s k (storeCfg_lawful v)
  · exact writeLineConfig_laws a .one _ s k (storeDiv_lawful v)
  · exact writeLineConfig_laws a .one _ s k (storeTime_lawful v)
  · exact writeLineConfig_laws a .one _ s k (storePeriod_lawful v)
  · exact same_laws (refuseAccess_same _ _ _ s) k

theorem hostWrite_laws (a : BitVec 6) (v : Word) (s : State) (k : s.EngineLaws) : (s.hostWrite a v).EngineLaws := by
  unfold hostWrite
  split
  · exact k
  · exact writeRegister_laws a v s k

theorem dmaRead_same (s : State) : SameLines s s.dmaRead := by
  have h : ∀ u : State, SameLines u u.advanceDma := by
    intro u
    unfold advanceDma
    split
    · simp only []
      split
      · exact (removeHead_same u).trans (raise_same _ _)
      · exact removeHead_same u
    · exact ⟨rfl, rfl, rfl, rfl⟩
  unfold dmaRead
  split
  · exact SameLines.trans ⟨rfl, rfl, rfl, rfl⟩ (h _)
  · exact ⟨rfl, rfl, rfl, rfl⟩

end State

/-! ## Every command -/

open State in
theorem next_laws {t u : State} (h : (Host.Outcome.next t : Host.Outcome State Fault Refusal) = .next u) (k : t.EngineLaws) :
    u.EngineLaws := by
  cases h; exact k

open State in
/-- Every command that answers a next state keeps the laws of engines and requests. -/
theorem exec_engineLaws (c : Instr) (s t : State) (h : exec c s = .next t) (k : s.EngineLaws) : t.EngineLaws := by
  have calm := fun n h1 h2 => laws_calm k n h1 h2
  cases c <;> simp only [exec] at h
  case hardReset => exact next_laws h (hardReset_laws s)
  case resetRelease => exact next_laws h (same_laws ⟨rfl, rfl, rfl, rfl⟩ k)
  case clearingComplete =>
    refine next_laws h ?_
    split
    · rename_i hm; exact finishClearing_laws s k hm.1
    · exact k
  case controlReset =>
    refine next_laws h ?_
    unfold controlResetWrite
    split
    · exact k
    · exact controlReset_laws s k
  case startConfirmed n =>
    refine next_laws h ?_
    split
    · have h1 : Works n s (s.modifyLine n fun l => { l with rx := .assembling }) := modifyLine_works n _ s ⟨rfl, rfl, rfl, rfl, rfl⟩
      have k1 := works_laws h1 k
      refine works_laws (startEvent_works n _ fun he => laws_calm k1 n ?_ ?_) k1
      · rcases he with he | he <;> rw [he] <;> decide
      · rcases he with he | he <;> rw [he] <;> decide
    · exact k
  case characterArrival n x =>
    refine next_laws h ?_
    split
    · exact works_laws (deliver_works n x s fun he => calm n (by rw [he]; decide) (by rw [he]; decide)) k
    · exact k
  case characterSent n =>
    refine next_laws h ?_
    split
    · rename_i he _ _
      exact works_laws (charSent_works n _ _ s (laws_lawful k n) (by rw [he]; decide)
        (calm n (by rw [he]; decide) (by rw [he]; decide))) k
    · exact k
  case replyWindowExpiry n =>
    refine next_laws h ?_
    split
    · rename_i he
      exact works_laws (settle_works n s _ ((setEngine_works n (restState s.mode) s (by rw [he]; decide)
        (calm n (by rw [he]; decide) (by rw [he]; decide)) (restState_ne_faulted _)).trans (endAttempt_works n _ _))) k
    · exact k
  case gapLimitExceeded n =>
    refine next_laws h ?_
    split
    · rename_i he
      exact works_laws (quietWait_works n _ s (by rw [he.1]; decide) (calm n (by rw [he.1]; decide) (by rw [he.1]; decide))) k
    · exact k
  case quietWaitEnd n =>
    refine next_laws h ?_
    split
    · rename_i he
      exact works_laws ((setEngine_works n (restState s.mode) s (by rw [he.1]; decide)
        (calm n (by rw [he.1]; decide) (by rw [he.1]; decide)) (restState_ne_faulted _)).trans (endQuietWait_works n _)) k
    · exact k
  case quietLimitExpiry n =>
    refine next_laws h ?_
    split
    · rename_i he
      have h1 := setEngine_works n (restState s.mode) s (by rw [he]; decide)
        (calm n (by rw [he]; decide) (by rw [he]; decide)) (restState_ne_faulted _)
      refine works_laws ((h1.trans (countFault_works n true _ (h1.lawful (laws_lawful k n)) ?_ ?_)).trans (endQuietWait_works n _)) k
      · rw [setEngine_line]; exact restState_ne_off _
      · rw [setEngine_line]; exact calm n (by rw [he]; decide) (by rw [he]; decide)
    · exact k
  case turnaroundSatisfied n =>
    refine next_laws h ?_
    split
    · simp only []
      have h1 : Works n s (s.modifyLine n fun l => { l with settled := true }) := modifyLine_works n _ s ⟨rfl, rfl, rfl, rfl, rfl⟩
      split
      · rename_i he
        refine works_laws (h1.trans (turnaroundEnd_works n _ ?_ ?_)) k
        · rw [modifyLine_line]; show (s.line n).engine ≠ .off; rw [he]; decide
        · rw [modifyLine_line]; exact calm n (by rw [he]; decide) (by rw [he]; decide)
      · exact works_laws h1 k
    · exact k
  case cycleStart n =>
    refine next_laws h ?_
    split
    · exact works_laws (expireTimer_works n s (laws_lawful k n)) k
    · exact k
  case breakStart n => exact next_laws h (works_laws (startWaitingBreak_works n s) k)
  case breakLowEnd n =>
    refine next_laws h ?_
    split
    · exact works_laws (modifyLine_works n _ s ⟨rfl, rfl, rfl, rfl, rfl⟩) k
    · exact k
  case lineBreakEnd n =>
    refine next_laws h ?_
    split
    · rename_i he
      exact works_laws (breakEnd_works n s (by rw [he.1]; decide)) k
    · exact k
  case parkTakesEffect =>
    refine next_laws h ?_
    split
    · exact k
    · split
      · exact k
      · exact same_laws (parkAtOnce_same _ s) k
  case quiescedReached => exact next_laws h (same_laws (flush_same _ _) (works_laws (reachQuiesced_works .zero s) k))
  case heldCompletionTaken => exact next_laws h (same_laws (takeHeld_same s) k)
  case modereqRun => exact next_laws h (modeRequest_laws _ s k)
  case modereqQuiesce => exact next_laws h (modeRequest_laws _ s k)
  case modereqConfig => exact next_laws h (modeRequest_laws _ s k)
  case tapdataRead => exact next_laws h (same_laws (tapdataRead_same s) k)
  case tapdataWrite v => exact next_laws h (same_laws (tapdataWrite_same v s) k)
  case evrec3Read => exact next_laws h (same_laws (SameLines.trans ⟨rfl, rfl, rfl, rfl⟩ (removeHead_same { s with dout := s.headWord 3 })) k)
  case dmaRead => exact next_laws h (same_laws (dmaRead_same s) k)
  case linedivWrite n v => cases n <;> exact next_laws h (hostWrite_laws _ v s k)
  case devstatWrite v => exact next_laws h (hostWrite_laws _ v s k)
  case evlostWrite v => exact next_laws h (hostWrite_laws _ v s k)
  case evthreshWrite v => exact next_laws h (hostWrite_laws _ v s k)
  case dmactlWrite v => exact next_laws h (hostWrite_laws _ v s k)
  case iflagWrite v => exact next_laws h (hostWrite_laws _ v s k)
  case ilevelWrite r v => exact next_laws h (hostWrite_laws _ v s k)
  case ithreshWrite v => exact next_laws h (hostWrite_laws _ v s k)
  case registerWrite a v => exact next_laws h (hostWrite_laws a v s k)
  case commandOverrun v => exact next_laws h (cmdWrite_laws v s k)
  case badCommand v => exact next_laws h (cmdWrite_laws v s k)
  case allocBlock => exact next_laws h (hostCommand_laws _ _ s k (commandBody_laws 0x01))
  case freeBlock => exact next_laws h (hostCommand_laws _ _ s k (commandBody_laws 0x02))
  case bindOutput => exact next_laws h (hostCommand_laws _ _ s k (commandBody_laws 0x03))
  case bindImage => exact next_laws h (hostCommand_laws _ _ s k (commandBody_laws 0x04))
  case unbindOutput => exact next_laws h (hostCommand_laws _ _ s k (commandBody_laws 0x05))
  case unbindImage => exact next_laws h (hostCommand_laws _ _ s k (commandBody_laws 0x06))
  case commitOutput => exact next_laws h (hostCommand_laws _ _ s k (commandBody_laws 0x07))
  case holdImage => exact next_laws h (hostCommand_laws _ _ s k (commandBody_laws 0x08))
  case releaseImage => exact next_laws h (hostCommand_laws _ _ s k (commandBody_laws 0x09))
  case submit => exact next_laws h (hostCommand_laws _ _ s k (commandBody_laws 0x0A))
  case abort => exact next_laws h (hostCommand_laws _ _ s k (commandBody_laws 0x0B))
  case park => exact next_laws h (hostCommand_laws _ _ s k (commandBody_laws 0x0C))
  case resume => exact next_laws h (hostCommand_laws _ _ s k (commandBody_laws 0x0D))
  case clearCounters => exact next_laws h (hostCommand_laws _ _ s k (commandBody_laws 0x0E))
  case lineBreak => exact next_laws h (hostCommand_laws _ _ s k (commandBody_laws 0x0F))
  case candidateStartBit n => exact next_laws h (works_laws (modifyLine_works n _ s ⟨rfl, rfl, rfl, rfl, rfl⟩) k)
  case startNotConfirmed n =>
    refine next_laws h ?_
    split
    · exact works_laws (modifyLine_works n _ s ⟨rfl, rfl, rfl, rfl, rfl⟩) k
    · exact k
  case lineReturnsTo1 n => exact next_laws h (works_laws (modifyLine_works n _ s ⟨rfl, rfl, rfl, rfl, rfl⟩) k)

end Sys2Proof.Machine
end

