-- ==== Sys2Proof/Laws/Rows.lean ====
section
/-!
SUPPORT. One fact per shared operation of the rows: what a delivered character, a taken command, a refused access, a pending
source and a control reset come to, for the proofs to cite instead of unfolding them.
-/

namespace Sys2Proof.Machine

namespace State

/-! ## Packed words -/

/-- A packed word's value is the sum of its parts. -/
theorem toNat_append_sum {n m : Nat} (a : BitVec n) (b : BitVec m) : (a ++ b).toNat = a.toNat * 2 ^ m + b.toNat := by
  rw [BitVec.toNat_append, ← Nat.shiftLeft_add_eq_or_of_lt b.isLt, Nat.shiftLeft_eq]

/-! ## Updates of different parts commute -/

theorem setLine_setStation (n : LineId) (l : Line) (u : StationIx) (st : Station) (s : State) :
    (s.setStation u st).setLine n l = (s.setLine n l).setStation u st := by cases n <;> rfl

theorem setLine_setEntry (n : LineId) (l : Line) (e : EntryIx) (en : Entry) (s : State) :
    (s.setEntry e en).setLine n l = (s.setLine n l).setEntry e en := by cases n <;> rfl

theorem setLine_setSlot (n : LineId) (l : Line) (k : SlotIx) (sl : Slot) (s : State) :
    (s.setSlot k sl).setLine n l = (s.setLine n l).setSlot k sl := by cases n <;> rfl

theorem setEntry_setStation (u : StationIx) (st : Station) (e : EntryIx) (en : Entry) (s : State) :
    (s.setStation u st).setEntry e en = (s.setEntry e en).setStation u st := rfl

theorem setSlot_setStation (u : StationIx) (st : Station) (k : SlotIx) (sl : Slot) (s : State) :
    (s.setStation u st).setSlot k sl = (s.setSlot k sl).setStation u st := rfl

@[simp] theorem setStation_setStation (u : StationIx) (a b : Station) (s : State) :
    (s.setStation u a).setStation u b = s.setStation u b := by
  simp [setStation]

@[simp] theorem setEntry_setEntry (e : EntryIx) (a b : Entry) (s : State) :
    (s.setEntry e a).setEntry e b = s.setEntry e b := by
  simp [setEntry]

@[simp] theorem setSlot_setSlot (k : SlotIx) (a b : Slot) (s : State) : (s.setSlot k a).setSlot k b = s.setSlot k b := by
  simp [setSlot]

@[simp] theorem setOwner_setOwner (b : BlockIx) (x y : Owner) (s : State) : (s.setOwner b x).setOwner b y = s.setOwner b y := by
  simp [setOwner]

/-! ## Interrupts -/

/-- With no flag set no source is pending. -/
theorem pendingSources_of_iflag (s : State) (h : s.iflag = 0) : s.pendingSources = [] := by
  unfold pendingSources sourcePending
  rw [h]
  simp

/-- With no edge flag, an empty queue and a lawful threshold, IFLAG is 0. -/
theorem iflag_of_empty (s : State) (h1 : s.edges = 0) (h2 : s.events = []) (h3 : 1 ≤ s.evthresh.toNat) : s.iflag = 0 := by
  have h4 : ¬ s.evthresh.toNat ≤ 0 := by omega
  unfold iflag eventThreshold eventAvailable
  rw [h1, h2]
  simp [h4, bit]

theorem itop_of_none (s : State) (h : s.pendingSources = []) : s.itop = 31 := by
  unfold itop topSource
  rw [h]
  rfl

theorem intAsserted_of_none (s : State) (h : s.pendingSources = []) : s.intAsserted = false := by
  unfold intAsserted
  rw [h]
  rfl

/-! ## Notices -/

/-- The queue's records after a loss (R140). -/
def lossEvents (evs : List Event) : List Event :=
  match openMarker? evs with
  | some m => evs.dropLast ++ [{ m with detailB := m.detailB + 1 }]
  | none => if evs.length < Config.queueLimit then evs ++ [lossMarker 1] else evs

theorem loseNotice_eq (s : State) :
    s.loseNotice = { s with events := lossEvents s.events, evlost := satInc s.evlost, edges := s.edges ||| 0x0004 } := by
  unfold loseNotice markLoss lossEvents
  have h : (raise .eventLoss { s with evlost := satInc s.evlost } : State).events = s.events := rfl
  rw [h]
  cases openMarker? s.events with
  | some m => rfl
  | none =>
    simp only []
    split <;> rfl

/-- All that an offer of a notice can do. -/
theorem offerNotice_eq (e : Event) (s : State) : s.offerNotice e =
    if s.events.length < 48 then { s with events := s.events ++ [s.stamp e] }
    else { s with events := lossEvents s.events, evlost := satInc s.evlost, edges := s.edges ||| 0x0004 } := by
  unfold offerNotice pushEvent Config.noticeLimit
  rw [loseNotice_eq]

theorem or_right_comm (a b c : Word) : a ||| b ||| c = a ||| c ||| b := by
  rw [BitVec.or_assoc, BitVec.or_comm b c, BitVec.or_assoc]

/-- A notice and a flag of one step reach different state: the order is indifferent. -/
theorem raise_offerNotice (x : Source) (e : Event) (s : State) : (s.offerNotice e).raise x = (s.raise x).offerNotice e := by
  rw [offerNotice_eq, offerNotice_eq]
  have h : (s.raise x).events = s.events := rfl
  rw [h]
  split
  · rfl
  · simp only [raise, or_right_comm]

/-- The queue writes CYCLE: what a notice carries there does not matter. -/
theorem offerNotice_cycle (e : Event) (c : Word) (s : State) : s.offerNotice { e with cycle := c } = s.offerNotice e := rfl

/-- A command completes in the step of a notice: the order is indifferent. -/
theorem complete_offerNotice (r : ResultCode) (v : Word) (e : Event) (s : State) :
    (s.offerNotice e).complete r v = (s.complete r v).offerNotice e := by
  rw [offerNotice_eq, offerNotice_eq]
  have h : (s.complete r v).events = s.events := rfl
  rw [h]
  split
  · rfl
  · simp only [complete, raise, or_right_comm]

/-- A line's update that keeps CYCNUMn commutes with a notice. -/
theorem setLine_offerNotice (n : LineId) (l : Line) (e : Event) (s : State) (h : l.cycnum = (s.line n).cycnum) :
    (s.offerNotice e).setLine n l = (s.setLine n l).offerNotice e := by
  have hs : (s.setLine n l).stamp e = s.stamp e := by
    unfold stamp
    simp only [line_setLine]
    split
    · split
      · rename_i hn; rw [h, hn]
      · rfl
    · rfl
  rw [offerNotice_eq, offerNotice_eq]
  simp only [setLine_events, setLine_evlost, setLine_edges, hs]
  cases n <;> split <;> rfl

theorem setStation_offerNotice (u : StationIx) (st : Station) (e : Event) (s : State) :
    (s.offerNotice e).setStation u st = (s.setStation u st).offerNotice e := by
  have hs : (s.setStation u st).stamp e = s.stamp e := by
    unfold stamp
    simp only [setStation_line]
  rw [offerNotice_eq, offerNotice_eq]
  simp only [setStation_events, setStation_evlost, setStation_edges, hs]
  split <;> rfl

theorem setEntry_offerNotice (j : EntryIx) (en : Entry) (e : Event) (s : State) :
    (s.offerNotice e).setEntry j en = (s.setEntry j en).offerNotice e := by
  have hs : (s.setEntry j en).stamp e = s.stamp e := by
    unfold stamp
    simp only [setEntry_line]
  rw [offerNotice_eq, offerNotice_eq]
  simp only [setEntry_events, setEntry_evlost, setEntry_edges, hs]
  split <;> rfl

/-- A notice leaves the lines, the stations, the entries and the mode. -/
@[simp] theorem offerNotice_line (e : Event) (s : State) (n : LineId) : (s.offerNotice e).line n = s.line n :=
  (offerNotice_same e s).line n

@[simp] theorem offerNotice_station (e : Event) (s : State) (u : StationIx) : (s.offerNotice e).station u = s.station u := by
  rw [offerNotice_eq]; split <;> rfl

@[simp] theorem offerNotice_entry (e : Event) (s : State) (u : EntryIx) : (s.offerNotice e).entry u = s.entry u := by
  rw [offerNotice_eq]; split <;> rfl

@[simp] theorem offerNotice_slot (e : Event) (s : State) (u : SlotIx) : (s.offerNotice e).slot u = s.slot u := by
  rw [offerNotice_eq]; split <;> rfl

@[simp] theorem offerNotice_mode (e : Event) (s : State) : (s.offerNotice e).mode = s.mode := by
  rw [offerNotice_eq]; split <;> rfl

@[simp] theorem offerNotice_cmdState (e : Event) (s : State) : (s.offerNotice e).cmdState = s.cmdState := by
  rw [offerNotice_eq]; split <;> rfl

/-- STATION_STATE in numbers (R85): the old HEALTH at 1:0, the new at 5:4. -/
theorem stationStateNotice_eq (u : StationIx) (old : Health) (st : Station) : stationStateNotice u old st = {
    kind := .stationState, line := st.line, station := u, detailA := st.missCount.setWidth 6
    detailB := BitVec.ofNat 16 (old.code.toNat + 16 * st.health.code.toNat), cycle := 0, extra := 0 } := by
  have h : ∀ a b : Health, (0#10 ++ b.code ++ 0#2 ++ a.code : BitVec 16) = BitVec.ofNat 16 (a.code.toNat + 16 * b.code.toNat) := by
    intro a b
    cases a <;> cases b <;> decide
  simp [stationStateNotice, Event.blank, h]

/-- A MODE notice in numbers (R152). -/
theorem modeNotice_eq (m : Mode) (err : BitVec 4) (index : BitVec 6) :
    modeNotice m err index = modeRecord m.code.toNat err.toNat index.toNat := by
  have h1 : ∀ x : BitVec 4, x.setWidth 16 = BitVec.ofNat 16 x.toNat := by decide
  have h2 : ∀ x : BitVec 6, x.setWidth 16 = BitVec.ofNat 16 x.toNat := by decide
  have h3 : ∀ x : BitVec 3, x.setWidth 6 = BitVec.ofNat 6 x.toNat := by decide
  rw [modeNotice, modeRecord, h1, h2, h3]
  rfl

/-- Empty groups bring nothing. -/
theorem flush_append_nil (gs : Groups) (s : State) : s.flush (gs ++ [[]]) = s.flush gs := by
  unfold flush
  simp [List.filter_append]

/-- Outside QUIESCING, with no break waiting, the rest of a step is its posts. -/
theorem settle_calm (n : LineId) (s : State) (gs : Groups) (h1 : s.mode ≠ .quiescing) (h2 : (s.line n).breakRequest = false) :
    settle n (s, gs) = s.flush gs := by
  unfold settle startWaitingBreak reachQuiesced
  simp [h1, h2, flush_append_nil]

/-! ## Line faults -/

/-- A counted fault below the limit: the count, LINE_FAULT_n and the notice (R43). -/
theorem countFault_below (n : LineId) (q : Bool) (s : State) (h : ((s.line n).faults + 1).toNat < 8) :
    s.countFault n q = ((s.setLine n { s.line n with faults := (s.line n).faults + 1 }).raise (.lineFault n)).offerNotice
      (lineFaultNotice n q ((s.line n).faults + 1)) := by
  have h' : ¬ 8 ≤ ((s.line n).faults + 1).toNat := by omega
  simp only [countFault, modifyLine, line_setLine, if_true, Config.faultLimit, if_neg h', raise_offerNotice]

/-- The eighth counted fault: LINE_FAULT, then LINE_FAULTED, the engine faulted (R43, R44). -/
theorem countFault_eighth (n : LineId) (q : Bool) (s : State) (h : 8 ≤ ((s.line n).faults + 1).toNat) :
    s.countFault n q = (((s.setLine n { s.line n with
      faults := (s.line n).faults + 1
      engine := .faulted
      faulted := true
      syncOwed := false
      attempt := (s.line n).attempt.map fun a =>
        if a.isTransaction then { a with stop := a.stop.add .fault } else a }).raise (.lineFault n)).offerNotice
          (lineFaultNotice n q ((s.line n).faults + 1))).offerNotice (lineFaultedNotice n) := by
  simp only [countFault, modifyLine, line_setLine, if_true, Config.faultLimit, if_pos h, raise_offerNotice, enterFaulted]
  rw [setLine_offerNotice _ _ _ _ (by simp)]
  congr 2
  simp only [offerNotice_line]
  cases n <;> rfl

/-! ## The end of an attempt -/

/-- A PARK waits only in a command that is BUSY. -/
theorem parkIfWaiting_idle (u : StationIx) (s : State) (h : s.cmdState ≠ .busy) : s.parkIfWaiting u = (s, [], []) := by
  simp [parkIfWaiting, waitingPark, h]

theorem quiet_iff (l : Line) : l.quiet = true ↔ isQuiet l := by
  simp [Line.quiet, isQuiet]

theorem countAttempt_eq (o : OutcomeCode) (st : Station) : Station.countAttempt o st = attemptCounted o st := by
  simp only [Station.countAttempt, attemptCounted]
  split <;> simp_all

/-- An attempt of a cyclic transaction that owes a retry (R38). -/
theorem endAttempt_retry (n : LineId) (s : State) (a : Attempt) (e : EntryIx) (u : StationIx) (m : Nat) (o : OutcomeCode)
    (ha : (s.line n).attempt = some a) (ho : a.origin = .cyclic e) (hs : a.station = some u) (hm : a.attempt = some m)
    (hr : m ≤ (s.entry e).retries.toNat) (hst : a.stop = ⟨false, false, false, false, false, false⟩)
    (he : (s.line n).engine ≠ .faulted) (hk : o.isMiss = true ∨ o = .collision) :
    s.endAttempt n o = ((s.setStation u (attemptCounted o (s.station u))).setLine n { s.line n with
      attempt := some { a with outcome := some o, retryOwed := true, fixedOutcome := none } }, []) := by
  have hk' : (o.isMiss || o == .collision) = true := by rcases hk with h | h <;> simp [h]
  have he' : ((s.line n).engine != .faulted) = true := by simp [he]
  have hp : a.stop.isEmpty = true := by rw [hst]; rfl
  unfold endAttempt
  simp only [ha, hs, recordAttempt, ho, retryDue, hk', retryBudget, hm, modifyStation, setStation_entry, hr, hp]
  simp only [decide_true, Bool.and_self, he', if_true, countAttempt_eq, setAttempt, modifyLine, setStation_line]

/-- An attempt of a cyclic transaction with a final outcome (R38, R41). -/
theorem endAttempt_final (n : LineId) (s : State) (a : Attempt) (e : EntryIx) (u : StationIx) (m : Nat) (o : OutcomeCode)
    (ha : (s.line n).attempt = some a) (ho : a.origin = .cyclic e) (hs : a.station = some u) (hm : a.attempt = some m)
    (hr : (s.entry e).retries.toNat < m ∨ a.stop ≠ ⟨false, false, false, false, false, false⟩
      ∨ (o.isMiss = false ∧ o ≠ .collision)) :
    s.endAttempt n o = ((s.setStation u (attemptCounted o (s.station u))).setLine n { s.line n with attempt := none }).pollEnd e u
      false { a with outcome := some o, retryOwed := false, fixedOutcome := none } o := by
  have hr' : ((o.isMiss || o == .collision) && decide (m ≤ (s.entry e).retries.toNat) && a.stop.isEmpty) = false := by
    rcases hr with h | h | h
    · have : decide (m ≤ (s.entry e).retries.toNat) = false := by simp; omega
      rw [this]; simp
    · have : a.stop.isEmpty = false := by simp [StopSet.isEmpty, StopSet.empty]; exact h
      simp [this]
    · simp [h]
  unfold endAttempt
  simp only [ha, hs, recordAttempt, ho, retryDue, retryBudget, hm, modifyStation, setStation_entry, hr', countAttempt_eq, Bool.false_and]
  simp [setAttempt, modifyLine, endTransaction]

/-! ## Host accesses -/

/-- Outside INIT a host write reaches the window (R150). -/
theorem hostWrite_of_mode (a : BitVec 6) (v : Word) (s : State) (h : s.mode ≠ .init) : s.hostWrite a v = s.writeRegister a v := by
  unfold hostWrite
  rw [if_neg]
  simp [inInit, h]

/-- ACCESS_ERROR is bit 15 of the stored flags. -/
theorem accessError_flag (s : State) : s.edgeFlag .accessError = s.edges.getLsbD 15 := by
  have key : ∀ e : Word, ((e &&& 0x8000#16) != 0) = e.getLsbD 15 := by
    intro e
    have h : e &&& 0x8000#16 = if e.getLsbD 15 then 0x8000#16 else 0#16 := by
      ext i hi
      by_cases h15 : i = 15
      · subst h15
        rw [BitVec.getElem_and, ← BitVec.getLsbD_eq_getElem (x := e)]
        cases h : e.getLsbD 15
        · simp
        · simp
      · have hz : (0x8000#16)[i] = false := by revert h15; interval_cases i <;> simp
        rw [BitVec.getElem_and, hz]
        split
        · rw [hz]; simp
        · simp
    rw [h]
    cases e.getLsbD 15 <;> decide
  exact key s.edges

/-- A refused access, in the statements' words (R167). -/
theorem refuseAccess_eq (sp : AccessSpace) (d : AccessDirection) (a : Word) (s : State) :
    s.refuseAccess sp d a = s.accessRefused sp d a := by
  unfold refuseAccess accessRefused
  rw [accessError_flag]
  rfl

/-- The offset ACCADDR records is twice the word address. -/
theorem registerOffset_eq (a : BitVec 6) : registerOffset a = BitVec.ofNat 16 (2 * a.toNat) := by
  revert a
  decide

/-! ## Commands -/

/-- A command that is taken and completes in its step: its fields are those the statements name. -/
theorem hostCommand_of_accepts (code : Word) (body : State → State) (s : State) (h : s.accepts) :
    s.hostCommand code body = body (s.takeCommand code) := by
  unfold hostCommand inInit
  simp [h.1, h.2]

/-- A refused command changes the Command Unit alone. -/
theorem refuse_takeCommand (code : Word) (r : ResultCode) (s : State) :
    (s.takeCommand code).refuse r = s.commandDone code r 0 := rfl

end State

/-! ## A delivered character -/

/-- The engine takes the character with the line as the delivery leaves it. -/
theorem exec_characterArrival (n : LineId) (t : CharSamples) (s : State) (h : (s.line n).rx = .assembling) :
    exec (.characterArrival n t) s
      = .next ((s.setLine n (delivered (s.line n) t)).engineArrival n (CharSamples.decode t)) := by
  cases hn : (CharSamples.decode t).noise <;> cases he : (s.line n).engine <;>
    simp [exec, execCharacterArrival, h, State.deliver, delivered, State.modifyLine, State.countNoise, countsNoise, he, hn]

/-! ## Completions -/

namespace State

/-- The packed words of REQUEST_DONE (Table 10-6), as sums. -/
theorem requestDone_detail (k : SlotIx) (l : Bool) (o : OutcomeCode) :
    (0#7 ++ bit l ++ o.code ++ BitVec.ofNat 4 k.val : BitVec 16) = BitVec.ofNat 16 (k.val + 16 * o.code.toNat + 256 * (bit l).toNat) := by
  revert k; cases l <;> cases o <;> decide

theorem requestDone_extra (b : BitVec 3) (a : BitVec 4) (t : BitVec 8) :
    (0#1 ++ b ++ a ++ t : BitVec 16) = BitVec.ofNat 16 (t.toNat + 256 * a.toNat + 4096 * b.toNat) := by
  apply BitVec.eq_of_toNat_eq
  simp only [BitVec.toNat_append, BitVec.toNat_ofNat]
  rw [← Nat.shiftLeft_add_eq_or_of_lt t.isLt, ← Nat.shiftLeft_add_eq_or_of_lt a.isLt, ← Nat.shiftLeft_add_eq_or_of_lt b.isLt]
  simp only [Nat.shiftLeft_eq]
  have := b.isLt; have := a.isLt; have := t.isLt
  omega

/-- The release of a slot (R125), in the words of the statements. -/
theorem freeSlot_eq (k : SlotIx) (X : State) :
    X.freeSlot k = slotReleased X k (fieldBlock? (X.slot k).reqBlock) (fieldBlock? (X.slot k).replyBlock) := by
  unfold freeSlot slotReleased releaseBlock
  rfl

/-- REQUEST_DONE in numbers (R125, Table 10-6). -/
theorem requestDone_eq (k : SlotIx) (sl : Slot) (l : LineId) : requestDone k sl l = {
      kind := .requestDone, line := l, station := sl.station, detailA := sl.replyLen
      detailB := BitVec.ofNat 16 (k.val + 16 * sl.outcome.code.toNat + 256 * (bit sl.abortLate).toNat)
      cycle := 0
      extra := BitVec.ofNat 16 (sl.tag.toNat + 256 * sl.attempts.toNat + 4096 * sl.busyCount.toNat) } := by
  simp only [requestDone, Event.blank, requestDone_detail, requestDone_extra]

/-- A completion that finds room (R125, R138). -/
theorem finish_take (X : State) (k : SlotIx) (o : OutcomeCode) (len : BitVec 6) (hev : X.events.length < 64) (hd : X.done = []) (sl : Slot)
    (hs : sl = { X.slot k with outcome := o, replyLen := len, deferred := false }) :
    (X.finishSlot k o len).1.flush [[(X.finishSlot k o len).2]] = 
     slotReleased { X.setSlot k sl with submitted := X.submitted.filter (· ≠ k), events := X.events ++ [{
      kind := .requestDone, line := X.slotLine k, station := sl.station, detailA := sl.replyLen
      detailB := BitVec.ofNat 16 (k.val + 16 * o.code.toNat + 256 * (bit sl.abortLate).toNat)
      cycle := (X.line (X.slotLine k)).cycnum
      extra := BitVec.ofNat 16 (sl.tag.toNat + 256 * sl.attempts.toNat + 4096 * sl.busyCount.toNat) }] } k
        (fieldBlock? sl.reqBlock) (fieldBlock? sl.replyBlock) := by
  subst hs
  simp only [finishSlot]
  rw [flush_completion]
  simp only [offerCompletion]
  rw [if_pos ⟨hev, hd⟩]
  have key : ∀ (Y : State) su ev sl, Y.slot k = sl → ({ Y with submitted := su, events := ev } : State).freeSlot k
      = slotReleased { Y with submitted := su, events := ev } k (fieldBlock? sl.reqBlock) (fieldBlock? sl.replyBlock) := by
    intro Y su ev sl h
    rw [freeSlot_eq]
    show slotReleased _ k (fieldBlock? (Y.slot k).reqBlock) (fieldBlock? (Y.slot k).replyBlock) = _
    rw [h]
  unfold takeCompletion pushEvent
  rw [requestDone_eq]
  exact key (X.setSlot k { X.slot k with outcome := o, replyLen := len, deferred := false }) _ _
    { X.slot k with outcome := o, replyLen := len, deferred := false } (by simp)

/-- A completion that waits for room (R126). -/
theorem finish_hold (X : State) (k : SlotIx) (o : OutcomeCode) (len : BitVec 6) (h : ¬ (X.events.length < 64 ∧ X.done = []))
    (sl : Slot) (hs : sl = { X.slot k with outcome := o, replyLen := len, deferred := false }) :
    (X.finishSlot k o len).1.flush [[(X.finishSlot k o len).2]] =
      { X.setSlot k { sl with state := .done } with
        submitted := X.submitted.filter (· ≠ k), done := X.done ++ [(k, requestDone k sl (X.slotLine k))] } := by
  subst hs
  simp only [finishSlot]
  rw [flush_completion]
  refine (if_neg h).trans ?_
  have key : ∀ (Y : State) (f : Slot → Slot) (su : List SlotIx) (d : List (SlotIx × Event)),
      ({ ({ Y with submitted := su } : State).modifySlot k f with done := d } : State)
        = { Y.setSlot k (f (Y.slot k)) with submitted := su, done := d } := fun _ _ _ _ => rfl
  refine (key (X.setSlot k { X.slot k with outcome := o, replyLen := len, deferred := false })
    (fun sl => { sl with state := .done }) _ _).trans ?_
  rw [setSlot_setSlot, slot_setSlot, if_pos rfl]
  rfl

end State

/-! ## A complete reply -/

namespace State

/-- The outcome of a complete reply, from the conditions of R34. -/
theorem replyOutcome_of (a : Attempt) (w : Word) (ad : BitVec 5) (o : OutcomeCode) (h : replyGives a w ad o) :
    replyOutcome a.check w a ad = o := by
  rcases h with ⟨rfl, h⟩ | ⟨rfl, h, h2⟩ | ⟨rfl, h, h2, h3⟩ | ⟨h, h2, h3, ⟨rfl, h4⟩ | ⟨rfl, h4⟩ | ⟨rfl, h4⟩⟩ <;> simp [replyOutcome, *]

/-- A complete reply gives a miss, OK, BUSY or REFUSED. -/
theorem gives_miss (a : Attempt) (w : Word) (ad : BitVec 5) (o : OutcomeCode) (h : replyGives a w ad o) :
    o.isMiss = true ∨ o = .ok ∨ o = .busy ∨ o = .refused := by
  rcases h with ⟨rfl, h⟩ | ⟨rfl, h, h2⟩ | ⟨rfl, h, h2, h3⟩ | ⟨h, h2, h3, ⟨rfl, h4⟩ | ⟨rfl, h4⟩ | ⟨rfl, h4⟩⟩ <;> simp [OutcomeCode.isMiss]

/-- The last check character of a reply ends its attempt, the engine in TURNAROUND. -/
theorem reply_exec (n : LineId) (t : CharSamples) (s : State) (a : Attempt) (len : BitVec 6) (u : StationIx)
    (o : OutcomeCode) (h : replyEnds s n t a len) (hu : a.station = some u)
    (hg : replyGives a (a.checkHigh ++ (CharSamples.decode t).byte) (s.station u).address o) (hm : s.mode = .run) :
    exec (.characterArrival n t) s = .next (settle n ((s.setLine n { delivered (s.line n) t with
      engine := .turnaround, attempt := some { a with received := a.received + 1 } }).endAttempt n o)) := by
  obtain ⟨h1, h2, h3, h4, h5, h6, h7⟩ := h
  rw [exec_characterArrival n t s h1]
  have hd : ((delivered (s.line n) t)).engine = .receiving := h2
  have hd2 : ((delivered (s.line n) t)).attempt = some a := h3
  have p1 : ¬ (len.toNat + 3 = 0) := by omega
  have p2 : ¬ (len.toNat + 3 + 1 ≤ 2) := by omega
  have p3 : ¬ (len.toNat + 3 + 1 ≤ 2 + len.toNat) := by omega
  have p4 : ¬ (len.toNat + 3 + 1 = 3 + len.toNat) := by omega
  have p5 : ¬ (len.toNat + 3 + 1 = 2) := by omega
  have p6 : ¬ (len.toNat + 3 + 1 = 1) := by omega
  have hf : arrivalFailure (a.received + 1) (CharSamples.decode t) = none := by
    simp [arrivalFailure, h5, h6, h7]
  rw [h5] at hf
  simp only [engineArrival, line_setLine, if_true, hd, receiveChar, hd2, hf, takeReplyChar, h5,
    h4, Option.getD, p2, p3, p4, if_false, replyComplete, hu, setLine_station]
  rw [replyOutcome_of _ _ _ _ hg]
  simp only [setAttempt, setEngine, modifyLine, line_setLine, if_true, setLine_setLine, setLine_mode, hm, restState]

/-- The health change of an outcome leaves LAST. -/
theorem applyHealth_last (o : OutcomeCode) (p : Bool) (st : Station) : (Station.applyHealth o p st).last = st.last := by
  cases h : st.health <;> simp [Station.applyHealth, h, Station.ordinaryOutcome, Station.probeOutcome,
    Station.countMiss] <;> (repeat' split) <;> rfl

/-- What a final outcome reaches at the stations and slots (R79, R80, R132), and that LAST takes it. -/
theorem stationOutcome_frame (u : StationIx) (o : OutcomeCode) (p q : Bool) (s : State) : ∃ st2 sl sub ed,
    (s.stationOutcome u o p q).1 = { s.setStation u st2 with slots := sl, submitted := sub, edges := ed }
      ∧ st2.last = o := by
  unfold stationOutcome
  simp only []
  split
  · simp only [finishPendingOf]
    obtain ⟨sl, sub, h⟩ := finishSlots_frame .stationOffline
      (((s.setStation u (Station.applyHealth o p (Station.countOutcome o (Station.probeNote p (s.station u)) q
        (s.station u)))).raise .stationDown).pendingOf u)
      ((s.setStation u (Station.applyHealth o p (Station.countOutcome o (Station.probeNote p (s.station u)) q
        (s.station u)))).raise .stationDown)
    rw [h]
    exact ⟨_, _, _, _, rfl, by rw [applyHealth_last]; rfl⟩
  · exact ⟨_, _, _, _, rfl, by rw [applyHealth_last]; rfl⟩

theorem setStation_self (u : StationIx) (s : State) : s.setStation u (s.station u) = s := by
  simp [setStation, station, Vector.get]

/-- What the acceptance of an image reaches (R108, R109): its station's record and the owners of its pair. -/
theorem acceptImage_frame (u : StationIx) (len : BitVec 6) (s : State) : ∃ st2 ow,
    (s.acceptImage u len).1 = { s.setStation u st2 with owners := ow } ∧ st2.last = (s.station u).last := by
  unfold acceptImage
  simp only []
  split
  · exact ⟨s.station u, s.owners, by rw [setStation_self], rfl⟩
  · split
    · exact ⟨_, s.owners, rfl, rfl⟩
    · exact ⟨_, _, rfl, rfl⟩

end State

end Sys2Proof.Machine
end

