-- ==== Sys2Proof/Laws/Choices.lean ====
section
/-!
SUPPORT. One fact per search and check: the first answer of a list, the next due entry, the configuration checks, the top
source, the Table Access Port's places, a command's arguments, the check sequence, and the tail of a cycle start.
-/

namespace Sys2Proof.Machine

open State

/-! ## Searches -/

theorem firstSome_eq_none_iff {α β : Type} (f : α → Option β) (l : List α) : firstSome f l = none ↔ ∀ x ∈ l, f x = none := by
  induction l with
  | nil => simp [firstSome]
  | cons z l ih =>
    simp only [firstSome]
    cases h : f z <;> simp [h, ih]

/-- The first element with an answer gives the answer. -/
theorem firstSome_first {α β : Type} (f : α → Option β) (l1 l2 : List α) (x : α) (y : β) (h : ∀ x ∈ l1, f x = none)
    (hx : f x = some y) : firstSome f (l1 ++ x :: l2) = some y := by
  induction l1 with
  | nil => simp [firstSome, hx]
  | cons z l ih =>
    simp only [List.cons_append, firstSome, h z (by simp)]
    exact ih fun y hy => h y (by simp [hy])

theorem find?_first {α : Type} (p : α → Bool) (l1 l2 : List α) (x : α) (h : ∀ y ∈ l1, p y = false) (hx : p x = true) :
    (l1 ++ x :: l2).find? p = some x := by
  rw [List.find?_append]
  have : l1.find? p = none := by
    rw [List.find?_eq_none]
    intro y hy
    simp [h y hy]
  simp [this, hx]

/-- What stands before an index in the ascending list is below it. -/
theorem finRange_split {n : Nat} (e : Fin n) : ∃ l1 l2, List.finRange n = l1 ++ e :: l2 ∧ (∀ j ∈ l1, j < e) := by
  obtain ⟨l1, l2, h⟩ := List.append_of_mem (List.mem_finRange e)
  refine ⟨l1, l2, h, ?_⟩
  have hp : (List.finRange n).Pairwise (· < ·) := List.pairwise_lt_finRange n
  rw [h, List.pairwise_append] at hp
  intro j hj
  exact hp.2.2 j hj e (by simp)

namespace State

/-- The next due entry at or after the walk pointer (R62). -/
theorem nextDue_eq (s : State) (n : LineId) (e : EntryIx) (p : Bool) (hw : (s.line n).walk.val ≤ e.val)
    (hd : s.due n (s.line n).cycnum e = some p)
    (hb : ∀ j : EntryIx, (s.line n).walk.val ≤ j.val → j.val < e.val → s.due n (s.line n).cycnum j = none) :
    s.nextDue n = some (e, p) := by
  obtain ⟨l1, l2, h, hl⟩ := finRange_split e
  unfold nextDue entriesAhead
  rw [h, List.filter_append, List.filter_cons, if_pos (by simpa using hw)]
  apply firstSome_first
  · intro j hj
    simp at hj
    simp [hb j hj.2 (hl j hj.1)]
  · simp [hd]

theorem eligibleOf_none (s : State) (n : LineId) (h : ∀ k, s.eligible n k = false) (p : BitVec 2) :
    s.eligibleOf n p = none := by
  unfold eligibleOf
  simp [h]

theorem bestSlot_none (s : State) (n : LineId) (h : ∀ k, s.eligible n k = false) : s.bestSlot n = none :=
  (firstSome_eq_none_iff _ _).2 fun p _ => eligibleOf_none s n h p

/-! A line's record matters neither to the due rule nor to the choice of a slot nor to a request's payload. -/

@[simp] theorem due_setLine (s : State) (n m : LineId) (l : Line) (c : Word) (e : EntryIx) :
    (s.setLine n l).due m c e = s.due m c e := by cases n <;> rfl

@[simp] theorem eligible_setLine (s : State) (n m : LineId) (l : Line) (k : SlotIx) :
    (s.setLine n l).eligible m k = s.eligible m k := by cases n <;> rfl

@[simp] theorem eligibleOf_setLine (s : State) (n m : LineId) (l : Line) (p : BitVec 2) :
    (s.setLine n l).eligibleOf m p = s.eligibleOf m p := by cases n <;> rfl

@[simp] theorem bestSlot_setLine (s : State) (n m : LineId) (l : Line) : (s.setLine n l).bestSlot m = s.bestSlot m := by
  cases n <;> rfl

@[simp] theorem requestPayload_setLine (s : State) (n : LineId) (l : Line) (o : Origin) (k : Nat) :
    (s.setLine n l).requestPayload o k = s.requestPayload o k := by cases n <;> rfl

@[simp] theorem requestPayload_setStation (s : State) (u : StationIx) (st : Station) (o : Origin) (k : Nat) :
    (s.setStation u st).requestPayload o k = s.requestPayload o k := rfl

/-- A satisfied turnaround with no attempt record is a decision point (R26). -/
theorem exec_decision (n : LineId) (s : State) (h : decides s n) :
    exec (.turnaroundSatisfied n) s = .next ((s.setLine n { s.line n with settled := true }).decisionPoint n) := by
  obtain ⟨⟨he, hq⟩, hm, ha⟩ := h
  simp [exec, execTurnaroundSatisfied, (quiet_iff _).2 hq, he, turnaroundEnd, modifyLine, ha, hm]

/-! ## Flags of the lines -/

theorem cycleEnd_flag (n : LineId) (w : Word) : w ||| ((Source.cycleEnd n).mask &&& edgeMask) = w ||| cycleEndBit n := by
  cases n <;> rfl

theorem cycleStart_flag (n : LineId) (w : Word) : w ||| ((Source.cycleStart n).mask &&& edgeMask) = w ||| cycleStartBit n := by
  cases n <;> rfl

theorem overrun_flag (n : LineId) (w : Word) : w ||| ((Source.overrun n).mask &&& edgeMask) = w ||| overrunBit n := by
  cases n <;> rfl

/-! ## Rest -/

theorem restState_eq (m : Mode) : restState m = if m = .run then .turnaround else .hold := by cases m <;> rfl

/-- An enabled line that is neither in HOLD nor faulted keeps QUIESCED away (R157). -/
theorem allAtRest_false (s : State) (m : LineId) (h1 : (s.line m).enable = true) (h2 : (s.line m).engine ≠ .hold)
    (h3 : (s.line m).faulted = false) : s.allAtRest = false := by
  cases m
  · have a : s.line0.enable = true := h1
    have b : s.line0.atRest = false := by simp [Line.atRest]; exact ⟨h2, h3⟩
    simp [allAtRest, a, b]
  · have a : s.line1.enable = true := h1
    have b : s.line1.atRest = false := by simp [Line.atRest]; exact ⟨h2, h3⟩
    simp [allAtRest, a, b]

/-- With no break waiting, and in QUIESCING a line not at rest, the rest of a step is its posts. -/
theorem settle_rest (n : LineId) (s : State) (gs : Groups) (h1 : s.mode = .quiescing → s.allAtRest = false)
    (h2 : (s.line n).breakRequest = false) : settle n (s, gs) = s.flush gs := by
  unfold settle startWaitingBreak reachQuiesced
  have : ¬ (s.mode = .quiescing ∧ s.allAtRest = true) := by
    rintro ⟨a, b⟩
    rw [h1 a] at b
    cases b
  simp only [h2, Bool.false_and, Bool.false_eq_true, if_false, if_neg this, flush_append_nil]

/-! ## The configuration checks (Table 8-3) -/

theorem lineError_none (l : Line) : lineError l = none ↔ lineValid l := by
  unfold lineError lineValid
  cases he : l.enable
  · simp
  · simp only [Bool.not_true, Bool.false_eq_true, if_false]
    split
    · simp; intro h; omega
    · split
      · rename_i h1 h2; simp; intro _ a b; rcases h2 with h | h | h <;> simp_all
      · rename_i h1 h2; simp only [not_or] at h2; simp; exact ⟨by omega, h2.1, h2.2.1, h2.2.2⟩

theorem lineError_some (l : Line) (h : ¬ lineValid l) : lineError l = some (if l.period.toNat < 10 then 2 else 3) := by
  have h' : lineError l ≠ none := fun e => h ((lineError_none l).1 e)
  revert h'
  unfold lineError
  split
  · simp
  · split
    · simp
    · split <;> simp

theorem duplicated_iff (s : State) (t : StationIx) : s.duplicated t = true ↔ ∃ u : StationIx, u.val < t.val
    ∧ (s.station u).enabled = true ∧ (s.station t).enabled = true ∧ (s.station u).line = (s.station t).line
    ∧ (s.station u).address = (s.station t).address := by
  simp [duplicated, sameAddress, and_assoc]

theorem stationError_none (s : State) (t : StationIx) : s.stationError t = none ↔ stationValid s t := by
  have hd := duplicated_iff s t
  unfold stationError stationValid
  by_cases he : (s.station t).enabled = true
  · have hk : (s.station t).address.toNat < 1 ∨ 30 < (s.station t).address.toNat
        ↔ ¬ (1 ≤ (s.station t).address.toNat ∧ (s.station t).address.toNat ≤ 30) := by omega
    have hd2 : s.duplicated t = true ↔ ¬ ∀ v, v.val < t.val → (s.station v).enabled = true →
        (s.station v).line = (s.station t).line → (s.station v).address ≠ (s.station t).address := by
      rw [hd]; push Not; simp [he]
    simp only [hk, hd2]
    by_cases h1 : (1 ≤ (s.station t).address.toNat ∧ (s.station t).address.toNat ≤ 30)
    · by_cases h2 : (s.station t).missLimit = 0
      · simp [he, h1, h2]
      · by_cases h3 : (s.station t).probeInterval = 0
        · simp [he, h1, h3]
        · by_cases h4 : (s.line (s.station t).line).enable = true
          · simp only [he, h1, h2, h3, h4]
            simp only [Bool.not_true, Bool.false_eq_true, if_false, not_true, or_self, true_and, and_self, ne_eq,
              forall_const]
            split <;> simp_all
          · simp_all
    · simp only [if_pos h1]
      simp [he, h1]
  · simp [he]

theorem stationError_some (s : State) (u : StationIx) (h : ¬ stationValid s u) : s.stationError u = some (
    if (s.station u).address = 0 ∨ (s.station u).address = 31 then 4
    else if (s.station u).missLimit = 0 ∨ (s.station u).probeInterval = 0 then 5
    else if (s.line (s.station u).line).enable = false then 6 else 7) := by
  have h' : s.stationError u ≠ none := fun e => h ((stationError_none s u).1 e)
  have hk : (s.station u).address.toNat < 1 ∨ 30 < (s.station u).address.toNat
      ↔ (s.station u).address = 0 ∨ (s.station u).address = 31 := by
    generalize (s.station u).address = x
    revert x
    decide
  revert h'
  unfold stationError
  simp only []
  split
  · simp
  · simp only [hk]
    split
    · simp
    · split
      · simp
      · split
        · rename_i h; simp at h; simp [h]
        · rename_i h; simp at h; split <;> simp [h]

theorem entryError_none (s : State) (e : EntryIx) : s.entryError e = none ↔ entryValid s e := by
  unfold entryError entryValid dividerOf
  by_cases he : (s.entry e).enabled = true
  · by_cases h : (s.station (s.entry e).station).enabled = true
    · by_cases hp : 2 ^ (s.entry e).divExp.toNat ≤ (s.entry e).phase.toNat
      · have : ¬ (s.entry e).phase.toNat < 2 ^ (s.entry e).divExp.toNat := by omega
        simp_all
      · have : (s.entry e).phase.toNat < 2 ^ (s.entry e).divExp.toNat := by omega
        simp_all
    · simp_all
  · simp_all

theorem entryError_some (s : State) (e : EntryIx) (h : ¬ entryValid s e) :
    s.entryError e = some (if (s.station (s.entry e).station).enabled = true then 9 else 8) := by
  have h' : s.entryError e ≠ none := fun x => h ((entryError_none s e).1 x)
  revert h'
  unfold entryError
  simp only []
  split
  · simp
  · split
    · rename_i h; simp at h; simp [h]
    · rename_i h; simp at h; split <;> simp

/-! ## The top source (R177) -/

theorem sourcePending_iff (s : State) (i : Fin 16) : s.sourcePending i = true ↔ sourceIsPending s i := by
  unfold sourcePending sourceIsPending
  rw [Bool.and_eq_true, Bool.and_eq_true, decide_eq_true_iff, and_assoc]
  rfl

/-- The answer of the search is one of the sources searched. -/
theorem foldr_higherSource_mem (s : State) (l : List (Fin 16)) (m : Fin 16) (h : l.foldr s.higherSource none = some m) :
    m ∈ l := by
  induction l generalizing m with
  | nil => simp at h
  | cons y l ih =>
    simp only [List.foldr_cons] at h
    cases hf : l.foldr s.higherSource none with
    | none => rw [hf] at h; simp [higherSource] at h; simp [h]
    | some z =>
      rw [hf] at h
      simp only [higherSource] at h
      split at h
      · obtain rfl := Option.some.inj h; exact List.mem_cons_of_mem _ (ih _ hf)
      · obtain rfl := Option.some.inj h; simp

/-- The search finds the highest level, the lowest number among equals. -/
theorem foldr_higherSource (s : State) (l : List (Fin 16)) (i : Fin 16) (hi : i ∈ l) (hp : l.Pairwise (· < ·))
    (h : ∀ j ∈ l, s.sourceLevel j < s.sourceLevel i ∨ (s.sourceLevel j = s.sourceLevel i ∧ i.val ≤ j.val)) :
    l.foldr s.higherSource none = some i := by
  induction l with
  | nil => simp at hi
  | cons x l ih =>
    simp only [List.foldr_cons]
    rw [List.pairwise_cons] at hp
    by_cases hx : x = i
    · subst hx
      cases hf : l.foldr s.higherSource none with
      | none => rfl
      | some m =>
        simp only [higherSource]
        have hm := foldr_higherSource_mem s l m hf
        rw [if_neg]
        rcases h m (List.mem_cons_of_mem _ hm) with h | h <;> omega
    · have hil : i ∈ l := by simpa [Ne.symm hx] using hi
      rw [ih hil hp.2 fun j hj => h j (List.mem_cons_of_mem _ hj)]
      simp only [higherSource]
      rw [if_pos]
      rcases h x (by simp) with h | ⟨h, h'⟩
      · exact h
      · have := hp.1 i hil
        exact absurd h' (by simpa using this)

theorem itop_eq (s : State) (i : Fin 16) (hi : sourceIsPending s i)
    (h : ∀ j, sourceIsPending s j → (s.ilevel.get j).toNat < (s.ilevel.get i).toNat
      ∨ ((s.ilevel.get j).toNat = (s.ilevel.get i).toNat ∧ i.val ≤ j.val)) : s.itop.toNat = i.val := by
  have : s.topSource = some i := by
    unfold topSource
    apply foldr_higherSource
    · simp [pendingSources, sourcePending_iff, hi]
    · exact (List.pairwise_lt_finRange 16).filter _
    · intro j hj
      have : sourceIsPending s j := by simpa [pendingSources, sourcePending_iff] using hj
      exact h j this
  unfold itop
  rw [this]
  simp
  omega

theorem narrowLevel_toNat (x : BitVec 4) : (narrowLevel x).toNat = min 7 x.toNat := by revert x; decide

/-! ## The Table Access Port -/

/-- Table 9-2: which addresses are which place. -/
theorem tapPlace_inBlock (a : Nat) (b : BlockIx) (i : Nat) (hi : i < 16) (ha : a = 16 * b.val + i) :
    tapPlace a = .block b := by
  rcases b with ⟨b, hb⟩
  simp only at ha
  unfold tapPlace
  rw [dif_pos (by omega)]
  congr
  omega

theorem tapPlace_inStation (a : Nat) (u : StationIx) (i : Nat) (hi : i < 16) (ha : a = 0x1000 + 16 * u.val + i) :
    tapPlace a = .station u i := by
  rcases u with ⟨b, hb⟩
  simp only at ha
  unfold tapPlace
  rw [dif_neg (by omega), dif_pos (by omega)]
  rw [TapPlace.station.injEq, Fin.mk.injEq]
  constructor <;> omega

theorem tapPlace_inEntry (a : Nat) (e : EntryIx) (i : Nat) (hi : i < 4) (ha : a = 0x1200 + 4 * e.val + i) :
    tapPlace a = .entry e i := by
  rcases e with ⟨b, hb⟩
  simp only at ha
  unfold tapPlace
  rw [dif_neg (by omega), dif_neg (by omega), dif_pos (by omega)]
  rw [TapPlace.entry.injEq, Fin.mk.injEq]
  constructor <;> omega

theorem tapPlace_inSlot (a : Nat) (k : SlotIx) (i : Nat) (hi : i < 8) (ha : a = 0x1400 + 8 * k.val + i) :
    tapPlace a = .slot k i := by
  rcases k with ⟨b, hb⟩
  simp only at ha
  unfold tapPlace
  rw [dif_neg (by omega), dif_neg (by omega), dif_neg (by omega), dif_pos (by omega)]
  rw [TapPlace.slot.injEq, Fin.mk.injEq]
  constructor <;> omega

theorem tapPlace_inMap (a : Nat) (b : BlockIx) (ha : a = 0x1600 + b.val) :
    tapPlace a = .map b := by
  rcases b with ⟨b, hb⟩
  simp only at ha
  unfold tapPlace
  rw [dif_neg (by omega), dif_neg (by omega), dif_neg (by omega), dif_neg (by omega), dif_pos (by omega)]
  rw [TapPlace.map.injEq, Fin.mk.injEq]
  omega

theorem tapPlace_nothing (a : Nat)
    (h : (0x800 ≤ a ∧ a < 0x1000) ∨ (0x1300 ≤ a ∧ a < 0x1400) ∨ (0x1480 ≤ a ∧ a < 0x1600) ∨ 0x1680 ≤ a) :
    tapPlace a = .nothing := by
  unfold tapPlace
  rw [dif_neg (by omega), dif_neg (by omega), dif_neg (by omega), dif_neg (by omega), dif_neg (by omega)]

/-- A TAPDATA write outside INIT: stored, or refused; TAPADDR advances (R165, R166). -/
theorem exec_tapdataWrite (s : State) (v : Word) (hm : s.mode ≠ .init) :
    exec (.tapdataWrite v) s = .next (match s.tapWrite? s.tapaddr.toNat v with
      | some s1 => s1.advanceTap
      | none => (s.refuseAccess .tap .write s.tapaddr).advanceTap) := by
  unfold exec execTapdataWrite tapdataWrite
  exact congrArg _ (if_neg (by simp [inInit, hm]))

/-- A refused TAPDATA access advances TAPADDR and is recorded with the address before (R165, R167). -/
theorem refuseAccess_advanceTap (d : AccessDirection) (s : State) : (s.refuseAccess .tap d s.tapaddr).advanceTap
    = { s.accessRefused .tap d s.tapaddr with tapaddr := s.tapaddr + 1 } := by
  rw [refuseAccess_eq, advanceTap]
  congr 1
  unfold accessRefused
  split <;> rfl

theorem advanceTap_offerNotice (e : Event) (s : State) : (s.offerNotice e).advanceTap = s.advanceTap.offerNotice e := by
  rw [offerNotice_eq, offerNotice_eq]
  have h : s.advanceTap.events = s.events := rfl
  rw [h]
  split <;> rfl

/-! ## Commands -/

theorem index?_none {n : Nat} {w : Word} (h : n ≤ w.toNat) : index? n w = none := by
  simp [index?]
  omega

theorem index?_some {n : Nat} {w : Word} (i : Fin n) (h : w.toNat = i.val) : index? n w = some i := by
  simp [index?, h]

/-- A command works from its argument copy (R169). -/
theorem takeCommand_arg (code : Word) (s : State) (i : Fin 4) : (s.takeCommand code).arg i = s.carg.get i := rfl

theorem takeCommand_line (code : Word) (s : State) (n : LineId) : (s.takeCommand code).line n = s.line n := by cases n <;> rfl

theorem setLine_takeCommand (code : Word) (s : State) (n : LineId) (l : Line) :
    (s.setLine n l).takeCommand code = (s.takeCommand code).setLine n l := by cases n <;> rfl

/-- The take of a command and a notice of its step reach different state. -/
theorem takeCommand_offerNotice (code : Word) (e : Event) (s : State) :
    (s.offerNotice e).takeCommand code = (s.takeCommand code).offerNotice e := by
  rw [offerNotice_eq, offerNotice_eq]
  have h : (s.takeCommand code).events = s.events := rfl
  rw [h]
  split <;> rfl

/-- A completed command is a taken one completed. -/
theorem commandDone_eq (code : Word) (r : ResultCode) (v : Word) (s : State) :
    s.commandDone code r v = (s.takeCommand code).complete r v := rfl

/-- Every row that writes a code to CMD hands the code's body to the Command Unit (R169). -/
theorem exec_command (c : Instr) (code : Word) (h : commandCode? c = some code) :
    ∃ body : State → State, ∀ s, exec c s = .next (s.hostCommand code body) := by
  cases c <;> try contradiction
  all_goals (injection h with h; subst h)
  case commandOverrun code => exact ⟨commandBody code, fun _ => rfl⟩
  case badCommand code => exact ⟨commandBody code, fun _ => rfl⟩
  case allocBlock => exact ⟨allocBlockBody, fun _ => rfl⟩
  case freeBlock => exact ⟨freeBlockBody, fun _ => rfl⟩
  case bindOutput => exact ⟨bindOutputBody, fun _ => rfl⟩
  case bindImage => exact ⟨bindImageBody, fun _ => rfl⟩
  case unbindOutput => exact ⟨unbindOutputBody, fun _ => rfl⟩
  case unbindImage => exact ⟨unbindImageBody, fun _ => rfl⟩
  case commitOutput => exact ⟨commitOutputBody, fun _ => rfl⟩
  case holdImage => exact ⟨holdImageBody, fun _ => rfl⟩
  case releaseImage => exact ⟨releaseImageBody, fun _ => rfl⟩
  case submit => exact ⟨submitBody, fun _ => rfl⟩
  case abort => exact ⟨abortBody, fun _ => rfl⟩
  case park => exact ⟨parkBody, fun _ => rfl⟩
  case resume => exact ⟨resumeBody, fun _ => rfl⟩
  case clearCounters => exact ⟨clearCountersBody, fun _ => rfl⟩
  case lineBreak => exact ⟨lineBreakBody, fun _ => rfl⟩

/-! ## SUBMIT's packed fields (R180) -/

theorem requestKind?_none (k : BitVec 2) : requestKind? k = none ↔ (k.toNat = 0 ∨ k.toNat = 3) := by revert k; decide

theorem replyBlock?_none (v : Byte) : replyBlock? v = none ↔ (127 < v.toNat ∧ v.toNat ≠ 255) := by
  unfold replyBlock?
  have h2 : v = 255 ↔ v.toNat = 255 := ⟨fun h => by rw [h]; rfl, fun h => BitVec.eq_of_toNat_eq h⟩
  by_cases h : v = 255
  · simp [h]
  · have h4 : v.toNat ≠ 255 := fun x => h (h2.2 x)
    rw [if_neg h]
    by_cases h3 : v.toNat < 128
    · rw [dif_pos h3]
      simp
      omega
    · rw [dif_neg h3]
      simp
      omega

/-! ## The check sequence (R12, R13) -/

/-- Fed its own top bits, the register only shifts. -/
theorem checkBit_cancels (c : Word) (i : Nat) (h : i < 16) :
    checkBit (c <<< i) (c.getLsbD (15 - i)) = c <<< (i + 1) := by
  have h2 : (c <<< i).getLsbD 15 = c.getLsbD (15 - i) := by
    simp only [BitVec.getLsbD_shiftLeft]
    have : ¬ 15 < i := by omega
    simp [this]
  rw [checkBit, h2]
  simp [BitVec.shiftLeft_add]

/-- Fed its own two bytes, high byte first, the register becomes 0. -/
theorem checkByte_cancels (c : Word) : checkByte (checkByte c (c.extractLsb' 8 8)) (c.extractLsb' 0 8) = 0 := by
  have h : ∀ i, i < 16 → checkBit (c <<< i) (c.getLsbD (15 - i)) = c <<< (i + 1) := checkBit_cancels c
  have h0 := h 0 (by decide)
  rw [BitVec.shiftLeft_zero] at h0
  simp only [checkByte, BitVec.getLsbD_extractLsb']
  simp only [Nat.reduceAdd, Nat.reduceLT, decide_true, Bool.true_and]
  rw [h0, h 1 (by decide), h 2 (by decide), h 3 (by decide), h 4 (by decide), h 5 (by decide), h 6 (by decide),
    h 7 (by decide), h 8 (by decide), h 9 (by decide), h 10 (by decide), h 11 (by decide), h 12 (by decide),
    h 13 (by decide), h 14 (by decide), h 15 (by decide)]
  exact BitVec.shiftLeft_eq_zero (by decide)

theorem bytes_append (c : Word) : c.extractLsb' 8 8 ++ c.extractLsb' 0 8 = c := by
  apply BitVec.eq_of_toNat_eq
  rw [toNat_append_sum]
  simp only [BitVec.extractLsb'_toNat, Nat.shiftRight_eq_div_pow]
  have := c.isLt
  omega

/-- Covered bytes followed by their own check bytes give 0 (R13). -/
theorem checkSequence_append (l : List Byte) :
    checkSequence (l ++ [(checkSequence l).extractLsb' 8 8, (checkSequence l).extractLsb' 0 8]) = 0 := by
  conv_lhs => unfold checkSequence
  rw [List.foldl_append]
  exact checkByte_cancels _

/-! ## The tail of a cycle start -/

/-- A line after `openCycle` (R28, R45, R55). -/
def openedLine (l : Line) : Line :=
  { l with
    phase := .cyclic, walk := 0, syncOwed := l.syncOwed || (l.sync && !l.faulted && l.engine != .off), urgent := false
    unsolMark := false }

/-- The line after CYCLE has reached its transaction (R39). -/
def handedLine (l : Line) : Line :=
  { openedLine l with
    attempt := l.attempt.map fun a => if a.origin = .sync then a else { a with stop := { a.stop with cycle := true } } }

theorem openCycle_eq (n : LineId) (s : State) :
    s.openCycle n = { s.setLine n (openedLine (s.line n)) with edges := s.edges ||| cycleStartBit n } := by
  unfold openCycle modifyLine raise
  rw [cycleStart_flag]
  cases n <;> rfl

theorem stopTransaction_cycle (n : LineId) (s : State) (h : ∀ a, (s.line n).attempt = some a → a.retryOwed = false) :
    s.stopTransaction n .cycle = (s.setLine n { s.line n with
      attempt := (s.line n).attempt.map fun a =>
        if a.origin = .sync then a else { a with stop := { a.stop with cycle := true } } }, []) := by
  have hself : s.setLine n (s.line n) = s := by cases n <;> rfl
  unfold stopTransaction
  cases ha : (s.line n).attempt with
  | none =>
    simp only [Option.map_none]
    congr 1
    conv_lhs => rw [← hself]
    rw [← ha]
  | some a =>
    simp only [Option.map_some, Attempt.isTransaction]
    by_cases ho : a.origin = .sync
    · simp [ho]
      conv_lhs => rw [← hself]
      rw [← ha]
    · simp [ho, h a ha, setAttempt, modifyLine, StopSet.add]

/-- A cycle start whose transaction is not between attempts: the line, CYCLE_START_n and the stations (R55, R82, R89). -/
theorem cycleHandOver_eq (n : LineId) (s : State) (h : ∀ a, (s.line n).attempt = some a → a.retryOwed = false) :
    (s.openCycle n).cycleHandOver n = ({ s.setLine n (handedLine (s.line n)) with
      edges := s.edges ||| cycleStartBit n, stations := (s.stationsCycleStart n).stations }, []) := by
  rw [openCycle_eq]
  have hw : ({ s.setLine n (openedLine (s.line n)) with edges := s.edges ||| cycleStartBit n } : State).waitsForRetry n = false := by
    unfold waitsForRetry
    have : ({ s.setLine n (openedLine (s.line n)) with edges := s.edges ||| cycleStartBit n } : State).line n
        = openedLine (s.line n) := by cases n <;> rfl
    rw [this]
    cases ha : (s.line n).attempt with
    | none => simp [openedLine, ha]
    | some a => simp [openedLine, ha, Attempt.waits, h a ha]
  unfold cycleHandOver
  simp only [hw, Bool.false_and, Bool.false_eq_true, if_false]
  rw [stopTransaction_cycle _ _ (by cases n <;> exact h)]
  cases n <;> rfl

/-- The stations and slots of a cycle start, in the statements' words. -/
theorem cycleHandedOver_of (n : LineId) (s t x : State) (hx : x.stations = s.stations)
    (ht : t.stations = (x.stationsCycleStart n).stations)
    (hs : ∀ k, t.slot k = if (s.slot k).state = .pending ∧ (s.station (s.slot k).station).line = n
      then { s.slot k with deferred := false } else s.slot k) : cycleHandedOver n s t := by
  have hst : ∀ u, t.station u = if (s.station u).line = n then (s.station u).cycleStart else s.station u := by
    intro u
    unfold station
    rw [ht]
    have := station_mapStations (fun _ st => if st.line = n then st.cycleStart else st) x u
    unfold station at this
    rw [hx] at this
    exact this
  refine ⟨?_, ?_, ?_, ?_, hs⟩
  · intro u hu; rw [hst, if_neg hu]
  · intro u hu hh; rw [hst, if_pos hu]; simp [Station.cycleStart, Station.countdown, hh]
  · intro u hu hh hc; rw [hst, if_pos hu]; simp [Station.cycleStart, Station.countdown, hh, Nat.not_le.mpr hc]
  · intro u hu hh hc; rw [hst, if_pos hu]; simp [Station.cycleStart, Station.countdown, hh, hc]

end State

end Sys2Proof.Machine
end

