-- ==== Sys2Proof/Laws/Ends.lean ====
section
/-!
SUPPORT. The ends of attempts and transactions: what each end comes to before its posts, the orders of one step's posts,
and the slots that complete at one event.
-/

namespace Sys2Proof.Machine

open State

/-! ## Posts of one step -/

/-- Notices alone are offered one after another. -/
theorem postAll_notices (es : List Event) (s : State) : s.postAll (es.map .notice) = offered es s := by
  unfold postAll offered
  rw [List.foldl_map]
  rfl

/-- Taking one post of a list of groups leaves the others. -/
theorem takeFrom_perm (gs : Groups) (i : Nat) (p : Post) (hs : Groups) (h : takeFrom gs i = some (p, hs)) :
    (p :: hs.flatten).Perm gs.flatten := by
  induction gs generalizing i p hs with
  | nil => simp [takeFrom] at h
  | cons g gs ih =>
    cases g with
    | nil => exact ih i p hs h
    | cons x g =>
      cases i with
      | zero => simp [takeFrom] at h; obtain ⟨rfl, rfl⟩ := h; simp
      | succ i =>
        simp only [takeFrom] at h
        cases ht : takeFrom gs i with
        | none => rw [ht] at h; simp at h; obtain ⟨rfl, rfl⟩ := h; simp
        | some r =>
          obtain ⟨q, gs'⟩ := r
          rw [ht] at h
          simp at h
          obtain ⟨rfl, rfl⟩ := h
          have := ih i q gs' ht
          simp only [List.flatten_cons]
          exact List.perm_middle.symm.trans (this.append_left (x :: g))

theorem takeFrom_ne_none (gs : Groups) (i : Nat) (h : gs.flatten ≠ []) : takeFrom gs i ≠ none := by
  induction gs generalizing i with
  | nil => simp at h
  | cons g gs ih =>
    cases g with
    | nil => exact ih i (by simpa using h)
    | cons x g =>
      cases i with
      | zero => simp [takeFrom]
      | succ i => simp only [takeFrom]; cases takeFrom gs i <;> simp

theorem flatten_filter_nonempty (gs : Groups) : (gs.filter fun g => !g.isEmpty).flatten = gs.flatten := by
  induction gs with
  | nil => rfl
  | cons g gs ih => cases g <;> simp [ih]

/-- Every order of a step's posts has all of them. -/
theorem interleave_perm (c fuel : Nat) (gs : Groups) (h : gs.flatten.length ≤ fuel) : (interleave c fuel gs).Perm gs.flatten := by
  induction fuel generalizing gs with
  | zero => rw [List.eq_nil_of_length_eq_zero (Nat.le_zero.1 h)]; exact .refl _
  | succ fuel ih =>
    have hf := flatten_filter_nonempty gs
    unfold interleave
    split
    · rename_i he; rw [he] at hf; rw [← hf]; exact .refl _
    · rename_i g he; rw [he] at hf; rw [← hf]; simp
    · rename_i g k rest he
      rw [he] at hf
      have hk : k ≠ [] := by
        have : k ∈ gs.filter fun g => !g.isEmpty := by rw [he]; simp
        intro h0; subst h0; simp at this
      split
      · rename_i hn
        exact absurd hn (takeFrom_ne_none _ _ (by simp [hk]))
      · rename_i p gs' ht
        have hp := takeFrom_perm _ _ _ _ ht
        rw [hf] at hp
        refine (List.Perm.cons p (ih gs' ?_)).trans hp
        have := hp.length_eq
        simp at this h
        simp
        omega

/-- Taking one post leaves every group but that of the post, which loses its first. -/
theorem takeFrom_groups (gs : Groups) (i : Nat) (p : Post) (hs : Groups) (h : takeFrom gs i = some (p, hs)) (g : List Post) (hg : g ∈ gs) :
    g = [] ∨ g ∈ hs ∨ ∃ r ∈ hs, g = p :: r := by
  induction gs generalizing i p hs with
  | nil => simp at hg
  | cons x gs ih =>
    cases x with
    | nil =>
      rcases List.mem_cons.1 hg with rfl | hg
      · exact .inl rfl
      · exact ih i p hs h hg
    | cons x xs =>
      cases i with
      | zero =>
        simp [takeFrom] at h
        obtain ⟨rfl, rfl⟩ := h
        rcases List.mem_cons.1 hg with rfl | hg
        · exact .inr (.inr ⟨xs, by simp, rfl⟩)
        · exact .inr (.inl (by simp [hg]))
      | succ i =>
        simp only [takeFrom] at h
        cases ht : takeFrom gs i with
        | none =>
          rw [ht] at h
          simp at h
          obtain ⟨rfl, rfl⟩ := h
          rcases List.mem_cons.1 hg with rfl | hg
          · exact .inr (.inr ⟨xs, by simp, rfl⟩)
          · exact .inr (.inl (by simp [hg]))
        | some r =>
          obtain ⟨q, gs'⟩ := r
          rw [ht] at h
          simp at h
          obtain ⟨rfl, rfl⟩ := h
          rcases List.mem_cons.1 hg with rfl | hg
          · exact .inr (.inl (by simp))
          · rcases ih i q gs' ht hg with h | h | ⟨r, hr, h⟩
            · exact .inl h
            · exact .inr (.inl (by simp [h]))
            · exact .inr (.inr ⟨r, by simp [hr], h⟩)

/-- Every order of a step's posts keeps each owner's own order (R137). -/
theorem interleave_sublist (c fuel : Nat) (gs : Groups) (h : gs.flatten.length ≤ fuel) (g : List Post) (hg : g ∈ gs) :
    g.Sublist (interleave c fuel gs) := by
  induction fuel generalizing gs g with
  | zero =>
    have : gs.flatten = [] := List.eq_nil_of_length_eq_zero (Nat.le_zero.1 h)
    rw [List.flatten_eq_nil_iff.1 this g hg]
    exact List.nil_sublist _
  | succ fuel ih =>
    rcases g with _ | ⟨y, ys⟩
    · exact List.nil_sublist _
    have hg' : (y :: ys) ∈ gs.filter fun g => !g.isEmpty := by simp [hg]
    have hf := flatten_filter_nonempty gs
    unfold interleave
    split
    · rename_i he; rw [he] at hg'; simp at hg'
    · rename_i x he; rw [he] at hg'; simp at hg'; rw [hg']
    · rename_i x k rest he
      rw [he] at hg' hf
      have hk : k ≠ [] := by
        have : k ∈ gs.filter fun g => !g.isEmpty := by rw [he]; simp
        intro h0; subst h0; simp at this
      split
      · rename_i hn
        exact absurd hn (takeFrom_ne_none _ _ (by simp [hk]))
      · rename_i p gs' ht
        have hp := (takeFrom_perm _ _ _ _ ht).length_eq
        rw [hf] at hp
        have hl : gs'.flatten.length ≤ fuel := by simp at hp h ⊢; omega
        rcases takeFrom_groups _ _ _ _ ht _ hg' with h | h | ⟨r, hr, h⟩
        · simp at h
        · exact (ih gs' hl _ h).trans (List.sublist_cons_self _ _)
        · rw [h]; exact (ih gs' hl r hr).cons_cons p

/-- The notice of a post. -/
def Post.event : Post → Event
  | .notice e => e
  | .completion _ e => e

theorem map_event (l : List Event) : (l.map Post.notice).map Post.event = l := by
  rw [List.map_map]; exact List.map_id l

/-- An order of the notices of two owners. -/
theorem notices_merge (p q : List Event) (l : List Post) (h : l.Perm (p.map Post.notice ++ q.map Post.notice))
    (hp : (p.map Post.notice).Sublist l) (hq : (q.map Post.notice).Sublist l) :
    ∃ order : List Event, l = order.map Post.notice ∧ order.Perm (p ++ q) ∧ p.Sublist order ∧ q.Sublist order := by
  refine ⟨l.map Post.event, ?_, ?_, ?_, ?_⟩
  · rw [List.map_map]
    conv_lhs => rw [← List.map_id l]
    apply List.map_congr_left
    intro x hx
    have := h.mem_iff.1 hx
    simp at this
    rcases this with ⟨e, _, rfl⟩ | ⟨e, _, rfl⟩ <;> rfl
  · have := h.map Post.event
    rwa [List.map_append, map_event, map_event] at this
  · have := hp.map Post.event
    rwa [map_event] at this
  · have := hq.map Post.event
    rwa [map_event] at this

/-- An order of a station's notices and one completion. -/
theorem completion_merge (p : List Event) (k : SlotIx) (r : Event) (l : List Post)
    (h : l.Perm (p.map Post.notice ++ [Post.completion k r])) (hp : (p.map Post.notice).Sublist l) :
    ∃ a b, p = a ++ b ∧ l = a.map Post.notice ++ Post.completion k r :: b.map Post.notice := by
  have hm : Post.completion k r ∈ l := h.mem_iff.2 (by simp)
  obtain ⟨x, y, rfl⟩ := List.append_of_mem hm
  have hlen : (x ++ y).length = p.length := by have := h.length_eq; simp at this ⊢; omega
  have hsub : (p.map Post.notice).Sublist (x ++ y) := by
    have h1 := hp.filter fun q => decide (q ≠ Post.completion k r)
    have h2 : (p.map Post.notice).filter (fun q => decide (q ≠ Post.completion k r)) = p.map Post.notice := by
      rw [List.filter_eq_self]; intro q hq; simp at hq; obtain ⟨e, _, rfl⟩ := hq; simp
    rw [h2] at h1
    refine h1.trans ?_
    simp only [List.filter_append, List.filter_cons]
    simp only [ne_eq, not_true_eq_false, decide_false, Bool.false_eq_true, if_false]
    exact (List.filter_sublist).append (List.filter_sublist)
  have he : p.map Post.notice = x ++ y := hsub.eq_of_length (by simp at hlen ⊢; omega)
  obtain ⟨a, b, rfl, rfl, rfl⟩ := List.map_eq_append_iff.1 he
  exact ⟨a, b, rfl, rfl⟩

namespace State

/-- The posts of a step, in some order of all of them. -/
theorem flush_perm (gs : Groups) (s : State) : ∃ ps i, ps.Perm gs.flatten ∧ s.flush gs = ({ s with freeIndex := i } : State).postAll ps := by
  have hf := flatten_filter_nonempty gs
  unfold flush
  split
  · rename_i he; rw [he] at hf; exact ⟨[], s.freeIndex, by rw [← hf]; exact .refl _, rfl⟩
  · rename_i g he; rw [he] at hf; exact ⟨g, s.freeIndex, by rw [← hf]; simp, rfl⟩
  · rename_i g k rest he
    rw [he] at hf
    exact ⟨_, _, by rw [← hf]; exact interleave_perm _ _ _ (Nat.le_refl _), rfl⟩

/-- The notices of two owners: each owner's own order is kept. -/
theorem flush_two (gs : Groups) (p q : List Event) (s : State)
    (h : gs.filter (fun g => !g.isEmpty) = [p.map Post.notice, q.map Post.notice].filter fun g => !g.isEmpty) :
    answersInSomeOrder (.next (s.flush gs)) s p q := by
  unfold answersInSomeOrder flush
  rw [h]
  rcases p with _ | ⟨x, p⟩
  · refine ⟨q, by simp, by simp, .refl _, ?_⟩
    rcases q with _ | ⟨y, q⟩
    · rfl
    · exact congrArg _ (postAll_notices (y :: q) s)
  · rcases q with _ | ⟨y, q⟩
    · exact ⟨x :: p, by simp, .refl _, by simp, congrArg _ (postAll_notices (x :: p) s)⟩
    · have e : [(x :: p).map Post.notice, (y :: q).map Post.notice].filter (fun g => !g.isEmpty)
          = [(x :: p).map Post.notice, (y :: q).map Post.notice] := by simp
      rw [e]
      have hperm := interleave_perm s.freeIndex ([(x :: p).map Post.notice, (y :: q).map Post.notice] : Groups).flatten.length
        [(x :: p).map Post.notice, (y :: q).map Post.notice] (Nat.le_refl _)
      have hsub := interleave_sublist s.freeIndex _ ([(x :: p).map Post.notice, (y :: q).map Post.notice] : Groups) (Nat.le_refl _)
      obtain ⟨order, h1, h2, h3, h4⟩ := notices_merge (x :: p) (y :: q) _ (by simpa using hperm) (hsub _ (by simp)) (hsub _ (by simp))
      refine ⟨order, h2, h3, h4, ?_⟩
      show Host.Outcome.next (State.postAll (interleave _ _ _) _) = _
      rw [h1, postAll_notices]
      simp

/-- A completion offered, in the statements' words. -/
theorem offerCompletion_eq (k : SlotIx) (r : Event) (s : State) : s.offerCompletion k r = completionOffered k r s := by
  unfold offerCompletion completionOffered Config.queueLimit
  split
  · unfold takeCompletion; rw [freeSlot_eq]; rfl
  · rfl

theorem postAll_append (a b : List Post) (s : State) : s.postAll (a ++ b) = (s.postAll a).postAll b := List.foldl_append

/-- A station's notices and one slot's completion: the completion stands somewhere among them. -/
theorem flush_completion_two (gs : Groups) (p : List Event) (k : SlotIx) (r : Event) (s : State)
    (h : gs.filter (fun g => !g.isEmpty) = [p.map Post.notice, [Post.completion k r]].filter fun g => !g.isEmpty) :
    answersWithCompletion (.next (s.flush gs)) s p k r := by
  unfold answersWithCompletion flush
  rw [h]
  rcases p with _ | ⟨x, p⟩
  · refine ⟨[], [], rfl, ?_⟩
    show Host.Outcome.next (s.offerCompletion k r) = _
    rw [offerCompletion_eq]; rfl
  · have e : [(x :: p).map Post.notice, [Post.completion k r]].filter (fun g => !g.isEmpty)
        = [(x :: p).map Post.notice, [Post.completion k r]] := by simp
    rw [e]
    have hperm := interleave_perm s.freeIndex ([(x :: p).map Post.notice, [Post.completion k r]] : Groups).flatten.length
      [(x :: p).map Post.notice, [Post.completion k r]] (Nat.le_refl _)
    have hsub := interleave_sublist s.freeIndex _ ([(x :: p).map Post.notice, [Post.completion k r]] : Groups) (Nat.le_refl _)
    obtain ⟨a, b, h1, h2⟩ := completion_merge (x :: p) k r _ (by simpa using hperm) (hsub _ (by simp))
    refine ⟨a, b, h1, ?_⟩
    show Host.Outcome.next (State.postAll (interleave _ _ _) _) = _
    rw [h2, postAll_append, postAll_notices]
    show Host.Outcome.next (State.postAll (b.map Post.notice) (State.offerCompletion k r _)) = _
    rw [postAll_notices, offerCompletion_eq]
    simp

/-- With one owner's notices alone there is one order. -/
theorem answers_one {r : Host.Outcome State Fault Refusal} {s : State} {p : List Event} (h : answersInSomeOrder r s p []) :
    r = .next (offered p s) := by
  obtain ⟨order, h1, h2, _, h4⟩ := h
  have : p = order := h2.eq_of_length (by simpa using h1.length_eq.symm)
  subst this
  rw [h4]
  simp

/-- With no notice the completion is offered alone. -/
theorem answers_completion {r : Host.Outcome State Fault Refusal} {s : State} {k : SlotIx} {record : Event}
    (h : answersWithCompletion r s [] k record) : r = .next (completionOffered k record s) := by
  unfold answersWithCompletion at h
  obtain ⟨p, q, hpq, hr⟩ := h
  obtain ⟨rfl, rfl⟩ : p = [] ∧ q = [] := by simpa using hpq.symm
  exact hr

/-! ## Slots that complete at one event -/

/-- The slots named have the outcome given, the others are as before, and each named slot has its post. -/
theorem finishSlots_spec (o : OutcomeCode) (ks : List SlotIx) (s : State) :
    (∀ k, (s.finishSlots o ks).1.slot k = if k ∈ ks then { s.slot k with outcome := o, replyLen := 0, deferred := false } else s.slot k)
      ∧ (s.finishSlots o ks).1.submitted = s.submitted.filter (fun k => k ∉ ks)
      ∧ (s.finishSlots o ks).2 = ks.map fun k =>
        Post.completion k (requestDone k { s.slot k with outcome := o, replyLen := 0, deferred := false } (s.slotLine k)) := by
  induction ks generalizing s with
  | nil => simp [finishSlots]
  | cons j ks ih =>
    obtain ⟨h1, h2, h3⟩ := ih (s.finishSlot j o 0).1
    have hs : ∀ k, (s.finishSlot j o 0).1.slot k = if j = k then { s.slot j with outcome := o, replyLen := 0, deferred := false } else s.slot k :=
      fun k => slot_setSlot j _ s k
    have hl : ∀ k, (s.finishSlot j o 0).1.slotLine k = s.slotLine k := by
      intro k
      unfold slotLine
      rw [hs]
      have : ∀ u, (s.finishSlot j o 0).1.station u = s.station u := fun _ => rfl
      rw [this]
      split
      · rename_i h; subst h; rfl
      · rfl
    refine ⟨?_, ?_, ?_⟩
    · intro k
      show ((s.finishSlot j o 0).1.finishSlots o ks).1.slot k = _
      rw [h1, hs]
      by_cases hj : j = k
      · subst hj; simp
      · simp [hj, Ne.symm hj]
    · show ((s.finishSlot j o 0).1.finishSlots o ks).1.submitted = _
      rw [h2]
      show (s.submitted.filter (· ≠ j)).filter _ = _
      rw [List.filter_filter]
      congr 1
      funext k
      by_cases hj : k = j <;> simp [hj]
    · show (s.finishSlot j o 0).2 :: ((s.finishSlot j o 0).1.finishSlots o ks).2 = _
      rw [h3, List.map_cons]
      congr 1
      apply List.map_congr_left
      intro k _
      rw [hs, hl]
      split
      · rename_i h; subst h; rfl
      · rfl

/-- The slots a list of posts completes. -/
def completes (ps : List Post) (k : SlotIx) : Prop := ∃ r, Post.completion k r ∈ ps

/-- A completion offered ends its slot in FREE or DONE with the outcome and length it has; other slots are untouched. -/
theorem offerCompletion_slot (k j : SlotIx) (r : Event) (s : State) :
    (j ≠ k → (s.offerCompletion k r).slot j = s.slot j)
      ∧ ((s.offerCompletion k r).slot j).outcome = (s.slot j).outcome
      ∧ ((s.offerCompletion k r).slot j).replyLen = (s.slot j).replyLen
      ∧ (((s.offerCompletion k r).slot k).state = .free ∨ ((s.offerCompletion k r).slot k).state = .done) := by
  have key : ∀ x : Slot, ∀ t : State, t.slots = s.slots.set k x → x.outcome = (s.slot k).outcome → x.replyLen = (s.slot k).replyLen →
      (x.state = .free ∨ x.state = .done) → (j ≠ k → t.slot j = s.slot j) ∧ (t.slot j).outcome = (s.slot j).outcome
        ∧ (t.slot j).replyLen = (s.slot j).replyLen ∧ ((t.slot k).state = .free ∨ (t.slot k).state = .done) := by
    intro x t ht h1 h2 h3
    have hs : ∀ i, t.slot i = if k = i then x else s.slot i := by
      intro i; unfold slot; rw [ht]; exact get_set s.slots k i x
    simp only [hs]
    by_cases hj : k = j
    · subst hj; simp [h1, h2, h3]
    · simp [hj, h3]
  unfold offerCompletion
  split
  · obtain ⟨ow, h⟩ := takeCompletion_frame k r s
    rw [h]
    exact key _ _ rfl rfl rfl (.inl rfl)
  · rw [holdCompletion_frame]
    exact key _ _ rfl rfl rfl (.inr rfl)

theorem postAll_slot (ps : List Post) (s : State) (k : SlotIx) :
    ((s.postAll ps).slot k).outcome = (s.slot k).outcome ∧ ((s.postAll ps).slot k).replyLen = (s.slot k).replyLen
      ∧ (¬ completes ps k → (s.postAll ps).slot k = s.slot k)
      ∧ ((completes ps k ∨ (s.slot k).state = .free ∨ (s.slot k).state = .done) →
          ((s.postAll ps).slot k).state = .free ∨ ((s.postAll ps).slot k).state = .done) := by
  induction ps generalizing s with
  | nil =>
    refine ⟨rfl, rfl, fun _ => rfl, ?_⟩
    rintro (⟨r, h⟩ | h)
    · simp at h
    · exact h
  | cons p ps ih =>
    obtain ⟨h1, h2, h3, h4⟩ := ih (s.post p)
    show ((State.postAll ps (s.post p)).slot k).outcome = _
      ∧ ((State.postAll ps (s.post p)).slot k).replyLen = _ ∧ (_ → (State.postAll ps (s.post p)).slot k = _)
      ∧ (_ → ((State.postAll ps (s.post p)).slot k).state = _ ∨ ((State.postAll ps (s.post p)).slot k).state = _)
    cases p with
    | notice e =>
      have hn : (s.post (.notice e)).slot k = s.slot k := offerNotice_slot e s k
      rw [hn] at h1 h2 h3 h4
      refine ⟨h1, h2, ?_, ?_⟩
      · intro h; exact h3 fun ⟨r, hr⟩ => h ⟨r, by simp [hr]⟩
      · rintro (⟨r, hr⟩ | h)
        · exact h4 (.inl ⟨r, by simpa using hr⟩)
        · exact h4 (.inr h)
    | completion j e =>
      obtain ⟨g1, g2, g3, g4⟩ := offerCompletion_slot j k e s
      have hp : s.post (.completion j e) = s.offerCompletion j e := rfl
      rw [hp] at h1 h2 h3 h4 ⊢
      refine ⟨h1.trans g2, h2.trans g3, ?_, ?_⟩
      · intro h
        have hjk : k ≠ j := fun hh => h ⟨e, by simp [hh]⟩
        rw [h3 fun ⟨r, hr⟩ => h ⟨r, by simp [hr]⟩, g1 hjk]
      · intro h
        by_cases hjk : k = j
        · subst hjk; exact h4 (.inr g4)
        · rcases h with ⟨r, hr⟩ | h
          · simp [hjk] at hr; exact h4 (.inl ⟨r, hr⟩)
          · rw [g1 hjk] at h4; exact h4 (.inr h)

/-- A slot among a step's posts is completed, the others keep what they had. -/
theorem flush_slot (gs : Groups) (s : State) (k : SlotIx) :
    ((s.flush gs).slot k).outcome = (s.slot k).outcome ∧ ((s.flush gs).slot k).replyLen = (s.slot k).replyLen
      ∧ (¬ completes gs.flatten k → (s.flush gs).slot k = s.slot k)
      ∧ (completes gs.flatten k → ((s.flush gs).slot k).state = .free ∨ ((s.flush gs).slot k).state = .done) := by
  obtain ⟨ps, i, hp, hf⟩ := flush_perm gs s
  have h := postAll_slot ps { s with freeIndex := i } k
  have hs : ({ s with freeIndex := i } : State).slot k = s.slot k := rfl
  rw [hs] at h
  have hc : completes ps k ↔ completes gs.flatten k := by
    unfold completes
    exact exists_congr fun r => hp.mem_iff
  rw [hf]
  exact ⟨h.1, h.2.1, fun hn => h.2.2.1 fun x => hn (hc.1 x), fun hn => h.2.2.2 (.inl (hc.2 hn))⟩

/-! ## The end of an attempt -/

theorem lineFault_flag (n : LineId) (w : Word) : w ||| ((Source.lineFault n).mask &&& edgeMask) = w ||| lineFaultBit n := by
  cases n <;> rfl

@[simp] theorem quietLimitNoted_line (n m : LineId) (s : State) : (quietLimitNoted n s).line m = s.line m := by
  unfold quietLimitNoted; rw [offerNotice_line]; cases m <;> rfl

/-- Every event that ends an attempt hands its outcome to the engine, the engine in the state the mode calls for (R32, R34, R35, R37). -/
theorem exec_attemptEnds (n : LineId) (s : State) (c : Instr) (o : OutcomeCode) (l : Line) (a : Attempt) (b : State)
    (h : attemptEnds s n c o l a b) :
    exec c s = .next (settle n ((b.setLine n { l with engine := restState s.mode, attempt := some a }).endAttempt n o)) := by
  rcases h with ⟨rfl, rfl, he, ha, rfl, rfl⟩ | ⟨rfl, ho, he, hq, ha, hf, rfl, rfl⟩ | ⟨rfl, ho, he, hl, ha, hf, rfl, rfl⟩
    | ⟨t, r, len, u, rfl, hr, hu, hg, rfl, rfl, rfl⟩
  · simp only [exec, execReplyWindowExpiry, he, if_true, setEngine, modifyLine]
    rw [← ha]
  · simp only [exec, execQuietWaitEnd, he, true_and, (quiet_iff _).2 hq, if_true, setEngine, modifyLine, endQuietWait, line_setLine, ha, hf, Option.getD]
  · have hX : (s.setEngine n (restState s.mode)).countFault n true
        = (quietLimitNoted n s).setLine n { s.line n with
            faults := (s.line n).faults + 1, engine := restState s.mode, attempt := some a } := by
      have hl2 : (((s.setEngine n (restState s.mode)).line n).faults + 1).toNat < 8 := by
        simp only [setEngine, modifyLine, line_setLine, if_true]
        rw [BitVec.toNat_add]; simp; omega
      rw [countFault_below n true _ hl2]
      unfold quietLimitNoted
      rw [setLine_offerNotice _ _ _ _ (by cases n <;> rfl)]
      simp only [setEngine, modifyLine, line_setLine, if_true, setLine_setLine, raise, setLine_edges, lineFault_flag, ← ha]
      cases n <;> rfl
    simp only [exec, execQuietLimitExpiry, he, if_true, hX, endQuietWait, line_setLine, hf, Option.getD]
  · obtain ⟨h1, h2, h3, h4, h5, h6, h7⟩ := hr
    rw [exec_characterArrival n t b h1]
    have hd : ((delivered (b.line n) t)).engine = .receiving := h2
    have hd2 : ((delivered (b.line n) t)).attempt = some r := h3
    have p2 : ¬ (len.toNat + 3 + 1 ≤ 2) := by omega
    have p3 : ¬ (len.toNat + 3 + 1 ≤ 2 + len.toNat) := by omega
    have p4 : ¬ (len.toNat + 3 + 1 = 3 + len.toNat) := by omega
    have hf : arrivalFailure (r.received + 1) (CharSamples.decode t) = none := by
      simp [arrivalFailure, h5, h6, h7]
    rw [h5] at hf
    simp only [engineArrival, line_setLine, if_true, hd, receiveChar, hd2, hf, takeReplyChar, h5,
      h4, Option.getD, p2, p3, p4, if_false, replyComplete, hu, setLine_station]
    rw [replyOutcome_of _ _ _ _ hg]
    simp only [setAttempt, setEngine, modifyLine, line_setLine, if_true, setLine_setLine, setLine_mode, restState_eq]

/-- What the event itself leaves of the line and of the rest of the state. -/
theorem attemptEnds_frame (n : LineId) (s : State) (c : Instr) (o : OutcomeCode) (l : Line) (a : Attempt) (b : State)
    (h : attemptEnds s n c o l a b) : (l.breakRequest = (s.line n).breakRequest ∧ l.cycnum = (s.line n).cycnum
        ∧ l.enable = (s.line n).enable ∧ l.faulted = (s.line n).faulted)
      ∧ ∃ ev lost ed, b = { s with events := ev, evlost := lost, edges := ed } := by
  rcases h with ⟨_, _, _, _, rfl, rfl⟩ | ⟨_, _, _, _, _, _, rfl, rfl⟩ | ⟨_, _, _, _, _, _, rfl, rfl⟩ | ⟨_, _, _, _, _, _, _, _, rfl, _, rfl⟩
  · exact ⟨⟨rfl, rfl, rfl, rfl⟩, _, _, _, rfl⟩
  · exact ⟨⟨rfl, rfl, rfl, rfl⟩, _, _, _, rfl⟩
  · obtain ⟨ev, lost, ed, h⟩ := offerNotice_frame {
      kind := .lineFault, line := n, station := 0, detailA := ((s.line n).faults + 1).setWidth 6, detailB := 1, cycle := 0, extra := 0 }
        ({ s with edges := s.edges ||| lineFaultBit n } : State)
    exact ⟨⟨rfl, rfl, rfl, rfl⟩, ev, lost, ed, h⟩
  · exact ⟨⟨rfl, rfl, rfl, rfl⟩, _, _, _, rfl⟩

/-- The end of an attempt that owes no retry ends its transaction (R38). -/
theorem endAttempt_end (n : LineId) (s : State) (a : Attempt) (u : StationIx) (o : OutcomeCode)
    (ha : (s.line n).attempt = some a) (hu : a.station = some u)
    (hr : s.retryDue a o = false ∨ a.stop ≠ noStop ∨ (s.line n).engine = .faulted) :
    s.endAttempt n o = State.endTransaction n { a with outcome := some o, retryOwed := false, fixedOutcome := none } u o
      ((s.setStation u (attemptCounted o (s.station u))).recordAttempt a o) := by
  have hret : ∀ x k m, ((State.slotAttemptEnd k m o (s.setStation u x)).slot k).retries = (s.slot k).retries := by
    intro x k m
    simp [slotAttemptEnd, modifySlot]
  have hrec : ∀ x, (State.recordAttempt a o (s.setStation u x)).retryDue a o = s.retryDue a o := by
    intro x
    unfold recordAttempt retryDue retryBudget
    cases a.origin with
    | acyclic k => simp only [hret]
    | cyclic e => rfl
    | probe e => rfl
    | sync => rfl
  have hn : ((State.recordAttempt a o (s.setStation u (attemptCounted o (s.station u)))).retryDue a o && a.stop.isEmpty
      && (s.line n).engine != .faulted) = false := by
    rw [hrec]
    rcases hr with h | h | h
    · simp [h]
    · have : a.stop.isEmpty = false := by simp [StopSet.isEmpty, StopSet.empty]; exact h
      simp [this]
    · simp [h]
  unfold endAttempt
  simp only [ha, hu, modifyStation, countAttempt_eq]
  rw [hn]
  rfl

/-! ## What a final outcome makes of a station and its image pair -/

/-- A final outcome that takes no station OFFLINE changes the station and posts its changes. -/
theorem stationOutcome_stays (X : State) (u : StationIx) (o : OutcomeCode) (p poll : Bool) (st : Station)
    (h : Station.applyHealth o p (Station.countOutcome o (Station.probeNote p (X.station u)) poll (X.station u)) = st)
    (hno : st.health ≠ .offline ∨ (X.station u).health = .offline) :
    X.stationOutcome u o p poll = (X.setStation u st, healthNotice u (X.station u) st ++ reachableNotice u (X.station u) st) := by
  unfold stationOutcome
  simp only [h]
  rw [if_neg]
  rintro ⟨h1, h2⟩
  rcases hno with h | h
  · exact h h1
  · exact h2 h

theorem stationNotice_record (s : State) (u : StationIx) (old : Health) (st : Station) (h : st.line = (s.station u).line) :
    stationStateNotice u old st = stateRecord s u old st.health st.missCount := by
  rw [stationStateNotice_eq, h]; rfl

/-- An entry to OFFLINE: STATION_DOWN, and the PENDING slots after the notice (R80, R131). -/
theorem stationOutcome_offline (X : State) (u : StationIx) (o : OutcomeCode) (p poll : Bool) (st : Station)
    (h : Station.applyHealth o p (Station.countOutcome o (Station.probeNote p (X.station u)) poll (X.station u)) = st)
    (hst : st.health = .offline) (hno : (X.station u).health ≠ .offline) :
    X.stationOutcome u o p poll = ((((X.setStation u st).raise .stationDown).finishPendingOf u .stationOffline).1,
      healthNotice u (X.station u) st ++ reachableNotice u (X.station u) st
        ++ (((X.setStation u st).raise .stationDown).finishPendingOf u .stationOffline).2) := by
  unfold stationOutcome
  simp only [h, hst, hno, ne_eq, not_false_eq_true, and_self, if_true]

theorem stationLeft_stays (u : StationIx) (st : Station) (X : State) (h : st.health ≠ .offline ∨ (X.station u).health = .offline) :
    stationLeft u st X = X.setStation u st := by
  unfold stationLeft
  rw [if_neg]
  rintro ⟨h1, h2⟩
  rcases h with h | h
  · exact h h1
  · exact h2 h

theorem stationDown_flag (w : Word) : w ||| (Source.stationDown.mask &&& edgeMask) = w ||| 0x4000 := rfl

/-- The miss that reaches MISS_LIMIT (R79, R80), whatever the count of failed attempts. -/
theorem applyHealth_limit (o : OutcomeCode) (p poll : Bool) (x : Station) (ho : o.isMiss = true) (h : reachesLimit x)
    : Station.applyHealth o p (Station.countOutcome o (Station.probeNote p x) poll x) = goneOffline o x := by
  obtain ⟨hh, h0, hl⟩ := h
  have hok : o ≠ .ok := by rintro rfl; simp [OutcomeCode.isMiss] at ho
  have hct : o.isContact = false := by cases o <;> simp [OutcomeCode.isMiss] at ho <;> rfl
  rcases hh with hh | hh <;>
    simp [Station.applyHealth, Station.countOutcome, Station.probeNote, ho, hok, hh, Station.ordinaryOutcome, hct,
      Station.countMiss, Nat.not_lt.2 hl, Station.toOffline, goneOffline] <;> exact h0

/-- What `stationTakes` says, at a station whose count of failed attempts is F. -/
theorem stationOutcome_core (s X : State) (u : StationIx) (o : OutcomeCode) (p poll : Bool) (st : Station) (notices : List Event)
    (F : Word) (h : stationTakes s u o poll st notices) (hX : X.station u = { s.station u with failedAttempts := F })
    (hp : p = false ∨ (s.station u).health ≠ .offline ∨ o = .collision) (hq : s.pendingOf u = [] → X.pendingOf u = []) :
    X.stationOutcome u o p poll = (stationLeft u { st with failedAttempts := F } X, notices.map Post.notice) := by
  have hnote : o = .collision ∨ Station.probeNote p (X.station u) = false := by
    rcases hp with h | h | h
    · right; simp [Station.probeNote, h]
    · right; simp [Station.probeNote, hX]; intro _; exact h
    · exact .inl h
  have hxh : (X.station u).health = (s.station u).health := by rw [hX]
  rcases h with ⟨ho, hh, hst, hn⟩ | ⟨ho, hh, hlt, hst, hn⟩ | ⟨ho, hlim, hpe, hst, hn⟩ | ⟨rfl, hst, hn⟩
  · have hm : o.isMiss = false := by rcases ho with rfl | rfl | rfl <;> rfl
    have hc : o.isContact = true := by rcases ho with rfl | rfl | rfl <;> rfl
    have key : Station.applyHealth o p (Station.countOutcome o (Station.probeNote p (X.station u)) poll (X.station u))
        = { st with failedAttempts := F } := by
      rw [hX, hst]
      rcases hh with hh | hh <;> cases poll <;>
        simp [Station.applyHealth, Station.countOutcome, hh, Station.ordinaryOutcome, hc, hm]
    have hno : ({ st with failedAttempts := F } : Station).health ≠ .offline := by rw [hst]; simp
    rw [stationOutcome_stays X u o p poll _ key (.inl hno), stationLeft_stays _ _ _ (.inl hno)]
    congr 1
    rw [hX, hn]
    rcases hh with hh | hh
    · simp [healthNotice, reachableNotice, hst, hh]
    · simp only [healthNotice, reachableNotice, hst, hh]
      simp [stationStateNotice_eq, stateRecord]
  · have hnote : Station.probeNote p (X.station u) = false := by
      rcases hnote with h | h
      · subst h; simp [OutcomeCode.isMiss] at ho
      · exact h
    have hok : o ≠ .ok := by rintro rfl; simp [OutcomeCode.isMiss] at ho
    have hct : o.isContact = false := by cases o <;> simp [OutcomeCode.isMiss] at ho <;> rfl
    have hml : (s.station u).missLimit ≠ 0 := by intro h; rw [h] at hlt; simp at hlt
    have key : Station.applyHealth o p (Station.countOutcome o (Station.probeNote p (X.station u)) poll (X.station u))
        = { st with failedAttempts := F } := by
      rw [hnote, hX, hst]
      rcases hh with hh | hh <;>
        simp [Station.applyHealth, Station.countOutcome, ho, hok, hh, Station.ordinaryOutcome, hct,
          Station.countMiss, hlt] <;> exact hml
    have hno : ({ st with failedAttempts := F } : Station).health ≠ .offline := by rw [hst]; simp
    rw [stationOutcome_stays X u o p poll _ key (.inl hno), stationLeft_stays _ _ _ (.inl hno)]
    congr 1
    rw [hX, hn]
    rcases hh with hh | hh
    · simp only [healthNotice, reachableNotice, hst, hh]
      simp [stationStateNotice_eq, stateRecord]
    · simp [healthNotice, reachableNotice, hst, hh]
  · have key : Station.applyHealth o p (Station.countOutcome o (Station.probeNote p (X.station u)) poll (X.station u))
        = { st with failedAttempts := F } := by
      rw [applyHealth_limit o p poll _ ho (by rw [hX]; exact hlim), hX, hst]
      rfl
    have hoff : ({ st with failedAttempts := F } : Station).health = .offline := by rw [hst]; rfl
    have hon : (X.station u).health ≠ .offline := by rw [hxh]; rcases hlim.1 with h | h <;> simp [h]
    have hfin : ∀ Z : State, Z.pendingOf u = X.pendingOf u → Z.finishPendingOf u .stationOffline = (Z, []) := by
      intro Z hz; unfold finishPendingOf; rw [hz, hq hpe]; rfl
    rw [stationOutcome_offline X u o p poll _ key hoff hon,
      hfin (State.raise .stationDown (X.setStation u { st with failedAttempts := F })) rfl]
    unfold stationLeft
    rw [if_pos ⟨hoff, hon⟩]
    refine Prod.ext ?_ ?_
    · rfl
    · rw [hX, hn, hst]
      rcases hlim.1 with hh | hh <;>
        simp [healthNotice, reachableNotice, goneOffline, attemptCounted, hh, stationStateNotice_eq, stateRecord]
  · have key : Station.applyHealth .collision p (Station.countOutcome .collision (Station.probeNote p (X.station u)) poll (X.station u))
        = { st with failedAttempts := F } := by
      rw [hX, hst]
      cases hh : (s.station u).health <;> cases p <;> cases poll <;>
        simp [Station.applyHealth, Station.countOutcome, hh, Station.ordinaryOutcome, Station.probeOutcome, OutcomeCode.isContact,
          OutcomeCode.isMiss]
    have hno : ({ st with failedAttempts := F } : Station).health ≠ .offline ∨ (X.station u).health = .offline := by
      rw [hxh, hst]; exact (em _).symm
    rw [stationOutcome_stays X u .collision p poll _ key hno, stationLeft_stays _ _ _ hno]
    congr 1
    rw [hX, hn, hst]
    simp [healthNotice, reachableNotice]

theorem stationTakes_counted {s : State} {u : StationIx} {o : OutcomeCode} {poll : Bool} {st : Station} {notices : List Event}
    (h : stationTakes s u o poll st notices) : st.failedAttempts = (attemptCounted o (s.station u)).failedAttempts := by
  rcases h with ⟨ho, hh, hst, hn⟩ | ⟨ho, hh, hlt, hst, hn⟩ | ⟨ho, hlim, hpe, hst, hn⟩ | ⟨rfl, hst, hn⟩
  · have hm : o.isMiss = false := by rcases ho with rfl | rfl | rfl <;> rfl
    rw [hst]; simp [attemptCounted, hm]
  · rw [hst]; simp [attemptCounted, ho]
  · rw [hst]; rfl
  · rw [hst]; rfl

/-- The same where the attempt has been counted already. -/
theorem stationOutcome_takes (s X : State) (u : StationIx) (o : OutcomeCode) (p poll : Bool) (st : Station) (notices : List Event)
    (h : stationTakes s u o poll st notices) (hX : X.station u = attemptCounted o (s.station u))
    (hp : p = false ∨ (s.station u).health ≠ .offline ∨ o = .collision) (hq : s.pendingOf u = [] → X.pendingOf u = []) :
    X.stationOutcome u o p poll = (stationLeft u st X, notices.map Post.notice) := by
  rw [stationOutcome_core s X u o p poll st notices _ h hX hp hq]
  have : { st with failedAttempts := (attemptCounted o (s.station u)).failedAttempts } = st := by rw [← stationTakes_counted h]
  exact congrArg (fun x => (stationLeft u x X, notices.map Post.notice)) this

/-- The same between attempts, where the outcome was counted at the attempt's end. -/
theorem stationOutcome_last (s X : State) (u : StationIx) (o : OutcomeCode) (p poll : Bool) (st : Station) (notices : List Event)
    (h : lastTakes s u o poll st notices) (hX : X.station u = s.station u)
    (hp : p = false ∨ (s.station u).health ≠ .offline ∨ o = .collision) (hq : s.pendingOf u = [] → X.pendingOf u = []) :
    X.stationOutcome u o p poll = (stationLeft u st X, notices.map Post.notice) := by
  obtain ⟨x, h, rfl⟩ := h
  exact stationOutcome_core s X u o p poll x notices _ h (by rw [hX]) hp hq

/-- A probe's outcome at a station still OFFLINE (R83). -/
theorem stationOutcome_probe (s X : State) (u : StationIx) (o : OutcomeCode) (st : Station) (notices : List Event)
    (h : probeTakes s u o st notices) (hX : X.station u = attemptCounted o (s.station u)) :
    X.stationOutcome u o true true = (stationLeft u st X, notices.map Post.notice) := by
  obtain ⟨hh, h⟩ := h
  have hxh : (X.station u).health = .offline := by rw [hX]; exact hh
  rw [stationLeft_stays u st X (.inr hxh)]
  have hno : ∀ st' : Station, st'.health ≠ .offline ∨ (X.station u).health = .offline := fun _ => .inr hxh
  rcases h with ⟨ho, hr, hst, hn⟩ | ⟨ho, hr, hst, hn⟩ | ⟨ho, hst, hn⟩ | ⟨rfl, hst, hn⟩
  · have hm : o.isMiss = false := by rcases ho with rfl | rfl | rfl <;> rfl
    have hc : o.isContact = true := by rcases ho with rfl | rfl | rfl <;> rfl
    have hxs : X.station u = s.station u := by rw [hX]; simp [attemptCounted, hm]
    rw [stationOutcome_stays X u o true true st (by
      rw [hxs, hst]
      simp [Station.applyHealth, Station.countOutcome, hh, Station.probeOutcome, hc, hm, hr, Station.toOnline]) (hno _)]
    congr 1
    rw [hxs, hn]
    simp only [healthNotice, reachableNotice, hst, hh]
    simp [stationStateNotice_eq, stateRecord]
  · have hm : o.isMiss = false := by rcases ho with rfl | rfl | rfl <;> rfl
    have hc : o.isContact = true := by rcases ho with rfl | rfl | rfl <;> rfl
    have hxs : X.station u = s.station u := by rw [hX]; simp [attemptCounted, hm]
    rw [stationOutcome_stays X u o true true st (by
      rw [hxs, hst]
      simp [Station.applyHealth, Station.countOutcome, hh, Station.probeOutcome, hc, hm, hr]) (hno _)]
    congr 1
    rw [hxs, hn]
    cases hre : (s.station u).reachable <;>
      simp [healthNotice, reachableNotice, hst, hh, hre, stationReachableNotice, Event.blank]
  · have hct : o.isContact = false := by cases o <;> simp [OutcomeCode.isMiss] at ho <;> rfl
    have hok : o ≠ .ok := by rintro rfl; simp [OutcomeCode.isMiss] at ho
    rw [stationOutcome_stays X u o true true st (by
      rw [hX, hst]
      simp [Station.applyHealth, Station.countOutcome, attemptCounted, hh, Station.probeOutcome, hct, ho, hok, Station.probeNote]) (hno _)]
    congr 1
    rw [hX, hn]
    simp [healthNotice, reachableNotice, hst, hh, attemptCounted]
  · have hxs : X.station u = s.station u := by rw [hX]; rfl
    rw [stationOutcome_stays X u .collision true true st (by
      rw [hxs, hst]
      simp [Station.applyHealth, Station.countOutcome, hh, Station.probeOutcome, OutcomeCode.isContact, OutcomeCode.isMiss]) (hno _)]
    congr 1
    rw [hxs, hn, hst]
    simp [healthNotice, reachableNotice]

/-- Acceptance in the statements' words (R108, R109, R112). -/
theorem acceptImage_eq (u : StationIx) (len : BitVec 6) (X : State) :
    X.acceptImage u len = (imageAccepted u len X, (imageRecords X u .ok len).map Post.notice) := by
  unfold acceptImage imageAccepted imageRecords
  simp only []
  cases hi : (X.station u).image with
  | none => simp
  | some p =>
    obtain ⟨x, y⟩ := p
    simp only []
    cases hh : (X.station u).hold with
    | true =>
      simp only [heldBack]
      generalize X.station u = st at *
      obtain ⟨⟩ := st
      simp only at hi hh
      subst hi hh
      simp
    | false =>
      have hs : ∀ b c : BlockIx, ∀ v w st, (State.setOwner c w (State.setOwner b v (X.setStation u st))).station u = st := by
        intro b c v w st
        simp
      simp only [flipImage, imageNotice, pairBlock, hs, Bool.false_eq_true, if_false]
      generalize X.station u = st at *
      obtain ⟨_, _, _, nt, _, _, _, _, _, _, _, _, _, _, _, _, cur⟩ := st
      simp only at hi hh
      subst hi hh
      cases cur <;> cases nt <;> simp [imageUpdateNotice, Event.blank, Side.flip]

end State

end Sys2Proof.Machine
end

