-- ==== Sys2Proof/Laws/Outcomes.lean ====
section
/-!
SUPPORT. What the end of a transaction comes to at the station, the entry and the slot, the eighth line fault, rest in QUIESCING, and the
posts that find room in the queue.
-/

namespace Sys2Proof.Machine

open State

/-! ## Rest (R51, R157) -/

/-- The engine state the mode calls for. -/
theorem goesTo_rest (n : LineId) (s : State) (e : EngineState) (h : goesTo s n e) : restState s.mode = e := by
  rcases h with ⟨h1, rfl⟩ | ⟨h1, rfl, _⟩ <;> rw [h1] <;> rfl

theorem goesTo_engine {s : State} {n : LineId} {e : EngineState} (h : goesTo s n e) : e = .turnaround ∨ e = .hold := by
  rcases h with ⟨_, rfl⟩ | ⟨_, rfl, _⟩
  · exact .inl rfl
  · exact .inr rfl

/-- A line with no break request waiting stays as it is. -/
theorem breakBegun_none (l : Line) (h : l.breakRequest = false) : breakBegun l = l := by simp [breakBegun, h]

/-- A line whose engine holds a record stays as it is. -/
theorem breakBegun_held (l : Line) (h : l.attempt ≠ none) : breakBegun l = l := by simp [breakBegun, h]

theorem breakBegun_frame (l : Line) : (breakBegun l).enable = l.enable ∧ (breakBegun l).faulted = l.faulted
    ∧ (breakBegun l).attempt = l.attempt ∧ (breakBegun l).cycnum = l.cycnum ∧ (breakBegun l).walk = l.walk
    ∧ ((breakBegun l).engine = l.engine ∨ (breakBegun l).engine = .breaking) := by
  unfold breakBegun
  split
  · exact ⟨rfl, rfl, rfl, rfl, rfl, .inr rfl⟩
  · exact ⟨rfl, rfl, rfl, rfl, rfl, .inl rfl⟩

/-- A break that waited starts (R48). -/
theorem startWaitingBreak_eq (n : LineId) (X : State) : X.startWaitingBreak n = X.setLine n (breakBegun (X.line n)) := by
  unfold startWaitingBreak breakBegun Line.breakReady
  by_cases hb : (X.line n).breakRequest = true
  · cases ha : (X.line n).attempt with
    | some a => simp [hb]
    | none =>
      by_cases he : (X.line n).engine = .idle ∨ (X.line n).engine = .turnaround ∨ (X.line n).engine = .hold ∨ (X.line n).engine = .faulted
      · have hb2 : ((X.line n).engine == .idle || (X.line n).engine == .turnaround || (X.line n).engine == .hold
            || (X.line n).engine == .faulted) = true := by
          rcases he with h | h | h | h <;> simp [h]
        simp only [hb, hb2, Option.isNone, Bool.and_self, if_true, he, and_self]
        simp only [startBreak, modifyLine, Line.startBreak, ha]
      · have hb2 : ((X.line n).engine == .idle || (X.line n).engine == .turnaround || (X.line n).engine == .hold
            || (X.line n).engine == .faulted) = false := by
          simp only [not_or] at he
          simp [he]
        simp [hb, hb2, he]
  · simp [hb]

/-- Where QUIESCED is not reached, the rest of the step is the break that waited and the posts. -/
theorem settle_stays (n : LineId) (X : State) (gs : Groups)
    (h : X.mode = .quiescing → (X.setLine n (breakBegun (X.line n))).allAtRest = false) :
    settle n (X, gs) = (X.setLine n (breakBegun (X.line n))).flush gs := by
  unfold settle
  simp only [startWaitingBreak_eq]
  unfold reachQuiesced
  rw [if_neg]
  · exact flush_append_nil _ _
  · rintro ⟨h1, h2⟩
    rw [setLine_mode] at h1
    rw [h h1] at h2
    cases h2

theorem settle_run (n : LineId) (X : State) (gs : Groups) (h : X.mode ≠ .quiescing) :
    settle n (X, gs) = (X.setLine n (breakBegun (X.line n))).flush gs := settle_stays n X gs fun hq => absurd hq h

/-- Line n itself keeps QUIESCED away. -/
theorem settle_active (n : LineId) (X : State) (gs : Groups)
    (h : X.mode = .quiescing → (X.line n).enable = true ∧ (X.line n).engine ≠ .hold ∧ (X.line n).faulted = false) :
    settle n (X, gs) = (X.setLine n (breakBegun (X.line n))).flush gs := by
  apply settle_stays
  intro hq
  obtain ⟨h1, h2, h3⟩ := h hq
  obtain ⟨f1, f2, _, _, _, f5⟩ := breakBegun_frame (X.line n)
  refine allAtRest_false _ n (by simpa [f1] using h1) ?_ (by simpa [f2] using h3)
  simp only [line_setLine, if_true]
  rcases f5 with f | f <;> rw [f]
  · exact h2
  · simp

theorem settle_staysInMode (n : LineId) (s X : State) (gs : Groups) (h : staysInMode s n) (h1 : X.mode = s.mode)
    (h2 : ∀ m, m ≠ n → X.line m = s.line m) : settle n (X, gs) = (X.setLine n (breakBegun (X.line n))).flush gs := by
  apply settle_stays
  intro hq
  rw [h1] at hq
  rcases h with h | ⟨_, m, hm, a, b, c⟩
  · rw [hq] at h; cases h
  · have hl : (X.setLine n (breakBegun (X.line n))).line m = s.line m := by
      rw [line_setLine, if_neg (Ne.symm hm), h2 m hm]
    exact allAtRest_false _ m (by rw [hl]; exact a) (by rw [hl]; exact b) (by rw [hl]; exact c)

/-- At the end of work the engine goes where the mode calls it, and a break that waited starts. -/
theorem settle_goesTo (n : LineId) (s : State) (e : EngineState) (h : goesTo s n e) (X : State) (gs : Groups) (l : Line)
    (h1 : X.mode = s.mode) (h2 : ∀ m, m ≠ n → X.line m = s.line m) (hX : X.line n = { l with engine := e, attempt := none })
    (hl : l.breakRequest = (s.line n).breakRequest ∧ l.enable = (s.line n).enable ∧ l.faulted = (s.line n).faulted) :
    settle n (X, gs) = (X.setLine n (breakBegun { l with engine := e, attempt := none })).flush gs := by
  rw [← hX]
  rcases h with ⟨h, rfl⟩ | ⟨h, rfl, ho | ⟨hb, he, hf⟩⟩
  · exact settle_run n X gs (by rw [h1, h]; simp)
  · exact settle_staysInMode n s X gs (.inr ⟨h, ho⟩) h1 h2
  · apply settle_stays
    intro _
    have hbb : breakBegun (X.line n) = { X.line n with
        engine := .breaking, drive := .breakLow, breakRequest := false, readBack := none, frameRest := [] } := by
      unfold breakBegun
      rw [if_pos]
      rw [hX]
      exact ⟨hl.1.trans hb, rfl, .inr (.inr (.inl rfl))⟩
    refine allAtRest_false _ n ?_ ?_ ?_ <;> simp only [line_setLine, if_true, hbb]
    · rw [hX]; exact hl.2.1.trans he
    · simp
    · rw [hX]; exact hl.2.2.trans hf

/-- At the last line's end QUIESCED is reached in the same step, its notice after the others (R157). -/
theorem settle_last (n : LineId) (X : State) (gs : Groups) (h : X.mode = .quiescing)
    (h1 : ∀ m, m ≠ n → (X.line m).enable = true → (X.line m).engine = .hold ∨ (X.line m).faulted = true)
    (h2 : (X.line n).engine = .hold) (hb : (X.line n).breakRequest = false) :
    settle n (X, gs) = (quiescedFrom X).flush (gs ++ [[.notice (modeRecord 4 0 0)]]) := by
  have hall : X.allAtRest = true := by
    have hr : ∀ m, (!(X.line m).enable || (X.line m).atRest) = true := by
      intro m
      by_cases hm : m = n
      · subst hm; simp [Line.atRest, h2]
      · cases he : (X.line m).enable
        · simp
        · have := h1 m hm he; simp [Line.atRest]; exact this
    have a := hr .zero; have b := hr .one
    unfold allAtRest
    exact (by rw [Bool.and_eq_true]; exact ⟨a, b⟩)
  unfold settle startWaitingBreak reachQuiesced
  simp only [hb, Bool.false_and, Bool.false_eq_true, if_false, h, hall, and_self, if_true]
  unfold modeOccasion
  rw [modeNotice_eq]
  rfl

/-- In QUIESCING line n is the last line that is active, or it is not. -/
theorem rest_cases (s : State) (n : LineId) : goesTo s n .hold ∨ lastToRest s n ∨ s.mode ≠ .quiescing := by
  by_cases h : s.mode = .quiescing
  · by_cases h2 : othersActive s n
    · exact .inl (.inr ⟨h, rfl, .inl h2⟩)
    · right; left
      refine ⟨h, fun m hm he => ?_⟩
      by_contra hc
      apply h2
      refine ⟨m, hm, he, ?_⟩
      simp at hc
      exact ⟨hc.1, by simpa using hc.2⟩
  · exact .inr (.inr h)

/-! ## Posts that find room -/

/-- No post clears a flag. -/
theorem post_edges (s : State) (p : Post) (i : Nat) (h : s.edges.getLsbD i = true) : (s.post p).edges.getLsbD i = true := by
  cases p with
  | notice e =>
    show (s.offerNotice e).edges.getLsbD i = true
    rw [offerNotice_eq]; split
    · exact h
    · show (s.edges ||| 4).getLsbD i = true
      rw [BitVec.getLsbD_or, h]; rfl
  | completion k e =>
    show (s.offerCompletion k e).edges.getLsbD i = true
    obtain ⟨_, _, _, _, hf⟩ := offerCompletion_frame k e s
    rw [hf]; exact h

theorem postAll_edges (ps : List Post) (s : State) (i : Nat) (h : s.edges.getLsbD i = true) : (s.postAll ps).edges.getLsbD i = true := by
  induction ps generalizing s with
  | nil => exact h
  | cons p ps ih => exact ih (s.post p) (post_edges s p i h)

/-- The posts of a step clear no flag. -/
theorem flush_edges (gs : Groups) (s : State) (i : Nat) (h : s.edges.getLsbD i = true) : (s.flush gs).edges.getLsbD i = true := by
  obtain ⟨ps, j, _, hf⟩ := flush_perm gs s
  rw [hf]; exact postAll_edges ps _ i h

/-- Completions that find room are taken in their order (R138). -/
theorem postAll_completions (L : List (SlotIx × Event)) (s : State) (hd : s.done = []) (hr : s.events.length + L.length ≤ 64) :
   (s.postAll (L.map fun p => Post.completion p.1 p.2)).events = s.events ++ (L.map fun p => s.stamp p.2) ∧ (s.postAll (L.map fun p =>
       Post.completion p.1 p.2)).done = [] := by
  induction L generalizing s with
  | nil => simp [postAll, hd]
  | cons p L ih =>
    have h1 : s.post (.completion p.1 p.2) = s.takeCompletion p.1 p.2 := by
      show s.offerCompletion p.1 p.2 = _
      unfold offerCompletion Config.queueLimit
      rw [if_pos ⟨by simp at hr; omega, hd⟩]
    obtain ⟨ow, hf⟩ := takeCompletion_frame p.1 p.2 s
    have h2 := ih (s.takeCompletion p.1 p.2) (by rw [hf]; exact hd) (by rw [hf]; simp at hr ⊢; omega)
    have h3 : ∀ e, (s.takeCompletion p.1 p.2).stamp e = s.stamp e := by
      intro e; rw [hf]; unfold stamp; split <;> rfl
    show (State.postAll (L.map fun p => Post.completion p.1 p.2) (s.post (.completion p.1 p.2))).events = _ ∧ (State.postAll (L.map fun p
        => Post.completion p.1 p.2) (s.post (.completion p.1 p.2))).done = []
    rw [h1]
    refine ⟨?_, h2.2⟩
    rw [h2.1]
    simp only [h3]
    rw [hf]
    simp

/-- Notices that find room are taken in their order (R139). -/
theorem postAll_room (L : List Event) (s : State) (hr : s.events.length + L.length ≤ 48) :
   s.postAll (L.map .notice) = { s with events := s.events ++ L.map s.stamp } := by
  induction L generalizing s with
  | nil => simp [postAll]
  | cons p L ih =>
    have h1 : s.post (.notice p) = { s with events := s.events ++ [s.stamp p] } := by
      show s.offerNotice p = _
      rw [offerNotice_eq, if_pos (by simp at hr; omega)]
    have h3 : ∀ e, ({ s with events := s.events ++ [s.stamp p] } : State).stamp e = s.stamp e := by
      intro e; unfold stamp; split <;> rfl
    show State.postAll (L.map .notice) (s.post (.notice p)) = _
    rw [h1, ih _ (by simp at hr ⊢; omega)]
    have : L.map ({ s with events := s.events ++ [s.stamp p] } : State).stamp = L.map s.stamp := List.map_congr_left fun e _ => h3 e
    rw [this]
    simp

theorem flush_single (g : List Post) (s : State) : s.flush [g] = s.postAll g := by
  cases g <;> rfl

theorem mem_pendingList (s : State) (k : SlotIx) : k ∈ s.pendingList ↔ k ∈ s.submitted ∧ (s.slot k).state = .pending := by
  simp [pendingList]

/-- A slot out of the submission order whose completion is among the posts of a step. -/
theorem flush_completedWith (gs : Groups) (X : State) (k : SlotIx) (o : OutcomeCode) (hc : completes gs.flatten k)
    (hs : k ∉ X.submitted) (ho : (X.slot k).outcome = o) (hl : (X.slot k).replyLen = 0) : completedWith (X.flush gs) k o := by
  obtain ⟨g1, g2, _, g4⟩ := flush_slot gs X k
  obtain ⟨ev, lost, ed, sl, ow, dn, i, hf⟩ := flush_frame gs X
  refine ⟨?_, g4 hc, g1.trans ho, g2.trans hl⟩
  rw [hf]
  exact hs

/-! ## Polls and probes -/

/-- A final outcome leaves the line and the image pair of its station, and posts at most one notice. -/
theorem stationTakes_frame {s : State} {u : StationIx} {o : OutcomeCode} {poll : Bool} {st : Station} {notices : List Event}
    (h : stationTakes s u o poll st notices) : notices.length ≤ 1 ∧ st.line = (s.station u).line ∧ st.image = (s.station u).image
    ∧ st.hold = (s.station u).hold ∧ st.notify = (s.station u).notify ∧ st.imageSeq = (s.station u).imageSeq := by
  rcases h with ⟨ho, hh, hst, hn⟩ | ⟨ho, hh, hlt, hst, hn⟩ | ⟨ho, hh, hp, hst, hn⟩ | ⟨rfl, hst, hn⟩ <;> subst hst hn
  · refine ⟨?_, rfl, rfl, rfl, rfl, rfl⟩; split <;> simp
  · refine ⟨?_, rfl, rfl, rfl, rfl, rfl⟩; split <;> simp
  · exact ⟨by simp, rfl, rfl, rfl, rfl, rfl⟩
  · exact ⟨by simp, rfl, rfl, rfl, rfl, rfl⟩

/-- The same of a probe's outcome. -/
theorem probeTakes_frame {s : State} {u : StationIx} {o : OutcomeCode} {st : Station} {notices : List Event}
    (h : probeTakes s u o st notices) : notices.length ≤ 1 ∧ st.line = (s.station u).line ∧ st.image = (s.station u).image
    ∧ st.hold = (s.station u).hold ∧ st.notify = (s.station u).notify ∧ st.imageSeq = (s.station u).imageSeq := by
  obtain ⟨hh, h⟩ := h
  rcases h with ⟨ho, hr, hst, hn⟩ | ⟨ho, hr, hst, hn⟩ | ⟨ho, hst, hn⟩ | ⟨rfl, hst, hn⟩ <;> subst hst hn
  · exact ⟨by simp, rfl, rfl, rfl, rfl, rfl⟩
  · refine ⟨?_, rfl, rfl, rfl, rfl, rfl⟩; split <;> simp
  · exact ⟨by simp, rfl, rfl, rfl, rfl, rfl⟩
  · exact ⟨by simp, rfl, rfl, rfl, rfl, rfl⟩

theorem setAttempt_ended (n : LineId) (b : State) (l : Line) (e : EngineState) (a : Attempt) (u : StationIx) (x : Station) :
    (State.setAttempt n none ((b.setLine n { l with engine := e, attempt := some a }).setStation u x))
      = (b.setLine n { l with engine := e, attempt := none }).setStation u x := by
  simp [setAttempt, modifyLine, setLine_setStation]

/-- Acceptance changes the station and the owners of its pair alone. -/
theorem imageAccepted_frame (u : StationIx) (len : BitVec 6) (X : State) :
    ∃ sts ow, imageAccepted u len X = { X with stations := sts, owners := ow } := by
  unfold imageAccepted
  simp only []
  split
  · exact ⟨_, _, rfl⟩
  · split
    · exact ⟨_, _, rfl⟩
    · exact ⟨_, _, rfl⟩

theorem imageRecords_len (s : State) (u : StationIx) (o : OutcomeCode) (len : BitVec 6) : (imageRecords s u o len).length ≤ 1 := by
  unfold imageRecords; simp only []; split <;> simp

theorem imageRecords_of (X s : State) (u : StationIx) (o : OutcomeCode) (len : BitVec 6)
    (h : (X.station u).image = (s.station u).image ∧ (X.station u).hold = (s.station u).hold ∧ (X.station u).notify = (s.station u).notify
      ∧ (X.station u).imageSeq = (s.station u).imageSeq ∧ (X.station u).line = (s.station u).line) :
    imageRecords X u o len = imageRecords s u o len := by
  obtain ⟨h1, h2, h3, h4, h5⟩ := h
  unfold imageRecords
  simp only [h1, h2, h3, h4, h5]

theorem stationLeft_frame (u : StationIx) (st : Station) (X : State) :
    ∃ ed, stationLeft u st X = { X.setStation u st with edges := ed } := by
  unfold stationLeft
  split
  · exact ⟨_, rfl⟩
  · exact ⟨X.edges, rfl⟩

@[simp] theorem stationLeft_station (u v : StationIx) (st : Station) (X : State) :
    (stationLeft u st X).station v = if u = v then st else X.station v := by
  obtain ⟨ed, h⟩ := stationLeft_frame u st X
  rw [h]
  exact station_setStation u st X v

@[simp] theorem stationLeft_slot (u : StationIx) (k : SlotIx) (st : Station) (X : State) :
    (stationLeft u st X).slot k = X.slot k := by
  obtain ⟨ed, h⟩ := stationLeft_frame u st X
  rw [h]; rfl

@[simp] theorem stationLeft_submitted (u : StationIx) (st : Station) (X : State) : (stationLeft u st X).submitted = X.submitted := by
  obtain ⟨ed, h⟩ := stationLeft_frame u st X
  rw [h]; rfl

@[simp] theorem stationLeft_line (u : StationIx) (n : LineId) (st : Station) (X : State) : (stationLeft u st X).line n = X.line n := by
  obtain ⟨ed, h⟩ := stationLeft_frame u st X
  rw [h]; cases n <;> rfl

@[simp] theorem stationLeft_mode (u : StationIx) (st : Station) (X : State) : (stationLeft u st X).mode = X.mode := by
  obtain ⟨ed, h⟩ := stationLeft_frame u st X
  rw [h]; rfl

/-- Updates of one line and the outcome at a station reach different state. -/
theorem setLine_stationLeft (n : LineId) (l : Line) (u : StationIx) (st : Station) (X : State) :
    (stationLeft u st X).setLine n l = stationLeft u st (X.setLine n l) := by
  unfold stationLeft
  rw [setLine_station]
  split
  · cases n <;> rfl
  · exact setLine_setStation n l u st X

theorem setLine_imageAccepted (n : LineId) (l : Line) (u : StationIx) (len : BitVec 6) (X : State) :
    (imageAccepted u len X).setLine n l = imageAccepted u len (X.setLine n l) := by
  unfold imageAccepted
  simp only [setLine_station]
  split
  · rfl
  · split
    · cases n <;> rfl
    · cases n <;> rfl

theorem setLine_parkDone (n : LineId) (l : Line) (u : StationIx) (X : State) :
    (parkDone u X).setLine n l = parkDone u (X.setLine n l) := by
  unfold parkDone
  cases n <;> rfl

theorem setLine_parkFinished (n : LineId) (l : Line) (s : State) (u : StationIx) (X : State) :
    (parkFinished s u X).setLine n l = parkFinished s u (X.setLine n l) := by
  unfold parkFinished
  split
  · exact setLine_parkDone n l u X
  · rfl

theorem setLine_withSubmitted (n : LineId) (l : Line) (sub : List SlotIx) (X : State) :
    ({ X with submitted := sub } : State).setLine n l = { X.setLine n l with submitted := sub } := by
  cases n <;> rfl

theorem setSlot_stationLeft (k : SlotIx) (sl : Slot) (u : StationIx) (st : Station) (X : State) :
    (stationLeft u st X).setSlot k sl = stationLeft u st (X.setSlot k sl) := by
  unfold stationLeft
  rw [setSlot_station]
  split <;> rfl

/-- A record that keeps HEALTH is overwritten by the one the outcome leaves. -/
theorem stationLeft_setStation (u : StationIx) (st x : Station) (X : State) (h : x.health = (X.station u).health) :
    stationLeft u st (X.setStation u x) = stationLeft u st X := by
  unfold stationLeft
  simp only [station_setStation, if_true, h, setStation_setStation]
  rfl

theorem attemptCounted_health (o : OutcomeCode) (st : Station) : (attemptCounted o st).health = st.health := rfl

@[simp] theorem parkFinished_line (s X : State) (u : StationIx) (n : LineId) : (parkFinished s u X).line n = X.line n := by
  unfold parkFinished parkDone
  split
  · cases n <;> rfl
  · rfl

@[simp] theorem parkFinished_mode (s X : State) (u : StationIx) : (parkFinished s u X).mode = X.mode := by
  unfold parkFinished parkDone
  split <;> rfl

/-- A station's PENDING slots depend on the submission order and on each slot's state and station alone. -/
theorem pendingOf_congr (X Y : State) (u : StationIx) (h1 : X.submitted = Y.submitted)
    (h2 : ∀ k, (X.slot k).state = (Y.slot k).state ∧ (X.slot k).station = (Y.slot k).station) : X.pendingOf u = Y.pendingOf u := by
  unfold pendingOf pendingList
  simp only [h1, h2]

/-! ## A PARK that waits (R87) -/

theorem waitingPark_iff (s : State) (u : StationIx) : s.waitingPark = some u ↔ parkWaits s u := by
  unfold waitingPark parkWaits parkCode
  by_cases h : s.cmdState = .busy ∧ s.cmd = 0x0C
  · rw [if_pos h]
    simp only [h.1, h.2, true_and]
    unfold index? arg
    constructor
    · intro hi
      split at hi
      · injection hi with hi; rw [← hi]
      · cases hi
    · intro hi
      have hlt : (s.args.get 0).toNat < 32 := by rw [hi]; exact u.isLt
      rw [dif_pos hlt]
      exact congrArg some (Fin.ext hi)
  · rw [if_neg h]
    constructor
    · intro hi; cases hi
    · rintro ⟨h1, h2, _⟩; exact absurd ⟨h1, h2⟩ h

/-- The end of a station's transaction and its PARK: with none waiting nothing, with one waiting the park (R86, R87). -/
theorem parkIfWaiting_eq (s X : State) (u : StationIx) (left : Health) (hc : X.cmdState = s.cmdState ∧ X.cmd = s.cmd ∧ X.args = s.args)
    (hh : (X.station u).health = left) (hl : (X.station u).line = (s.station u).line)
    (hp : parkWaits s u → X.pendingOf u = [] ∧ left ≠ .parked) :
    X.parkIfWaiting u = (parkFinished s u X, (parkRecords s u left).map Post.notice, []) := by
  have hw : X.waitingPark = some u ↔ parkWaits s u := by
    rw [waitingPark_iff]
    unfold parkWaits
    rw [hc.1, hc.2.1, hc.2.2]
  unfold parkIfWaiting parkFinished parkRecords
  by_cases h : parkWaits s u
  · obtain ⟨h1, h2⟩ := hp h
    rw [if_pos (hw.2 h), if_pos h, if_pos h]
    have hfin : (X.setStation u (X.station u).toParked).finishPendingOf u .stationParked = (X.setStation u (X.station u).toParked, []) := by
      unfold finishPendingOf
      have : (X.setStation u (X.station u).toParked).pendingOf u = X.pendingOf u := rfl
      rw [this, h1]; rfl
    unfold parkNow
    simp only [hfin]
    refine Prod.ext rfl (Prod.ext ?_ rfl)
    rw [hh.symm] at h2 ⊢
    have : healthNotice u (X.station u) (X.station u).toParked
        = [Post.notice (stationStateNotice u (X.station u).health (X.station u).toParked)] := by
      unfold healthNotice
      rw [if_neg]
      intro he; exact h2 (he.trans rfl)
    show healthNotice u (X.station u) (X.station u).toParked = _
    rw [this, stationStateNotice_eq]
    simp [stateRecord, Station.toParked, hl]
  · rw [if_neg (fun h' => h (hw.1 h')), if_neg h, if_neg h]
    rfl

theorem parkIfWaiting_none (X : State) (u : StationIx) (h : ¬ parkWaits X u) : X.parkIfWaiting u = (X, [], []) := by
  unfold parkIfWaiting
  rw [if_neg (fun h' => h ((waitingPark_iff X u).1 h'))]

theorem filter_pollGroups (p q : List Event) : ([p.map Post.notice, q.map Post.notice, ([] : List Post)].filter fun g => !g.isEmpty)
    = [p.map Post.notice, q.map Post.notice].filter fun g => !g.isEmpty := by
  rcases p with _ | ⟨x, p⟩ <;> rcases q with _ | ⟨y, q⟩ <;> simp

/-- The end of a cyclic transaction or a probe from what the station makes of the outcome (R41, R60, R87). -/
theorem pollEnd_of (X s : State) (j : EntryIx) (u : StationIx) (p : Bool) (a : Attempt) (o : OutcomeCode) (st : Station)
    (notices : List Event) (len : BitVec 6)
    (hso : (X.setEntry j { X.entry j with last := o }).stationOutcome u o p true
      = (stationLeft u st (X.setEntry j { X.entry j with last := o }), notices.map Post.notice))
    (hfr : st.line = (s.station u).line ∧ st.image = (s.station u).image ∧ st.hold = (s.station u).hold
      ∧ st.notify = (s.station u).notify ∧ st.imageSeq = (s.station u).imageSeq)
    (hl : o = .ok → a.replyLen = some len) (hc : X.cmdState = s.cmdState ∧ X.cmd = s.cmd ∧ X.args = s.args)
    (hpo : s.pendingOf u = [] → X.pendingOf u = []) (hpk : parkClear s u st) :
    X.pollEnd j u p a o = (parkFinished s u (if o = .ok
        then imageAccepted u len (stationLeft u st (X.setEntry j { X.entry j with last := o }))
        else stationLeft u st (X.setEntry j { X.entry j with last := o })),
      [(notices ++ parkRecords s u st.health).map Post.notice, (imageRecords s u o len).map Post.notice, []]) := by
  obtain ⟨ed, hed⟩ := stationLeft_frame u st (X.setEntry j { X.entry j with last := o })
  have hpc := fun h => hpk h
  unfold pollEnd
  simp only [modifyEntry, hso]
  by_cases ho : o = .ok
  · subst ho
    simp only [if_true, hl rfl, Option.getD, acceptImage_eq]
    have hia : ∀ Y : State, ((imageAccepted u len Y).station u).health = (Y.station u).health
        ∧ ((imageAccepted u len Y).station u).line = (Y.station u).line := by
      intro Y
      unfold imageAccepted
      simp only []
      split
      · exact ⟨rfl, rfl⟩
      · split <;> simp
    obtain ⟨sts, ow, hi⟩ := imageAccepted_frame u len (stationLeft u st (X.setEntry j { X.entry j with last := .ok }))
    rw [parkIfWaiting_eq s (imageAccepted u len _) u st.health (by rw [hi, hed]; exact hc) (by rw [(hia _).1]; simp)
      (by rw [(hia _).2]; simp [hfr.1]) (by intro h; rw [hi, hed]; exact ⟨hpo (hpk h).1, (hpk h).2⟩)]
    simp only []
    rw [imageRecords_of _ s u .ok len (by simp [hfr.2.1, hfr.2.2.1, hfr.2.2.2.1, hfr.2.2.2.2, hfr.1]), List.map_append]
  · simp only [if_neg ho]
    rw [parkIfWaiting_eq s (stationLeft u st _) u st.health (by rw [hed]; exact hc) (by simp)
      (by simp [hfr.1]) (by intro h; rw [hed]; exact ⟨hpo (hpk h).1, (hpk h).2⟩)]
    simp [imageRecords, ho]

/-- The end of a cyclic transaction or a probe, in the statements' words, its attempt already counted (R41, R60). -/
theorem pollEnd_eq (X s : State) (j : EntryIx) (u : StationIx) (p : Bool) (a : Attempt) (o : OutcomeCode) (st : Station)
    (notices : List Event) (len : BitVec 6) (hX : X.station u = attemptCounted o (s.station u))
    (h : stationTakes s u o true st notices ∧ (p = false ∨ (s.station u).health ≠ .offline ∨ o = .collision)
      ∨ (p = true ∧ probeTakes s u o st notices))
    (hl : o = .ok → a.replyLen = some len) (hc : X.cmdState = s.cmdState ∧ X.cmd = s.cmd ∧ X.args = s.args)
    (hpo : s.pendingOf u = [] → X.pendingOf u = []) (hpk : parkClear s u st) :
    X.pollEnd j u p a o = (parkFinished s u (if o = .ok
        then imageAccepted u len (stationLeft u st (X.setEntry j { X.entry j with last := o }))
        else stationLeft u st (X.setEntry j { X.entry j with last := o })),
      [(notices ++ parkRecords s u st.health).map Post.notice, (imageRecords s u o len).map Post.notice, []]) := by
  refine pollEnd_of X s j u p a o st notices len ?_ ?_ hl hc hpo hpk
  · rcases h with ⟨h, hp⟩ | ⟨rfl, h⟩
    · exact stationOutcome_takes s _ u o p true st notices h (by simpa using hX) hp hpo
    · exact stationOutcome_probe s _ u o st notices h (by simpa using hX)
  · rcases h with ⟨h, hp⟩ | ⟨rfl, h⟩
    · exact (stationTakes_frame h).2
    · exact (probeTakes_frame h).2

/-- The end of a cyclic transaction without OK that takes no station OFFLINE, its attempt counted or not. -/
theorem pollEnd_stays (X : State) (j : EntryIx) (u : StationIx) (a : Attempt) (o : OutcomeCode) (hok : o ≠ .ok)
    (hc : ¬ parkWaits X u) (st : Station)
    (hst : Station.applyHealth o false (Station.countOutcome o (Station.probeNote false (X.station u)) true (X.station u)) = st)
    (hno : st.health ≠ .offline ∨ (X.station u).health = .offline) :
    X.pollEnd j u false a o = ((X.setEntry j { X.entry j with last := o }).setStation u st,
      [(healthNotice u (X.station u) st ++ reachableNotice u (X.station u) st) ++ [], [], []]) := by
  unfold pollEnd
  simp only []
  have e1 : (X.modifyEntry j fun en => { en with last := o }) = X.setEntry j { X.entry j with last := o } := rfl
  rw [e1, stationOutcome_stays (X.setEntry j { X.entry j with last := o }) u o false true st (by simpa using hst) (by simpa using hno)]
  simp only [hok, if_false]
  rw [parkIfWaiting_none _ _ (by exact hc)]
  rfl

/-- The end of a cyclic transaction that takes its station OFFLINE. -/
theorem pollEnd_offline (X : State) (j : EntryIx) (u : StationIx) (a : Attempt) (o : OutcomeCode) (hok : o ≠ .ok)
    (hc : ¬ parkWaits X u) (st : Station)
    (hst : Station.applyHealth o false (Station.countOutcome o (Station.probeNote false (X.station u)) true (X.station u)) = st)
    (h1 : st.health = .offline) (hno : (X.station u).health ≠ .offline) (F : State × List Post)
    (hF : F = (((X.setEntry j { X.entry j with last := o }).setStation u st).raise .stationDown).finishPendingOf u .stationOffline) :
    X.pollEnd j u false a o
      = (F.1, [(healthNotice u (X.station u) st ++ reachableNotice u (X.station u) st ++ F.2) ++ [], [], []]) := by
  unfold pollEnd
  have e1 : (X.modifyEntry j fun en => { en with last := o }) = X.setEntry j { X.entry j with last := o } := rfl
  rw [e1]
  simp only []
  rw [stationOutcome_offline (X.setEntry j { X.entry j with last := o }) u o false true st (by simpa using hst) h1 (by simpa using hno),
      ← hF]
  simp only [hok, if_false]
  rw [parkIfWaiting_none]
  · rfl
  · rw [hF]
    obtain ⟨sl, sub, h⟩ := finishSlots_frame .stationOffline ((((X.setEntry j { X.entry j with last := o }).setStation u st).raise
        .stationDown).pendingOf u) (((X.setEntry j { X.entry j with last := o }).setStation u st).raise .stationDown)
    unfold finishPendingOf
    rw [h]
    exact hc

theorem flush_groups3 (g : List Post) (s : State) : s.flush [g ++ [], [], []] = s.flush [g] := by
  rcases g with _ | ⟨x, g⟩ <;> simp [flush]

/-! ## Slots -/

theorem isEmpty_iff (p : StopSet) : p.isEmpty = true ↔ p = noStop := by simp [StopSet.isEmpty, StopSet.empty, noStop]

theorem line_submitted (s : State) (sub : List SlotIx) (m : LineId) : ({ s with submitted := sub } : State).line m = s.line m := by
  cases m <;> rfl

theorem setSlot_self (k) (X : State) : X.setSlot k (X.slot k) = X := by simp [setSlot, slot, Vector.get]

/-- An attempt of a slot that owes a retry (R38). -/
theorem endAttempt_slot_retry (n : LineId) (X : State) (a : Attempt) (k : SlotIx) (u : StationIx) (m : Nat) (o : OutcomeCode)
    (ha : (X.line n).attempt = some a) (ho : a.origin = .acyclic k) (hu : a.station = some u) (hm : a.attempt = some m)
    (hr : m ≤ (X.slot k).retries.toNat) (hst : a.stop = noStop) (he : (X.line n).engine ≠ .faulted)
    (hk : o.isMiss = true ∨ o = .collision) :
    X.endAttempt n o = (((X.setStation u (attemptCounted o (X.station u))).setSlot k
      { X.slot k with outcome := o, attempts := BitVec.ofNat 4 m }).setLine n
        { X.line n with attempt := some { a with outcome := some o, retryOwed := true, fixedOutcome := none } }, []) := by
  have hk' : (o.isMiss || o == .collision) = true := by rcases hk with h | h <;> simp [h]
  have hb : o ≠ .busy := by rcases hk with h | h <;> rintro rfl <;> simp [OutcomeCode.isMiss] at h
  have he' : ((X.line n).engine != .faulted) = true := by simp [he]
  have hp : a.stop.isEmpty = true := (isEmpty_iff _).2 hst
  have hsl : (State.slotAttemptEnd k m o (X.setStation u (attemptCounted o (X.station u)))) = (X.setStation u (attemptCounted o
      (X.station u))).setSlot k { X.slot k with outcome := o, attempts := BitVec.ofNat 4 m } := by
    simp [slotAttemptEnd, modifySlot, hb]
  unfold endAttempt
  simp only [ha, hu, recordAttempt, ho, hm, Option.getD, modifyStation, countAttempt_eq, hsl]
  simp only [retryDue, hk', retryBudget, ho, hm, slot_setSlot, if_true, hr, hp, he', decide_true, Bool.and_self, setAttempt, modifyLine,
      setSlot_line, setStation_line]

theorem setAttempt_slotEnded (n : LineId) (b : State) (l : Line) (e : EngineState) (a : Attempt) (u : StationIx) (x : Station) (k :
    SlotIx)
    (sl : Slot) :
    (State.setAttempt n none (State.setSlot k sl ((b.setLine n { l with engine := e, attempt := some a }).setStation u x)))
      = ((b.setLine n { l with engine := e, attempt := none }).setSlot k sl).setStation u x := by
  simp [setAttempt, modifyLine, setLine_setStation, setLine_setSlot, setSlot_setStation]

/-- An attempt of a slot that owes none ends its transaction (R38, R40). -/
theorem endAttempt_slot_end (n : LineId) (b : State) (l : Line) (e : EngineState) (a : Attempt) (k : SlotIx) (u : StationIx) (m : Nat)
    (o : OutcomeCode) (ho : a.origin = .acyclic k) (hu : a.station = some u) (hm : a.attempt = some m)
    (hr : (b.setLine n { l with engine := e, attempt := some a }).retryDue a o = false ∨ a.stop ≠ noStop ∨ e = .faulted) :
    (b.setLine n { l with engine := e, attempt := some a }).endAttempt n o
      = ((((b.setLine n { l with engine := e, attempt := none }).setSlot k { b.slot k with
          outcome := o, attempts := if o = .busy then (b.slot k).attempts else BitVec.ofNat 4 m }).setStation u
            (attemptCounted o (b.station u)))).acyclicEnd k u
              { a with outcome := some o, retryOwed := false, fixedOutcome := none } o := by
  rw [endAttempt_end n _ a u o (by simp) hu (by simpa using hr)]
  have hsl : (State.slotAttemptEnd k m o ((b.setLine n { l with engine := e, attempt := some a }).setStation u (attemptCounted o
      (b.station u)))) = ((b.setLine n { l with engine := e, attempt := some a }).setStation u (attemptCounted o (b.station u))).setSlot
      k { b.slot k with outcome := o, attempts := if o = .busy then (b.slot k).attempts else BitVec.ofNat 4 m } := by
    simp [slotAttemptEnd, modifySlot]
  simp only [recordAttempt, ho, hm, Option.getD, setLine_station, hsl, endTransaction]
  rw [setAttempt_slotEnded]

theorem busy_below (x : BitVec 3) (h : x.toNat < 6) : satInc x = x + 1 ∧ (x+1).toNat < 7 := by
  revert x; decide

theorem busy_seventh (x : BitVec 3) (h : 6 ≤ x.toNat) : ¬ (satInc x).toNat < 7 := by
  revert x; decide

/-- A slot that leaves the submission order leaves no other PENDING. -/
theorem pendingOf_removed (X : State) (u : StationIx) (k : SlotIx) (sl : Slot) (h : X.pendingOf u = []) :
    ({ X.setSlot k sl with submitted := X.submitted.filter (· ≠ k) } : State).pendingOf u = [] := by
  unfold pendingOf pendingList at h ⊢
  rw [List.filter_filter, List.filter_eq_nil_iff] at h ⊢
  intro j hj
  have hj' := List.mem_filter.1 hj
  have hne : k ≠ j := by intro he; subst he; simp at hj'
  have hs : ({ X.setSlot k sl with submitted := X.submitted.filter (· ≠ k) } : State).slot j = X.slot j :=
    (slot_setSlot k sl X j).trans (if_neg hne)
  have hm := h j hj'.1
  simp only [hs]
  exact hm

/-- The end of an acyclic transaction from what the station makes of the outcome and the completion of its slot (R41, R87). -/
theorem slotEnd_of (Y s : State) (u : StationIx) (k : SlotIx) (o : OutcomeCode) (st : Station) (notices : List Event) (sl : Slot)
    (record : Event) (r : State → State × List Post)
    (hso : Y.stationOutcome u o false false = (stationLeft u st Y, notices.map Post.notice))
    (hr : r (stationLeft u st Y) = ({ (stationLeft u st Y).setSlot k sl with submitted := Y.submitted.filter (· ≠ k) },
      [Post.completion k record]))
    (hst : st.line = (s.station u).line) (hc : Y.cmdState = s.cmdState ∧ Y.cmd = s.cmd ∧ Y.args = s.args)
    (hpo : s.pendingOf u = [] → Y.pendingOf u = []) (hpk : parkClear s u st) :
    Y.slotEnd u o r = (parkFinished s u { (stationLeft u st Y).setSlot k sl with submitted := Y.submitted.filter (· ≠ k) },
      [(notices ++ parkRecords s u st.health).map Post.notice, [Post.completion k record] ++ []]) := by
  obtain ⟨ed, hed⟩ := stationLeft_frame u st Y
  unfold slotEnd
  simp only [hso, hr]
  have hs : (({ (stationLeft u st Y).setSlot k sl with submitted := Y.submitted.filter (· ≠ k) } : State).station u) = st := by
    show (stationLeft u st Y).station u = st
    simp
  rw [parkIfWaiting_eq s _ u st.health (by rw [hed]; exact hc) (by rw [hs]) (by rw [hs]; exact hst) (by
      intro h
      refine ⟨?_, (hpk h).2⟩
      have := pendingOf_removed (stationLeft u st Y) u k sl (by rw [hed]; exact hpo (hpk h).1)
      rw [hed] at this ⊢
      exact this)]
  simp only [List.map_append]

/-- A slot whose transaction completes it, its attempt already counted (R41, R122, R125, R129). -/
theorem acyclicEnd_completes (Y s : State) (k : SlotIx) (u : StationIx) (a : Attempt) (m : Nat) (o : OutcomeCode) (len : BitVec 6)
    (sl : Slot) (st : Station) (notices : List Event)
    (hsl0 : Y.slot k = { s.slot k with outcome := o, attempts := if o = .busy then (s.slot k).attempts else BitVec.ofNat 4 m })
    (hY : Y.station u = attemptCounted o (s.station u)) (hYs : ∀ v, v ≠ u → Y.station v = s.station v)
    (hc : Y.cmdState = s.cmdState ∧ Y.cmd = s.cmd ∧ Y.args = s.args) (hpo : s.pendingOf u = [] → Y.pendingOf u = [])
    (hpk : parkClear s u st)
    (h : slotTakes s k a m o len sl) (ht : stationTakes s u o false st notices) (hl : o = .ok → a.replyLen = some len)
    (hrd : a.stop.park = true ∨ Y.retryDue a o = false ∨ a.stop.abort = true) :
    Y.acyclicEnd k u a o
      = (parkFinished s u { (stationLeft u st Y).setSlot k sl with submitted := Y.submitted.filter (· ≠ k) },
        [(notices ++ parkRecords s u st.health).map Post.notice, [Post.completion k (requestRecord s k sl)] ++ []]) := by
  have hso : Y.stationOutcome u o false false = (stationLeft u st Y, notices.map Post.notice) := stationOutcome_takes s Y u o false false
      st notices ht hY (.inl rfl) hpo
  obtain ⟨ed, hed⟩ := stationLeft_frame u st Y
  have hline : ∀ v, ((stationLeft u st Y).station v).line = (s.station v).line := by
    intro v
    by_cases hv : u = v
    · subst hv; simp [(stationTakes_frame ht).2.1]
    · simp [hv, hYs v (Ne.symm hv)]
  have hfl : finalReplyLen o (a.replyLen.getD 0) = if o = .ok then len else 0 := by
    unfold finalReplyLen
    split
    · rename_i h; simp [hl h]
    · rfl
  have hrec : ∀ (Z : State) (slx : Slot) , slx.station = (s.slot k).station → (∀ v, (Z.station v).line = (s.station v).line) → (Z.slot
      k).station = (s.slot k).station → requestDone k slx (Z.slotLine k) = requestRecord s k slx := by
    intro Z slx h1 h2 h3
    rw [requestDone_eq]
    unfold requestRecord slotLine
    rw [h3, h2, ← h1]
  have hfin : ∀ (Z : State) (oc : OutcomeCode) (slx : Slot), slx =
      { Z.slot k with outcome := oc, replyLen := if o = .ok then len else 0, deferred := false } → (∀ v, (Z.station v).line = (s.station
      v).line) → (Z.slot k).station = (s.slot k).station →
     Z.finishSlot k oc (finalReplyLen o (a.replyLen.getD 0)) = ({ Z.setSlot k slx with submitted := Z.submitted.filter (· ≠ k) },
         Post.completion k (requestRecord s k slx)) := by
    intro Z oc slx h1 h2 h3
    rw [hfl, finishSlot_eq, ← h1, hrec Z slx (by rw [h1]; exact h3) h2 h3]
    rfl
  have hend : ∀ (r : State → State × List Post) , r (stationLeft u st Y) =
      ({ (stationLeft u st Y).setSlot k sl with submitted := Y.submitted.filter (· ≠ k) }, [Post.completion k (requestRecord s k sl)]) →
     Y.slotEnd u o r = (parkFinished s u { (stationLeft u st Y).setSlot k sl with submitted := Y.submitted.filter (· ≠ k) },
       [(notices ++ parkRecords s u st.health).map Post.notice, [Post.completion k (requestRecord s k sl)] ++ []]) := by
    intro r hr
    exact slotEnd_of Y s u k o st notices sl _ r hso hr (stationTakes_frame ht).2.1 hc hpo hpk
  have hmod : ∀ (f : Slot → Slot), (stationLeft u st Y).modifySlot k f = (stationLeft u st Y).setSlot k (f
      { s.slot k with outcome := o, attempts := if o = .busy then (s.slot k).attempts else BitVec.ofNat 4 m }) := by
    intro f; unfold modifySlot; simp [hsl0]
  unfold acyclicEnd
  simp only []
  rcases h with ⟨hab, hsl⟩ | ⟨hab, hsl, hcase⟩
  · rw [if_pos hab]
    apply hend
    unfold resolveAbort
    have hcb : (if o = .busy then (stationLeft u st Y).countBusy k else stationLeft u st Y) = (stationLeft u st Y).setSlot k
        { s.slot k with outcome := o, attempts := (if o = .busy then (s.slot k).attempts else BitVec.ofNat 4 m), busyCount := (if o =
        .busy then satInc (s.slot k).busyCount else (s.slot k).busyCount) } := by
      by_cases hb : o = .busy
      · simp only [hb, if_true, countBusy, hmod]
      · simp only [hb, if_false]
        have : (stationLeft u st Y).setSlot k ((stationLeft u st Y).slot k) = stationLeft u st Y := setSlot_self k _
        have h2 : (stationLeft u st Y).slot k = { s.slot k with outcome := o, attempts := BitVec.ofNat 4 m } := by
          rw [stationLeft_slot, hsl0]; simp [hb]
        rw [h2] at this
        exact this.symm
    simp only [hcb]
    have hm2 : ∀ (X : State) sl' (f : Slot → Slot), (X.setSlot k sl').modifySlot k f = X.setSlot k (f sl') := by
      intro X sl' f; simp [modifySlot]
    rw [hm2, hfin _ (abortedOutcome o) sl]
    · simp
    · rw [hsl]; simp [abortedOutcome]
    · intro v; rw [setSlot_station]; exact hline v
    · simp
  · rw [if_neg (by simp [hab])]
    have hnr : (!a.stop.park && !a.stop.isEmpty && Y.retryDue a o) = false := by
      rcases hrd with h | h | h
      · simp [h]
      · simp [h]
      · rw [hab] at h; cases h
    rw [hnr]
    simp only [Bool.false_eq_true, if_false]
    apply hend
    unfold completeSlot
    by_cases hb : o = .busy
    · rcases hcase with h | h | ⟨_, h⟩ | ⟨h, _⟩
      · rw [h] at hb; cases hb
      · rw [h] at hb; cases hb
      · subst hb
        unfold deferSlot
        simp only [if_true, countBusy, hmod, slot_setSlot]
        rw [if_neg (busy_seventh _ h)]
        have : (0 : BitVec 6) = finalReplyLen .busy (a.replyLen.getD 0) := rfl
        rw [this, hfin _ .busy sl]
        · simp
        · rw [hsl]; simp
        · intro v; rw [setSlot_station]; exact hline v
        · simp
      · rcases h with h | h <;> rw [hb] at h <;> simp [OutcomeCode.isMiss] at h
    · rw [if_neg hb, hfin _ o sl]
      · simp
      · rw [hsl]; simp [hsl0, hb]
      · exact hline
      · simp [hsl0]

/-- A slot that its outcome completes owes no retry. -/
theorem slotTakes_noRetry (s Z : State) (k : SlotIx) (a : Attempt) (m : Nat) (o : OutcomeCode) (len : BitVec 6) (sl : Slot)
    (h : slotTakes s k a m o len sl) (ho : a.origin = .acyclic k) (hm : a.attempt = some m)
    (hz : (Z.slot k).retries = (s.slot k).retries) : a.stop.abort = true ∨ a.stop.park = true ∨ Z.retryDue a o = false := by
  rcases h with ⟨hab, hsl⟩ | ⟨hab, hsl, hcase⟩
  · exact .inl hab
  · rcases hcase with h | h | ⟨h, _⟩ | ⟨_, h | h⟩
    · subst h; right; right; simp [retryDue, OutcomeCode.isMiss]
    · subst h; right; right; simp [retryDue, OutcomeCode.isMiss]
    · subst h; right; right; simp [retryDue, OutcomeCode.isMiss]
    · right; right; simp [retryDue, retryBudget, ho, hm, hz]; intro _; exact h
    · exact .inr (.inl h)

/-! ## The eighth line fault (R43, R44) -/

theorem setSlot_offerNotice (k : SlotIx) (sl : Slot) (e : Event) (s : State) :
    (s.offerNotice e).setSlot k sl = (s.setSlot k sl).offerNotice e := by
  have hs : (s.setSlot k sl).stamp e = s.stamp e := by unfold stamp; simp only [setSlot_line]
  rw [offerNotice_eq, offerNotice_eq]
  simp only [setSlot_events, setSlot_evlost, setSlot_edges, hs]
  split <;> rfl

theorem submitted_offerNotice (sub : List SlotIx) (e : Event) (s : State) :
    ({ s.offerNotice e with submitted := sub } : State) = ({ s with submitted := sub } : State).offerNotice e := by
  have hs : ({ s with submitted := sub } : State).stamp e = s.stamp e := by unfold stamp; split <;> simp [line_submitted]
  rw [offerNotice_eq, offerNotice_eq]
  simp only [hs]
  split <;> rfl

theorem faultNotices_eq (n : LineId) (c : Word) (s : State) :
    faultNotices n c s = (({ s with edges := s.edges ||| lineFaultBit n } : State).offerNotice {
      kind := .lineFault, line := n, station := 0, detailA := 8, detailB := c, cycle := 0, extra := 0 }).offerNotice {
      kind := .lineFaulted, line := n, station := 0, detailA := 0, detailB := 0, cycle := 0, extra := 0 } := rfl

/-- The fault's notices and what the end of the transaction changes reach different state. -/
theorem fault_setLine (n : LineId) (c : Word) (m : LineId) (l : Line) (s : State) (h : l.cycnum = (s.line m).cycnum) :
    (faultNotices n c s).setLine m l = faultNotices n c (s.setLine m l) := by
  rw [faultNotices_eq, faultNotices_eq]
  rw [setLine_offerNotice _ _ _ _ (by rw [offerNotice_line]; cases m <;> exact h), setLine_offerNotice _ _ _ _ (by cases m <;> exact h)]
  cases m <;> rfl

theorem fault_setStation (n : LineId) (c : Word) (u : StationIx) (st : Station) (s : State) :
    (faultNotices n c s).setStation u st = faultNotices n c (s.setStation u st) := by
  rw [faultNotices_eq, faultNotices_eq, setStation_offerNotice, setStation_offerNotice]; rfl

theorem fault_setEntry (n : LineId) (c : Word) (u : EntryIx) (st : Entry) (s : State) :
    (faultNotices n c s).setEntry u st = faultNotices n c (s.setEntry u st) := by
  rw [faultNotices_eq, faultNotices_eq, setEntry_offerNotice, setEntry_offerNotice]; rfl

theorem fault_setSlot (n : LineId) (c : Word) (u : SlotIx) (st : Slot) (s : State) :
    (faultNotices n c s).setSlot u st = faultNotices n c (s.setSlot u st) := by
  rw [faultNotices_eq, faultNotices_eq, setSlot_offerNotice, setSlot_offerNotice]; rfl

theorem fault_submitted (n : LineId) (c : Word) (sub : List SlotIx) (s : State) :
    ({ faultNotices n c s with submitted := sub } : State) = faultNotices n c { s with submitted := sub } := by
  rw [faultNotices_eq, faultNotices_eq, submitted_offerNotice, submitted_offerNotice]

theorem fault_frame (n : LineId) (c : Word) (s : State) :
    ∃ ev lost ed, faultNotices n c s = { s with events := ev, evlost := lost, edges := ed } := by
  rw [faultNotices_eq]
  obtain ⟨e1, l1, d1, h1⟩ := offerNotice_frame
      { kind := .lineFault, line := n, station := 0, detailA := 8, detailB := c, cycle := 0, extra := 0 }
      ({ s with edges := s.edges ||| lineFaultBit n } : State)
  rw [h1]
  obtain ⟨e2, l2, d2, h2⟩ := offerNotice_frame
      { kind := .lineFaulted, line := n, station := 0, detailA := 0, detailB := 0, cycle := 0, extra := 0 }
      ({ s with events := e1, evlost := l1, edges := d1 } : State)
  exact ⟨e2, l2, d2, h2⟩

theorem fault_raise (n : LineId) (c : Word) (x : Source) (X : State) :
    (faultNotices n c X).raise x = faultNotices n c (X.raise x) := by
  rw [faultNotices_eq, raise_offerNotice, raise_offerNotice, faultNotices_eq]
  congr 2
  simp only [raise, State.or_right_comm]

theorem fault_station (n : LineId) (c : Word) (X : State) (u : StationIx) : (faultNotices n c X).station u = X.station u := by
  obtain ⟨ev, lost, ed, hfr⟩ := fault_frame n c X
  rw [hfr]
  rfl

theorem fault_stationLeft (n : LineId) (c : Word) (u : StationIx) (st : Station) (X : State) :
    stationLeft u st (faultNotices n c X) = faultNotices n c (stationLeft u st X) := by
  unfold stationLeft
  rw [fault_station]
  split
  · have e2 : (faultNotices n c X).edges = (faultNotices n c (X.setStation u st)).edges := by rw [← fault_setStation]; rfl
    rw [fault_setStation, e2]
    exact fault_raise n c .stationDown (X.setStation u st)
  · exact fault_setStation n c u st X

theorem fault_parkFinished (n : LineId) (c : Word) (s : State) (u : StationIx) (X : State) :
    parkFinished s u (faultNotices n c X) = faultNotices n c (parkFinished s u X) := by
  have key : ∀ Y : State, parkDone u Y
      = (Y.setStation u (parked (Y.station u))).complete .ok ((Y.station u).health.code.setWidth 16) := fun _ => rfl
  unfold parkFinished
  split
  · rw [key, key, fault_station, fault_setStation, faultNotices_eq, complete_offerNotice, complete_offerNotice, faultNotices_eq]
    congr 2
    simp only [complete, raise, State.or_right_comm]
  · rfl

/-- The eighth line fault is counted (R43, R44). -/
theorem countFault_faultNotices (n : LineId) (q : Bool) (s : State) (h : (s.line n).faults = 7) :
    s.countFault n q = faultNotices n (if q then 1 else 0) (s.setLine n { s.line n with
      faults := 8, engine := .faulted, faulted := true, syncOwed := false
      attempt := (s.line n).attempt.map fun a => if a.isTransaction then { a with stop := a.stop.add .fault } else a }) := by
  rw [countFault_eighth n q s (by rw [h]; decide), faultNotices_eq]
  simp only [h, raise, setLine_edges, lineFault_flag]
  cases q <;> rfl

/-- The eighth fault at a transaction hands its outcome to an engine in FAULTED, with FAULT in the STOP set (R30, R35, R44). -/
theorem exec_eighthFault (s : State) (n : LineId) (c : Instr) (o : OutcomeCode) (cause : Word) (l : Line) (a : Attempt)
    (h : eighthFault s n c o cause l a) (hos : a.origin ≠ .sync) :
    ∃ a', a'.origin = a.origin ∧ a'.station = a.station ∧ a'.attempt = a.attempt ∧ a'.stop.abort = a.stop.abort
      ∧ a'.stop.park = a.stop.park ∧ a'.stop ≠ noStop
      ∧ exec c s = .next (settle n (((faultNotices n cause s).setLine n
        { ({ l with faults := 8, faulted := true, syncOwed := false } : Line) with
          engine := .faulted, attempt := some a' }).endAttempt n o))
      ∧ l.breakRequest = (s.line n).breakRequest ∧ (o.isMiss = true ∨ o = .collision) := by
  obtain ⟨hf, ⟨ch, rfl, hs, hag, rfl, rfl, rfl⟩ | ⟨rfl, he, ha, hfx, ho, rfl, rfl⟩⟩ := h
  · obtain ⟨he, ha, hd⟩ := hs
    have hag2 : readBackAgrees ch (s.line n).readBack = false := by
      cases hb : readBackAgrees ch (s.line n).readBack
      · rfl
      · exfalso; apply hag
        unfold readBackAgrees at hb
        cases hr : (s.line n).readBack with
        | none => rw [hr] at hb; simp at hb
        | some r => rw [hr] at hb; simp at hb; exact ⟨r, hr, by simp [hb]⟩
    refine ⟨{ a with sent := a.sent + 1, stop := a.stop.add .fault }, rfl, rfl, rfl, rfl, rfl, ?_, ?_, rfl, .inr rfl⟩
    · intro h; have := congrArg StopSet.fault h; simp [StopSet.add, noStop] at this
    · simp only [exec, execCharacterSent, he, ha, hd, charSent, hag2, Bool.false_eq_true, if_false, collision]
      have hX : (State.modifyLine n Line.release (s.setAttempt n (some { a with sent := a.sent + 1 }))) = s.setLine n
          { s.line n with attempt := some { a with sent := a.sent + 1 }, drive := .released, frameRest := [], readBack := none } := by
        simp [modifyLine, setAttempt, Line.release]
      rw [hX, countFault_faultNotices _ _ _ (by simpa using hf)]
      rw [← fault_setLine _ _ _ _ _ (by simp)]
      simp only [line_setLine, if_true, Option.map_some, Attempt.isTransaction]
      have hot : (a.origin != .sync) = true := by simp [hos]
      simp only [hot, if_true]
      rw [fault_setLine _ _ _ _ _ (by simp), fault_setLine _ _ _ _ _ (by simp)]
      simp
  · refine ⟨{ a with stop := a.stop.add .fault }, rfl, rfl, rfl, rfl, rfl, ?_, ?_, rfl, ho⟩
    · intro h; have := congrArg StopSet.fault h; simp [StopSet.add, noStop] at this
    · simp only [exec, execQuietLimitExpiry, he, if_true]
      rw [countFault_faultNotices _ _ _ (by simpa [setEngine, modifyLine] using hf)]
      rw [← fault_setLine _ _ _ _ _ (by simp)]
      have hot : a.isTransaction = true := by simp [Attempt.isTransaction, hos]
      have hX : ∀ L, (faultNotices n 1 (s.setEngine n (restState s.mode))).setLine n L = (faultNotices n 1 (s.setEngine n (restState
          s.mode))).setLine n L := fun _ => rfl
      have e1 : (faultNotices n (if true = true then 1 else 0) (s.setEngine n (restState s.mode))) = (faultNotices n 1 s).setLine n
          { s.line n with engine := restState s.mode } := by
        rw [fault_setLine _ _ _ _ _ (by simp)]; rfl
      rw [e1]
      simp only [setLine_setLine, setEngine, modifyLine, line_setLine, if_true, ha, Option.map_some, hot, endQuietWait, hfx, Option.getD]

end Sys2Proof.Machine
end

