-- ==== Sys2Proof/Laws/Cycles.lean ====
section
/-!
SUPPORT. Cycle starts with a transaction that waits for its retry, the decision of an IDLE engine, the take of a slot, and the stations
at RUN entry.
-/

namespace Sys2Proof.Machine

open State

/-! ## The take of a slot (R27, R29) -/

/-- No eligible slot of a priority. -/
theorem eligibleOf_none_of (s : State) (n : LineId) (p : BitVec 2)
    (h : ∀ j ∈ s.pendingList, s.eligible n j = true → (s.slot j).priority ≠ p) : s.eligibleOf n p = none := by
  unfold eligibleOf; rw [List.find?_eq_none]
  intro x hx; simp; intro he; exact h x hx he

/-- The slot of highest priority, the earliest among equals (R27 step 4). -/
theorem bestSlot_eq (s : State) (n : LineId) (k : SlotIx) (before after : List SlotIx) (hl : s.pendingList = before ++ k :: after)
    (hk : s.eligible n k = true)
    (hbe : ∀ j ∈ before, s.eligible n j = true → (s.slot j).priority.toNat < (s.slot k).priority.toNat)
    (haf : ∀ j ∈ after, s.eligible n j = true → (s.slot j).priority.toNat ≤ (s.slot k).priority.toNat) :
    s.bestSlot n = some k := by
    have hall : ∀ j ∈ s.pendingList, s.eligible n j = true → (s.slot j).priority.toNat ≤ (s.slot k).priority.toNat := by
      intro j hj he
      rw [hl] at hj
      simp at hj
      rcases hj with hj | rfl | hj
      · exact Nat.le_of_lt (hbe j hj he)
      · exact Nat.le_refl _
      · exact haf j hj he
    have hsome : s.eligibleOf n (s.slot k).priority = some k := by
      unfold eligibleOf; rw [hl]
      apply find?_first
      · intro y hy
        cases he : s.eligible n y
        · simp
        · have := hbe y hy he
          simp; intro h; rw [h] at this; omega
      · simp [hk]
    have hno : ∀ p : BitVec 2, (s.slot k).priority.toNat < p.toNat → s.eligibleOf n p = none := by
      intro p hp; apply eligibleOf_none_of s n p
      intro j hj he h; have := hall j hj he; rw [h] at this; omega
    unfold bestSlot
    have hpr : (s.slot k).priority = 0 ∨ (s.slot k).priority = 1 ∨ (s.slot k).priority = 2 ∨ (s.slot k).priority = 3 := by
      generalize (s.slot k).priority = x; revert x; decide
    rcases hpr with h | h | h | h
    · simp only [firstSome, hno 3 (by rw [h]; decide), hno 2 (by rw [h]; decide), hno 1 (by rw [h]; decide)]
      rw [← h, hsome]
    · simp only [firstSome, hno 3 (by rw [h]; decide), hno 2 (by rw [h]; decide)]
      rw [← h, hsome]
    · simp only [firstSome, hno 3 (by rw [h]; decide)]
      rw [← h, hsome]
    · simp only [firstSome]
      rw [← h, hsome]

/-- The take of a slot, in the statements' words. -/
theorem takeSlot_slotTaken (s : State) (n : LineId) (k : SlotIx) (l : Line) (ed : Word) : ∃ a, slotAttempt s k a
    ∧ ({ s.setLine n { l with settled := true } with edges := ed } : State).takeSlot n k
      = { slotTaken s n (if l.phase = .cyclic then { l with urgent := true } else l) k a with edges := ed } := by
  refine ⟨(Attempt.fresh (.acyclic k) (some (s.slot k).station) (RequestKind.sent (s.slot k).kind) (s.slot k).reqLen.toNat).begin
      ((s.slot k).attempts.toNat + 1) (s.station (s.slot k).station).seq, ⟨rfl, rfl, ?_, rfl, rfl, rfl, rfl, rfl⟩, ?_⟩
  · show RequestKind.sent _ = _; cases (s.slot k).kind <;> rfl
  · have hpay : ∀ (X : State) x, X.payload = s.payload → (X.slot k).reqBlock = (s.slot k).reqBlock → X.requestPayload (.acyclic k) x =
        s.requestPayload (.acyclic k) x := by
      intro X x h1 h2
      simp [requestPayload, h1, h2]
    have hY : ∀ (Y : State) (hs : Y.slots = s.slots) (ht : Y.stations = s.stations) (hp : Y.payload = s.payload) (hl : Y.line n =
        { l with settled := true }),
       Y.takeSlot n k = ((Y.setSlot k { s.slot k with state := .active }).setStation (s.slot k).station
           { s.station (s.slot k).station with seq := (s.station (s.slot k).station).seq + 1 }).setLine n (sending (if l.phase = .cyclic
           then { l with urgent := true } else l) ((Attempt.fresh (.acyclic k) (some (s.slot k).station) (RequestKind.sent (s.slot
           k).kind) (s.slot k).reqLen.toNat).begin ((s.slot k).attempts.toNat + 1) (s.station (s.slot k).station).seq) (requestFrame
           (RequestKind.sent (s.slot k).kind) (s.station (s.slot k).station).address (s.station (s.slot k).station).seq (s.requestPayload
           (.acyclic k) (s.slot k).reqLen.toNat))) := by
      intro Y hs ht hp hl
      have h1 : ∀ k, Y.slot k = s.slot k := fun k => by unfold slot; rw [hs]
      have h2 : ∀ k, Y.station k = s.station k := fun k => by unfold station; rw [ht]
      simp only [takeSlot, startAttempt, modifyLine, sendFrame, modifyStation, setLine_station, setStation_line,
        setSlot_station, setSlot_line, line_setLine, if_true, setLine_setStation, setLine_setLine, setLine_setSlot, h1, h2, hl]
      rw [hpay _ _ (by simp) (by simp)]
      have e0 : ∀ Z : State, Z.requestPayload (Attempt.fresh (.acyclic k) (some (s.slot k).station) (RequestKind.sent (s.slot k).kind)
          (s.slot k).reqLen.toNat).origin = Z.requestPayload (.acyclic k) := fun _ => rfl
      rw [e0, hpay _ _ (by simpa using hp) (by simp)]
      by_cases hc : l.phase = .cyclic
      · simp only [hc, if_true]; rfl
      · simp only [hc, if_false]; rfl
    rw [hY _ (by simp) (by simp) (by simp) (by cases n <;> rfl)]
    cases n <;> rfl

/-! ## The decision does not look at the state the engine leaves (R26) -/

theorem takeSlot_engine (X : State) (n : LineId) (k : SlotIx) (e : EngineState) :
    (X.setLine n { X.line n with engine := e }).takeSlot n k = X.takeSlot n k := by
  have hp : ∀ (o l) (V : State), (∀ v, V.entry v = X.entry v) → (∀ v, V.slot v = X.slot v) → V.payload = X.payload → V.requestPayload o l
      = X.requestPayload o l := by
    intro o l V h1 h2 h3; simp [requestPayload, h1, h2, h3]
  cases n <;> rfl

theorem takeEntry_engine (X : State) (n : LineId) (k : EntryIx) (p : Bool) (e : EngineState) :
    (X.setLine n { X.line n with engine := e }).takeEntry n k p = X.takeEntry n k p := by
  unfold takeEntry
  simp only []
  have : (X.setLine n { X.line n with engine := e }).swapOutput k = (X.swapOutput k).setLine n { X.line n with engine := e } := by
    unfold swapOutput
    simp only [setLine_entry]
    split
    · rfl
    · split
      · cases n <;> rfl
      · rfl
  have hl : X.line n = (X.swapOutput k).line n := by
    unfold swapOutput
    simp only []
    split
    · rfl
    · split
      · cases n <;> rfl
      · rfl
  rw [this, hl]
  generalize X.swapOutput k = S
  have key : ∀ (V : State) l u x y, (V.setLine n { V.line n with engine := e, walk := l, urgent := false }).startAttempt n x y u =
      (V.setLine n { V.line n with walk := l, urgent := false }).startAttempt n x y u := by
    intro V l u x y
    unfold startAttempt sendFrame modifyLine modifyStation
    simp [setLine_setStation]
  cases p
  · have := key S k.succ (S.entry k).station 1 (Attempt.fresh (.cyclic k) (some (S.entry k).station) .poll (if (S.entry k).binding.isSome
        then (S.entry k).outputLen.toNat else 0))
    simpa [modifyLine] using this
  · have := key (S.modifyStation (S.entry k).station fun st => { st with probeDue := false }) k.succ (S.entry k).station 1 (Attempt.fresh
        (.probe k) (some (S.entry k).station) .poll (if (S.entry k).binding.isSome then (S.entry k).outputLen.toNat else 0))
    simpa [modifyLine, modifyStation, setLine_setStation] using this

/-- A decision point answers the same from IDLE and from TURNAROUND. -/
theorem decisionPoint_engine (X : State) (n : LineId) (e : EngineState) :
    (X.setLine n { X.line n with engine := e }).decisionPoint n = X.decisionPoint n := by
  have hb : ∀ (V : State) e, (V.setLine n { V.line n with engine := e }).bestSlot n = V.bestSlot n := fun V e => bestSlot_setLine _ _ _ _
  have hac : ∀ V : State, ∀ e, (V.setLine n { V.line n with engine := e }).acyclicChoice n = V.acyclicChoice n := by
    intro V e
    unfold acyclicChoice
    rw [hb]
    split
    · exact takeSlot_engine _ _ _ _
    · cases n <;> rfl
  have hw : (X.setLine n { X.line n with engine := e }).walkChoice n = X.walkChoice n := by
    unfold walkChoice
    have : (X.setLine n { X.line n with engine := e }).nextDue n = X.nextDue n := by cases n <;> rfl
    rw [this]
    split
    · exact takeEntry_engine _ _ _ _ _
    · have : (X.setLine n { X.line n with engine := e }).endCyclic n = (X.endCyclic n).setLine n
          { (X.endCyclic n).line n with engine := e } := by
        cases n <;> rfl
      rw [this, hac]
  have h1 : ((X.setLine n { X.line n with engine := e }).line n) = { X.line n with engine := e } := by simp
  unfold decisionPoint
  simp only [h1]
  split
  · cases n <;> rfl
  · split
    · cases n <;> rfl
    · split
      · unfold cyclicChoice
        simp only [h1, eligibleOf_setLine]
        split
        · exact takeSlot_engine _ _ _ _
        · exact hw
      · exact hac _ _

/-! ## The parts of a cycle start -/

theorem cycleStart_line (st : Station) : st.cycleStart.line = st.line := by
  unfold Station.cycleStart Station.countdown; simp only []; split
  · split <;> rfl
  · rfl

/-- What the release of deferred slots makes of each slot (R123). -/
theorem releaseDeferred_slot (n : LineId) (X : State) (k : SlotIx) : (X.releaseDeferred n).slot k
    = if (X.slot k).state = .pending ∧ X.slotLine k = n then { X.slot k with deferred := false } else X.slot k := by
  unfold releaseDeferred; rw [slot_mapSlots]

theorem offerNotice_releaseDeferred (e : Event) (n : LineId) (X : State) :
    (X.offerNotice e).releaseDeferred n = (X.releaseDeferred n).offerNotice e := by
  rw [offerNotice_eq, offerNotice_eq]
  have h : (X.releaseDeferred n).events = X.events := rfl
  rw [h]
  split <;> rfl

theorem offered_releaseDeferred (es : List Event) (n : LineId) (X : State) :
    (offered es X).releaseDeferred n = offered es (X.releaseDeferred n) := by
  unfold offered
  induction es generalizing X with
  | nil => rfl
  | cons e es ih => simp only [List.foldl_cons]; rw [ih, offerNotice_releaseDeferred]

/-- Notices and the release of deferred slots reach different state. -/
theorem answers_releaseDeferred (n : LineId) (X R : State) (p q : List Event) (h : answersInSomeOrder (.next R) X p q) :
    answersInSomeOrder (.next (R.releaseDeferred n)) (X.releaseDeferred n) p q := by
  obtain ⟨order, h1, h2, h3, h⟩ := h
  refine ⟨order, h1, h2, h3, ?_⟩
  injection h with h
  rw [h, offered_releaseDeferred]
  rfl

/-- The entries an overrun counts are those that remain (R68). -/
theorem skippedEntry_iff (s X : State) (n : LineId) (old : Word) (e : EntryIx) (h1 : (X.line n).walk = (s.line n).walk)
    (h2 : ∀ e, X.entry e = s.entry e) (h3 : ∀ u, X.station u = s.station u) (ho : old = (s.line n).cycnum) :
    X.skippedEntry n old e = true ↔ remains s n e := by
  subst ho
  unfold skippedEntry remains due inPhase
  simp only [h1, h2, h3]
  cases (s.station (s.entry e).station).health <;> simp
  all_goals intro _; tauto

theorem markSkipped_entry (n : LineId) (old : Word) (X : State) (e : EntryIx) : (X.markSkipped n old).entry e
    = if X.skippedEntry n old e then { X.entry e with last := .skipped, skipped := satInc (X.entry e).skipped } else X.entry e := by
  unfold markSkipped entry
  exact entry_mapEntries _ X e

/-- The line once the timer has loaded its period and taken the next number (R53). -/
def timedLine (l : Line) : Line := { l with timerRunning := true, runningCount := l.period, cycnum := l.cycnum + 1 }

theorem openCycle_counted (n : LineId) (s Y : State) (E : Vector Entry 64) (ed : Word)
    (hY : Y = { s.setLine n (timedLine (s.line n)) with entries := E, edges := ed }) :
    Y.openCycle n = { s.setLine n (openedLine (timedLine (s.line n))) with entries := E, edges := ed ||| cycleStartBit n } := by
  subst hY
  rw [openCycle_eq]
  cases n <;> rfl

/-- The accounting of an overrun (R68). -/
theorem cycleAccounting_overrun (n : LineId) (s : State) :
    let x := s.loadTimer n ((s.line n).cycnum + 1)
    ∃ E, x.cycleAccounting n (s.line n).cycnum .overrun
      = ({ s.setLine n (timedLine (s.line n)) with entries := E, edges := s.edges ||| overrunBit n },
        [.notice (overrunRecord n ((List.finRange 64).filter fun e => x.skippedEntry n (s.line n).cycnum e).length)])
      ∧ ∀ e, E.get e = if x.skippedEntry n (s.line n).cycnum e
        then { s.entry e with last := .skipped, skipped := satInc (s.entry e).skipped } else s.entry e := by
  refine ⟨((s.loadTimer n ((s.line n).cycnum + 1)).markSkipped n (s.line n).cycnum).entries, ?_, ?_⟩
  · unfold cycleAccounting
    simp only []
    congr 1
    unfold raise
    rw [overrun_flag]
    cases n <;> rfl
  · intro e
    have := markSkipped_entry n (s.line n).cycnum (s.loadTimer n ((s.line n).cycnum + 1)) e
    rw [show (s.loadTimer n ((s.line n).cycnum + 1)).entry e = s.entry e by cases n <;> rfl] at this
    exact this

/-- The accounting of a late start (R69). -/
theorem cycleAccounting_late (n : LineId) (s : State) :
    (s.loadTimer n ((s.line n).cycnum + 1)).cycleAccounting n (s.line n).cycnum .lateStart
      = ({ s.setLine n (timedLine (s.line n)) with entries := s.entries, edges := s.edges ||| overrunBit n }, [.notice {
        kind := .cycleLate, line := n, station := 0, detailA := 0, detailB := 0, cycle := 0, extra := 0 }]) := by
    unfold cycleAccounting
    simp only []
    congr 1
    unfold raise
    rw [overrun_flag]
    cases n <;> rfl

/-- What the accounting of an overrun does to the entries, in the statements' words. -/
theorem entriesSkipped_of (n : LineId) (s x b : State) (E : Vector Entry 64) (hb : b.entries = E)
    (hxl : (x.line n).walk = (s.line n).walk) (hxe : ∀ e, x.entry e = s.entry e) (hxs : ∀ u, x.station u = s.station u)
    (hE : ∀ e, E.get e = if x.skippedEntry n (s.line n).cycnum e
      then { s.entry e with last := .skipped, skipped := satInc (s.entry e).skipped } else s.entry e) :
    entriesSkipped n s b ((List.finRange 64).filter fun e => x.skippedEntry n (s.line n).cycnum e) := by
  have hsk := fun e => skippedEntry_iff s x n _ e hxl hxe hxs rfl
  refine ⟨(List.nodup_finRange 64).filter _, ?_, ?_, ?_⟩
  · intro e; simp [hsk]
  · intro e he; show b.entries.get e = _; rw [hb, hE, if_pos ((hsk e).2 he)]
  · intro e he; show b.entries.get e = _; rw [hb, hE, if_neg (fun h => he ((hsk e).1 h))]

/-- The Station Table's step of a cycle start (R82, R89). -/
theorem stationsCycleStart_frame (n : LineId) (X : State) : ∃ S, X.stationsCycleStart n = { X with stations := S }
    ∧ ∀ u, S.get u = if (X.station u).line = n then (X.station u).cycleStart else X.station u := by
  refine ⟨(X.stationsCycleStart n).stations, rfl, fun u => ?_⟩
  exact station_mapStations (fun _ st => if st.line = n then st.cycleStart else st) X u

theorem stationsCycleStart_eq (n : LineId) (V W : State) (h : V.stations = W.stations) :
    V.stationsCycleStart n = { V with stations := (W.stationsCycleStart n).stations } := by
  unfold stationsCycleStart mapStations
  rw [h]

/-- The release after the Station Table's step. -/
theorem releaseDeferred_after (n : LineId) (s Z : State) (hst : Z.stations = (s.stationsCycleStart n).stations)
    (hsl : ∀ k, Z.slot k = s.slot k) (k : SlotIx) : (Z.releaseDeferred n).slot k
      = if (s.slot k).state = .pending ∧ (s.station (s.slot k).station).line = n
        then { s.slot k with deferred := false } else s.slot k := by
  rw [releaseDeferred_slot, hsl]
  have : Z.slotLine k = (s.station (s.slot k).station).line := by
    unfold slotLine
    rw [hsl]
    have : ∀ v, Z.station v = (s.stationsCycleStart n).station v := by intro v; unfold station; rw [hst]
    rw [this]
    have := station_mapStations (fun _ st => if st.line = n then st.cycleStart else st) s (s.slot k).station
    unfold stationsCycleStart; rw [this]
    split
    · exact cycleStart_line _
    · rfl
  rw [this]

/-- A cycle start of an engine that does not decide, from its accounting and its hand-overs; a break that waited starts. -/
theorem startCycle_waiting (n : LineId) (old : Word) (c : CycleCase) (X Y Z : State) (N : List Post) (gs : Groups)
    (hacc : X.cycleAccounting n old c = (Y, N)) (hh : (Y.openCycle n).startHandOver n c = (Z, gs))
    (hm : Z.mode = .run) (he : (breakBegun (Z.line n)).engine ≠ .idle ∨ (Z.line n).attempt ≠ none) :
    X.startCycle n old c = ((Z.setLine n (breakBegun (Z.line n))).flush (N :: gs)).releaseDeferred n := by
  unfold startCycle
  rw [hacc]; simp only []
  rw [hh]; simp only []
  rw [settle_run _ _ _ (by simp [hm])]
  unfold wakeIdle
  rw [if_neg]
  rintro ⟨_, h, h2⟩
  have : ((releaseDeferred n (State.flush (N :: gs) (Z.setLine n (breakBegun (Z.line n))))).line n) = breakBegun (Z.line n) := by
    refine (flush_same _ _).line n |>.trans ?_
    rw [line_setLine, if_pos rfl]
  rw [this] at h h2
  rcases he with he | he
  · exact he h
  · exact he ((breakBegun_frame _).2.2.1.symm.trans h2)

/-! ## CYCLE ends a transaction that waits (R39, R40) -/

/-- Both orders of the end and the Station Table's step answer the same. -/
theorem cycleHandOver_waiting (n : LineId) (Y X Z1 Z : State) (gs : Groups) (hX : X = { Y with freeIndex := Y.freeIndex + 1 })
    (hw : Y.waitsForRetry n = true) (h1 : X.stopTransaction n .cycle = (Z1, gs)) (h1b : Z1.stationsCycleStart n = Z)
    (h2 : (X.stationsCycleStart n).stopTransaction n .cycle = (Z, gs)) : Y.cycleHandOver n = (Z, gs) := by
  subst hX
  unfold cycleHandOver
  simp only [hw, Bool.true_and, if_true]
  cases hc : (Config.freeChoice Y.freeIndex 0 % 2 == 0)
  · exact h2
  · simp only [if_true, h1, h1b]

/-- A waiting transaction ends with its last outcome, whatever the reason (R39). -/
theorem stopTransaction_waiting (X : State) (n : LineId) (x : StopReason) (a : Attempt) (u : StationIx) (o : OutcomeCode)
    (h : (X.line n).attempt = some a) (hr : a.retryOwed = true) (hu : a.station = some u) (ho : a.outcome = some o)
    (hs : a.origin ≠ .sync) :
    X.stopTransaction n x = X.endTransaction n { a with stop := a.stop.add x, retryOwed := false } u o := by
  unfold stopTransaction
  simp only [h, Attempt.isTransaction]
  simp [hs, hr, hu, ho]

/-- A final outcome of a cyclic transaction, its attempt already counted (R78, R79, R81). -/
def finalStation (o : OutcomeCode) (x : Station) : Station :=
  Station.applyHealth o false (Station.countOutcome o (Station.probeNote false x) true x)

theorem finalStation_collision (x : Station) : finalStation .collision x = { x with last := .collision } := by
  unfold finalStation
  cases hh : x.health <;> simp [Station.applyHealth, Station.countOutcome, hh, Station.ordinaryOutcome, OutcomeCode.isContact,
      OutcomeCode.isMiss, Station.probeNote]

theorem finalStation_miss (o : OutcomeCode) (x : Station) (ho : o.isMiss = true) (hh : x.health = .online ∨ x.health = .degraded)
    (hl : x.missCount.toNat + 1 < x.missLimit.toNat) : finalStation o x
      = { x with last := o, missed := satInc x.missed, missCount := x.missCount + 1, health := .degraded } := by
  have hct : o.isContact = false := by cases o <;> simp [OutcomeCode.isMiss] at ho <;> rfl
  have hok : o ≠ .ok := by rintro rfl; simp [OutcomeCode.isMiss] at ho
  have hml : x.missLimit ≠ 0 := by intro h; rw [h] at hl; simp at hl
  unfold finalStation
  rcases hh with hh | hh <;>
        simp [Station.applyHealth, Station.countOutcome, ho, hok, hh, Station.ordinaryOutcome, hct,
          Station.countMiss, hl, Station.probeNote] <;> exact hml

theorem setStation_eq (u : StationIx) (st : Station) (X : State) (S : Vector Station 32)
    (h : ∀ v, S.get v = if u = v then st else X.station v) : X.setStation u st = { X with stations := S } := by
  have : (X.setStation u st).stations = S := by
    apply Vector.ext
    intro i hi
    have h1 := h ⟨i, hi⟩
    have h2 := station_setStation u st X ⟨i, hi⟩
    unfold station at h2
    exact h2.trans (h1.symm)
  rw [← this]; rfl

/-- A waiting cyclic transaction whose end commutes with the Station Table's step (log entry 6). -/
theorem cycleHandOver_cyclic (Y : State) (n : LineId) (a : Attempt) (j : EntryIx) (u : StationIx) (o : OutcomeCode) (st : Station)
    (notices : List Event) (h : (Y.line n).attempt = some a) (hr : a.retryOwed = true) (hu : a.station = some u)
    (ho : a.outcome = some o) (hj : a.origin = .cyclic j) (hc : ¬ parkWaits Y u) (hok : o ≠ .ok)
    (g1 : finalStation o (Y.station u) = st) (g2 : finalStation o (Y.station u).cycleStart = st.cycleStart) (hl : st.line = (Y.station
        u).line)
    (n1 : st.health ≠ .offline ∨ (Y.station u).health = .offline)
    (n2 : st.cycleStart.health ≠ .offline ∨ (Y.station u).cycleStart.health = .offline)
    (m1 : healthNotice u (Y.station u) st ++ reachableNotice u (Y.station u) st = notices.map Post.notice)
    (m2 : healthNotice u (Y.station u).cycleStart st.cycleStart ++ reachableNotice u (Y.station u).cycleStart st.cycleStart
      = notices.map Post.notice) :
    ∃ X, X = ({ Y with freeIndex := Y.freeIndex + 1 } : State) ∧ Y.cycleHandOver n
      = ((((X.setAttempt n none).setEntry j { Y.entry j with last := o }).setStation u st).stationsCycleStart n,
        [notices.map Post.notice ++ [], [], []]) := by
  have hs : a.origin ≠ .sync := by rw [hj]; simp
  have hsa : ∀ (X : State) v, (X.setAttempt n none).station v = X.station v := fun X v => by simp [setAttempt, modifyLine]
  have hse : ∀ (X : State) v, (X.setAttempt n none).entry v = X.entry v := fun X v => by simp [setAttempt, modifyLine]
  have hsc : ∀ (X : State), parkWaits (X.setAttempt n none) u → parkWaits X u := fun X h => by
    unfold parkWaits at h ⊢; simpa [setAttempt, modifyLine] using h
  have key : ∀ (X : State) x, (X.line n).attempt = some a → ¬ parkWaits X u → finalStation o (X.station u) = x → (x.health ≠ .offline
      ∨ (X.station u).health = .offline) →
     X.stopTransaction n .cycle = (((X.setAttempt n none).setEntry j { X.entry j with last := o }).setStation u x, [(healthNotice u
         (X.station u) x ++ reachableNotice u (X.station u) x) ++ [], [], []]) := by
    intro X x h1 h2 h3 h4
    rw [stopTransaction_waiting X n .cycle a u o h1 hr hu ho hs]
    unfold endTransaction
    simp only [hj]
    rw [pollEnd_stays _ j u _ o hok (fun h => h2 (hsc X h)) x (by rw [hsa]; exact h3) (by rw [hsa]; exact h4), hsa, hse]
  obtain ⟨X, hX⟩ : ∃ X, X = ({ Y with freeIndex := Y.freeIndex + 1 } : State) := ⟨_, rfl⟩
  have xl : X.line n = Y.line n := by rw [hX]; cases n <;> rfl
  have xs : ∀ v, X.station v = Y.station v := by rw [hX]; intro v; rfl
  have xe : ∀ v, X.entry v = Y.entry v := by rw [hX]; intro v; rfl
  have xc : ¬ parkWaits X u := by rw [hX]; exact hc
  refine ⟨X, hX, ?_⟩
  obtain ⟨S, hS, hSg⟩ := stationsCycleStart_frame n X
  obtain ⟨W, hW⟩ : ∃ W, W = ({ X with stations := S } : State) := ⟨_, rfl⟩
  have wl : W.line n = Y.line n := by rw [hW, ← xl]; cases n <;> rfl
  have ws : ∀ v, W.station v = S.get v := by rw [hW]; intro v; rfl
  have we : ∀ v, W.entry v = Y.entry v := by rw [hW]; intro v; exact xe v
  have wc : ¬ parkWaits W u := by rw [hW]; exact xc
  have hZ : ∀ x, x = (if (Y.station u).line = n then st.cycleStart else st) → ((W.setAttempt n none).setEntry j
      { Y.entry j with last := o }).setStation u x = (((X.setAttempt n none).setEntry j { Y.entry j with last := o }).setStation u
      st).stationsCycleStart n := by
    intro x hx
    obtain ⟨S', hS', hSg'⟩ := stationsCycleStart_frame n (((X.setAttempt n none).setEntry j { Y.entry j with last := o }).setStation u st)
    rw [hS', setStation_eq u x _ S' (by
        intro v
        rw [hSg', station_setStation]
        by_cases hv : u = v
        · subst hv; simp only [if_true, hl]; exact hx.symm
        · have e1 : ∀ (V : State), (State.setEntry j { Y.entry j with last := o } (State.setAttempt n none V)).station v = V.station v :=
              fun V => by simp [hsa]
          simp only [hv, if_false, e1, ws, hSg])]
    rw [hW]
    cases n <;> rfl
  apply cycleHandOver_waiting n Y X _ _ _ hX
  · simp [waitsForRetry, h, Attempt.waits, Attempt.isTransaction, hs, hr]
  · rw [key X st (by rw [xl]; exact h) xc (by rw [xs]; exact g1) (by rw [xs]; exact n1), xs, m1, xe]
  · rfl
  · rw [hS, ← hW]
    have hu1 := hSg u
    rw [xs] at hu1
    by_cases hln : (Y.station u).line = n
    · rw [if_pos hln] at hu1
      rw [key W st.cycleStart (by rw [wl]; exact h) wc (by rw [ws, hu1]; exact g2) (by rw [ws, hu1]; exact n2), ws,
          hu1, m2, we, hZ _ (by simp [hln])]
    · rw [if_neg hln] at hu1
      rw [key W st (by rw [wl]; exact h) wc (by rw [ws, hu1]; exact g1) (by rw [ws, hu1]; exact n1), ws, hu1, m1, we,
          hZ _ (by simp [hln])]

/-- A waiting slot returns to PENDING at any reason but ABORT and PARK (R40, R124). -/
theorem stopTransaction_slot (X : State) (n : LineId) (x : StopReason) (a : Attempt) (u : StationIx) (o : OutcomeCode) (k : SlotIx) (m : Nat)
    (h : (X.line n).attempt = some a) (hr : a.retryOwed = true) (hu : a.station = some u) (ho : a.outcome = some o)
    (hk : a.origin = .acyclic k) (hmi : o.isMiss = true ∨ o = .collision) (hm : a.attempt = some m)
    (hle : m ≤ (X.slot k).retries.toNat) (hst : a.stop = noStop) (hx : x = .cycle ∨ x = .brk ∨ x = .quiesce) :
    X.stopTransaction n x = ((X.setAttempt n none).setSlot k { X.slot k with state := .pending }, []) := by
  rw [stopTransaction_waiting X n x a u o h hr hu ho (by rw [hk]; simp)]
  have hs : ∀ v, (X.setAttempt n none).slot v = X.slot v := fun v => by simp [setAttempt, modifyLine]
  unfold endTransaction
  simp only [hk]
  unfold acyclicEnd
  have hk' : (o.isMiss || o == .collision) = true := by rcases hmi with h | h <;> simp [h]
  rcases hx with rfl | rfl | rfl <;>
    simp [hst, noStop, StopSet.add, StopSet.isEmpty, StopSet.empty, retryDue, hk', retryBudget, hm, hs, hle, returnSlot, modifySlot]

/-- The same at a cycle start, in either order. -/
theorem cycleHandOver_slot (Y : State) (n : LineId) (a : Attempt) (u : StationIx) (o : OutcomeCode) (k : SlotIx) (m : Nat)
    (h : (Y.line n).attempt = some a) (hr : a.retryOwed = true) (hu : a.station = some u) (ho : a.outcome = some o)
    (hk : a.origin = .acyclic k) (hmi : o.isMiss = true ∨ o = .collision) (hm : a.attempt = some m)
    (hle : m ≤ (Y.slot k).retries.toNat) (hst : a.stop = noStop) :
    ∃ X, X = ({ Y with freeIndex := Y.freeIndex + 1 } : State) ∧ Y.cycleHandOver n
      = (((X.setAttempt n none).setSlot k { Y.slot k with state := .pending }).stationsCycleStart n, []) := by
  obtain ⟨X, hX⟩ : ∃ X, X = ({ Y with freeIndex := Y.freeIndex + 1 } : State) := ⟨_, rfl⟩
  have xl : X.line n = Y.line n := by rw [hX]; cases n <;> rfl
  have xs : ∀ v, X.slot v = Y.slot v := by rw [hX]; intro v; rfl
  refine ⟨X, hX, ?_⟩
  obtain ⟨S, hS, hSg⟩ := stationsCycleStart_frame n X
  obtain ⟨W, hW⟩ : ∃ W, W = ({ X with stations := S } : State) := ⟨_, rfl⟩
  have wl : W.line n = Y.line n := by rw [hW, ← xl]; cases n <;> rfl
  have ws : ∀ v, W.slot v = Y.slot v := by rw [hW]; intro v; exact xs v
  apply cycleHandOver_waiting n Y X _ _ _ hX
  · simp [waitsForRetry, h, Attempt.waits, Attempt.isTransaction, hk, hr]
  · exact stopTransaction_slot X n .cycle a u o k m (by rw [xl]; exact h) hr hu ho hk hmi hm (by rw [xs]; exact hle) hst (.inl rfl)
  · rw [xs]
  · rw [hS, ← hW, stopTransaction_slot W n .cycle a u o k m (by rw [wl]; exact h) hr hu ho hk hmi hm (by rw [ws]; exact hle) hst (.inl rfl), ws,
        stationsCycleStart_eq n _ X (by cases n <;> rfl), hS, hW]
    cases n <;> rfl

/-- An accounting notice and the station's, in either order. -/
theorem flush_pollGroups (N : Event) (notices : List Event) (Z : State) :
    answersInSomeOrder (.next (Z.flush [[Post.notice N], notices.map Post.notice ++ [], [], []])) Z [N] notices := by
  apply flush_two
  rcases notices with _ | ⟨x, l⟩ <;> simp

/-! ## RUN entry (R76, R155) -/

/-- A start of running at a line that holds no record (R71, log entry 29): the line, CYCLE_START_n, the release, then the decision. -/
theorem startCycle_running (n : LineId) (old : Word) (X : State) (hm : X.mode = .run) (ha : (X.line n).attempt = none)
    (hb : (X.line n).breakRequest = false) : X.startCycle n old .startOfRunning
      = (({ X.setLine n (handedLine (X.line n)) with edges := X.edges ||| cycleStartBit n } : State).releaseDeferred n).wakeIdle n := by
  have hst : (X.openCycle n).stopTransaction n .cycle
      = ({ X.setLine n (handedLine (X.line n)) with edges := X.edges ||| cycleStartBit n }, []) := by
    rw [openCycle_eq, stopTransaction_cycle _ _ (by
      intro a h
      have : (({ X.setLine n (openedLine (X.line n)) with edges := X.edges ||| cycleStartBit n } : State).line n).attempt = none := by
        cases n <;> exact ha
      rw [this] at h; cases h)]
    cases n <;> rfl
  unfold startCycle cycleAccounting startHandOver
  simp only []
  rw [hst]
  simp only []
  rw [settle_run _ _ _ (by simp [hm])]
  have hl : ({ X.setLine n (handedLine (X.line n)) with edges := X.edges ||| cycleStartBit n } : State).line n = handedLine (X.line n) := by
    cases n <;> rfl
  rw [hl, breakBegun_none _ (show (handedLine (X.line n)).breakRequest = false from hb)]
  cases n <;> rfl

/-- What the start of one line at RUN entry leaves. -/
theorem lineEntry_frame (n : LineId) (X : State) (hm : X.mode = .run) (ha : (X.line n).attempt = none)
    (hb : (X.line n).breakRequest = false) :
    ∃ t, X.lineEntry n = t ∧ t.events = X.events ∧ t.submitted = X.submitted ∧ t.mode = .run ∧ (∀ m, m ≠ n → t.line m = X.line m)
      ∧ (∀ u, (t.station u).line = (X.station u).line)
      ∧ (∀ k, t.slot k = if (X.line n).enable = true ∧ (X.slot k).state = .pending ∧ X.slotLine k = n
        then { X.slot k with deferred := false } else X.slot k) := by
  unfold lineEntry
  by_cases he : (X.line n).enable = true
  · rw [if_pos he]
    set Y := X.leaveOff n with hY
    have hYe : ∃ l, Y = X.setLine n l ∧ l.attempt = none ∧ l.breakRequest = false ∧ l.engine ≠ .idle := by
      rw [hY]; unfold leaveOff
      split
      · exact ⟨Line.startBreak (X.line n), rfl, ha, rfl, by simp [Line.startBreak]⟩
      · exact ⟨{ X.line n with engine := .turnaround }, rfl, ha, hb, by simp⟩
    obtain ⟨l, hl, h1, h2, h3⟩ := hYe
    have hYl : Y.line n = l := by rw [hl]; simp
    set Z : State := { Y.setLine n (handedLine (Y.line n)) with edges := Y.edges ||| cycleStartBit n } with hZ
    have hZl : Z.line n = handedLine l := by rw [hZ, hYl]; cases n <;> rfl
    have hZm : Z.mode = .run := by rw [hZ, hl]; simp [hm]
    have hsc : Y.startCycle n 0 .startOfRunning = Z.releaseDeferred n := by
      rw [startCycle_running n 0 Y (by rw [hl]; simp [hm]) (by rw [hYl]; exact h1) (by rw [hYl]; exact h2)]
      unfold wakeIdle
      rw [if_neg]
      rintro ⟨_, hh, _⟩
      have hz : ((Z.releaseDeferred n).line n) = Z.line n := by cases n <;> rfl
      rw [hz, hZl] at hh
      exact h3 hh
    rw [hsc]
    have hZsl : ∀ k, Z.slot k = X.slot k := by intro k; rw [hZ, hl]; cases n <;> rfl
    have hZst : ∀ u, (Z.station u).line = (X.station u).line := by intro u; rw [hZ, hl]; cases n <;> rfl
    refine ⟨_, rfl, ?_, ?_, ?_, ?_, ?_, ?_⟩
    · show Z.events = _; rw [hZ, hl]; simp
    · show Z.submitted = _; rw [hZ, hl]; simp
    · exact hZm
    · intro m hmn; show Z.line m = _; rw [hZ, hl]; cases n <;> cases m <;> first | rfl | exact absurd rfl hmn
    · intro u; exact hZst u
    · intro k
      rw [releaseDeferred_slot]
      have : Z.slotLine k = X.slotLine k := by unfold slotLine; rw [hZsl, hZst]
      rw [this, hZsl]
      simp [he]
  · rw [if_neg he]
    refine ⟨_, rfl, rfl, rfl, hm, fun _ _ => rfl, fun _ => rfl, fun k => ?_⟩
    simp [he]

theorem runEntry_frame (st : Station) : st.runEntry.line = st.line ∧ st.runEntry.enabled = st.enabled
    ∧ (st.health ≠ .parked → st.runEntry.health = .online ∧ st.runEntry.missCount = 0)
    ∧ (st.health = .parked → st.runEntry.health = .parked) := by
  unfold Station.runEntry
  simp only []
  split
  · rename_i h; exact ⟨rfl, rfl, fun hn => absurd h hn, fun _ => h⟩
  · rename_i h; exact ⟨rfl, rfl, fun _ => ⟨rfl, rfl⟩, fun hh => absurd hh h⟩

/-- Notices of different stations, in some order of all of them. -/
theorem order_of_notices (L : List StationIx) (f : StationIx → Event) (hf : ∀ u, (f u).station = u) (ps : List Post)
    (h : ps.Perm (L.map fun u => Post.notice (f u))) :
    ∃ order : List StationIx, order.Perm L ∧ ps = (order.map f).map Post.notice := by
  let g : Post → StationIx := fun p => match p with | .notice e => e.station | .completion _ _ => 0
  refine ⟨ps.map g, ?_, ?_⟩
  · have := h.map g
    rw [List.map_map] at this
    have hid : (g ∘ fun u => Post.notice (f u)) = id := by funext u; exact hf u
    rw [hid, List.map_id] at this
    exact this
  · rw [List.map_map, List.map_map]
    conv_lhs => rw [← List.map_id ps]
    apply List.map_congr_left
    intro p hp
    have := h.mem_iff.1 hp
    simp at this
    obtain ⟨u, _, rfl⟩ := this
    show _ = Post.notice (f (f u).station)
    rw [hf]; rfl

theorem healthNotices_runEntry (s : State) (L : List StationIx) :
    (L.map fun t => healthNotice t (s.station t) (s.station t).runEntry).flatten
      = (L.filter fun u => (s.station u).health = .degraded ∨ (s.station u).health = .offline).map fun u =>
        Post.notice (stationStateNotice u (s.station u).health (s.station u).runEntry) := by
  induction L with
  | nil => rfl
  | cons u L ih =>
    simp only [List.map_cons, List.flatten_cons, ih, List.filter_cons]
    have hr := runEntry_frame (s.station u)
    unfold healthNotice
    cases hh : (s.station u).health
    · have := hr.2.2.1 (by simp [hh]); simp [this.1]
    · have := hr.2.2.1 (by simp [hh]); simp [this.1, hh]
    · have := hr.2.2.1 (by simp [hh]); simp [this.1, hh]
    · have := hr.2.2.2 hh; simp [this]

end Sys2Proof.Machine
end

