-- ==== Sys2Proof/Laws/Stops.lean ====
section
/-!
SUPPORT. Transactions that end between attempts, the miss that reaches MISS_LIMIT, commands, QUIESCE and the return to RUN, and the expiry
of a cycle timer, each said once for the statements.
-/

namespace Sys2Proof.Machine

open State

/-! ## Posts and PENDING slots -/

theorem mem_pendingOf (s : State) (u : StationIx) (k : SlotIx) : k ∈ s.pendingOf u ↔ k ∈ s.submitted ∧ (s.slot k).state = .pending ∧
    (s.slot k).station = u := by
  unfold pendingOf pendingList
  simp
  intro _; exact and_comm

theorem completes_append (a b : List Post) (k : SlotIx) : completes (a ++ b) k ↔ completes a k ∨ completes b k := by
  unfold completes; simp only [List.mem_append, exists_or]

theorem completes_notice (e : Event) (k : SlotIx) : completes [Post.notice e] k ↔ False := by
  unfold completes; simp

theorem completes_completion (e : Event) (j k : SlotIx) : completes [Post.completion j e] k ↔ k = j := by
  unfold completes; simp

/-- What the completion of a station's PENDING slots does (R125, R131). -/
theorem finishPendingOf_spec (X : State) (u : StationIx) (F : State × List Post) (hF : F = X.finishPendingOf u .stationOffline) :
   (∃ sl sub, F.1 = { X with slots := sl, submitted := sub }) ∧ (F.1.submitted = X.submitted.filter (fun k => k ∉ X.pendingOf u))
   ∧ (∀ k, F.1.slot k = if k ∈ X.pendingOf u then { X.slot k with outcome := .stationOffline, replyLen := 0, deferred := false } else
       X.slot k)
   ∧ (∀ k, completes F.2 k ↔ k ∈ X.pendingOf u) ∧ (X.pendingOf u = [] → F.2 = []) := by
  obtain ⟨sl, sub, hff⟩ := finishSlots_frame .stationOffline (X.pendingOf u) X
  obtain ⟨f1, f2, f3⟩ := finishSlots_spec .stationOffline (X.pendingOf u) X
  have hF' : F = X.finishSlots .stationOffline (X.pendingOf u) := hF
  rw [← hF'] at hff f1 f2 f3
  refine ⟨⟨sl, sub, hff⟩, f2, f1, ?_, ?_⟩
  · intro k
    unfold completes
    rw [f3]
    simp only [List.mem_map]
    constructor
    · rintro ⟨r, k', hk', h⟩
      injection h with h1 h2
      rw [← h1]; exact hk'
    · intro h; exact ⟨_, k, h, rfl⟩
  · intro h; rw [f3, h]; rfl

/-! ## A final miss that reaches MISS_LIMIT (R79, R80, R131) -/

/-- What the end of a transaction of station u with the miss o that reaches MISS_LIMIT makes of Y: W with the posts gs. `own` is the slot
of a READ or WRITE with its outcome, `ent` the entry of a POLL. -/
def OffFacts (Y : State) (u : StationIx) (o : OutcomeCode) (own : Option (SlotIx × OutcomeCode)) (ent : Option EntryIx) (W : State)
    (gs : Groups) : Prop :=
  (∀ m, W.line m = Y.line m) ∧ W.mode = Y.mode ∧ W.edges.getLsbD 14 = true ∧ W.payload = Y.payload
  ∧ (∀ v, W.station v = if u = v then goneOffline o (Y.station u) else Y.station v)
  ∧ (∀ e, W.entry e = if ent = some e then { Y.entry e with last := o } else Y.entry e)
  ∧ W.events = Y.events
  ∧ (∀ k, k ∈ W.submitted → k ∈ Y.submitted ∧ k ∉ Y.pendingOf u ∧ ∀ x, own ≠ some (k, x))
  ∧ (∀ k, k ∈ Y.pendingOf u → (∀ x, own ≠ some (k, x)) → completes gs.flatten k ∧ (W.slot k).outcome = .stationOffline ∧
      (W.slot k).replyLen = 0)
  ∧ (∀ k x, own = some (k, x) → completes gs.flatten k ∧ (W.slot k).outcome = x ∧ (W.slot k).replyLen = 0)
  ∧ (∀ k, k ∉ Y.pendingOf u → (∀ x, own ≠ some (k, x)) → ¬ completes gs.flatten k ∧ W.slot k = Y.slot k)
  ∧ (Y.pendingOf u = [] → own = none → gs = [[.notice (stationStateNotice u (Y.station u).health (goneOffline o (Y.station u)))], [], []])

theorem healthNotice_offline (Y : State) (u : StationIx) (o : OutcomeCode) (hl : reachesLimit (Y.station u)) :
    healthNotice u (Y.station u) (goneOffline o (Y.station u)) ++ reachableNotice u (Y.station u) (goneOffline o (Y.station u))
      = [.notice (stationStateNotice u (Y.station u).health (goneOffline o (Y.station u)))] := by
  rcases hl.1 with h | h <;> simp [healthNotice, reachableNotice, goneOffline, h]

/-- Such an end of a POLL or a probe. -/
theorem pollEnd_off (Y : State) (j : EntryIx) (u : StationIx) (p : Bool) (a : Attempt) (o : OutcomeCode) (ho : o.isMiss = true)
    (hl : reachesLimit (Y.station u)) (hc : ¬ parkWaits Y u) :
   ∃ W gs, Y.pollEnd j u p a o = (W, gs) ∧ OffFacts Y u o none (some j) W gs := by
  have hok : o ≠ .ok := by rintro rfl; simp [OutcomeCode.isMiss] at ho
  obtain ⟨F, hF⟩ : ∃ F, F = (((Y.setEntry j { Y.entry j with last := o }).setStation u (goneOffline o
      (Y.station u))).raise .stationDown).finishPendingOf u .stationOffline := ⟨_, rfl⟩
  obtain ⟨⟨sl, sub, hff⟩, hsub, hslot, hcomp, hnil⟩ := finishPendingOf_spec _ u F hF
  have hpe : (((Y.setEntry j { Y.entry j with last := o }).setStation u (goneOffline o (Y.station u))).raise .stationDown).pendingOf u
      = Y.pendingOf u := rfl
  rw [hpe] at hsub hslot hcomp hnil
  have hon : (Y.station u).health ≠ .offline := by rcases hl.1 with h | h <;> simp [h]
  have hfin : Y.pollEnd j u p a o = (F.1, [[.notice (stationStateNotice u (Y.station u).health (goneOffline o
      (Y.station u)))] ++ F.2 ++ [], [], []]) := by
    unfold pollEnd
    have e1 : (Y.modifyEntry j fun en => { en with last := o }) = Y.setEntry j { Y.entry j with last := o } := rfl
    rw [e1]
    simp only []
    rw [stationOutcome_offline (Y.setEntry j { Y.entry j with last := o }) u o p true (goneOffline o (Y.station u)) (by
      simpa using applyHealth_limit o p true _ ho (by simpa using hl)) rfl (by simpa using hon), ← hF]
    simp only [hok, if_false]
    rw [parkIfWaiting_none _ _ (by rw [hff]; exact hc)]
    have : healthNotice u ((Y.setEntry j { Y.entry j with last := o }).station u) (goneOffline o (Y.station u)) ++ reachableNotice u
        ((Y.setEntry j { Y.entry j with last := o }).station u) (goneOffline o (Y.station u)) = [.notice (stationStateNotice u
        (Y.station u).health (goneOffline o (Y.station u)))] := by
      simpa using healthNotice_offline Y u o hl
    rw [this]
  refine ⟨_, _, hfin, ?_⟩
  have hcg : ∀ k, completes ([[Post.notice (stationStateNotice u (Y.station u).health (goneOffline o (Y.station u)))] ++ F.2 ++ [], [],
      []] : Groups).flatten k ↔ k ∈ Y.pendingOf u := by
    intro k; rw [← hcomp]; unfold completes; simp
  refine ⟨?_, ?_, ?_, ?_, ?_, ?_, ?_, ?_, ?_, ?_, ?_, ?_⟩
  · intro m; rw [hff]; cases m <;> rfl
  · rw [hff]; rfl
  · rw [hff]; show (Y.edges ||| _).getLsbD 14 = true; rw [BitVec.getLsbD_or]; simp; right; decide
  · rw [hff]; rfl
  · intro v; rw [hff]; exact station_setStation u _ (Y.setEntry j _) v
  · intro e; rw [hff]; refine (entry_setEntry j _ Y e).trans ?_; simp; split <;> simp_all
  · rw [hff]; rfl
  · intro k hk; rw [hsub] at hk; simp at hk; exact ⟨hk.1, by simpa using hk.2, by simp⟩
  · intro k hk _; refine ⟨(hcg k).2 hk, ?_, ?_⟩ <;> rw [hslot, if_pos hk]
  · intro k x h; cases h
  · intro k hk _; refine ⟨fun h => hk ((hcg k).1 h), ?_⟩; rw [hslot, if_neg hk]; rfl
  · intro h _; rw [hnil h]; rfl

/-- It clears no flag. -/
theorem pollEnd_off_edges (Y : State) (j : EntryIx) (u : StationIx) (p : Bool) (a : Attempt) (o : OutcomeCode) (ho : o.isMiss = true)
    (hl : reachesLimit (Y.station u)) (hc : ¬ parkWaits Y u) (i : Nat) (hi : Y.edges.getLsbD i = true) :
   (Y.pollEnd j u p a o).1.edges.getLsbD i = true := by
  have hok : o ≠ .ok := by rintro rfl; simp [OutcomeCode.isMiss] at ho
  obtain ⟨F, hF⟩ : ∃ F, F = (((Y.setEntry j { Y.entry j with last := o }).setStation u (goneOffline o
      (Y.station u))).raise .stationDown).finishPendingOf u .stationOffline := ⟨_, rfl⟩
  obtain ⟨⟨sl, sub, hff⟩, hsub, hslot, hcomp, hnil⟩ := finishPendingOf_spec _ u F hF
  have hon : (Y.station u).health ≠ .offline := by rcases hl.1 with h | h <;> simp [h]
  unfold pollEnd
  have e1 : (Y.modifyEntry j fun en => { en with last := o }) = Y.setEntry j { Y.entry j with last := o } := rfl
  rw [e1]
  simp only []
  rw [stationOutcome_offline (Y.setEntry j { Y.entry j with last := o }) u o p true (goneOffline o (Y.station u)) (by
      simpa using applyHealth_limit o p true _ ho (by simpa using hl)) rfl (by simpa using hon), ← hF]
  simp only [hok, if_false]
  rw [parkIfWaiting_none _ _ (by rw [hff]; exact hc)]
  rw [hff]
  show (Y.edges ||| _).getLsbD i = true
  rw [BitVec.getLsbD_or, hi]; rfl

/-- Such an end of a READ or WRITE that completes its slot with oc. -/
theorem slotEnd_off (Y : State) (k : SlotIx) (u : StationIx) (o oc : OutcomeCode) (ho : o.isMiss = true) (hl : reachesLimit
    (Y.station u)) (hc : ¬ parkWaits Y u)
    (hnp : k ∉ Y.pendingOf u)
    (r : State → State × List Post) (hr : ∀ Z, ∃ g, r Z = ((State.finishSlot k oc 0 (Z.modifySlot k g)).1, [(State.finishSlot k oc 0
        (Z.modifySlot k g)).2])) :
   ∃ W gs, Y.slotEnd u o r = (W, gs) ∧ OffFacts Y u o (some (k, oc)) none W gs := by
  obtain ⟨F, hF⟩ : ∃ F, F = ((Y.setStation u (goneOffline o (Y.station u))).raise .stationDown).finishPendingOf u .stationOffline := ⟨_,
      rfl⟩
  obtain ⟨⟨sl, sub, hff⟩, hsub, hslot, hcomp, hnil⟩ := finishPendingOf_spec _ u F hF
  have hpe : ((Y.setStation u (goneOffline o (Y.station u))).raise .stationDown).pendingOf u = Y.pendingOf u := rfl
  rw [hpe] at hsub hslot hcomp hnil
  have hon : (Y.station u).health ≠ .offline := by rcases hl.1 with h | h <;> simp [h]
  obtain ⟨g, hg⟩ := hr F.1
  have hfin : Y.slotEnd u o r = ((State.finishSlot k oc 0 (F.1.modifySlot k g)).1, [[.notice (stationStateNotice u (Y.station u).health
      (goneOffline o (Y.station u)))] ++ F.2 ++ [], [(State.finishSlot k oc 0 (F.1.modifySlot k g)).2] ++ []]) := by
    unfold slotEnd
    rw [stationOutcome_offline Y u o false false (goneOffline o (Y.station u)) (applyHealth_limit o false false _ ho hl) rfl hon, ← hF]
    simp only []
    rw [hg]
    simp only []
    rw [parkIfWaiting_none _ _ (by rw [finishSlot_eq, hff]; exact hc), healthNotice_offline Y u o hl]
  refine ⟨_, _, hfin, ?_⟩
  have hfs : ∀ j, (State.finishSlot k oc 0 (F.1.modifySlot k g)).1.slot j = if k
      = j then { g (F.1.slot k) with outcome := oc, replyLen := 0, deferred := false } else F.1.slot j := by
    intro j
    refine (slot_setSlot k _ (F.1.modifySlot k g) j).trans ?_
    simp [modifySlot]; split <;> simp_all
  have hcg : ∀ j, completes ([[Post.notice (stationStateNotice u (Y.station u).health (goneOffline o (Y.station u)))] ++ F.2 ++ [],
      [(State.finishSlot k oc 0 (F.1.modifySlot k g)).2] ++ []] : Groups).flatten j ↔ j ∈ Y.pendingOf u ∨ j = k := by
    intro j
    rw [← hcomp, finishSlot_eq]
    simp only [List.flatten_cons, List.flatten_nil, List.append_nil, completes_append, completes_notice, completes_completion, false_or]
  have hown : ∀ (j : SlotIx), (∀ x, some (k, oc) ≠ some (j, x)) ↔ k ≠ j := by
    intro j; constructor
    · rintro h rfl; exact h oc rfl
    · intro h x hx; simp at hx; exact h hx.1
  have hks : ∀ (Z : State), (State.finishSlot k oc 0 (Z.modifySlot k g)).1.submitted = Z.submitted.filter (· ≠ k) := fun Z => rfl
  refine ⟨?_, ?_, ?_, ?_, ?_, ?_, ?_, ?_, ?_, ?_, ?_, ?_⟩
  · intro m; rw [finishSlot_eq, hff]; cases m <;> rfl
  · rw [finishSlot_eq, hff]; rfl
  · have he : (State.finishSlot k oc 0 (F.1.modifySlot k g)).1.edges = Y.edges ||| (Source.stationDown.mask &&& edgeMask) :=
      by rw [finishSlot_eq, hff]; rfl
    rw [he]; show (Y.edges ||| _).getLsbD 14 = true; rw [BitVec.getLsbD_or]; simp; right; decide
  · rw [finishSlot_eq, hff]; rfl
  · intro v; rw [finishSlot_eq, hff]; exact station_setStation u _ Y v
  · intro e; rw [finishSlot_eq, hff]; simp; rfl
  · rw [finishSlot_eq, hff]; rfl
  · intro j hj
    rw [hks, hsub] at hj
    obtain ⟨h1, h2⟩ := List.mem_filter.1 hj
    obtain ⟨h3, h4⟩ := List.mem_filter.1 h1
    exact ⟨h3, by simpa using h4, (hown j).2 (Ne.symm (by simpa using h2))⟩
  · intro j hj hx; have hkj := (hown j).1 hx; refine ⟨(hcg j).2 (.inl hj), ?_, ?_⟩ <;> rw [hfs, if_neg hkj, hslot, if_pos hj]
  · intro j x h; obtain ⟨rfl, rfl⟩ : k = j ∧ oc = x := by simpa using h
    refine ⟨(hcg k).2 (.inr rfl), ?_, ?_⟩ <;> rw [hfs, if_pos rfl]
  · intro j hj hx; have hkj := (hown j).1 hx; refine ⟨fun h => ?_, ?_⟩
    · rcases (hcg j).1 h with h | h
      · exact hj h
      · exact hkj h.symm
    · rw [hfs, if_neg hkj, hslot, if_neg hj]; rfl
  · intro h h2; cases h2

/-- The same from the end of the attempt (R125, R129). -/
theorem acyclicEnd_off (Y s : State) (k : SlotIx) (u : StationIx) (a : Attempt) (m : Nat) (o : OutcomeCode) (sl : Slot) (ho : o.isMiss
    = true) (hl : reachesLimit (Y.station u)) (hc : ¬ parkWaits Y u)
    (hnp : k ∉ Y.pendingOf u) (htk : slotTakes s k a m o 0 sl) (hak : a.origin = .acyclic k) (ham : a.attempt = some m)
    (hz : (Y.slot k).retries = (s.slot k).retries) :
   ∃ W gs, Y.acyclicEnd k u a o = (W, gs) ∧ OffFacts Y u o (some (k, sl.outcome)) none W gs := by
  have hnb : o ≠ .busy := by rintro rfl; simp [OutcomeCode.isMiss] at ho
  have hok : ¬ (o = .ok ∨ o = .refused) := by rintro (rfl | rfl) <;> simp [OutcomeCode.isMiss] at ho
  have hok1 : o ≠ .ok := fun h => hok (.inl h)
  have hrd := slotTakes_noRetry s Y k a m o 0 sl htk hak ham hz
  unfold acyclicEnd
  simp only []
  rcases htk with ⟨hab, hsl⟩ | ⟨hab, hsl, _⟩
  · rw [if_pos hab]
    have hoc : sl.outcome = .aborted := by rw [hsl]; simp [hok]
    rw [hoc]
    apply slotEnd_off Y k u o .aborted ho hl hc hnp
    intro Z
    refine ⟨fun sl => { sl with abortLate := decide (o = .ok ∨ o = .refused) }, ?_⟩
    unfold resolveAbort
    have hao : abortedOutcome o = .aborted := by unfold abortedOutcome; rw [if_neg hok]
    have hfr : finalReplyLen o 0 = 0 := by unfold finalReplyLen; rw [if_neg hok1]
    have hfr2 : ∀ x, finalReplyLen o x = 0 := by intro x; unfold finalReplyLen; rw [if_neg hok1]
    simp only [hnb, if_false, hao, hfr2]
  · rw [if_neg (by simp [hab])]
    have hnr : (!a.stop.park && !a.stop.isEmpty && Y.retryDue a o) = false := by
      rcases hrd with h | h | h
      · rw [hab] at h; cases h
      · simp [h]
      · simp [h]
    rw [hnr]
    simp only [Bool.false_eq_true, if_false]
    have hoc : sl.outcome = o := by rw [hsl]
    rw [hoc]
    apply slotEnd_off Y k u o o ho hl hc hnp
    intro Z
    refine ⟨id, ?_⟩
    unfold completeSlot
    have : Z.modifySlot k id = Z := setSlot_self k Z
    simp [hnb, finalReplyLen, hok1, this]

/-- The same with ABORT in the STOP set (R129). -/
theorem acyclicEnd_abort_off (Y : State) (k : SlotIx) (u : StationIx) (a : Attempt) (o : OutcomeCode) (ho : o.isMiss = true)
    (hl : reachesLimit (Y.station u)) (hc : ¬ parkWaits Y u)
    (hnp : k ∉ Y.pendingOf u) (hab : a.stop.abort = true) :
   ∃ W gs, Y.acyclicEnd k u a o = (W, gs) ∧ OffFacts Y u o (some (k, .aborted)) none W gs := by
  have hnb : o ≠ .busy := by rintro rfl; simp [OutcomeCode.isMiss] at ho
  have hok : ¬ (o = .ok ∨ o = .refused) := by rintro (rfl | rfl) <;> simp [OutcomeCode.isMiss] at ho
  have hok1 : o ≠ .ok := fun h => hok (.inl h)
  unfold acyclicEnd
  simp only []
  rw [if_pos hab]
  apply slotEnd_off Y k u o .aborted ho hl hc hnp
  intro Z
  refine ⟨fun sl => { sl with abortLate := decide (o = .ok ∨ o = .refused) }, ?_⟩
  unfold resolveAbort
  have hao : abortedOutcome o = .aborted := by unfold abortedOutcome; rw [if_neg hok]
  have hfr2 : ∀ x, finalReplyLen o x = 0 := by intro x; unfold finalReplyLen; rw [if_neg hok1]
  simp only [hnb, if_false, hao, hfr2]

/-- What the flush leaves, in the statements' words, from the state s in which the step began. -/
theorem offFacts_flush (s Y W T : State) (u : StationIx) (o : OutcomeCode) (own : Option (SlotIx × OutcomeCode)) (ent : Option EntryIx)
    (gs gs' : Groups) (hO : OffFacts Y u o own ent W gs)
   (t2 : ∀ v, T.station v = W.station v) (t3 : ∀ v, T.slot v = W.slot v) (t4 : ∀ v, T.entry v = W.entry v) (t6 : T.submitted
       = W.submitted)
   (t8 : W.edges.getLsbD 14 = true → T.edges.getLsbD 14 = true)
   (hcg : ∀ k, completes gs.flatten k → completes gs'.flatten k)
   (y4 : ∀ v, Y.station v = s.station v) (y5 : ∀ v, Y.entry v = s.entry v) (y7 : ∀ k, k ∈ Y.pendingOf u ↔ k ∈ s.pendingOf u)
   (y11 : ∀ k x, own = some (k, x) → k ∉ s.pendingOf u) :
   (T.flush gs').station u = goneOffline o (s.station u) ∧ (∀ v, v ≠ u → (T.flush gs').station v = s.station v) ∧ (∀ n,
       (T.flush gs').line n = T.line n)
   ∧ (T.flush gs').edges.getLsbD 14 = true ∧ (∀ k, k ∈ s.submitted → (s.slot k).state = .pending → (s.slot k).station = u →
      completedWith (T.flush gs') k .stationOffline)
   ∧ (∀ k x, own = some (k, x) → completedWith (T.flush gs') k x) ∧ (∀ e, (T.flush gs').entry e = if ent
       = some e then { s.entry e with last := o } else s.entry e) := by
  obtain ⟨a1, a2, a3, a4, a5, a6, a7, a8, a9, a10, a11, a12⟩ := hO
  obtain ⟨evf, lostf, edf, slf, owf, dnf, i, hfl⟩ := flush_frame gs' T
  have u1 : ∀ n, (T.flush gs').line n = T.line n := by rw [hfl]; intro n; cases n <;> rfl
  have u2 : ∀ v, (T.flush gs').station v = T.station v := by rw [hfl]; intro v; rfl
  have u6 : ∀ v, (T.flush gs').entry v = T.entry v := by rw [hfl]; intro v; rfl
  refine ⟨?_, ?_, u1, flush_edges _ _ _ (t8 a3), ?_, ?_, ?_⟩
  · rw [u2, t2, a5, if_pos rfl, y4]
  · intro v hv; rw [u2, t2, a5, if_neg (Ne.symm hv), y4]
  · intro k hk hkp hks
    have hm1 := (mem_pendingOf s u k).2 ⟨hk, hkp, hks⟩
    obtain ⟨b1, b2, b3⟩ := a9 k ((y7 k).2 hm1) (fun x hx => y11 k x hx hm1)
    apply flush_completedWith _ _ _ _ (hcg k b1)
    · rw [t6]; intro hh; exact (a8 k hh).2.1 ((y7 k).2 hm1)
    · rw [t3]; exact b2
    · rw [t3]; exact b3
  · intro k x ho1
    obtain ⟨b1, b2, b3⟩ := a10 k _ ho1
    apply flush_completedWith _ _ _ _ (hcg k b1)
    · rw [t6]; intro hh; exact (a8 k hh).2.2 _ ho1
    · rw [t3]; exact b2
    · rw [t3]; exact b3
  · intro j; rw [u6, t4, a6, y5]

/-! ## The rest of a step -/

/-- At the end of a step a waiting break starts, and QUIESCED may be reached (R48, R157); no completion is posted. -/
theorem settle_shape (n : LineId) (X : State) (gs : Groups) : ∃ md pr ed g, settle n (X, gs) =
    ({ X.setLine n (breakBegun (X.line n)) with mode := md, pendingRequest := pr, edges := ed } : State).flush (gs ++ [g])
    ∧ (X.mode ≠ .quiescing → md = X.mode ∧ g = []) ∧ (∀ i, X.edges.getLsbD i = true → ed.getLsbD i = true)
    ∧ ∀ k, ¬ completes g k := by
  unfold settle
  simp only [startWaitingBreak_eq]
  unfold reachQuiesced
  split
  · rename_i h
    refine ⟨.quiesced, none, X.edges ||| (Source.modeDone.mask &&& edgeMask), [.notice (modeNotice .quiesced 0 0)], ?_, ?_, ?_, ?_⟩
    · simp only [modeOccasion, raise]
      simp
    · intro h2; simp at h; exact absurd h.1 h2
    · intro i hi; rw [BitVec.getLsbD_or, hi]; rfl
    · rintro k ⟨r, hr⟩; simp at hr
  · refine ⟨X.mode, X.pendingRequest, X.edges, [], ?_, fun _ => ⟨rfl, rfl⟩, fun _ h => h, ?_⟩
    · simp; cases n <;> rfl
    · rintro k ⟨r, hr⟩; simp at hr

theorem reachQuiesced_shape (X : State) : ∃ md pr ed g, X.reachQuiesced = ({ X with mode := md, pendingRequest := pr, edges := ed }, g)
    ∧ (∀ i, X.edges.getLsbD i = true → ed.getLsbD i = true)
    ∧ ∀ k, ¬ completes g k := by
  unfold reachQuiesced
  split
  · refine ⟨.quiesced, none, X.edges ||| (Source.modeDone.mask &&& edgeMask), [.notice (modeNotice .quiesced 0 0)], ?_, ?_, ?_⟩
    · simp only [modeOccasion, raise]
    · intro i hi; rw [BitVec.getLsbD_or, hi]; rfl
    · rintro k ⟨r, hr⟩; simp at hr
  · exact ⟨X.mode, X.pendingRequest, X.edges, [], rfl, fun _ h => h, by rintro k ⟨r, hr⟩; simp at hr⟩

/-- Every enabled line at rest (R157). -/
theorem reachQuiesced_rest (T : State) (h : T.mode = .quiescing) (hall : ∀ n, (T.line n).enable = true → (T.line n).engine = .hold ∨
    (T.line n).faulted = true) :
   T.reachQuiesced = (quiescedFrom T, [.notice (modeRecord 4 0 0)]) := by
  have hal : T.allAtRest = true := by
    have h0 := hall .zero
    have h1 := hall .one
    simp only [line] at h0 h1
    unfold allAtRest Line.atRest
    cases he0 : T.line0.enable <;> cases he1 : T.line1.enable <;> simp [he0, he1] at h0 h1 ⊢ <;> tauto
  unfold reachQuiesced
  rw [if_pos ⟨h, hal⟩]
  rfl

theorem reachQuiesced_active (T : State) (n : LineId) (h1 : (T.line n).enable = true) (h2 : (T.line n).engine ≠ .hold) (h3 :
    (T.line n).faulted = false) : T.reachQuiesced = (T, []) := by
  unfold reachQuiesced
  rw [allAtRest_false T n h1 h2 h3]
  simp

/-- The MODE notice of a mode change (R152). -/
theorem modeOccasion_flush (X : State) (v : Mode) (h : X.mode = v) : (X.modeOccasion 0 0).1.flush [[(X.modeOccasion 0 0).2]] =
    ({ X with edges := X.edges ||| 0x0020 } : State).offerNotice (modeRecord v.code.toNat 0 0) := by
  subst h
  unfold modeOccasion
  rw [modeNotice_eq]
  rfl

/-! ## A transaction that a STOP reason ends between attempts (R39, R41) -/

theorem lastTakes_frame {s u o poll st notices} (h : lastTakes s u o poll st notices) : notices.length ≤ 1 ∧ st.line = (s.station u).line
    ∧ st.image = (s.station u).image
    ∧ st.hold = (s.station u).hold ∧ st.notify = (s.station u).notify ∧ st.imageSeq = (s.station u).imageSeq := by
  obtain ⟨x, h, rfl⟩ := h
  have h' := stationTakes_frame h
  exact h'

/-- A POLL ends with its last outcome. -/
theorem stopTransaction_poll (s X : State) (n : LineId) (x : StopReason) (a : Attempt) (j : EntryIx) (u : StationIx) (o : OutcomeCode)
    (st : Station) (notices : List Event)
    (h : (X.line n).attempt = some a) (hr : a.retryOwed = true) (hu : a.station = some u) (ho : a.outcome = some o)
    (hs : a.origin = .cyclic j) (hmi : o.isMiss = true ∨ o = .collision) (hX : X.station u = s.station u)
    (hpo : s.pendingOf u = [] → X.pendingOf u = []) (hc : X.cmdState = s.cmdState ∧ X.cmd = s.cmd ∧ X.args = s.args)
    (ht : lastTakes s u o true st notices) (hpk : parkClear s u st) :
    X.stopTransaction n x = (parkFinished s u (stationLeft u st ((X.setAttempt n none).setEntry j { X.entry j with last := o })),
      [(notices ++ parkRecords s u st.health).map Post.notice, [], []]) := by
  have hok : o ≠ .ok := by rcases hmi with h | h <;> rintro rfl <;> simp [OutcomeCode.isMiss] at h
  rw [stopTransaction_waiting X n x a u o h hr hu ho (by rw [hs]; simp)]
  simp only [endTransaction, hs]
  have hen : (X.setAttempt n none).entry j = X.entry j := setLine_entry _ _ _ _
  rw [pollEnd_of (X.setAttempt n none) s j u false _ o st notices 0 (by
      apply stationOutcome_last s _ u o false true st notices ht
      · simpa [setAttempt, modifyLine] using hX
      · exact .inl rfl
      · intro h; rw [← hpo h]
        exact pendingOf_congr _ _ u (by simp [setAttempt, modifyLine]) (by simp [setAttempt, modifyLine])) (lastTakes_frame ht).2 (fun h
            => absurd h hok) (by simpa [setAttempt, modifyLine] using hc)
      (by intro h; rw [← hpo h]; exact pendingOf_congr _ _ u (by simp [setAttempt, modifyLine]) (by simp [setAttempt, modifyLine])) hpk]
  simp only [hok, if_false, hen]
  have : imageRecords s u o 0 = [] := by simp [imageRecords, hok]
  rw [this]; rfl

/-- ABORT and PARK complete the slot. -/
theorem stopTransaction_slotCompletes (s X : State) (n : LineId) (x : StopReason) (a : Attempt) (k : SlotIx) (u : StationIx)
    (o : OutcomeCode) (st : Station) (notices : List Event) (sl : Slot)
    (h : (X.line n).attempt = some a) (hr : a.retryOwed = true) (hu : a.station = some u) (ho : a.outcome = some o)
    (hs : a.origin = .acyclic k) (hmi : o.isMiss = true ∨ o = .collision) (hX : X.station u = s.station u) (hXs : ∀ v, X.station v
        = s.station v)
    (hpo : s.pendingOf u = [] → X.pendingOf u = []) (hc : X.cmdState = s.cmdState ∧ X.cmd = s.cmd ∧ X.args = s.args)
    (ht : lastTakes s u o false st notices) (hpk : parkClear s u st)
    (hxk : (X.slot k).station = (s.slot k).station)
    (hcase : x = .abort ∧ sl = { X.slot k with outcome := .aborted, abortLate := false, replyLen := 0, deferred := false }
      ∨ x = .park ∧ a.stop.abort = false ∧ sl = { X.slot k with outcome := o, replyLen := 0, deferred := false }) :
    X.stopTransaction n x = (parkFinished s u
        { (stationLeft u st (X.setAttempt n none)).setSlot k sl with submitted := X.submitted.filter (· ≠ k) },
      [(notices ++ parkRecords s u st.health).map Post.notice, [Post.completion k (requestRecord s k sl)] ++ []]) := by
  have hok : ¬ (o = .ok ∨ o = .refused) := by rcases hmi with h | h <;> (rintro (rfl | rfl) <;> simp [OutcomeCode.isMiss] at h)
  have hok1 : o ≠ .ok := fun h => hok (.inl h)
  have hnb : o ≠ .busy := by rcases hmi with h | h <;> rintro rfl <;> simp [OutcomeCode.isMiss] at h
  have hfr : ∀ x, finalReplyLen o x = 0 := by intro x; unfold finalReplyLen; rw [if_neg hok1]
  have hao : abortedOutcome o = .aborted := by unfold abortedOutcome; rw [if_neg hok]
  rw [stopTransaction_waiting X n x a u o h hr hu ho (by rw [hs]; simp)]
  simp only [endTransaction, hs]
  obtain ⟨Y, hY⟩ : ∃ Y, Y = X.setAttempt n none := ⟨_, rfl⟩
  rw [← hY]
  have ysl : ∀ v, Y.slot v = X.slot v := fun v => by rw [hY]; simp [setAttempt, modifyLine]
  have yst : ∀ v, Y.station v = X.station v := fun v => by rw [hY]; simp [setAttempt, modifyLine]
  have ysu : Y.submitted = X.submitted := by rw [hY]; simp [setAttempt, modifyLine]
  have yc : Y.cmdState = s.cmdState ∧ Y.cmd = s.cmd ∧ Y.args = s.args := by rw [hY]; simpa [setAttempt, modifyLine] using hc
  have ypo : s.pendingOf u = [] → Y.pendingOf u = [] := by
    intro h; rw [← hpo h]; exact pendingOf_congr _ _ u ysu (by intro k; rw [ysl]; exact ⟨rfl, rfl⟩)
  have hso : Y.stationOutcome u o false false = (stationLeft u st Y, notices.map Post.notice) :=
    stationOutcome_last s Y u o false false st notices ht (by rw [yst, hX]) (.inl rfl) ypo
  have hline : ∀ v, ((stationLeft u st Y).station v).line = (s.station v).line := by
    intro v
    by_cases hv : u = v
    · subst hv; simp [(lastTakes_frame ht).2.1]
    · simp [hv, yst, hXs]
  have hrec : ∀ (Z : State) (slx : Slot), slx.station = (s.slot k).station → (∀ v, (Z.station v).line = (s.station v).line) →
      (Z.slot k).station = (s.slot k).station → requestDone k slx (Z.slotLine k) = requestRecord s k slx := by
    intro Z slx h1 h2 h3
    rw [requestDone_eq]
    unfold requestRecord slotLine
    rw [h3, h2, ← h1]
  rw [← ysu]
  unfold acyclicEnd
  simp only []
  rcases hcase with ⟨rfl, hsl⟩ | ⟨rfl, hab, hsl⟩
  · rw [if_pos (by simp [StopSet.add])]
    apply slotEnd_of Y s u k o st notices sl _ _ hso _ (lastTakes_frame ht).2.1 yc ypo hpk
    unfold resolveAbort
    simp only [hnb, if_false, hao, hfr]
    rw [finishSlot_eq]
    have e1 : ({ (State.modifySlot k (fun sl => { sl with abortLate := decide (o = .ok ∨ o = .refused) }) (stationLeft u st Y)).slot k with
        outcome := .aborted, replyLen := 0, deferred := false } : Slot) = sl := by
      rw [hsl]; simp only [modifySlot, slot_setSlot, if_true, stationLeft_slot, ysl, decide_eq_false hok]
    rw [e1, hrec _ sl (by rw [hsl]; exact hxk) (by intro v; simp only [modifySlot, setSlot_station]; exact hline v) (by simp [modifySlot,
        ysl, hxk])]
    refine Prod.ext ?_ rfl
    simp [modifySlot, setSlot]
  · rw [if_neg (by simp [StopSet.add, hab])]
    have : (!(a.stop.add .park).park) = false := by simp [StopSet.add]
    simp only [this, Bool.false_and, Bool.false_eq_true, if_false]
    apply slotEnd_of Y s u k o st notices sl _ _ hso _ (lastTakes_frame ht).2.1 yc ypo hpk
    unfold completeSlot
    rw [if_neg hnb, hfr, finishSlot_eq]
    have e1 : ({ (stationLeft u st Y).slot k with outcome := o, replyLen := 0, deferred := false } : Slot) = sl := by
      rw [hsl, stationLeft_slot, ysl]
    rw [e1, hrec _ sl (by rw [hsl]; exact hxk) hline (by simp [ysl, hxk])]
    simp [setSlot]

/-- A POLL whose last outcome is the miss that reaches MISS_LIMIT, ended by CYCLE. -/
theorem stopTransaction_off (V : State) (n : LineId) (a : Attempt) (j : EntryIx) (u : StationIx) (o : OutcomeCode) (h :
    (V.line n).attempt = some a) (hr : a.retryOwed = true) (hu : a.station = some u) (hoo : a.outcome = some o) (hj : a.origin
    = .cyclic j)
   (ho : o.isMiss = true) (hl : reachesLimit (V.station u)) (hc : ¬ parkWaits V u) :
   ∃ W gs, V.stopTransaction n .cycle = (W, gs) ∧ OffFacts (V.setAttempt n none) u o none (some j) W gs ∧ ∀ i, V.edges.getLsbD i = true
       → W.edges.getLsbD i = true := by
  rw [stopTransaction_waiting V n .cycle a u o h hr hu hoo (by rw [hj]; simp)]
  simp only [endTransaction, hj]
  obtain ⟨W, gs, e1, e2⟩ := pollEnd_off (V.setAttempt n none) j u false { a with stop := a.stop.add .cycle, retryOwed := false } o ho
      (by simpa [setAttempt, modifyLine] using hl) (by unfold parkWaits; simpa [setAttempt, modifyLine] using hc)
  refine ⟨W, gs, by simp only [hj] at e1; exact e1, e2, ?_⟩
  intro i hi
  have := pollEnd_off_edges (V.setAttempt n none) j u false { a with stop := a.stop.add .cycle, retryOwed := false } o ho
      (by simpa [setAttempt, modifyLine] using hl) (by unfold parkWaits; simpa [setAttempt, modifyLine] using hc) i
      (by simpa [setAttempt, modifyLine] using hi)
  rw [e1] at this
  exact this

/-! ## Commands taken and completed -/

@[simp] theorem takeCommand_line (c : Word) (s : State) (n : LineId) : (s.takeCommand c).line n = s.line n := by cases n <;> rfl

@[simp] theorem takeCommand_entry (c : Word) (s : State) (n : EntryIx) : (s.takeCommand c).entry n = s.entry n := rfl

@[simp] theorem takeCommand_slot (c : Word) (s : State) (n : SlotIx) : (s.takeCommand c).slot n = s.slot n := rfl

@[simp] theorem takeCommand_station (c : Word) (s : State) (n : StationIx) : (s.takeCommand c).station n = s.station n := rfl

@[simp] theorem takeCommand_mode (c : Word) (s : State) : (s.takeCommand c).mode = s.mode := rfl

@[simp] theorem takeCommand_submitted (c : Word) (s : State) : (s.takeCommand c).submitted = s.submitted := rfl

theorem setLine_takeCommand (c : Word) (n : LineId) (l : Line) (s : State) : (s.takeCommand c).setLine n l =
    (s.setLine n l).takeCommand c := by cases n <;> rfl

theorem setEntry_takeCommand (c : Word) (n : EntryIx) (l : Entry) (s : State) : (s.takeCommand c).setEntry n l =
    (s.setEntry n l).takeCommand c := rfl

theorem stationLeft_takeCommand (c : Word) (u : StationIx) (st : Station) (s : State) : stationLeft u st (s.takeCommand c) =
    (stationLeft u st s).takeCommand c := by
  unfold stationLeft
  have : (s.takeCommand c).station u = s.station u := rfl
  rw [this]
  split <;> rfl

theorem setLine_commandDone (c : Word) (r : ResultCode) (v : Word) (n : LineId) (l : Line) (s : State) :
    (State.commandDone c r v s).setLine n l = State.commandDone c r v (s.setLine n l) := by cases n <;> rfl

theorem setSlot_commandDone (c : Word) (r : ResultCode) (v : Word) (n : SlotIx) (l : Slot) (s : State) :
    (State.commandDone c r v s).setSlot n l = State.commandDone c r v (s.setSlot n l) := rfl

theorem commandDone_withSubmitted (c : Word) (r : ResultCode) (v : Word) (sub : List SlotIx) (s : State) :
    ({ State.commandDone c r v s with submitted := sub } : State) = State.commandDone c r v { s with submitted := sub } := rfl

theorem stationLeft_commandDone (c : Word) (r : ResultCode) (v : Word) (u : StationIx) (st : Station) (s : State) : stationLeft u st
    (State.commandDone c r v s) = State.commandDone c r v (stationLeft u st s) := by
  unfold stationLeft
  have : (State.commandDone c r v s).station u = s.station u := rfl
  rw [this]
  split
  · unfold State.commandDone setStation
    simp only [State.mk.injEq, true_and, and_true]
    exact State.or_right_comm _ _ _
  · rfl

theorem finishSlot_takeCommand (c : Word) (k : SlotIx) (o : OutcomeCode) (l : BitVec 6) (s : State) : (s.takeCommand c).finishSlot k o l
    = ((s.finishSlot k o l).1.takeCommand c, (s.finishSlot k o l).2) := by
  unfold State.finishSlot
  have : (s.takeCommand c).slotLine k = s.slotLine k := rfl
  have h2 : (s.takeCommand c).slot k = s.slot k := rfl
  simp only [this, h2]
  rfl

/-- A park with no PENDING slot of the station (R86). -/
theorem parkNow_eq (X : State) (u : StationIx) (hp : X.pendingOf u = []) (hh : (X.station u).health ≠ .parked) :
   X.parkNow u = ((X.setStation u (parked (X.station u))).complete .ok ((X.station u).health.code.setWidth 16), [.notice (stateRecord X u
       (X.station u).health .parked 0)], []) := by
  have hfin : (X.setStation u (X.station u).toParked).finishPendingOf u .stationParked = (X.setStation u (X.station u).toParked, []) := by
      unfold finishPendingOf
      have : (X.setStation u (X.station u).toParked).pendingOf u = X.pendingOf u := rfl
      rw [this, hp]; rfl
  unfold parkNow
  simp only [hfin]
  have : healthNotice u (X.station u) (X.station u).toParked
        = [Post.notice (stationStateNotice u (X.station u).health (X.station u).toParked)] := by
      unfold healthNotice
      rw [if_neg]
      intro he; exact hh (he.trans rfl)
  rw [this, stationStateNotice_eq]
  rfl

theorem parkDone_takeCommand (u : StationIx) (st : Station) (Y : State) (h : Y.station u = st) : parkDone u (Y.takeCommand 12) =
    (Y.setStation u (parked st)).commandDone 0x0C .ok (st.health.code.setWidth 16) := by
  subst h; rfl

theorem parkDone_setSlot (u : StationIx) (k : SlotIx) (l : Slot) (Y : State) : (parkDone u Y).setSlot k l = parkDone u (Y.setSlot k l) :=
    rfl

theorem parkDone_withSubmitted (u : StationIx) (l : List SlotIx) (Y : State) : ({ parkDone u Y with submitted := l } : State)
    = parkDone u { Y with submitted := l } := rfl

/-! ## QUIESCE and the return to RUN (R51, R156, R158) -/

theorem quiesceLine_off (X : State) (m : LineId) (h : (X.line m).enable = false) : X.quiesceLine m = (X, []) := by
  unfold quiesceLine; simp [h]

/-- Where no transaction waits between attempts, only the line changes. -/
theorem quiesceLine_quiet (X : State) (m : LineId) (h : ∀ a, (X.line m).attempt = some a → a.retryOwed = false) :
   ∃ l, X.quiesceLine m = (X.setLine m l, []) := by
  unfold quiesceLine
  split
  · have : ∃ l, (X.stopTimer m).stopTransaction m .quiesce = (X.setLine m l, []) := by
      unfold stopTransaction
      simp only [stopTimer, modifyLine, line_setLine, if_true]
      cases ha : (X.line m).attempt with
      | none => exact ⟨_, rfl⟩
      | some a =>
        simp only [h a ha]
        split
        · exact ⟨_, by simp only [setAttempt, modifyLine, line_setLine, if_true, setLine_setLine]; rfl⟩
        · exact ⟨_, rfl⟩
    obtain ⟨l, hl⟩ := this
    rw [hl]
    simp only []
    split
    · exact ⟨_, by simp only [setEngine, modifyLine, line_setLine, if_true, setLine_setLine]; rfl⟩
    · exact ⟨_, rfl⟩
  · exact ⟨X.line m, by cases m <;> rfl⟩

/-- A transaction that waits ends, and the engine goes to HOLD. -/
theorem quiesceLine_waiting (X W : State) (n : LineId) (gs : Groups) (hen : (X.line n).enable = true) (h :
    (X.stopTimer n).stopTransaction n .quiesce = (W, gs)) (h1 : (W.line n).attempt = none)
   (h2 : (W.line n).engine = .turnaround) : X.quiesceLine n = (W.setLine n { W.line n with engine := .hold }, gs) := by
  unfold quiesceLine
  rw [if_pos hen, h]
  simp only [h1, h2, Option.isNone_none, true_and, or_true, if_true]
  simp only [setEngine, modifyLine, h1]

theorem quiesceLine_attempt (X : State) (m : LineId) (x : Attempt) (h : (X.line m).enable = true) (ha : (X.line m).attempt = some x)
    (ho : x.origin ≠ .sync) (hr : x.retryOwed = false) :
   X.quiesceLine m = (X.setLine m
       { X.line m with timerRunning := false, attempt := some { x with stop := { x.stop with quiesce := true } } }, []) := by
  have : (X.stopTimer m).stopTransaction m .quiesce = (X.setLine m
      { X.line m with timerRunning := false, attempt := some { x with stop := { x.stop with quiesce := true } } }, []) := by
    unfold stopTransaction
    simp [stopTimer, modifyLine, ha, Attempt.isTransaction, ho, hr, setAttempt, StopSet.add]
  unfold quiesceLine
  rw [if_pos h, this]
  simp

theorem quiesceLine_rest (X : State) (m : LineId) (h : (X.line m).enable = true → (X.line m).attempt = none
        ∧ ((X.line m).engine = .idle ∨ (X.line m).engine = .turnaround ∨ (X.line m).faulted = true ∧ (X.line m).engine = .faulted)) :
   X.quiesceLine m = (X.setLine m (if (X.line m).enable then { X.line m with
          timerRunning := false, engine := if (X.line m).engine = .faulted then .faulted else .hold } else X.line m), []) := by
  unfold quiesceLine
  by_cases he : (X.line m).enable = true
  · obtain ⟨h1, h2⟩ := h he
    have : (X.stopTimer m).stopTransaction m .quiesce = (X.setLine m { X.line m with timerRunning := false }, []) := by
      unfold stopTransaction
      simp [stopTimer, modifyLine, h1]
    rw [if_pos he, this]
    rcases h2 with h2 | h2 | ⟨h3, h2⟩ <;> simp [h1, h2, he, setEngine, modifyLine]
  · simp [he]

theorem quiesce_eq (s T : State) (S : State) (hS : S = { s with mode := .quiescing, pendingRequest := some .quiesce }) (g0 g1 : Groups)
    (T0 : State)
   (h0 : S.quiesceLine .zero = (T0, g0)) (h1 : T0.quiesceLine .one = (T, g1)) : s.quiesce = T.reachQuiesced.1.flush
       (g0 ++ g1 ++ [T.reachQuiesced.2]) := by
  unfold quiesce
  rw [← hS, h0]
  simp only []
  rw [h1]

/-- The work of line n leaves the mode and the other line as they are. -/
def OnlyLine (n : LineId) (s t : State) : Prop := t.mode = s.mode ∧ ∀ m, m ≠ n → t.line m = s.line m

theorem OnlyLine.setLine (n : LineId) (l : Line) (s : State) : OnlyLine n s (s.setLine n l) := ⟨by simp, fun m hm => by simp [Ne.symm hm]⟩

theorem OnlyLine.modifyLine (n : LineId) (f : Line → Line) (s : State) : OnlyLine n s (s.modifyLine n f) := OnlyLine.setLine n _ s

theorem OnlyLine.trans {n} {s t u : State} (h : OnlyLine n s t) (k : OnlyLine n t u) : OnlyLine n s u := ⟨k.1.trans h.1, fun m hm =>
    (k.2 m hm).trans (h.2 m hm)⟩

theorem OnlyLine.same {n} {s t : State} (h : SameLines s t) : OnlyLine n s t := ⟨h.1, fun m _ => h.line m⟩

theorem startAttempt_onlyLine (n : LineId) (number : Nat) (a : Attempt) (t : StationIx) (s : State) : OnlyLine n s
    (s.startAttempt n number a t) := by
  unfold startAttempt sendFrame
  exact OnlyLine.trans (t := s.modifyStation t fun st => { st with seq := st.seq + 1 }) ⟨rfl, fun m _ => by cases m <;> rfl⟩
      (OnlyLine.modifyLine _ _ _)

theorem takeEntry_onlyLine (n : LineId) (e : EntryIx) (p : Bool) (s : State) : OnlyLine n s (s.takeEntry n e p) := by
  unfold takeEntry
  simp only []
  have h3 : ∀ (u : State) (t : StationIx), SameLines s u →
      SameLines s (if p then u.modifyStation t fun st => { st with probeDue := false } else u) := by
    intro u t hu
    split
    · exact hu.trans ⟨rfl, rfl, rfl, rfl⟩
    · exact hu
  exact ((OnlyLine.same (h3 _ ((s.swapOutput e).entry e).station (swapOutput_same e s))).trans (OnlyLine.modifyLine n _ _)).trans
      (startAttempt_onlyLine n _ _ _ _)

theorem takeSlot_onlyLine (n : LineId) (k : SlotIx) (s : State) : OnlyLine n s (s.takeSlot n k) := by
  unfold takeSlot
  simp only []
  have h : SameLines s (s.setSlot k { s.slot k with state := .active }) := ⟨rfl, rfl, rfl, rfl⟩
  exact ((OnlyLine.same h).trans (OnlyLine.modifyLine n _ _)).trans (startAttempt_onlyLine n _ _ _ _)

theorem acyclicChoice_onlyLine (n : LineId) (s : State) : OnlyLine n s (s.acyclicChoice n) := by
  unfold acyclicChoice
  split
  · exact takeSlot_onlyLine n _ s
  · exact OnlyLine.modifyLine _ _ _

theorem decisionPoint_onlyLine (n : LineId) (s : State) : OnlyLine n s (s.decisionPoint n) := by
  unfold decisionPoint
  simp only []
  split
  · exact OnlyLine.modifyLine _ _ _
  · split
    · unfold takeSync sendFrame
      exact (OnlyLine.modifyLine n _ _).trans (OnlyLine.modifyLine n _ _)
    · split
      · unfold cyclicChoice
        split
        · exact takeSlot_onlyLine n _ s
        · unfold walkChoice
          split
          · exact takeEntry_onlyLine n _ _ s
          · refine OnlyLine.trans (t := s.endCyclic n) ?_ (acyclicChoice_onlyLine n _)
            exact (OnlyLine.modifyLine n (fun l => { l with phase := .acyclic, walk := 64 }) s).trans (OnlyLine.same (raise_same _ _))
      · exact acyclicChoice_onlyLine n s

/-- The return reaches one line. -/
theorem resumeLine_eq (n : LineId) (s : State) (hm : s.mode = .run) (he : (s.line n).enable = true) (ha : (s.line n).attempt = none)
    (hb : (s.line n).breakRequest = false) :
   s.resumeLine n = (({ s.setLine n { cycleOpened (s.line n) with engine := (resumeEngine (s.line n)).engine } with
      edges := s.edges ||| cycleStartBit n } : State).releaseDeferred n).wakeIdle n := by
  unfold resumeLine
  rw [if_pos he]
  obtain ⟨X, hX⟩ : ∃ X, X = loadTimer n ((s.line n).cycnum + 1) (modifyLine n resumeEngine s) := ⟨_, rfl⟩
  rw [← hX]
  have hre : ∀ l : Line, resumeEngine l = { l with engine := (resumeEngine l).engine } := by
    intro l; unfold resumeEngine; split <;> rfl
  obtain ⟨e, hee⟩ : ∃ e, e = (resumeEngine (s.line n)).engine := ⟨_, rfl⟩
  have hofs : (e = .off) = ((s.line n).engine = .off) := by
    rw [hee]; unfold resumeEngine; split
    · rename_i h; rw [h]; simp; split <;> simp
    · rfl
  have hXs : X = s.setLine n
      { s.line n with engine := e, timerRunning := true, runningCount := (s.line n).period, cycnum := (s.line n).cycnum + 1 } := by
    rw [hX]; unfold loadTimer modifyLine
    simp only [line_setLine, if_true, setLine_setLine]
    rw [hre, ← hee]
  rw [startCycle_running n _ X (by rw [hXs]; simp [hm]) (by rw [hXs]; simp [ha]) (by rw [hXs]; simp [hb])]
  congr 2
  have hXl : X.line n =
      { s.line n with engine := e, timerRunning := true, runningCount := (s.line n).period, cycnum := (s.line n).cycnum + 1 } :=
      by rw [hXs]; simp
  rw [hXl, hXs, ← hee]
  have : handedLine { s.line n with
      engine := e, timerRunning := true, runningCount := (s.line n).period, cycnum := (s.line n).cycnum + 1 } = { cycleOpened
          (s.line n) with engine := e } := by
    unfold handedLine openedLine cycleOpened
    simp only [ha, Option.map_none]
    have : (e != EngineState.off) = ((s.line n).engine != .off) := by
      by_cases h : e = .off
      · have h' := hofs ▸ h; simp [h, h']
      · have h' : ¬ (s.line n).engine = .off := by rw [← hofs]; exact h
        have h1 : (e != EngineState.off) = true := by simpa using h
        rw [h1]; simpa using h'
    simp [this]
  rw [this, setLine_setLine]
  simp

/-- The same in the statements' words. -/
theorem resumeLine_resumed (n : LineId) (s : State) (hm : s.mode = .run) (h : (s.line n).enable = true → (s.line n).attempt = none ∧
    (s.line n).breakRequest = false
      ∧ ((s.line n).engine = .hold ∨ (s.line n).engine = .faulted ∨ (s.line n).engine = .breaking)) :
   lineResumed n s (s.resumeLine n) ∧ OnlyLine n s (s.resumeLine n) := by
  unfold lineResumed
  by_cases he : (s.line n).enable = true
  · obtain ⟨ha, hb, heng⟩ := h he
    rw [resumeLine_eq n s hm he ha hb, if_pos he]
    obtain ⟨R, hR⟩ : ∃ R : State → EngineState → State, R = fun s e =>
        (({ s.setLine n { cycleOpened (s.line n) with engine := e } with edges := s.edges ||| cycleStartBit n } : State).releaseDeferred
        n) := ⟨_, rfl⟩
    have hRe : ∀ e, (({ s.setLine n { cycleOpened (s.line n) with engine := e } with edges := s.edges ||| cycleStartBit n } :
        State).releaseDeferred n) = R s e := by intro e; rw [hR]
    rw [hRe]
    have hRl : ∀ e, (R s e).line n = { cycleOpened (s.line n) with engine := e } := by intro e; rw [hR]; cases n <;> rfl
    have hRo : ∀ e m, m ≠ n → (R s e).line m = s.line m := by
      intro e m hmn; rw [hR]; cases n <;> cases m <;> first | rfl | exact absurd rfl hmn
    have hRm : ∀ e, (R s e).mode = .run := by intro e; rw [hR]; show (s.setLine n _).mode = _; simp [hm]
    have hRs : ∀ e, R s e =
        { s.setLine n { cycleOpened (s.line n) with engine := e } with slots := (R s e).slots, edges := s.edges ||| cycleStartBit n } :=
        by intro e; rw [hR]; rfl
    have hRd : ∀ e, deferralsReleased n s (R s e) := by
      intro e k
      rw [hR]
      simp only []
      rw [releaseDeferred_slot]
      unfold slotLine
      have h1 : ∀ k, ({ s.setLine n { cycleOpened (s.line n) with engine := e } with edges := s.edges ||| cycleStartBit n } : State).slot
          k = s.slot k := by intro k; cases n <;> rfl
      have h2 : ∀ k, ({ s.setLine n { cycleOpened (s.line n) with engine := e } with edges := s.edges ||| cycleStartBit n } :
          State).station k = s.station k := by intro k; cases n <;> rfl
      simp only [h1, h2]
    have hsw : ∀ e e', (R s e).setLine n { (R s e).line n with engine := e' } = R s e' := by
      intro e e'; rw [hRl, hR]; cases n <;> rfl
    by_cases hq : (s.line n).engine = .hold ∧ isQuiet (s.line n) ∧ (s.line n).settled = true
    · have hqb : (s.line n).quiet = true := (quiet_iff _).2 hq.2.1
      have he1 : (resumeEngine (s.line n)).engine = .idle := by unfold resumeEngine; rw [if_pos hq.1]; simp [hqb, hq.2.2]
      rw [he1]
      have hw : (R s .idle).wakeIdle n = (R s .idle).decisionPoint n := by
        unfold wakeIdle; rw [if_pos ⟨hRm _, by rw [hRl], by rw [hRl]; simp [cycleOpened, ha]⟩]
      rw [hw]
      refine ⟨⟨R s .turnaround, ?_, hRd _, ?_, ?_⟩, ?_⟩
      · rw [if_pos hq.1]; exact hRs _
      · intro _
        have hd : decides (R s .turnaround) n := by
          refine ⟨⟨by rw [hRl], ?_⟩, hRm _, by rw [hRl]; simp [cycleOpened, ha]⟩
          rw [hRl]; exact hq.2.1
        refine ⟨hd, ?_⟩
        rw [exec_decision _ _ hd, ← hsw .turnaround .idle, decisionPoint_engine]
        congr 2
        have : (R s .turnaround).setLine n { (R s .turnaround).line n with settled := true } = R s .turnaround := by
          rw [hRl, hR]; simp only []
          have hst : ({ cycleOpened (s.line n) with engine := .turnaround, settled := true } : Line)
              = { cycleOpened (s.line n) with engine := .turnaround } := by
            have : (cycleOpened (s.line n)).settled = true := hq.2.2
            rw [← this]
          rw [hst]; cases n <;> rfl
        exact this
      · intro h; exact absurd hq h
      · exact OnlyLine.trans (t := R s .idle) ⟨(hRm _).trans hm.symm, hRo _⟩ (decisionPoint_onlyLine n _)
    · have he1 : (resumeEngine (s.line n)).engine = if (s.line n).engine = .hold then .turnaround else (s.line n).engine := by
        unfold resumeEngine
        split
        · rename_i hh
          have : ((s.line n).quiet && (s.line n).settled) = false := by
            rw [Bool.eq_false_iff]
            intro hc
            rw [Bool.and_eq_true] at hc
            exact hq ⟨hh, (quiet_iff _).1 hc.1, hc.2⟩
          simp [this]
        · rfl
      rw [he1]
      have hni : (if (s.line n).engine = .hold then EngineState.turnaround else (s.line n).engine) ≠ .idle := by
        rcases heng with h | h | h <;> simp [h]
      have hw : (R s (if (s.line n).engine = .hold then .turnaround else (s.line n).engine)).wakeIdle n = (R s (if (s.line n).engine
          = .hold then .turnaround else (s.line n).engine)) := by
        unfold wakeIdle; rw [if_neg]; rintro ⟨_, h, _⟩; rw [hRl] at h; exact hni h
      rw [hw]
      exact ⟨⟨_, hRs _, hRd _, fun h => absurd h hq, fun _ => rfl⟩, (hRm _).trans hm.symm, hRo _⟩
  · have : s.resumeLine n = s := by unfold resumeLine; rw [if_neg he]
    rw [this, if_neg he]
    exact ⟨rfl, rfl, fun _ _ => rfl⟩

/-! ## The expiry of a cycle timer (R53, R55) -/

/-- A cycle start of a line whose transaction is not between attempts, from its accounting. -/
theorem exec_cycleStart (n : LineId) (s Y : State) (c : CycleCase) (E : Vector Entry 64) (ed : Word) (N : List Post) (hx : expires s n)
    (hcase : (s.line n).expiryCase = c) (hc : c ≠ .startOfRunning)
   (hacc : (s.loadTimer n ((s.line n).cycnum + 1)).cycleAccounting n (s.line n).cycnum c = (Y, N))
   (hY : Y = { s.setLine n (timedLine (s.line n)) with entries := E, edges := ed }) :
   exec (.cycleStart n) s = .next ((State.flush [N] { s.setLine n (breakBegun (cycleOpened (s.line n))) with
      entries := E, edges := ed ||| cycleStartBit n, stations := (s.stationsCycleStart n).stations }).releaseDeferred n) := by
  obtain ⟨h1, h2, h3, h4, h6⟩ := hx
  have hex : exec (.cycleStart n) s = .next ((s.loadTimer n ((s.line n).cycnum + 1)).startCycle n (s.line n).cycnum c) := by
    simp only [exec, execCycleStart, h1, h2, h3, and_self, if_true, expireTimer, hcase]
  rw [hex]
  have yl : Y.line n = timedLine (s.line n) := by rw [hY]; cases n <;> rfl
  have hho : (Y.openCycle n).startHandOver n c = ({ Y.setLine n (handedLine (Y.line n)) with
      edges := Y.edges ||| cycleStartBit n, stations := (Y.stationsCycleStart n).stations }, []) := by
    rw [← cycleHandOver_eq n Y (by rw [yl]; exact h6)]
    unfold startHandOver
    cases c <;> first | rfl | exact absurd rfl hc
  obtain ⟨Z, hZ⟩ : ∃ Z : State, Z = { Y.setLine n (handedLine (Y.line n)) with
      edges := Y.edges ||| cycleStartBit n, stations := (Y.stationsCycleStart n).stations } := ⟨_, rfl⟩
  rw [← hZ] at hho
  have hZl : Z.line n = cycleOpened (s.line n) := by
    have : Z.line n = handedLine (Y.line n) := by rw [hZ]; cases n <;> rfl
    rw [this, yl]; rfl
  rw [startCycle_waiting n _ c _ Y Z N [] hacc hho (by rw [hZ, hY]; cases n <;> exact h1) (by
    rw [hZl]
    by_cases hi : (s.line n).engine = .idle
    · left
      obtain ⟨hb, ha⟩ := h4 hi
      unfold breakBegun
      rw [if_pos ⟨hb, by simp [cycleOpened, ha], .inl hi⟩]
      simp
    · left
      have := (breakBegun_frame (cycleOpened (s.line n))).2.2.2.2.2
      rcases this with h | h
      · rw [h]; exact hi
      · rw [h]; simp)]
  congr 2
  rw [hZl, hZ, hY]
  cases n <;> rfl

theorem releaseDeferred_handedOver (n : LineId) (s X : State) (l : Line) (E : Vector Entry 64) (ed : Word) (hX : X
    = { s.setLine n l with entries := E, edges := ed, stations := (s.stationsCycleStart n).stations }) :
   cycleHandedOver n s (X.releaseDeferred n) := by
  apply State.cycleHandedOver_of n s _ s rfl
  · rw [hX]; rfl
  · apply releaseDeferred_after
    · rw [hX]
    · intro k; rw [hX]; cases n <;> rfl

theorem handedOver_offerNotice (n : LineId) (s X : State) (e : Event) (h : cycleHandedOver n s X) : cycleHandedOver n s
    (X.offerNotice e) := by
  unfold cycleHandedOver at h ⊢
  simpa only [offerNotice_station, offerNotice_slot] using h

theorem cycleStart_online (x : Station) (hx : x.health = .online ∨ x.health = .degraded) : x.cycleStart
    = { x with age := satInc x.age } := by
  unfold Station.cycleStart Station.countdown; rcases hx with h | h <;> simp [h]

/-- What the hand-overs of a cycle start make of Y when CYCLE ends the POLL of entry j with the miss that reaches MISS_LIMIT. -/
structure LimitFacts (Y : State) (n : LineId) (j : EntryIx) (u : StationIx) (o : OutcomeCode) (Z : State) (gs : Groups) : Prop where
  line : Z.line n = { Y.line n with attempt := none }
  mode : Z.mode = Y.mode
  entry : ∀ e, Z.entry e = if j = e then { Y.entry e with last := o } else Y.entry e
  other : (Y.station u).line ≠ n → Z.station u = goneOffline o (Y.station u)
  own : (Y.station u).line = n → Z.station u = { goneOffline o (Y.station u) with age := satInc (Y.station u).age } ∨ Z.station u =
      (goneOffline o (Y.station u)).cycleStart
  keeps : ∀ i, Y.edges.getLsbD i = true → Z.edges.getLsbD i = true
  down : Z.edges.getLsbD 14 = true
  comp : ∀ k, k ∈ Y.pendingOf u → completes gs.flatten k ∧ k ∉ Z.submitted ∧ (Z.slot k).outcome = .stationOffline ∧ (Z.slot k).replyLen
      = 0

/-- Either order of the end and the Station Table's step (log entry 6). -/
theorem cycleHandOver_limit (Y : State) (n : LineId) (a : Attempt) (j : EntryIx) (u : StationIx) (o : OutcomeCode) (h :
    (Y.line n).attempt = some a) (hr : a.retryOwed = true) (hu : a.station = some u) (hoo : a.outcome = some o) (hj : a.origin
    = .cyclic j)
   (ho : o.isMiss = true) (hl : reachesLimit (Y.station u)) (hc : ¬ parkWaits Y u) :
   ∃ Z gs, Y.cycleHandOver n = (Z, gs) ∧ LimitFacts Y n j u o Z gs := by
  obtain ⟨X, hX⟩ : ∃ X, X = ({ Y with freeIndex := Y.freeIndex + 1 } : State) := ⟨_, rfl⟩
  have xl : ∀ m, X.line m = Y.line m := by rw [hX]; intro m; cases m <;> rfl
  have xs : ∀ v, X.station v = Y.station v := by rw [hX]; intro v; rfl
  have hw : Y.waitsForRetry n = true := by simp [waitsForRetry, h, Attempt.waits, Attempt.isTransaction, hj, hr]
  unfold cycleHandOver
  simp only [hw, Bool.true_and, if_true, ← hX]
  cases hfc : (Config.freeChoice Y.freeIndex 0 % 2 == 0)
  · simp only [Bool.false_eq_true, if_false]
    obtain ⟨S, hS, hSg⟩ := stationsCycleStart_frame n X
    obtain ⟨V, hV⟩ : ∃ V, V = ({ X with stations := S } : State) := ⟨_, rfl⟩
    rw [hS, ← hV]
    have vl : ∀ m, V.line m = Y.line m := by intro m; rw [hV, ← xl]; cases m <;> rfl
    have vs : ∀ v, V.station v = if (Y.station v).line = n then (Y.station v).cycleStart else Y.station v := by
      intro v; rw [hV]; exact (hSg v).trans (by rw [xs])
    have hvu : V.station u = if (Y.station u).line = n then { Y.station u with age := satInc (Y.station u).age } else Y.station u := by
      rw [vs, cycleStart_online _ hl.1]
    have hvl : reachesLimit (V.station u) := by rw [hvu]; split <;> exact hl
    obtain ⟨W, gs, e1, ⟨a1, a2, a3, a4, a5, a6, a7, a8, a9, a10, a11, a12⟩, e3⟩ := stopTransaction_off V n a j u o
        (by rw [vl]; exact h) hr hu hoo hj ho hvl (by rw [hV, hX]; exact hc)
    have hpe : (V.setAttempt n none).pendingOf u = Y.pendingOf u := by rw [pendingOf_congr (V.setAttempt n none) V u
        (by simp [setAttempt, modifyLine]) (by simp [setAttempt, modifyLine]), hV, hX]; rfl
    refine ⟨W, gs, e1, ?_, ?_, ?_, ?_, ?_, ?_, a3, ?_⟩
    · rw [a1]; simp [setAttempt, modifyLine, vl]
    · rw [a2, hV, hX]; simp [setAttempt, modifyLine]
    · intro e; rw [a6]; have : (V.setAttempt n none).entry e = Y.entry e := by rw [hV, hX]; simp [setAttempt, modifyLine]; rfl
      simp [this]
    · intro hln; rw [a5, if_pos rfl]; simp [setAttempt, modifyLine, hvu, hln]
    · intro hln; left; rw [a5, if_pos rfl]
      have : (V.setAttempt n none).station u = V.station u := by simp [setAttempt, modifyLine]
      rw [this, hvu, if_pos hln]; rfl
    · intro i hi; exact e3 i (by rw [hV, hX]; exact hi)
    · intro k hk
      rw [← hpe] at hk
      obtain ⟨b1, b2, b3⟩ := a9 k hk (by simp)
      exact ⟨b1, fun hh => (a8 k hh).2.1 hk, b2, b3⟩
  · simp only [if_true]
    obtain ⟨W, gs, e1, ⟨a1, a2, a3, a4, a5, a6, a7, a8, a9, a10, a11, a12⟩, e3⟩ := stopTransaction_off X n a j u o
        (by rw [xl]; exact h) hr hu hoo hj ho (by rw [xs]; exact hl) (by rw [hX]; exact hc)
    have hpe : (X.setAttempt n none).pendingOf u = Y.pendingOf u := by rw [pendingOf_congr (X.setAttempt n none) X u
        (by simp [setAttempt, modifyLine]) (by simp [setAttempt, modifyLine]), hX]; rfl
    rw [e1]
    obtain ⟨S, hS, hSg⟩ := stationsCycleStart_frame n W
    have hwu : W.station u = goneOffline o (Y.station u) := by rw [a5, if_pos rfl]; simp [setAttempt, modifyLine, xs]
    have hsu : ({ W with stations := S } : State).station u = if (Y.station u).line = n then (goneOffline o
        (Y.station u)).cycleStart else goneOffline o (Y.station u) := by
      refine (hSg u).trans ?_
      rw [hwu]; rfl
    simp only [hS]
    refine ⟨_, gs, rfl, ?_, ?_, ?_, ?_, ?_, ?_, a3, ?_⟩
    · have : ({ W with stations := S } : State).line n = W.line n := by cases n <;> rfl
      rw [this, a1]; simp [setAttempt, modifyLine, xl]
    · show W.mode = _; rw [a2, hX]; simp [setAttempt, modifyLine]
    · intro e; show W.entry e = _; rw [a6]
      have : (X.setAttempt n none).entry e = Y.entry e := by rw [hX]; simp [setAttempt, modifyLine]; rfl
      simp [this]
    · intro hln; rw [hsu, if_neg hln]
    · intro hln; right; rw [hsu, if_pos hln]
    · intro i hi; exact e3 i (by rw [hX]; exact hi)
    · intro k hk
      rw [← hpe] at hk
      obtain ⟨b1, b2, b3⟩ := a9 k hk (by simp)
      exact ⟨b1, fun hh => (a8 k hh).2.1 hk, b2, b3⟩

end Sys2Proof.Machine
end

