-- ==== Sys2Proof/WellFormed.lean ====
section
/-!
DEFINITION. Which commands can be given: the operand checks of the rows.
-/

namespace Sys2Proof

/-- Word addresses of the registers whose writes have rows of their own (Table 9-1):
DEVSTAT, TAPDATA, CMD, EVLOST, EVTHRESH, DMACTL, IFLAG, ILEVEL0 to ILEVEL3, ITHRESH, LINE0DIV, LINE1DIV. -/
def rowRegisters : List (BitVec 6) :=
  [0x00, 0x05, 0x08, 0x15, 0x16, 0x17, 0x18, 0x1A, 0x1B, 0x1C, 0x1D, 0x1E, 0x21, 0x29]

/-- A REGISTER_WRITE is a write that no other row names: not at a register with a row of its own,
not a mode request of the three rows (MODEREQ at word address 1), not a control reset (CTRL at 2). -/
def registerWriteOk (address : BitVec 6) (value : Word) : Bool :=
  !rowRegisters.contains address
    && !(address == 0x01 && [1, 2, 3].contains value)
    && !(address == 0x02 && value.getLsbD 0)

/-- A code that names one of the fifteen commands of Table 9-4. -/
def namesCommand (code : Word) : Bool := 1 ≤ code.toNat && code.toNat ≤ 15

/-- The operand checks of each row. A character is only assembled after sample 4 of its start bit was 0 (R4). -/
def WellFormed : Instr → Bool
  | .characterArrival _ samples => !samples.start.s4
  | .registerWrite address value => registerWriteOk address value
  | .badCommand code => !namesCommand code
  | .hardReset => true
  | .resetRelease => true
  | .clearingComplete => true
  | .controlReset => true
  | .startConfirmed _ => true
  | .characterSent _ => true
  | .replyWindowExpiry _ => true
  | .gapLimitExceeded _ => true
  | .quietWaitEnd _ => true
  | .quietLimitExpiry _ => true
  | .turnaroundSatisfied _ => true
  | .cycleStart _ => true
  | .breakStart _ => true
  | .breakLowEnd _ => true
  | .lineBreakEnd _ => true
  | .parkTakesEffect => true
  | .quiescedReached => true
  | .heldCompletionTaken => true
  | .modereqRun => true
  | .modereqQuiesce => true
  | .modereqConfig => true
  | .devstatWrite _ => true
  | .tapdataRead => true
  | .tapdataWrite _ => true
  | .evrec3Read => true
  | .evlostWrite _ => true
  | .evthreshWrite _ => true
  | .dmactlWrite _ => true
  | .dmaRead => true
  | .iflagWrite _ => true
  | .ilevelWrite _ _ => true
  | .ithreshWrite _ => true
  | .linedivWrite _ _ => true
  | .commandOverrun _ => true
  | .allocBlock => true
  | .freeBlock => true
  | .bindOutput => true
  | .bindImage => true
  | .unbindOutput => true
  | .unbindImage => true
  | .commitOutput => true
  | .holdImage => true
  | .releaseImage => true
  | .submit => true
  | .abort => true
  | .park => true
  | .resume => true
  | .clearCounters => true
  | .lineBreak => true
  | .candidateStartBit _ => true
  | .startNotConfirmed _ => true
  | .lineReturnsTo1 _ => true

end Sys2Proof
end

