-- ==== Sys2Proof/Tests/Slice0.lean ====
section
/-!
SUPPORT. Tests of the model: the operand checks, steps of the manual's own examples, and for every statement with
hypotheses a concrete state and operands that meet them.
-/

open Sys2Proof Sys2Proof.Machine

namespace Sys2Proof.Tests

set_option Elab.async false

/-! ## Operand checks: an ill-formed command for each -/

/-- Three equal samples. -/
def same (b : Bool) : Samples := ⟨b, b, b⟩

/-- The samples of a clean character. -/
def clean (v : Byte) (mark : Bool) : CharSamples where
  start := same false
  d0 := same (v.getLsbD 0)
  d1 := same (v.getLsbD 1)
  d2 := same (v.getLsbD 2)
  d3 := same (v.getLsbD 3)
  d4 := same (v.getLsbD 4)
  d5 := same (v.getLsbD 5)
  d6 := same (v.getLsbD 6)
  d7 := same (v.getLsbD 7)
  mark := same mark
  stop := same true

theorem test_wellFormed_start_sample_refused :
    WellFormed (.characterArrival .zero { clean 0x05 true with start := ⟨true, false, false⟩ }) = false := by decide

theorem test_wellFormed_start_sample : WellFormed (.characterArrival .zero (clean 0x05 true)) = true := by decide

theorem test_wellFormed_registerWrite_own_row_refused :
    WellFormed (.registerWrite 0x08 0x0001) = false ∧ WellFormed (.registerWrite 0x01 2) = false
      ∧ WellFormed (.registerWrite 0x02 1) = false := by decide

theorem test_wellFormed_registerWrite :
    WellFormed (.registerWrite 0x20 3) = true ∧ WellFormed (.registerWrite 0x01 4) = true
      ∧ WellFormed (.registerWrite 0x02 2) = true := by decide

theorem test_wellFormed_badCommand_refused : WellFormed (.badCommand 0x000F) = false := by decide

theorem test_wellFormed_badCommand : WellFormed (.badCommand 0x0010) = true ∧ WellFormed (.badCommand 0) = true := by decide

/-! ## Small states -/

/-- The state an outcome answers. -/
def after : Host.Outcome State Fault Refusal → State
  | .next t => t
  | .fault r => nomatch r
  | .refused _ => State.reset

/-- Out of reset, in a mode. -/
def inMode (m : Mode) : State := { State.reset with resetLow := false, mode := m }

/-- Line 0 enabled and quiet, its engine in a state. -/
def quietLine (e : EngineState) : Line := { Line.reset with enable := true, engine := e, rx := .hunting }

/-- RUN with this line 0. -/
def running (l : Line) : State := { inMode .run with line0 := l }

/-- The same with the receiver ASSEMBLING. -/
def assembling (e : EngineState) : Line := { quietLine e with rx := .assembling }

/-- Station 5 of the manual's example: enabled on line 0 at address 5. -/
def station5 : Station := { Station.reset with enabled := true, address := 5 }

/-- A first attempt of entry 0, station 0. -/
def cyclicAttempt : Attempt where
  origin := .cyclic 0
  station := some 0
  kind := .poll
  seqSent := 2
  attempt := some 1
  reqLen := 0
  sent := 0
  received := 0
  replyKind := none
  replyAddress := none
  replySeq := none
  replyLen := none
  outcome := none
  retryOwed := false
  stop := ⟨false, false, false, false, false, false⟩
  fixedOutcome := none
  check := 0xFFFF
  checkHigh := 0

/-- A SYNC frame's record. -/
def syncAttempt : Attempt :=
  { cyclicAttempt with origin := .sync, station := none, kind := .sync, seqSent := 0, attempt := none, reqLen := 2 }

/-- An attempt of slot 0. -/
def requestAttempt : Attempt := { cyclicAttempt with origin := .acyclic 0, kind := .write }

/-- A PARK of station 0 BUSY. -/
def parking (s : State) : State := { s with cmdState := .busy, cmd := 0x0C, args := #v[0, 0, 0, 0] }

/-- Blocks 0 and 1 of the host. -/
def twoBlocks (m : Mode) : State := (inMode m).setOwner 0 .host |>.setOwner 1 .host

/-- The argument words. -/
def withArgs (a b c d : Word) (s : State) : State := { s with carg := #v[a, b, c, d] }

/-- A completion record. -/
def doneRecord : Event := { Event.blank .requestDone with station := 2 }

/-- The queue with n completion records. -/
def withRecords (n : Nat) (s : State) : State := { s with events := List.replicate n doneRecord }

/-! ## Characters, frames, lengths (R2, R3, R9, R11, R12, R14) -/

theorem test_character_bits :
    (⟨0x05, true⟩ : TxChar).bits = [false, true, false, true, false, false, false, false, false, true, true] := by decide

theorem test_character_from_samples :
    CharSamples.decode (clean 0x85 true) = ⟨0x85, true, false, false⟩
      ∧ CharSamples.decode { clean 0x05 true with d0 := ⟨true, false, true⟩ } = ⟨0x05, true, true, false⟩
      ∧ CharSamples.decode { clean 0x05 true with stop := ⟨false, true, false⟩ } = ⟨0x05, true, true, true⟩ := by decide

theorem test_header_bytes : headerByte .poll 5 = 0x05 ∧ headerByte .sync 0 = 0x60 := by decide

theorem test_seqLen_bytes : seqLenByte 2 8 = 0x88 ∧ seqLenByte 2 4 = 0x84 := by decide

theorem test_check_sequence_of_ascii_digits :
    checkSequence [0x31, 0x32, 0x33, 0x34, 0x35, 0x36, 0x37, 0x38, 0x39] = 0x29B1 := by decide +kernel

theorem test_sync_frame_bytes :
    ((syncFrame 0x0201).map TxChar.byte).take 4 = [0x60, 0x02, 0x01, 0x02] ∧ (syncFrame 0x0201).length = 6 := by decide

theorem test_poll_frame_length : (requestFrame .poll 5 2 (List.replicate 8 0)).length = 12 := by decide +kernel

/-- Character times in periods of 1/32 µs: 88 µs at DIV 255, 5.5 µs at 15, 1408 µs at 4095 (Table 1-2). -/
theorem test_character_times :
    Line.reset.charClocks = 88 * 32 ∧ ({ Line.reset with div := 15 } : Line).charClocks = 176
      ∧ ({ Line.reset with div := 4095 } : Line).charClocks = 1408 * 32 := by decide

theorem test_cycle_length : Line.reset.cycleClocks = 10000 * 32 := by decide

/-! ## Reset and the register window (R149, R150, Table 10-1) -/

theorem test_reset_words :
    State.reset.readRegister 0x00 = 0 ∧ State.reset.readRegister 0x16 = 1 ∧ State.reset.readRegister 0x1A = 0x1111
      ∧ State.reset.readRegister 0x1F = 31 ∧ State.reset.readRegister 0x21 = 255 ∧ State.reset.readRegister 0x22 = 0x1204
      ∧ State.reset.readRegister 0x23 = 1000 := by decide

theorem test_clearing_waits_for_release : (after (exec .clearingComplete State.reset)).mode = .init := by decide

theorem test_clearing_reaches_config :
    (after (exec .clearingComplete { State.reset with resetLow := false })).readRegister 0x00 = 0x0021 := by decide

theorem test_init_ignores_a_write : (after (exec (.registerWrite 0x20 3) State.reset)).line0.enable = false := by decide

theorem test_linediv_below_15 : (after (exec (.linedivWrite .one 3) (inMode .config))).line1.div = 15 := by decide

theorem test_refused_write_is_recorded :
    let s := after (exec (.registerWrite 0x2B 5) (inMode .run))
    s.accaddr = 0x0056 ∧ s.accDir = .write ∧ s.readRegister 0x18 = 0x8000 := by decide

theorem test_first_refusal_is_kept :
    (after (exec (.registerWrite 0x30 5) { inMode .run with edges := 0x8000, accaddr := 0x0056 })).accaddr = 0x0056 := by
  decide

/-! ## The example of Table 9-8 -/

/-- The setting of section 9.8, with the flags of two, three or four sources. -/
def levels (flags : Word) : State :=
  { withRecords 1 (inMode .run) with
    ienable := 0xC011
    ilevel := #v[2, 1, 1, 1, 3, 1, 1, 1, 1, 1, 1, 1, 1, 1, 6, 6]
    ithresh := 3
    edges := flags }

theorem test_itop_of_the_example :
    (levels 0).itop = 31 ∧ (levels 0x0010).itop = 4 ∧ (levels 0x4010).itop = 14 ∧ (levels 0xC010).itop = 14
      ∧ (after (exec (.iflagWrite 0x4000) (levels 0xC010))).itop = 15
      ∧ (after (exec (.ithreshWrite 4) (levels 0x0010))).itop = 31 := by decide

theorem test_ilevel_narrowed : (after (exec (.ilevelWrite 1 0xF002) (inMode .run))).readRegister 0x1B = 0x7002 := by decide

/-! ## The due rule of Table 3-3 -/

/-- Entry 4 of the example: divider 8, phase 3. -/
def schedule : State :=
  (running (quietLine .turnaround)).setStation 6 { station5 with address := 6 } |>.setEntry 4
    { Entry.reset with enabled := true, station := 6, divExp := 3, phase := 3 }

theorem test_due_in_cycle_3_and_11 :
    schedule.due .zero 3 4 = some false ∧ schedule.due .zero 11 4 = some false ∧ schedule.due .zero 4 4 = none
      ∧ schedule.due .one 3 4 = none := by decide

/-- Line 0 of section 3.10: cycle 3, the walk at 2, an attempt of entry 1 in its reply window. -/
def overrunning : State :=
  { schedule with line0 := { quietLine .awaitReply with cycnum := 3, walk := 2, timerRunning := true, attempt := some cyclicAttempt } }

theorem test_overrun_of_the_example :
    let s := after (exec (.cycleStart .zero) overrunning)
    s.line0.cycnum = 4 ∧ s.line0.walk = 0 ∧ (s.entry 4).last = .skipped ∧ (s.entry 4).skipped = 1
      ∧ s.events = [{ cycleOverrunNotice .zero 1 with cycle := 4 }] ∧ s.iflag = 0x0443 := by decide +kernel

/-! ## The sequences of chapter 11, one step each -/

/-- Before the decision of 704 µs: entry 0 with a commit waiting, station 0 at address 1. -/
def beforeEntry0 : State :=
  (running (quietLine .turnaround)).setStation 0 { station5 with address := 1 } |>.setEntry 0
    { Entry.reset with enabled := true, binding := some (0, 1), commitPending := true, stagedLen := 4 }

theorem test_entry_0_taken :
    let s := after (exec (.turnaroundSatisfied .zero) beforeEntry0)
    s.line0.engine = .sending ∧ s.line0.walk = 1 ∧ (s.entry 0).active = .b ∧ (s.entry 0).outputLen = 4
      ∧ (s.station 0).seq = 1 ∧ s.line0.drive = .character ⟨0x01, true⟩ ∧ s.line0.frameRest.length = 7 := by decide +kernel

/-- Before the last check character of a reply: the check and the address agree. -/
def lastCheck (a : Attempt) (kind : ReplyKind) : State :=
  (running { assembling .receiving with attempt := some { a with
      received := 5, replyKind := some kind, replyAddress := some 5, replySeq := some 2, replyLen := some 2
      check := 0x1234, checkHigh := 0x12 } }).setStation 0 station5

theorem test_image_flips :
    let s := after (exec (.characterArrival .zero (clean 0x34 false)) ((lastCheck cyclicAttempt .ok).setStation 0
      { station5 with image := some (2, 3), notify := true }))
    (s.station 0).current = .b ∧ (s.station 0).imageLen = 2 ∧ (s.station 0).imageSeq = 1 ∧ (s.station 0).age = 0
      ∧ (s.station 0).good = 1 ∧ s.owner 3 = .imageCurrent 0 ∧ s.owner 2 = .imageNext 0 ∧ (s.entry 0).last = .ok
      ∧ s.line0.engine = .turnaround := by decide +kernel

theorem test_second_timeout_degrades :
    let s := after (exec (.replyWindowExpiry .zero) ((running { quietLine .awaitReply with
      attempt := some { cyclicAttempt with attempt := some 2 } }).setEntry 0 { Entry.reset with retries := 1 }))
    (s.station 0).health = .degraded ∧ (s.station 0).missCount = 1 ∧ (s.station 0).missed = 1
      ∧ (s.station 0).failedAttempts = 1 ∧ (s.entry 0).last = .timeout := by decide +kernel

/-- Slot 0 of section 11.5 with its request in the station's hands. -/
def lateSlot (st : SlotState) : Slot :=
  { Slot.reset with state := st, kind := .write, station := 0, tag := 7, reqBlock := 4, replyBlock := 255, reqLen := 2 }

theorem test_late_abort :
    let s := after (exec (.characterArrival .zero (clean 0x34 false)) ((lastCheck { requestAttempt with
      stop := ⟨false, false, false, false, true, false⟩ } .ok).setSlot 0 (lateSlot .abortPending)
      |>.setOwner 4 (.request 0)))
    (s.slot 0).state = .free ∧ (s.slot 0).abortLate = true ∧ (s.slot 0).attempts = 1 ∧ (s.slot 0).outcome = .ok
      ∧ s.owner 4 = .host ∧ s.events.map (fun e => (e.word 1, e.word 3)) = [(0x0100, 0x0107)] := by decide +kernel

theorem test_release_flips_what_was_held_back :
    let s := after (exec .releaseImage ((inMode .run).setStation 0 { station5 with
      image := some (2, 3), current := .b, hold := true, newer := true, imageLen := 2, nextLen := 3, imageSeq := 1 }))
    s.result = .ok ∧ s.cvalue = 1 ∧ (s.station 0).current = .a ∧ (s.station 0).imageLen = 3 ∧ (s.station 0).nextLen = 3
      ∧ (s.station 0).imageSeq = 2 ∧ s.owner 2 = .imageCurrent 0 ∧ s.owner 3 = .imageNext 0 := by decide +kernel

theorem test_first_payload_byte_destroys_the_held_back_reply :
    let s := after (exec (.characterArrival .zero (clean 0xAA false)) ((running { assembling .receiving with
      attempt := some { cyclicAttempt with received := 2, replyKind := some .ok, replyLen := some 2 } }).setStation 0
        { station5 with image := some (2, 3), current := .b, hold := true, newer := true }))
    (s.station 0).newer = false ∧ (s.station 0).overwrites = 1 ∧ s.payload = [(64, 0xAA)] := by decide +kernel

/-- Section 11.7: a loss at 62 and at 63 records, and at 64 behind a completion. -/
theorem test_losses :
    (State.offerNotice (Event.blank .lineFault) (withRecords 63 (inMode .run))).events.getLast?.map Event.kind = some .loss
      ∧ (State.offerNotice (Event.blank .lineFault) (withRecords 64 (inMode .run))).events = List.replicate 64 doneRecord
      ∧ (State.offerNotice (Event.blank .lineFault) (withRecords 64 (inMode .run))).evlost = 1 := by decide +kernel

theorem test_held_completion_enters_at_a_read :
    let s := after (exec .evrec3Read { withRecords 64 (inMode .run) with done := [(6, doneRecord), (9, doneRecord)] })
    s.events.length = 64 ∧ s.done.map Prod.fst = [9] ∧ (s.slot 6).state = .free := by decide +kernel

theorem test_submit_is_taken_by_an_idle_engine :
    let s := after (exec .submit (withArgs 0x0080 7 0xFF00 2
      ((({ twoBlocks .run with line0 := { quietLine .idle with phase := .acyclic, walk := 64 } } : State).setStation 0 station5))))
    s.result = .ok ∧ s.cvalue = 0 ∧ (s.slot 0).state = .active ∧ s.owner 0 = .request 0 ∧ s.line0.engine = .sending
      ∧ s.line0.drive = .character ⟨0x45, true⟩ := by decide +kernel

theorem test_park_waits_for_its_transaction :
    (after (exec .park (running { quietLine .awaitReply with attempt := some cyclicAttempt }))).readRegister 0x0D = 0x0001 := by
  decide +kernel

theorem test_break_lengths : (quietLine .breaking).span .breakLow = 24 * 256 ∧ (quietLine .breaking).span .breakGuard = 22 * 256 := by
  decide

/-! ## Witnesses: each theorem shows states and operands that meet all hypotheses of a statement's clauses -/

/-- A state whose queue of commands starts with c. -/
def queued (c : Instr) (s : State) : State := { s with pending := [c, .iflagWrite 0] }

theorem witness_StepRunsTheFrontCommand :
    (queued .resetRelease State.reset).pending = .resetRelease :: [.iflagWrite 0] ∧ State.reset.pending = [] := by decide

theorem witness_HardResetAndInit_release :
    (inMode .init).mode = .init ∧ (inMode .init).resetLow = false := by decide

theorem witness_ControlResetSetsEveryBlock :
    (inMode .init).mode = .init ∧ (0xFFFE : Word).getLsbD 0 = false ∧ (inMode .run).mode ≠ .init
      ∧ (let s := ((inMode .run).setSlot 1 (lateSlot .done)).setOwner 4 (.request 1) |>.setOwner 5 (.reply 1)
        (s.slot 0).state = .free ∧ (s.slot 1).state ≠ .free ∧ s.owner 4 = .request 1 ∧ s.owner 5 = .reply 1
          ∧ ∀ k, s.owner 0 ≠ .request k ∧ s.owner 0 ≠ .reply k)
      ∧ (inMode .run).RegistersLawful := by
  unfold State.RegistersLawful
  decide +kernel

theorem witness_HardResetAndInit_init :
    isHostWrite .submit = true ∧ isHostWrite (.registerWrite 0x20 3) = true ∧ (inMode .init).mode = .init := by decide

/-- Line 0 with its receiver in a state and the pin at a level. -/
def receiver (e : EngineState) (r : RxState) (level : Bool) : State := running { quietLine e with rx := r, rxd := level }

theorem witness_ReceiverFollowsThePin :
    (((receiver .idle .hunting true).line .zero).rx = .hunting ∧ ((receiver .idle .hunting true).line .zero).rxd = true)
      ∧ ((receiver .idle .waitHigh false).line .zero).rx ≠ .hunting
      ∧ ((receiver .awaitReply .starting false).line .zero).rx = .starting
      ∧ ((receiver .idle .hunting true).line .zero).rx ≠ .starting
      ∧ (((receiver .idle .waitHigh false).line .zero).rx = .waitHigh ∧ ((receiver .idle .waitHigh false).line .zero).engine ≠ .off)
      ∧ ((receiver .idle .hunting true).line .zero).rx ≠ .waitHigh ∧ ((receiver .off .waitHigh false).line .zero).engine = .off := by
  decide

theorem witness_CharactersBySamplesAndBits :
    majority ⟨true, false, true⟩ ∧ ¬ majority ⟨false, false, true⟩ ∧ ¬ samplesAgree ⟨true, false, true⟩ ∧ samplesAgree (same false) := by
  unfold majority samplesAgree
  decide

theorem witness_ArrivalOutsideAReply :
    ((receiver .idle .starting false).line .zero).rx ≠ .assembling
      ∧ (let l := (running { assembling .hold with unsolMark := true }).line .zero
        l.rx = .assembling ∧ l.engine = .hold ∧ l.unsolMark = true)
      ∧ (let l := (running (assembling .idle)).line .zero
        l.rx = .assembling ∧ l.engine = .idle ∧ l.unsolMark = false)
      ∧ (let l := (running (assembling .sending)).line .zero
        l.rx = .assembling ∧ l.engine = .sending)
      ∧ (let l := (running (assembling .faulted)).line .zero
        l.rx = .assembling ∧ l.engine = .faulted) := by decide

/-- RECEIVING with an attempt that has received so much. -/
def receiving (a : Attempt) : State := running { assembling .receiving with attempt := some a }

/-- The situations of a reply character, and a character for each check that fails: the last position of 34 among them. -/
theorem witness_ReplyCharactersAreCheckedAndStored_failing :
    (let s := receiving cyclicAttempt;
      (s.line .zero).rx = .assembling ∧ (s.line .zero).engine = .receiving ∧ (s.line .zero).attempt = some cyclicAttempt
        ∧ cyclicAttempt.origin ≠ .sync)
      ∧ arrivalFails 36 (CharSamples.decode { clean 0 false with stop := same false }) .framing
      ∧ arrivalFails 1 (CharSamples.decode (clean 0x85 false)) .fragment
      ∧ arrivalFails 2 (CharSamples.decode (clean 0x84 true)) .fragment
      ∧ arrivalFails 1 (CharSamples.decode (clean 0x65 true)) .badFrame
      ∧ arrivalFails 1 (CharSamples.decode (clean 0xE5 true)) .badFrame
      ∧ arrivalFails 2 (CharSamples.decode (clean 0x21 false)) .badFrame := by
  unfold arrivalFails
  refine ⟨by decide, ?_, ?_, ?_, ?_, ?_, ?_⟩ <;> decide

theorem witness_ReplyCharactersAreCheckedAndStored_passing :
    ((CharSamples.decode (clean 0x85 true)).framing = false ∧ (CharSamples.decode (clean 0x85 true)).mark = true
        ∧ ((CharSamples.decode (clean 0x85 true)).byte.extractLsb' 5 3).toNat = 4
        ∧ ((CharSamples.decode (clean 0xA5 true)).byte.extractLsb' 5 3).toNat = 5
        ∧ ((CharSamples.decode (clean 0xC5 true)).byte.extractLsb' 5 3).toNat = 6)
      ∧ ((CharSamples.decode (clean 0xA0 false)).mark = false
        ∧ ((CharSamples.decode (clean 0xA0 false)).byte.extractLsb' 0 6).toNat ≤ 32) := by decide

theorem witness_ReplyCharactersAreCheckedAndStored_payload :
    let a : Attempt := { requestAttempt with received := 31 + 2, replyKind := some .ok, replyLen := some 32 }
    let s := (receiving a).setSlot 0 { lateSlot .active with replyBlock := 127 }
    (s.line .zero).rx = .assembling ∧ (s.line .zero).engine = .receiving ∧ (s.line .zero).attempt = some a
      ∧ a.origin = .acyclic 0 ∧ a.replyKind = some .ok ∧ a.replyLen = some 32 ∧ a.received = 31 + 2 ∧ 31 < (32 : BitVec 6).toNat
      ∧ (CharSamples.decode (clean 0xAA false)).framing = false ∧ (CharSamples.decode (clean 0xAA false)).mark = false
      ∧ (s.slot 0).replyBlock.toNat = (127 : BlockIx).val ∧ s.MemoryLawful := by
  unfold State.MemoryLawful
  decide +kernel

/-- Payload byte 0 over a reply held back, byte 31 of a probe's reply, bytes without a place, and the first check byte. -/
theorem witness_ReplyBytesGoToTheirPlace :
    (CharSamples.decode (clean 0xAA false)).framing = false ∧ (CharSamples.decode (clean 0xAA false)).mark = false
      ∧ (let a : Attempt := { cyclicAttempt with received := 0 + 2, replyKind := some .ok, replyLen := some 32 }
        let s := (receiving a).setStation 0 { station5 with image := some (2, 3), current := .b, hold := true, newer := true }
        (s.line .zero).rx = .assembling ∧ (s.line .zero).engine = .receiving ∧ (s.line .zero).attempt = some a ∧ a.replyLen = some 32
          ∧ a.received = 0 + 2 ∧ 0 < (32 : BitVec 6).toNat ∧ a.origin = .cyclic 0 ∧ a.station = some 0 ∧ a.replyKind = some .ok
          ∧ (s.station 0).image = some (2, 3) ∧ (s.station 0).newer = true ∧ s.MemoryLawful)
      ∧ (let a : Attempt := { cyclicAttempt with
          origin := .probe 63, received := 31 + 2, replyKind := some .ok, replyLen := some 32 }
        let s := (receiving a).setStation 0 { station5 with image := some (2, 127) }
        a.received = 31 + 2 ∧ 31 < (32 : BitVec 6).toNat ∧ a.origin = .probe 63 ∧ (s.station 0).image = some (2, 127) ∧ s.MemoryLawful)
      ∧ (let a : Attempt := { cyclicAttempt with received := 2, replyKind := some .busy, replyLen := some 1 }
        a.received = 0 + 2 ∧ 0 < (1 : BitVec 6).toNat ∧ a.replyKind = some .busy)
      ∧ (let a : Attempt := { cyclicAttempt with received := 2, replyKind := some .ok, replyLen := some 1 }
        a.origin = .cyclic 0 ∧ a.station = some 0 ∧ ((receiving a).station 0).image = none)
      ∧ (let a : Attempt := { requestAttempt with received := 2, replyKind := some .ok, replyLen := some 1 }
        a.origin = .acyclic 0 ∧ (((receiving a).setSlot 0 (lateSlot .active)).slot 0).replyBlock = 255)
      ∧ ∀ len ∈ [(0 : BitVec 6), 32],
        let a : Attempt := { cyclicAttempt with received := len.toNat + 2, replyKind := some .ok, replyLen := some len }
        ((receiving a).line .zero).attempt = some a ∧ a.received = len.toNat + 2 := by
  unfold State.MemoryLawful
  refine ⟨?_, ?_, ?_, ?_, ?_, ?_, ?_, ?_⟩ <;> decide +kernel

theorem witness_FramesAndTheirCheckSequence :
    ((List.replicate 32 (0 : Byte)).length ≤ 32 ∧ ([] : List Byte).length ≤ 32 ∧ (0x8000 : Word).getLsbD 15 = true
        ∧ (0x8000 : Word).getLsbD 15 ≠ false)
      ∧ (beforeEntry0.entry 0).binding = some (0, 1) ∧ (beforeEntry0.entry 63).binding = none ∧ 31 < 32
      ∧ (((inMode .run).setSlot 15 { lateSlot .active with reqBlock := 127 }).slot 15).reqBlock.toNat = (127 : BlockIx).val := by decide

/-- SENDING the last character, 0x05 with mark 1, of an attempt, with this read-back. -/
def sendingLast (a : Attempt) (back : Option RxChar) (rest : List TxChar) : State :=
  running { quietLine .sending with
    attempt := some a, drive := .character ⟨0x05, true⟩, readBack := back, frameRest := rest }

theorem witness_CharacterSentAndReadBack :
    (let s := sendingLast cyclicAttempt (some ⟨0x05, true, true, false⟩) [⟨0x88, false⟩];
      sends s .zero cyclicAttempt ⟨0x05, true⟩ ∧ agrees s .zero ⟨0x05, true⟩ ∧ (s.line .zero).frameRest = ⟨0x88, false⟩ :: [])
      ∧ (let s := sendingLast cyclicAttempt (some ⟨0x05, true, false, false⟩) []
        sends s .zero cyclicAttempt ⟨0x05, true⟩ ∧ agrees s .zero ⟨0x05, true⟩ ∧ (s.line .zero).frameRest = []
          ∧ cyclicAttempt.origin ≠ .sync)
      ∧ (let s := sendingLast syncAttempt (some ⟨0x05, true, false, false⟩) []
        sends s .zero syncAttempt ⟨0x05, true⟩ ∧ agrees s .zero ⟨0x05, true⟩ ∧ (s.line .zero).frameRest = []
          ∧ syncAttempt.origin = .sync ∧ s.mode = .run) := by
  refine ⟨⟨⟨rfl, rfl, rfl⟩, ⟨_, rfl, rfl, rfl, rfl⟩, rfl⟩, ⟨⟨rfl, rfl, rfl⟩, ⟨_, rfl, rfl, rfl, rfl⟩, rfl, by decide⟩,
    ⟨rfl, rfl, rfl⟩, ⟨_, rfl, rfl, rfl, rfl⟩, rfl, rfl, rfl⟩

/-- A break request that waits for the work of line 0 starts at its end, in RUN and in QUIESCING. -/
theorem witness_breakBegun :
    ∀ e ∈ [EngineState.turnaround, .hold, .idle, .faulted],
      breakBegun { quietLine e with breakRequest := true } = { quietLine .breaking with drive := .breakLow } := by
  intro e he
  revert e
  decide

/-- The same with a line fault count. -/
def colliding (a : Attempt) (back : Option RxChar) (faults : BitVec 4) : State :=
  (sendingLast a back []).modifyLine .zero fun l => { l with faults := faults }

theorem witness_CollisionsAndTheEighthFault :
    (let s := colliding cyclicAttempt none 6;
      sends s .zero cyclicAttempt ⟨0x05, true⟩ ∧ ¬ agrees s .zero ⟨0x05, true⟩ ∧ (s.line .zero).faults.toNat < 7)
      ∧ (let s := colliding cyclicAttempt (some ⟨0x05, false, false, false⟩) 0
        sends s .zero cyclicAttempt ⟨0x05, true⟩ ∧ ¬ agrees s .zero ⟨0x05, true⟩ ∧ (s.line .zero).faults.toNat < 7)
      ∧ (let s := colliding syncAttempt none 7
        sends s .zero syncAttempt ⟨0x05, true⟩ ∧ ¬ agrees s .zero ⟨0x05, true⟩ ∧ syncAttempt.origin = .sync
          ∧ syncAttempt.station = none ∧ (s.line .zero).faults = 7 ∧ s.mode = .run) := by
  refine ⟨⟨⟨rfl, rfl, rfl⟩, ?_, by decide⟩, ⟨⟨rfl, rfl, rfl⟩, ?_, by decide⟩, ⟨rfl, rfl, rfl⟩, ?_, rfl, rfl, rfl, rfl⟩
  · rintro ⟨r, h, -⟩
    cases h
  · rintro ⟨r, h, -, hm, -⟩
    cases h
    cases hm
  · rintro ⟨r, h, -⟩
    cases h

/-- QUIET_WAIT with an outcome fixed, at a line fault count. -/
def waitingQuiet (o : OutcomeCode) (faults : BitVec 4) : State :=
  running { quietLine .quietWait with attempt := some { cyclicAttempt with fixedOutcome := some o }, faults := faults }

/-- The mode's engine state: RUN, QUIESCING with the other line sending, and QUIESCING with a break waiting on this one. -/
theorem witness_goesTo (l : Line) :
    goesTo (running l) .zero .turnaround
      ∧ goesTo { running l with mode := .quiescing, line1 := quietLine .sending } .zero .hold
      ∧ (l.enable = true ∧ l.faulted = false → goesTo { running { l with breakRequest := true } with mode := .quiescing } .zero .hold) :=
  ⟨.inl ⟨rfl, rfl⟩, .inr ⟨rfl, rfl, .inl ⟨.one, nofun, rfl, nofun, rfl⟩⟩, fun h => .inr ⟨rfl, rfl, .inr ⟨rfl, h⟩⟩⟩

theorem witness_staysInMode (l : Line) :
    staysInMode (running l) .zero ∧ staysInMode { running l with mode := .quiescing, line1 := quietLine .sending } .zero :=
  ⟨.inl rfl, .inr ⟨rfl, .one, nofun, rfl, nofun, rfl⟩⟩

/-- What parkClear asks, with the PARK of the station BUSY and without. -/
theorem witness_parkClear (l : Line) :
    parkWaits (parking (running l)) 0 ∧ parkClear (parking (running l)) 0 station5 ∧ ¬ parkWaits (running l) 0
      ∧ parkClear (running l) 0 station5 :=
  ⟨⟨rfl, rfl, rfl⟩, fun _ => ⟨rfl, nofun⟩, nofun, nofun⟩

/-- Line 0 is the last: the other disabled, or faulted. -/
theorem witness_lastToRest (l : Line) :
    lastToRest { running l with mode := .quiescing } .zero
      ∧ lastToRest { running l with mode := .quiescing, line1 := { quietLine .faulted with faulted := true } } .zero :=
  ⟨⟨rfl, fun | .one, _, h => nomatch h⟩, rfl, fun | .one, _, _ => .inr rfl⟩

theorem witness_CollisionsAndTheEighthFault_syncAtTheQuietLimit :
    let s := running { quietLine .quietWait with attempt := some syncAttempt, faults := 7, breakRequest := true }
    (s.line .zero).engine = .quietWait ∧ (s.line .zero).attempt = some syncAttempt ∧ syncAttempt.origin = .sync
      ∧ syncAttempt.station = none ∧ (s.line .zero).faults = 7 ∧ staysInMode s .zero :=
  ⟨rfl, rfl, rfl, rfl, rfl, .inl rfl⟩

/-- The eighth fault by a collision: a poll, whose station takes COLLISION while its PARK is BUSY. -/
theorem witness_CollisionsAndTheEighthFault_poll :
    let s := parking ((colliding cyclicAttempt none 7).setStation 0 station5)
    ∃ l st notices, eighthFault s .zero (.characterSent .zero) .collision 0 l cyclicAttempt ∧ cyclicAttempt.station = some 0
      ∧ staysInMode s .zero ∧ parkWaits s 0 ∧ parkClear s 0 st ∧ cyclicAttempt.origin = .cyclic 0
      ∧ stationTakes s 0 .collision true st notices := by
  refine ⟨_, { station5 with last := .collision }, [], ⟨rfl, .inl ⟨⟨0x05, true⟩, rfl, ⟨rfl, rfl, rfl⟩, ?_, rfl, rfl, rfl⟩⟩, rfl,
    .inl rfl, ⟨rfl, rfl, rfl⟩, fun _ => ⟨rfl, nofun⟩, rfl, .inr (.inr (.inr ⟨rfl, rfl, rfl⟩))⟩
  rintro ⟨r, h, -⟩
  cases h

/-- The eighth fault at the quiet limit: a probe, whose station is OFFLINE. -/
theorem witness_CollisionsAndTheEighthFault_probe :
    let a := { cyclicAttempt with origin := .probe 0, fixedOutcome := some .framing }
    let s := (running { quietLine .quietWait with attempt := some a, faults := 7 }).setStation 0 { station5 with health := .offline }
    ∃ l st notices, eighthFault s .zero (.quietLimitExpiry .zero) .framing 1 l a ∧ a.station = some 0 ∧ staysInMode s .zero
      ∧ parkClear s 0 st ∧ a.origin = .probe 0 ∧ probeTakes s 0 .framing st notices :=
  ⟨_, _, _, ⟨rfl, .inr ⟨rfl, rfl, rfl, rfl, .inl rfl, rfl, rfl⟩⟩, rfl, .inl rfl, nofun, rfl, rfl, .inr (.inr (.inl ⟨rfl, rfl, rfl⟩))⟩

/-- The same at a slot's attempt with a break waiting: a retry was due with RETRIES 1, none with RETRIES 0. -/
theorem witness_CollisionsAndTheEighthFault_slot :
    ∀ retries ∈ [(1 : BitVec 3), 0],
      let a := { requestAttempt with fixedOutcome := some .framing }
      let s := ((running { quietLine .quietWait with attempt := some a, faults := 7, breakRequest := true }).setStation 0 station5).setSlot
        0 { lateSlot .active with retries := retries }
      ∃ l sl st notices, eighthFault s .zero (.quietLimitExpiry .zero) .framing 1 l a ∧ a.station = some 0 ∧ staysInMode s .zero
        ∧ a.origin = .acyclic 0 ∧ a.attempt = some 1
        ∧ (retries = 1 ∧ slotReturns s 0 a 1 .framing sl
          ∨ retries = 0 ∧ slotTakes s 0 a 1 .framing 0 sl ∧ stationTakes s 0 .framing false st notices ∧ parkClear s 0 st) := by
  simp only [List.mem_cons, List.not_mem_nil, or_false]
  rintro retries (rfl | rfl)
  · exact ⟨_, _, station5, [], ⟨rfl, .inr ⟨rfl, rfl, rfl, rfl, .inl rfl, rfl, rfl⟩⟩, rfl, .inl rfl, rfl, rfl,
      .inl ⟨rfl, by decide, .inl rfl, rfl, rfl, rfl⟩⟩
  · exact ⟨_, _, _, _, ⟨rfl, .inr ⟨rfl, rfl, rfl, rfl, .inl rfl, rfl, rfl⟩⟩, rfl, .inl rfl, rfl, rfl,
      .inr ⟨rfl, .inr ⟨rfl, rfl, .inr (.inr (.inr ⟨.inl rfl, .inl (by decide)⟩))⟩,
        .inr (.inl ⟨rfl, .inl rfl, by decide, rfl, rfl⟩), nofun⟩⟩

theorem witness_FailedAttemptsWaitOrRetry_gap :
    let a := { cyclicAttempt with received := 1 }
    let s := running { quietLine .receiving with attempt := some a }
    (s.line .zero).engine = .receiving ∧ (s.line .zero).rx ≠ .assembling ∧ (s.line .zero).attempt = some a ∧ 1 ≤ a.received
      ∧ a.origin ≠ .sync := by decide

/-- The attempt before its last check character. -/
def checked (a : Attempt) (kind : ReplyKind) : Attempt :=
  { a with
    received := 5, replyKind := some kind, replyAddress := some 5, replySeq := some 2, replyLen := some 2
    check := 0x1234, checkHigh := 0x12 }

theorem witness_replyEnds (a : Attempt) (kind : ReplyKind) :
    replyEnds (lastCheck a kind) .zero (clean 0x34 false) (checked a kind) 2 := ⟨rfl, rfl, rfl, rfl, rfl, by decide, by decide⟩

theorem witness_replyGives (a : Attempt) (h : a.seqSent = 2) :
    replyGives (checked a .ok) 0x1235 5 .crcError ∧ replyGives (checked a .ok) 0x1234 6 .wrongStation
      ∧ replyGives (checked { a with seqSent := 1 } .ok) 0x1234 5 .stale ∧ replyGives (checked a .ok) 0x1234 5 .ok
      ∧ replyGives (checked a .busy) 0x1234 5 .busy ∧ replyGives (checked a .refused) 0x1234 5 .refused := by
  simp [replyGives, checked, h]

/-- All that FailedAttemptsWaitOrRetry asks of a state, a command and an outcome: attempt 1 of an entry with RETRIES 1. -/
def RetryOwed (s : State) (c : Instr) (o : OutcomeCode) : Prop :=
  ∃ l a b, attemptEnds s .zero c o l a b ∧ s.mode = .run ∧ a.origin = .cyclic 0 ∧ a.station = some 0 ∧ a.attempt = some 1
    ∧ 1 ≤ (s.entry 0).retries.toNat ∧ a.stop = noStop ∧ (o.isMiss = true ∨ o = .collision)

/-- An entry with RETRIES 1. -/
def retrying (s : State) : State := s.setEntry 0 { Entry.reset with retries := 1 }

/-- In its window, and waiting for quiet with a miss and with COLLISION fixed: at the quiet, and at the quiet limit. -/
theorem witness_FailedAttemptsWaitOrRetry_retry :
    RetryOwed (retrying (running { quietLine .awaitReply with attempt := some cyclicAttempt })) (.replyWindowExpiry .zero) .timeout
      ∧ RetryOwed (retrying (waitingQuiet .framing 0)) (.quietWaitEnd .zero) .framing
      ∧ RetryOwed (retrying (waitingQuiet .collision 6)) (.quietLimitExpiry .zero) .collision :=
  ⟨⟨_, _, _, .inl ⟨rfl, rfl, rfl, rfl, rfl, rfl⟩, rfl, rfl, rfl, rfl, by decide +kernel, rfl, .inl rfl⟩,
    ⟨_, _, _, .inr (.inl ⟨rfl, .inl rfl, rfl, .inl ⟨rfl, rfl⟩, rfl, rfl, rfl, rfl⟩), rfl, rfl, rfl, rfl, by decide +kernel, rfl, .inl rfl⟩,
    ⟨_, _, _, .inr (.inr (.inl ⟨rfl, .inr rfl, rfl, by decide, rfl, rfl, rfl, rfl⟩)), rfl, rfl, rfl, rfl, by decide +kernel, rfl,
      .inr rfl⟩⟩

/-- The last check character of a reply that gives this outcome. -/
theorem attemptEnds_reply (a : Attempt) (kind : ReplyKind) (s : State) (v : Byte) (o : OutcomeCode)
    (hr : replyEnds s .zero (clean v false) (checked a kind) 2) (hs : a.station = some 0)
    (ho : replyGives (checked a kind) ((checked a kind).checkHigh ++ (CharSamples.decode (clean v false)).byte) (s.station 0).address o) :
    attemptEnds s .zero (.characterArrival .zero (clean v false)) o (delivered (s.line .zero) (clean v false))
      { checked a kind with received := 6 } s :=
  .inr (.inr (.inr ⟨_, checked a kind, 2, 0, rfl, hr, hs, ho, rfl, rfl, rfl⟩))

/-- A complete reply that is CRC_ERROR, WRONG_STATION or STALE. -/
theorem witness_FailedAttemptsWaitOrRetry_reply :
    RetryOwed (retrying (lastCheck cyclicAttempt .ok)) (.characterArrival .zero (clean 0x35 false)) .crcError
      ∧ RetryOwed (retrying ((lastCheck cyclicAttempt .ok).setStation 0 { station5 with address := 6 }))
        (.characterArrival .zero (clean 0x34 false)) .wrongStation
      ∧ RetryOwed (retrying (lastCheck { cyclicAttempt with seqSent := 1 } .ok)) (.characterArrival .zero (clean 0x34 false)) .stale :=
  ⟨⟨_, _, _, attemptEnds_reply cyclicAttempt .ok _ _ _ ⟨rfl, rfl, rfl, rfl, rfl, by decide, by decide⟩ rfl (.inl ⟨rfl, by decide⟩),
      rfl, rfl, rfl, rfl, by decide +kernel, rfl, .inl rfl⟩,
    ⟨_, _, _, attemptEnds_reply cyclicAttempt .ok _ _ _ ⟨rfl, rfl, rfl, rfl, rfl, by decide, by decide⟩ rfl
      (.inr (.inl ⟨rfl, rfl, by decide +kernel⟩)), rfl, rfl, rfl, rfl, by decide +kernel, rfl, .inl rfl⟩,
    ⟨_, _, _, attemptEnds_reply { cyclicAttempt with seqSent := 1 } .ok _ _ _ ⟨rfl, rfl, rfl, rfl, rfl, by decide, by decide⟩ rfl
      (.inr (.inr (.inl ⟨rfl, rfl, rfl, by decide⟩))), rfl, rfl, rfl, rfl, by decide +kernel, rfl, .inl rfl⟩⟩

/-- Past the budget, and within it with a STOP reason and a break waiting. -/
theorem witness_FinalMissOfACyclicTransaction :
    (∀ h : Health, h = .online ∨ h = .degraded →
      let a := cyclicAttempt
      let s := (running { quietLine .awaitReply with attempt := some a }).setStation 0
        { station5 with health := h, missCount := if h = .online then 0 else 1 }
      s.mode = .run ∧ (s.line .zero).attempt = some a ∧ a.origin = .cyclic 0 ∧ a.station = some 0 ∧ a.attempt = some 1
        ∧ (s.entry 0).retries.toNat < 1 ∧ ¬ parkWaits s 0
        ∧ (s.line .zero).engine = .awaitReply ∧ OutcomeCode.timeout ≠ .collision ∧ (s.station 0).health = h
        ∧ (s.station 0).missCount.toNat + 1 < (s.station 0).missLimit.toNat)
      ∧ let a := { cyclicAttempt with
          fixedOutcome := some .collision, stop := ⟨false, true, false, false, false, false⟩ }
        let s := running { quietLine .quietWait with attempt := some a, breakRequest := true }
        s.mode = .run ∧ (s.line .zero).attempt = some a ∧ a.origin = .cyclic 0 ∧ a.station = some 0 ∧ a.attempt = some 1
          ∧ a.stop ≠ ⟨false, false, false, false, false, false⟩ ∧ ¬ parkWaits s 0
          ∧ (s.line .zero).engine = .quietWait ∧ isQuiet (s.line .zero) ∧ a.fixedOutcome = some .collision := by
  unfold isQuiet
  refine ⟨?_, by decide +kernel⟩
  rintro h (rfl | rfl) <;> decide +kernel

/-- What the first clause of StationReachesOffline asks of a state, a command, an outcome and a record of station 0. -/
def LimitEnds (s : State) (c : Instr) (o : OutcomeCode) : Prop :=
  ∃ l a b, attemptEnds s .zero c o l a b ∧ o.isMiss = true ∧ a.station = some 0 ∧ a.attempt = some 1
    ∧ (s.mode = .run ∨ s.mode = .quiescing) ∧ ¬ parkWaits s 0 ∧ reachesLimit (s.station 0)
    ∧ ((∃ e, a.origin = .cyclic e ∧ ((s.entry e).retries.toNat < 1 ∨ a.stop ≠ noStop)) ∨ (∃ e, a.origin = .probe e)
      ∨ (∃ k sl, a.origin = .acyclic k ∧ slotTakes s k a 1 o 0 sl ∧ (s.slot k).state ≠ .pending))

/-- Station 0 one miss below its limit, slots 15 and 3 of it PENDING and one of another station. -/
def atLimit (l : Line) : State :=
  { (running l).setStation 0 { station5 with health := .degraded, missCount := 2 } |>.setSlot 3 (lateSlot .pending)
      |>.setSlot 15 (lateSlot .pending) |>.setSlot 4 { lateSlot .pending with station := 1 } with submitted := [15, 4, 3] }

theorem reachesLimit_atLimit : reachesLimit { station5 with health := .degraded, missCount := 2 } := ⟨.inr rfl, by decide, by decide⟩

/-- The window past the budget; the quiet wait in QUIESCING; the quiet limit of a probe with a break waiting; a CRC_ERROR; a slot's. -/
theorem witness_StationReachesOffline :
    LimitEnds (atLimit { quietLine .awaitReply with attempt := some cyclicAttempt }) (.replyWindowExpiry .zero) .timeout
      ∧ LimitEnds { atLimit { quietLine .quietWait with attempt := some { cyclicAttempt with
          fixedOutcome := some .framing, stop := { noStop with quiesce := true } } } with mode := .quiescing } (.quietWaitEnd .zero) .framing
      ∧ LimitEnds (atLimit { quietLine .quietWait with
          attempt := some { cyclicAttempt with origin := .probe 0, fixedOutcome := some .framing }, breakRequest := true })
        (.quietLimitExpiry .zero) .framing
      ∧ LimitEnds (atLimit ((lastCheck cyclicAttempt .ok).line .zero)) (.characterArrival .zero (clean 0x35 false)) .crcError
      ∧ LimitEnds ((atLimit { quietLine .awaitReply with attempt := some requestAttempt }).setSlot 0 (lateSlot .active))
        (.replyWindowExpiry .zero) .timeout :=
  ⟨⟨_, _, _, .inl ⟨rfl, rfl, rfl, rfl, rfl, rfl⟩, rfl, rfl, rfl, .inl rfl, nofun, reachesLimit_atLimit,
      .inl ⟨0, rfl, .inl (by decide +kernel)⟩⟩,
    ⟨_, _, _, .inr (.inl ⟨rfl, .inl rfl, rfl, .inl ⟨rfl, rfl⟩, rfl, rfl, rfl, rfl⟩), rfl, rfl, rfl, .inr rfl, nofun,
      reachesLimit_atLimit, .inl ⟨0, rfl, .inr (by decide)⟩⟩,
    ⟨_, _, _, .inr (.inr (.inl ⟨rfl, .inl rfl, rfl, by decide, rfl, rfl, rfl, rfl⟩)), rfl, rfl, rfl, .inl rfl, nofun,
      reachesLimit_atLimit, .inr (.inl ⟨0, rfl⟩)⟩,
    ⟨_, _, _, attemptEnds_reply cyclicAttempt .ok _ _ _ ⟨rfl, rfl, rfl, rfl, rfl, by decide, by decide⟩ rfl (.inl ⟨rfl, by decide⟩),
      rfl, rfl, rfl, .inl rfl, nofun, reachesLimit_atLimit, .inl ⟨0, rfl, .inl (by decide +kernel)⟩⟩,
    ⟨_, _, _, .inl ⟨rfl, rfl, rfl, rfl, rfl, rfl⟩, rfl, rfl, rfl, .inl rfl, nofun, reachesLimit_atLimit,
      .inr (.inr ⟨0, _, rfl, .inr ⟨rfl, rfl, .inr (.inr (.inr ⟨.inl rfl, .inl (by decide)⟩))⟩, by decide +kernel⟩)⟩⟩

/-- The slots of that station and the one of another, and room for the one notice when none of its slots is PENDING. -/
theorem witness_StationReachesOffline_slots :
    (let s := atLimit { quietLine .awaitReply with attempt := some cyclicAttempt };
      (∀ k ∈ [(15 : SlotIx), 3], k ∈ s.submitted ∧ (s.slot k).state = .pending ∧ (s.slot k).station = 0)
        ∧ (s.slot 4).state = .pending ∧ (s.slot 4).station ≠ 0 ∧ (s.slot 0).state ≠ .pending)
      ∧ let s := { withRecords 47 (atLimit (quietLine .awaitReply)) with submitted := [4] }
        s.pendingOf 0 = [] ∧ s.events.length < 48 := by
  refine ⟨?_, ?_⟩ <;> decide +kernel

/-- Attempt 1 failed with TIMEOUT, the retry still owed. -/
def owing (a : Attempt) : Attempt := { a with retryOwed := true, outcome := some .timeout }

/-- TURNAROUND between attempts, the station one miss below its limit. -/
def owingAtLimit (a : Attempt) : State := atLimit { quietLine .turnaround with attempt := some (owing a) }

theorem witness_betweenAttempts (a : Attempt) (ho : a.origin ≠ .sync) (hs : a.station = some 0) (s : State)
    (hl : s.line .zero = { quietLine .turnaround with attempt := some (owing a) }) :
    betweenAttempts s .zero (owing a) 0 .timeout := by
  unfold betweenAttempts
  rw [hl]
  exact ⟨rfl, rfl, ho, rfl, hs, rfl, .inl rfl⟩

/-- Between attempts: LINE_BREAK, QUIESCE and ABORT. -/
theorem witness_StationReachesOffline_between :
    (let s := withArgs 0 0 0 0 (owingAtLimit cyclicAttempt);
      betweenAttempts s .zero (owing cyclicAttempt) 0 .timeout ∧ s.mode = .run ∧ (s.line .zero).enable = true ∧ ¬ parkWaits s 0
        ∧ reachesLimit (s.station 0) ∧ s.accepts ∧ s.argIs 0 (lineNumber .zero) ∧ cyclicAttempt.origin = .cyclic 0
        ∧ s.pendingRequest = none ∧ ∀ m x, m ≠ .zero → (s.line m).attempt = some x → x.retryOwed = false)
      ∧ let s := withArgs 0 0 0 0 ((owingAtLimit requestAttempt).setSlot 0 (lateSlot .active))
        betweenAttempts s .zero (owing requestAttempt) 0 .timeout ∧ reachesLimit (s.station 0) ∧ s.accepts
          ∧ s.argIs 0 (0 : SlotIx).val ∧ requestAttempt.origin = .acyclic 0 ∧ (s.slot 0).state = .active
          ∧ (s.station (s.slot 0).station).line = .zero :=
  ⟨⟨witness_betweenAttempts cyclicAttempt nofun rfl _ rfl, rfl, rfl, nofun, reachesLimit_atLimit, ⟨nofun, nofun⟩, rfl, rfl, rfl, by
      rintro (_ | _) x hm h
      · exact absurd rfl hm
      · cases (show (none : Option Attempt) = some x from h)⟩,
    witness_betweenAttempts requestAttempt nofun rfl _ rfl, reachesLimit_atLimit, ⟨nofun, nofun⟩, rfl, rfl, rfl, rfl⟩

/-- The budget used up, with a break waiting. -/
theorem witness_CompleteReplyGivesItsOutcome :
    let a := checked cyclicAttempt .refused
    let s := (lastCheck cyclicAttempt .refused).modifyLine .zero fun l => { l with breakRequest := true }
    replyEnds s .zero (clean 0x34 false) a 2 ∧ a.origin = .cyclic 0 ∧ a.station = some 0 ∧ a.attempt = some 1
      ∧ replyGives a (a.checkHigh ++ (CharSamples.decode (clean 0x34 false)).byte) (s.station 0).address .refused
      ∧ (s.entry 0).retries.toNat < 1 ∧ s.mode = .run ∧ ¬ parkWaits s 0 :=
  ⟨⟨rfl, rfl, rfl, rfl, rfl, by decide, by decide⟩, rfl, rfl, rfl, (witness_replyGives _ rfl).2.2.2.2.2, by decide +kernel, rfl, nofun⟩

/-- The image pair none, held and not held; the longest and the empty reply stand in `len`. -/
theorem witness_OkPollIsAccepted :
    let a := checked cyclicAttempt .ok
    ∀ st ∈ [station5, { station5 with image := some (2, 3), hold := true, newer := true }, { station5 with image := some (2, 3) }],
      let s := (lastCheck cyclicAttempt .ok).setStation 0 st
      replyEnds s .zero (clean 0x34 false) a 2 ∧ a.origin = .cyclic 0 ∧ a.station = some 0
        ∧ replyGives a (a.checkHigh ++ (CharSamples.decode (clean 0x34 false)).byte) (s.station 0).address .ok
        ∧ s.mode = .run ∧ ¬ parkWaits s 0 ∧ (s.station 0).health = .online
        ∧ (s.station 0).image = st.image ∧ (s.station 0).hold = st.hold := by
  simp only [List.mem_cons, List.not_mem_nil, or_false]
  rintro st (rfl | rfl | rfl) <;>
    exact ⟨witness_replyEnds _ _, rfl, rfl, (witness_replyGives _ rfl).2.2.2.1, rfl, nofun, rfl, rfl, rfl⟩

/-- All that PollsAndProbesEnd asks of a state, a command and an outcome. -/
def PollEnds (s : State) (c : Instr) (o : OutcomeCode) : Prop :=
  ∃ l a j u len e st notices b, attemptEnds s .zero c o l a b ∧ a.station = some u ∧ (o = .ok → a.replyLen = some len)
    ∧ goesTo s .zero e ∧ parkClear s u st
    ∧ ((∃ m, a.origin = .cyclic j ∧ a.attempt = some m ∧ stationTakes s u o true st notices
        ∧ ((s.entry j).retries.toNat < m ∨ a.stop ≠ noStop ∨ o = .ok ∨ o = .busy ∨ o = .refused))
      ∨ (a.origin = .probe j ∧ ((s.station u).health ≠ .offline ∧ stationTakes s u o true st notices ∨ probeTakes s u o st notices)))

/-- A final miss at the end of the window, and COLLISION at the quiet limit below the eighth fault. -/
theorem witness_PollsAndProbesEnd_cyclic :
    PollEnds ((running { quietLine .awaitReply with attempt := some cyclicAttempt }).setStation 0 station5) (.replyWindowExpiry .zero)
        .timeout
      ∧ PollEnds (waitingQuiet .collision 6) (.quietLimitExpiry .zero) .collision
      ∧ PollEnds { waitingQuiet .collision 6 with mode := .quiescing, line1 := quietLine .sending } (.quietWaitEnd .zero) .collision := by
  refine ⟨⟨_, _, 0, 0, 0, .turnaround, _, _, _, .inl ⟨rfl, rfl, rfl, rfl, rfl, rfl⟩, rfl, nofun, .inl ⟨rfl, rfl⟩, nofun,
      .inl ⟨1, rfl, rfl, .inr (.inl ⟨rfl, .inl rfl, by decide, rfl, rfl⟩), .inl (by decide)⟩⟩,
    ⟨_, _, 0, 0, 0, .turnaround, _, _, _, .inr (.inr (.inl ⟨rfl, .inr rfl, rfl, by decide, rfl, rfl, rfl, rfl⟩)), rfl, nofun,
      .inl ⟨rfl, rfl⟩, nofun, .inl ⟨1, rfl, rfl, .inr (.inr (.inr ⟨rfl, rfl, rfl⟩)), .inl (by decide)⟩⟩,
    ⟨_, _, 0, 0, 0, .hold, _, _, _, .inr (.inl ⟨rfl, .inr rfl, rfl, .inl ⟨rfl, rfl⟩, rfl, rfl, rfl, rfl⟩), rfl, nofun, .inr ⟨rfl,
      rfl, .inl ⟨.one, nofun, rfl, nofun, rfl⟩⟩, nofun, .inl ⟨1, rfl, rfl, .inr (.inr (.inr ⟨rfl, rfl, rfl⟩)), .inl (by decide)⟩⟩⟩

/-- The same attempt as a probe's, before its last check character. -/
def probeAttempt : Attempt := { cyclicAttempt with origin := .probe 0 }

/-- A contact at a DEGRADED station, a probe's OK under AUTO, REFUSED under HOST, and BUSY at a station that has left OFFLINE. -/
theorem witness_PollsAndProbesEnd_replies :
    PollEnds ((lastCheck cyclicAttempt .ok).setStation 0 { station5 with health := .degraded, missCount := 2 })
        (.characterArrival .zero (clean 0x34 false)) .ok
      ∧ PollEnds ((lastCheck probeAttempt .ok).setStation 0 { station5 with health := .offline, image := some (2, 3) })
        (.characterArrival .zero (clean 0x34 false)) .ok
      ∧ PollEnds ((lastCheck probeAttempt .refused).setStation 0 { station5 with health := .offline, recovery := .host })
        (.characterArrival .zero (clean 0x34 false)) .refused
      ∧ PollEnds (lastCheck probeAttempt .busy) (.characterArrival .zero (clean 0x34 false)) .busy := by
  have reply (a : Attempt) (kind : ReplyKind) := witness_replyEnds a kind
  refine ⟨⟨_, _, 0, 0, 2, .turnaround, _, _, _, .inr (.inr (.inr ⟨_, checked cyclicAttempt .ok, 2, 0, rfl, reply _ _, rfl,
      (witness_replyGives _ rfl).2.2.2.1, rfl, rfl, rfl⟩)), rfl, fun _ => rfl, .inl ⟨rfl, rfl⟩, nofun,
      .inl ⟨1, rfl, rfl, .inl ⟨.inl rfl, .inr rfl, rfl, rfl⟩, .inr (.inr (.inl rfl))⟩⟩,
    ⟨_, _, 0, 0, 2, .turnaround, _, _, _, .inr (.inr (.inr ⟨_, checked probeAttempt .ok, 2, 0, rfl, reply _ _, rfl,
      (witness_replyGives _ rfl).2.2.2.1, rfl, rfl, rfl⟩)), rfl, fun _ => rfl, .inl ⟨rfl, rfl⟩, nofun,
      .inr ⟨rfl, .inr ⟨rfl, .inl ⟨.inl rfl, rfl, rfl, rfl⟩⟩⟩⟩,
    ⟨_, _, 0, 0, 2, .turnaround, _, _, _, .inr (.inr (.inr ⟨_, checked probeAttempt .refused, 2, 0, rfl, reply _ _, rfl,
      (witness_replyGives _ rfl).2.2.2.2.2, rfl, rfl, rfl⟩)), rfl, nofun, .inl ⟨rfl, rfl⟩, nofun,
      .inr ⟨rfl, .inr ⟨rfl, .inr (.inl ⟨.inr (.inr rfl), rfl, rfl, rfl⟩)⟩⟩⟩,
    ⟨_, _, 0, 0, 2, .turnaround, _, _, _, .inr (.inr (.inr ⟨_, checked probeAttempt .busy, 2, 0, rfl, reply _ _, rfl,
      (witness_replyGives _ rfl).2.2.2.2.1, rfl, rfl, rfl⟩)), rfl, nofun, .inl ⟨rfl, rfl⟩, nofun,
      .inr ⟨rfl, .inl ⟨by decide, .inl ⟨.inr (.inl rfl), .inl rfl, rfl, rfl⟩⟩⟩⟩⟩

/-- A probe without a reply, and one that collided. -/
theorem witness_PollsAndProbesEnd_probes :
    PollEnds ((running { quietLine .awaitReply with attempt := some probeAttempt }).setStation 0 { station5 with health := .offline })
        (.replyWindowExpiry .zero) .timeout
      ∧ PollEnds ((running { quietLine .quietWait with attempt := some { probeAttempt with fixedOutcome := some .collision } }).setStation 0
        { station5 with health := .offline }) (.quietWaitEnd .zero) .collision := by
  refine ⟨⟨_, _, 0, 0, 0, .turnaround, _, _, _, .inl ⟨rfl, rfl, rfl, rfl, rfl, rfl⟩, rfl, nofun, .inl ⟨rfl, rfl⟩, nofun,
      .inr ⟨rfl, .inr ⟨rfl, .inr (.inr (.inl ⟨rfl, rfl, rfl⟩))⟩⟩⟩,
    ⟨_, _, 0, 0, 0, .turnaround, _, _, _, .inr (.inl ⟨rfl, .inr rfl, rfl, .inl ⟨rfl, rfl⟩, rfl, rfl, rfl, rfl⟩), rfl, nofun,
      .inl ⟨rfl, rfl⟩, nofun, .inr ⟨rfl, .inr ⟨rfl, .inr (.inr (.inr ⟨rfl, rfl, rfl⟩))⟩⟩⟩⟩

/-- The miss that reaches MISS_LIMIT with a break waiting, and a PARK BUSY at a timeout and at an OK with a notice of its own. -/
theorem witness_PollsAndProbesEnd_waiting :
    PollEnds ((running { quietLine .awaitReply with attempt := some cyclicAttempt, breakRequest := true }).setStation 0
        { station5 with health := .degraded, missCount := 2 }) (.replyWindowExpiry .zero) .timeout
      ∧ PollEnds (parking ((running { quietLine .awaitReply with attempt := some { cyclicAttempt with
          stop := { noStop with park := true } } }).setStation 0 station5)) (.replyWindowExpiry .zero) .timeout
      ∧ PollEnds (parking ((lastCheck cyclicAttempt .ok).setStation 0 { station5 with image := some (2, 3), notify := true }))
        (.characterArrival .zero (clean 0x34 false)) .ok := by
  refine ⟨⟨_, _, 0, 0, 0, .turnaround, goneOffline .timeout (attemptCounted .timeout _), _, _, .inl ⟨rfl, rfl, rfl, rfl, rfl, rfl⟩, rfl,
      nofun, .inl ⟨rfl, rfl⟩, nofun, .inl ⟨1, rfl, rfl, .inr (.inr (.inl ⟨rfl, reachesLimit_atLimit, rfl, rfl, rfl⟩)), .inl (by decide)⟩⟩,
    ⟨_, _, 0, 0, 0, .turnaround, { station5 with
        last := .timeout, failedAttempts := 1, missed := 1, missCount := 1, health := .degraded }, _, _,
      .inl ⟨rfl, rfl, rfl, rfl, rfl, rfl⟩, rfl, nofun, .inl ⟨rfl, rfl⟩, fun _ => ⟨rfl, nofun⟩,
      .inl ⟨1, rfl, rfl, .inr (.inl ⟨rfl, .inl rfl, by decide, rfl, rfl⟩), .inl (by decide)⟩⟩,
    ⟨_, _, 0, 0, 2, .turnaround, { station5 with image := some (2, 3), notify := true, good := 1, age := 0 }, _, _,
      attemptEnds_reply cyclicAttempt .ok _ _ _ (witness_replyEnds _ _) rfl (witness_replyGives _ rfl).2.2.2.1, rfl, fun _ => rfl,
      .inl ⟨rfl, rfl⟩, fun _ => ⟨rfl, nofun⟩, .inl ⟨1, rfl, rfl, .inl ⟨.inl rfl, .inl rfl, rfl, rfl⟩, .inr (.inr (.inl rfl))⟩⟩⟩

theorem witness_ContactReplyEndsASlotsTransaction :
    ∀ kind : ReplyKind, ∀ o : OutcomeCode, (kind = .ok ∧ o = .ok ∨ kind = .refused ∧ o = .refused ∨ kind = .busy ∧ o = .busy) →
      let a := checked requestAttempt kind
      let s := withRecords 63 ((lastCheck requestAttempt kind).setSlot 0 { lateSlot .active with busyCount := 5 })
      replyEnds s .zero (clean 0x34 false) a 2 ∧ a.origin = .acyclic 0 ∧ a.station = some 0 ∧ a.attempt = some 1
        ∧ (0 : StationIx) = (s.slot 0).station ∧ a.stop = ⟨false, false, false, false, false, false⟩
        ∧ replyGives a (a.checkHigh ++ (CharSamples.decode (clean 0x34 false)).byte) (s.station 0).address o
        ∧ s.mode = .run ∧ ¬ parkWaits s 0 ∧ (s.station 0).health = .online
        ∧ s.events.length < 64 ∧ s.done = [] ∧ (s.slot 0).busyCount.toNat < 6 := by
  rintro kind o (⟨rfl, rfl⟩ | ⟨rfl, rfl⟩ | ⟨rfl, rfl⟩)
  · exact ⟨witness_replyEnds _ _, rfl, rfl, rfl, rfl, rfl, (witness_replyGives _ rfl).2.2.2.1, rfl, nofun, rfl,
      by decide, rfl, by decide +kernel⟩
  · exact ⟨witness_replyEnds _ _, rfl, rfl, rfl, rfl, rfl, (witness_replyGives _ rfl).2.2.2.2.2, rfl, nofun, rfl,
      by decide, rfl, by decide +kernel⟩
  · exact ⟨witness_replyEnds _ _, rfl, rfl, rfl, rfl, rfl, (witness_replyGives _ rfl).2.2.2.2.1, rfl, nofun, rfl,
      by decide, rfl, by decide +kernel⟩

/-- A slot's attempt at the end of its window, with these STOP reasons and RETRIES. -/
def slotWindow (stop : StopSet) (retries : BitVec 3) : State :=
  ((running { quietLine .awaitReply with attempt := some { requestAttempt with stop := stop } }).setStation 0 station5).setSlot 0
    { lateSlot .active with retries := retries }

/-- What every clause of SlotsAfterTheirAttempts asks, at the end of the window. -/
theorem witness_SlotsAfterTheirAttempts (stop : StopSet) (retries : BitVec 3) :
    let s := slotWindow stop retries
    let a := { requestAttempt with stop := stop }
    attemptEnds s .zero (.replyWindowExpiry .zero) .timeout (s.line .zero) a s ∧ a.origin = .acyclic 0 ∧ a.station = some 0
      ∧ a.attempt = some 1 ∧ (OutcomeCode.timeout = .ok → a.replyLen = some 0) ∧ goesTo s .zero .turnaround
      ∧ (s.line .zero).breakRequest = false ∧ ∀ st, parkClear s 0 st :=
  ⟨.inl ⟨rfl, rfl, rfl, rfl, rfl, rfl⟩, rfl, rfl, rfl, nofun, .inl ⟨rfl, rfl⟩, rfl, fun _ h => nomatch h.1⟩

/-- A retry owed; CYCLE in the set; the budget used up; PARK within the budget; ABORT. -/
theorem witness_SlotsAfterTheirAttempts_misses :
    1 ≤ ((slotWindow noStop 1).slot 0).retries.toNat
      ∧ (∃ sl, slotReturns (slotWindow { noStop with cycle := true } 1) 0 { requestAttempt with stop := { noStop with cycle := true } } 1
        .timeout sl)
      ∧ ({ noStop with cycle := true } : StopSet) ≠ noStop
      ∧ (∃ sl st notices, slotTakes (slotWindow noStop 0) 0 { requestAttempt with stop := noStop } 1 .timeout 0 sl
        ∧ stationTakes (slotWindow noStop 0) 0 .timeout false st notices)
      ∧ (∃ sl, slotTakes (slotWindow { noStop with park := true } 7) 0 { requestAttempt with stop := { noStop with park := true } } 1
        .timeout 0 sl)
      ∧ ∃ sl, slotTakes (slotWindow { noStop with abort := true } 7) 0 { requestAttempt with stop := { noStop with abort := true } } 1
        .timeout 0 sl :=
  ⟨by decide, ⟨_, by decide, .inl rfl, rfl, rfl, rfl⟩, by decide,
    ⟨_, _, _, .inr ⟨rfl, rfl, .inr (.inr (.inr ⟨.inl rfl, .inl (by decide)⟩))⟩, .inr (.inl ⟨rfl, .inl rfl, by decide, rfl, rfl⟩)⟩,
    ⟨_, .inr ⟨rfl, rfl, .inr (.inr (.inr ⟨.inl rfl, .inr rfl⟩))⟩⟩, ⟨_, .inl ⟨rfl, rfl⟩⟩⟩

/-- A slot's last check character at a DEGRADED station, with these STOP reasons and BUSY replies before. -/
def slotReply (kind : ReplyKind) (stop : StopSet) (busies : BitVec 3) : State :=
  ((lastCheck { requestAttempt with stop := stop } kind).setStation 0 { station5 with health := .degraded, missCount := 1 }).setSlot 0
    { lateSlot .active with busyCount := busies }

/-- What the clauses of SlotsAfterTheirAttempts ask at a reply. -/
def SlotReplyEnds (s : State) (o : OutcomeCode) : Prop :=
  ∃ l a st notices b, attemptEnds s .zero (.characterArrival .zero (clean 0x34 false)) o l a b ∧ a.origin = .acyclic 0
    ∧ a.station = some 0 ∧ a.attempt = some 1 ∧ (o = .ok → a.replyLen = some 2) ∧ goesTo s .zero .turnaround
    ∧ stationTakes s 0 o false st notices
    ∧ ((∃ sl, slotTakes s 0 a 1 o 2 sl) ∧ parkClear s 0 st ∨ o = .busy ∧ (s.slot 0).busyCount.toNat < 6 ∧ a.stop.abort = false)

/-- BUSY below and at the seventh, OK, and REFUSED with ABORT in the set. -/
theorem witness_SlotsAfterTheirAttempts_replies :
    SlotReplyEnds (slotReply .busy noStop 5) .busy ∧ SlotReplyEnds (slotReply .busy noStop 6) .busy
      ∧ SlotReplyEnds (slotReply .ok noStop 0) .ok ∧ SlotReplyEnds (slotReply .refused { noStop with abort := true } 0) .refused := by
  have reply (a : Attempt) (kind : ReplyKind) := witness_replyEnds a kind
  refine ⟨⟨_, _, _, _, _, .inr (.inr (.inr ⟨_, checked { requestAttempt with stop := noStop } .busy, 2, 0, rfl, reply _ _, rfl,
      (witness_replyGives _ rfl).2.2.2.2.1, rfl, rfl, rfl⟩)), rfl, rfl, rfl, nofun, .inl ⟨rfl, rfl⟩,
      .inl ⟨.inr (.inl rfl), .inr rfl, rfl, rfl⟩, .inr ⟨rfl, by decide, rfl⟩⟩,
    ⟨_, _, _, _, _, .inr (.inr (.inr ⟨_, checked { requestAttempt with stop := noStop } .busy, 2, 0, rfl, reply _ _, rfl,
      (witness_replyGives _ rfl).2.2.2.2.1, rfl, rfl, rfl⟩)), rfl, rfl, rfl, nofun, .inl ⟨rfl, rfl⟩,
      .inl ⟨.inr (.inl rfl), .inr rfl, rfl, rfl⟩, .inl ⟨⟨_, .inr ⟨rfl, rfl, .inr (.inr (.inl ⟨rfl, by decide⟩))⟩⟩, nofun⟩⟩,
    ⟨_, _, _, _, _, .inr (.inr (.inr ⟨_, checked { requestAttempt with stop := noStop } .ok, 2, 0, rfl, reply _ _, rfl,
      (witness_replyGives _ rfl).2.2.2.1, rfl, rfl, rfl⟩)), rfl, rfl, rfl, fun _ => rfl, .inl ⟨rfl, rfl⟩,
      .inl ⟨.inl rfl, .inr rfl, rfl, rfl⟩, .inl ⟨⟨_, .inr ⟨rfl, rfl, .inl rfl⟩⟩, nofun⟩⟩,
    ⟨_, _, _, _, _, .inr (.inr (.inr ⟨_, checked { requestAttempt with stop := { noStop with abort := true } } .refused, 2, 0, rfl,
      reply _ _, rfl, (witness_replyGives _ rfl).2.2.2.2.2, rfl, rfl, rfl⟩)), rfl, rfl, rfl, nofun, .inl ⟨rfl, rfl⟩,
      .inl ⟨.inr (.inr rfl), .inr rfl, rfl, rfl⟩, .inl ⟨⟨_, .inl ⟨rfl, rfl⟩⟩, nofun⟩⟩⟩

/-- With the PARK of its station BUSY: BUSY below the seventh of a slot in the submission order, and a miss, a break waiting too. -/
theorem witness_SlotsAfterTheirAttempts_park :
    (let s := parking { slotReply .busy { noStop with park := true } 0 with submitted := [0] };
      SlotReplyEnds s .busy ∧ parkWaits s 0 ∧ (0 : SlotIx) ∈ s.submitted ∧ (s.slot 0).station = 0)
      ∧ let s := parking ((slotWindow { noStop with park := true } 7).modifyLine .zero fun l => { l with breakRequest := true })
        let a := { requestAttempt with stop := { noStop with park := true } }
        ∃ l b sl st notices, attemptEnds s .zero (.replyWindowExpiry .zero) .timeout l a b ∧ parkWaits s 0 ∧ parkClear s 0 st
          ∧ slotTakes s 0 a 1 .timeout 0 sl ∧ stationTakes s 0 .timeout false st notices :=
  ⟨⟨⟨_, _, _, _, _, attemptEnds_reply { requestAttempt with stop := { noStop with park := true } } .busy _ _ _
        ⟨rfl, rfl, rfl, rfl, rfl, by decide, by decide⟩ rfl (witness_replyGives _ rfl).2.2.2.2.1, rfl, rfl, rfl, nofun,
        .inl ⟨rfl, rfl⟩, .inl ⟨.inr (.inl rfl), .inr rfl, rfl, rfl⟩, .inr ⟨rfl, by decide, rfl⟩⟩, ⟨rfl, rfl, rfl⟩, .head _, rfl⟩,
    _, _, _, { station5 with last := .timeout, failedAttempts := 1, missed := 1, missCount := 1, health := .degraded }, _,
    .inl ⟨rfl, rfl, rfl, rfl, rfl, rfl⟩, ⟨rfl, rfl, rfl⟩, fun _ => ⟨rfl, nofun⟩,
    .inr ⟨rfl, rfl, .inr (.inr (.inr ⟨.inl rfl, .inr rfl⟩))⟩, .inr (.inl ⟨rfl, .inl rfl, by decide, rfl, rfl⟩)⟩

theorem witness_OwedRetryStartsTheNextAttempt :
    let a := { cyclicAttempt with retryOwed := true }
    let s := running { quietLine .turnaround with attempt := some a }
    turnaroundDone s .zero ∧ (s.line .zero).attempt = some a ∧ a.origin ≠ .sync ∧ a.retryOwed = true ∧ a.station = some 0
      ∧ a.attempt = some 1 := by
  unfold turnaroundDone isQuiet
  decide

/-- A decision point of line 0 in a state around it. -/
theorem decides_turnaround (l : Line) (s : State) (hl : s.line .zero = l) (hr : s.mode = .run)
    (he : l.engine = .turnaround ∧ l.rx = .hunting ∧ l.rxd = true ∧ l.attempt = none) : decides s .zero := by
  subst hl
  exact ⟨⟨he.1, Or.inl ⟨he.2.1, he.2.2.1⟩⟩, hr, he.2.2.2⟩

theorem witness_DecisionsBeforeAndAfterTheWalk :
    (let s := running { quietLine .turnaround with breakRequest := true };
      decides s .zero ∧ (s.line .zero).breakRequest = true)
      ∧ (let s := running { quietLine .turnaround with syncOwed := true }
        decides s .zero ∧ (s.line .zero).breakRequest = false ∧ (s.line .zero).syncOwed = true)
      ∧ (let s := running (quietLine .turnaround)
        decides s .zero ∧ (s.line .zero).breakRequest = false ∧ (s.line .zero).syncOwed = false ∧ (s.line .zero).phase = .cyclic
          ∧ (∀ k, s.eligible .zero k = false)
          ∧ ∀ j : EntryIx, (s.line .zero).walk.val ≤ j.val → s.due .zero (s.line .zero).cycnum j = none) := by
  refine ⟨⟨decides_turnaround _ _ rfl rfl (by decide), rfl⟩, ⟨decides_turnaround _ _ rfl rfl (by decide), rfl, rfl⟩,
    decides_turnaround _ _ rfl rfl (by decide), rfl, rfl, rfl, by decide +kernel, by decide +kernel⟩

theorem witness_DueRule :
    schedule.due .zero 3 4 = some false ∧ (schedule.setStation 6 { station5 with health := .offline, probeDue := true }).due .zero 3 4
      = some true := by decide

/-- An ordinary poll with a commit waiting and the last entry as a probe, the first with no urgent slot and the second past one. -/
theorem witness_WalkTakesTheNextDueEntry :
    (decides beforeEntry0 .zero ∧ (beforeEntry0.line .zero).breakRequest = false ∧ (beforeEntry0.line .zero).syncOwed = false
        ∧ (beforeEntry0.line .zero).phase = .cyclic ∧ beforeEntry0.eligibleOf .zero 3 = none
        ∧ (beforeEntry0.line .zero).walk.val ≤ (0 : EntryIx).val
        ∧ beforeEntry0.due .zero (beforeEntry0.line .zero).cycnum 0 = some false
        ∧ (beforeEntry0.entry 0).commitPending = true ∧ (beforeEntry0.entry 0).binding = some (0, 1) ∧ (0 : BlockIx) ≠ 1)
      ∧ (let s := (running { quietLine .turnaround with walk := 63, urgent := true }).setStation 31
            { station5 with health := .offline, probeDue := true } |>.setEntry 63 { Entry.reset with enabled := true, station := 31 }
        decides s .zero ∧ (s.line .zero).breakRequest = false ∧ (s.line .zero).syncOwed = false ∧ (s.line .zero).phase = .cyclic
          ∧ (s.line .zero).urgent = true ∧ (s.line .zero).walk.val ≤ (63 : EntryIx).val
          ∧ s.due .zero (s.line .zero).cycnum 63 = some true
          ∧ (∀ j : EntryIx, (s.line .zero).walk.val ≤ j.val → j.val < 63 → s.due .zero (s.line .zero).cycnum j = none)
          ∧ (s.entry 63).commitPending = false ∧ (s.entry 63).binding = none) := by
  refine ⟨⟨decides_turnaround _ _ rfl rfl (by decide), rfl, rfl, rfl, ?_⟩, decides_turnaround _ _ rfl rfl (by decide), rfl, rfl, rfl, ?_⟩ <;>
    decide +kernel

/-- Three pending slots of line 0: priorities 0, 3 and 3 in the order of submission. -/
def threeSlots : State :=
  { (running { quietLine .turnaround with phase := .acyclic, walk := 64 } |>.setSlot 0 (lateSlot .pending)
    |>.setSlot 1 { lateSlot .pending with priority := 3 } |>.setSlot 2 { lateSlot .pending with priority := 3 }) with
    submitted := [0, 1, 2] }

theorem witness_AcyclicPhaseTakesTheBestSlot :
    decides threeSlots .zero ∧ (threeSlots.line .zero).breakRequest = false ∧ (threeSlots.line .zero).syncOwed = false
      ∧ (threeSlots.line .zero).phase = .acyclic ∧ threeSlots.pendingList = [0] ++ 1 :: [2] ∧ threeSlots.eligible .zero 1 = true
      ∧ (∀ j ∈ [(0 : SlotIx)], threeSlots.eligible .zero j = true → (threeSlots.slot j).priority.toNat < (threeSlots.slot 1).priority.toNat)
      ∧ (∀ j ∈ [(2 : SlotIx)], threeSlots.eligible .zero j = true →
        (threeSlots.slot j).priority.toNat ≤ (threeSlots.slot 1).priority.toNat) := by
  refine ⟨decides_turnaround _ _ rfl rfl (by decide), rfl, rfl, rfl, ?_⟩
  decide +kernel

/-- The same in the cyclic phase: with the urgent mark clear, and set with nothing due. -/
theorem witness_UrgentTakeAndTheTakeAfterTheWalk :
    ∀ urgent : Bool, let s := threeSlots.modifyLine .zero fun l => { l with phase := .cyclic, walk := 0, urgent := urgent }
      decides s .zero ∧ (s.line .zero).breakRequest = false ∧ (s.line .zero).syncOwed = false ∧ (s.line .zero).phase = .cyclic
        ∧ s.pendingList = [0] ++ 1 :: [2] ∧ s.eligible .zero 1 = true ∧ (s.line .zero).urgent = urgent ∧ (s.slot 1).priority = 3
        ∧ (∀ j ∈ [(0 : SlotIx)], s.eligible .zero j = true → (s.slot j).priority ≠ 3)
        ∧ (∀ j : EntryIx, (s.line .zero).walk.val ≤ j.val → s.due .zero (s.line .zero).cycnum j = none)
        ∧ (∀ j ∈ [(0 : SlotIx)], s.eligible .zero j = true → (s.slot j).priority.toNat < (s.slot 1).priority.toNat)
        ∧ ∀ j ∈ [(2 : SlotIx)], s.eligible .zero j = true → (s.slot j).priority.toNat ≤ (s.slot 1).priority.toNat := by
  rintro (_ | _) <;> exact ⟨decides_turnaround _ _ rfl rfl (by decide +kernel), by decide +kernel⟩

/-- BREAKING on line 0, at its low level or in the guard. -/
def breaking (d : Drive) (m : Mode) : State := { running { quietLine .breaking with drive := d, faulted := true, faults := 8 } with mode := m }

theorem witness_LineBreakOnTheLine :
    ((let s := running { quietLine .faulted with breakRequest := true };
      (s.line .zero).breakRequest = true ∧ (s.line .zero).attempt = none ∧ (s.line .zero).engine = .faulted)
      ∧ ((running (quietLine .idle)).line .zero).breakRequest = false
      ∧ ((running { quietLine .awaitReply with attempt := some cyclicAttempt }).line .zero).attempt ≠ none
      ∧ ((breaking .breakLow .run).line .zero).engine = .breaking ∧ ((breaking .breakLow .run).line .zero).drive = .breakLow)
      ∧ (let s := { breaking .breakGuard .quiescing with
            cmdState := .busy, cmd := 0x0F, args := #v[0, 0, 0, 0], line1 := quietLine .sending }
        (s.line .zero).engine = .breaking ∧ (s.line .zero).drive = .breakGuard ∧ (s.line .zero).breakRequest = false
          ∧ (∃ m, m ≠ LineId.zero ∧ (s.line m).enable = true ∧ (s.line m).engine ≠ .hold ∧ (s.line m).faulted = false)
          ∧ s.cmdState = .busy ∧ s.cmd = 0x0F ∧ (s.args.get 0).toNat = lineNumber .zero)
      ∧ ((breaking .breakGuard .run).mode ≠ .quiescing ∧ (breaking .breakGuard .run).cmdState ≠ .busy) := by
  refine ⟨by decide, ⟨rfl, rfl, rfl, ⟨.one, by decide⟩, by decide⟩, by decide⟩

theorem expires_running (l : Line) (hl : l.enable = true ∧ l.timerRunning = true)
    (hi : l.engine = .idle → l.breakRequest = true ∧ l.attempt = none)
    (ha : ∀ a, l.attempt = some a → a.retryOwed = false) : expires (running l) .zero :=
  ⟨rfl, hl.1, hl.2, hi, ha⟩

theorem witness_CycleStartWithoutOverrun :
    (let s := running { quietLine .faulted with timerRunning := true, faulted := true, faults := 8 };
      expires s .zero ∧ (s.line .zero).faulted = true)
      ∧ (let s := running { quietLine .turnaround with timerRunning := true, phase := .acyclic, attempt := some syncAttempt }
        expires s .zero ∧ (s.line .zero).phase = .acyclic ∧ ∀ a k, (s.line .zero).attempt = some a → a.origin ≠ .acyclic k)
      ∧ (let s := running { quietLine .awaitReply with timerRunning := true, phase := .acyclic, attempt := some requestAttempt }
        expires s .zero ∧ (s.line .zero).faulted = false ∧ (s.line .zero).phase = .acyclic
          ∧ (s.line .zero).attempt = some requestAttempt ∧ requestAttempt.origin = .acyclic 0) := by
  refine ⟨⟨expires_running _ (by decide) nofun (by simp [quietLine, Line.reset]), rfl⟩, ⟨expires_running _ (by decide) nofun ?_, rfl, ?_⟩,
    expires_running _ (by decide) nofun ?_, rfl, rfl, rfl, rfl⟩
  · rintro a ⟨⟩
    rfl
  · rintro a k ⟨⟩
    nofun
  · rintro a ⟨⟩
    rfl

/-- A break request waiting: at an IDLE engine it starts, at an engine with work in flight it goes on waiting. -/
theorem witness_CycleStartWithoutOverrun_break :
    (let s := running { quietLine .idle with timerRunning := true, phase := .acyclic, breakRequest := true };
      expires s .zero ∧ (s.line .zero).phase = .acyclic ∧ (breakBegun (cycleOpened (s.line .zero))).engine = .breaking)
      ∧ let s := running { quietLine .awaitReply with
          timerRunning := true, phase := .acyclic, attempt := some requestAttempt, breakRequest := true }
        expires s .zero ∧ (breakBegun (cycleOpened (s.line .zero))).engine = .awaitReply := by
  refine ⟨⟨expires_running _ (by decide) (fun _ => ⟨rfl, rfl⟩) (by simp [quietLine, Line.reset]), rfl, by decide⟩,
    expires_running _ (by decide) nofun ?_, by decide⟩
  rintro a ⟨⟩
  rfl

/-- What a cycle start meets at the stations and slots: ages, countdowns at 2 and 1, a deferred slot. -/
theorem witness_cycleHandedOver :
    (station5.line = .zero ∧ station5.health ≠ .offline)
      ∧ (1 < (2 : BitVec 8).toNat ∧ ({ station5 with health := .offline, probeCountdown := 1 } : Station).probeCountdown = 1)
      ∧ (threeSlots.slot 0).state = .pending ∧ (threeSlots.station (threeSlots.slot 0).station).line = .zero := by decide

theorem witness_OverrunSkipsTheRemainingEntries :
    expires overrunning .zero ∧ (overrunning.line .zero).faulted = false ∧ (overrunning.line .zero).phase = .cyclic
      ∧ remains overrunning .zero 4 ∧ ¬ remains overrunning .zero 0 := by
  refine ⟨⟨rfl, rfl, rfl, nofun, ?_⟩, rfl, rfl, by unfold remains; decide, by unfold remains; decide⟩
  rintro a ⟨⟩
  rfl

/-- An IDLE engine on a quiet line, with SYNC set. -/
theorem witness_CycleStartOfAnIdleOrWaitingEngine_idle :
    let s := running { quietLine .idle with timerRunning := true, phase := .acyclic, walk := 64, settled := true, sync := true }
    s.mode = .run ∧ (s.line .zero).enable = true ∧ (s.line .zero).timerRunning = true ∧ (s.line .zero).engine = .idle
      ∧ (s.line .zero).attempt = none ∧ (s.line .zero).breakRequest = false ∧ (s.line .zero).faulted = false
      ∧ (s.line .zero).phase = .acyclic ∧ isQuiet (s.line .zero) ∧ (s.line .zero).settled = true ∧ (s.line .zero).sync = true := by
  unfold isQuiet
  decide

/-- TURNAROUND with an attempt that waits for its retry after this outcome. -/
def waitingRetry (a : Attempt) (o : OutcomeCode) (p : Phase) : State :=
  (running { quietLine .turnaround with
    timerRunning := true, phase := p, walk := 1, attempt := some { a with retryOwed := true, outcome := some o } }).setStation 0 station5

theorem witness_CycleStartOfAnIdleOrWaitingEngine_cyclic :
    ∀ o ∈ [OutcomeCode.collision, .timeout],
      let s := waitingRetry cyclicAttempt o .cyclic
      let a := { cyclicAttempt with retryOwed := true, outcome := some o }
      s.mode = .run ∧ (s.line .zero).enable = true ∧ (s.line .zero).timerRunning = true ∧ (s.line .zero).engine = .turnaround
        ∧ (s.line .zero).faulted = false ∧ (s.line .zero).phase = .cyclic ∧ ¬ parkWaits s 0
        ∧ (s.line .zero).attempt = some a ∧ a.origin = .cyclic 0 ∧ a.station = some 0 ∧ a.retryOwed = true ∧ a.outcome = some o
        ∧ (0 : EntryIx).val < (s.line .zero).walk.val ∧ (o = .collision ∨ o.isMiss = true) ∧ (s.station 0).health = .online
        ∧ (s.station 0).missCount.toNat + 1 < (s.station 0).missLimit.toNat := by
  decide +kernel

/-- CYCLE ends the wait with the miss that reaches MISS_LIMIT: PROBE_INTERVAL 8 and 1, a station of the line and of the other. -/
theorem witness_CycleStartOfAnIdleOrWaitingEngine_limit :
    ∀ interval ∈ [(8 : BitVec 8), 1], ∀ line ∈ [LineId.zero, .one],
      let s := (waitingRetry cyclicAttempt .timeout .cyclic).setStation 0
        { station5 with health := .degraded, missCount := 2, probeInterval := interval, line := line }
      (s.line .zero).engine = .turnaround ∧ (s.line .zero).faulted = false ∧ (s.line .zero).phase = .cyclic ∧ ¬ parkWaits s 0
        ∧ (s.line .zero).attempt = some (owing cyclicAttempt) ∧ cyclicAttempt.origin = .cyclic 0 ∧ cyclicAttempt.station = some 0
        ∧ (0 : EntryIx).val < (s.line .zero).walk.val ∧ reachesLimit (s.station 0) ∧ (s.station 0).line = line
        ∧ ((s.station 0).probeInterval = 1 ∨ 1 < (s.station 0).probeInterval.toNat) := by
  unfold reachesLimit
  decide +kernel

theorem witness_CycleStartOfAnIdleOrWaitingEngine_slot :
    ∀ p : Phase,
      let s := (waitingRetry requestAttempt .timeout p).setSlot 0 { lateSlot .active with retries := 1 }
      let a := { requestAttempt with retryOwed := true, outcome := some .timeout }
      s.mode = .run ∧ (s.line .zero).enable = true ∧ (s.line .zero).timerRunning = true ∧ (s.line .zero).engine = .turnaround
        ∧ (s.line .zero).faulted = false ∧ (s.line .zero).attempt = some a
        ∧ a.origin = .acyclic 0 ∧ a.station = some 0 ∧ a.retryOwed = true ∧ a.outcome = some .timeout ∧ OutcomeCode.timeout.isMiss = true
        ∧ a.attempt = some 1 ∧ 1 ≤ (s.slot 0).retries.toNat ∧ a.stop = noStop ∧ (s.line .zero).phase = p := by
  rintro (_ | _) <;> decide +kernel

theorem witness_RefusedModeRequests :
    ({ inMode .quiescing with pendingRequest := some .quiesce } : State).pendingRequest ≠ none
      ∧ ((inMode .run).mode ≠ .init ∧ (inMode .run).mode ≠ .config ∧ (inMode .run).mode ≠ .quiesced)
      ∧ (inMode .config).mode ≠ .run ∧ (inMode .config).mode ≠ .quiesced ∧ (0 : Word) ≠ 1 ∧ (0 : Word) ≠ 2 ∧ (0 : Word) ≠ 3 := by
  decide

/-- CONFIG with line 0 enabled, a station and an entry. -/
def configured (st : Station) (en : Entry) : State :=
  ({ inMode .config with line0 := { Line.reset with enable := true } } : State).setStation 0 st |>.setEntry 0 en

def entry0 : Entry := { Entry.reset with enabled := true }

theorem witness_ValidationInTheOrderOfTheTable :
    ((inMode .config).line0.enable = false ∧ (inMode .config).line1.enable = false)
      ∧ (let s := configured station5 entry0
        s.line0.enable = true ∧ lineValid s.line0 ∧ lineValid s.line1 ∧ (∀ u, stationValid s u) ∧ ∀ e, entryValid s e)
      ∧ ¬ lineValid { Line.reset with enable := true, period := 9 }
      ∧ ¬ lineValid { Line.reset with enable := true, turnaround := 0 }
      ∧ ¬ stationValid (configured { station5 with address := 31 } entry0) 0
      ∧ ¬ stationValid (configured { station5 with probeInterval := 0 } entry0) 0
      ∧ ¬ stationValid (configured { station5 with line := .one } entry0) 0
      ∧ ¬ stationValid ((configured station5 entry0).setStation 1 station5) 1
      ∧ ¬ entryValid (configured station5 { entry0 with station := 1 }) 0
      ∧ ¬ entryValid (configured station5 { entry0 with divExp := 2, phase := 4 }) 0
      ∧ entryValid (configured station5 { entry0 with divExp := 2, phase := 3 }) 0 := by
  unfold lineValid stationValid entryValid
  refine ⟨?_, ⟨?_, ?_, ?_, ?_, ?_⟩, ?_, ?_, ?_, ?_, ?_, ?_, ?_, ?_, ?_⟩ <;> decide +kernel

theorem witness_FailedValidation :
    let s := configured { station5 with address := 0 } entry0
    s.mode = .config ∧ s.pendingRequest = none ∧ s.validate = some (4, 0) := by decide +kernel

/-- One line with BREAK_ON_START, the other disabled, a station DEGRADED and one PARKED. -/
theorem witness_RunEntry_states :
    let s := ({ configured { station5 with health := .degraded, missCount := 1 } entry0 with
      line0 := { Line.reset with enable := true, breakOnStart := true } } : State).setStation 1 { Station.reset with health := .parked }
    s.mode = .config ∧ s.pendingRequest = none ∧ s.validate = none
      ∧ (∀ n ∈ [LineId.zero, .one], (s.line n).attempt = none ∧ (s.line n).breakRequest = false ∧ (s.line n).faulted = false
        ∧ (s.line n).engine = .off)
      ∧ (s.station 1).health = .parked ∧ (s.station 0).health ≠ .parked ∧ (s.line .one).enable = false
      ∧ (s.line .zero).enable = true ∧ (s.line .zero).breakOnStart = true
      ∧ ((configured station5 entry0).line .zero).breakOnStart = false := by decide +kernel

theorem witness_RunEntry_record :
    let s := withRecords 47 (configured station5 entry0)
    s.mode = .config ∧ s.pendingRequest = none ∧ s.validate = none
      ∧ (∀ n ∈ [LineId.zero, .one], (s.line n).attempt = none ∧ (s.line n).breakRequest = false ∧ (s.line n).engine = .off)
      ∧ (∀ u, (s.station u).health = .online ∨ (s.station u).health = .parked) ∧ s.submitted = [] ∧ s.events.length < 48 := by
  decide +kernel

/-- RUN entry with a station OFFLINE and slots PENDING: of an enabled station, of a disabled station, and on a disabled line. -/
theorem witness_CancellationsAtModeChanges_run :
    let s := { configured { station5 with health := .offline, missCount := 3 } entry0 |>.setStation 2
        { Station.reset with line := .one } |>.setSlot 0 (lateSlot .pending)
        |>.setSlot 1 { lateSlot .pending with station := 1 } |>.setSlot 2 { lateSlot .pending with station := 2 } with
      submitted := [2, 0, 1] }
    s.mode = .config ∧ s.pendingRequest = none ∧ s.validate = none
      ∧ (∀ n ∈ [LineId.zero, .one], (s.line n).attempt = none ∧ (s.line n).breakRequest = false ∧ (s.line n).faulted = false
        ∧ (s.line n).engine = .off)
      ∧ (∀ k ∈ s.submitted, (s.slot k).state = .pending)
      ∧ ((s.station (s.slot 0).station).enabled = true ∧ (s.line (s.station (s.slot 0).station).line).enable = true)
      ∧ (s.station (s.slot 1).station).enabled = false ∧ (s.line (s.station (s.slot 2).station).line).enable = false := by
  decide +kernel

/-- Every pending slot valid, and room for the station's notice and MODE. -/
theorem witness_CancellationsAtModeChanges_notices :
    let s := withRecords 46 { (configured { station5 with health := .degraded, missCount := 1 } entry0).setSlot 0 (lateSlot .pending) with
      submitted := [0] }
    s.mode = .config ∧ s.pendingRequest = none ∧ s.validate = none
      ∧ (∀ k ∈ s.submitted, (s.slot k).state = .pending → (s.station (s.slot k).station).enabled = true
        ∧ (s.line (s.station (s.slot k).station).line).enable = true)
      ∧ (∀ u, u ∈ [(0 : StationIx)] ↔ (s.station u).health = .degraded ∨ (s.station u).health = .offline)
      ∧ s.events.length + [(0 : StationIx)].length < 48 := by
  decide +kernel

theorem witness_CancellationsAtModeChanges_config :
    let s := withRecords 44 { threeSlots with mode := .quiesced, cmdState := .busy, cmd := 0x0F, args := #v[1, 0, 0, 0] }
    s.mode = .quiesced ∧ s.pendingRequest = none ∧ (∀ k ∈ s.submitted, (s.slot k).state = .pending) ∧ (2 : SlotIx) ∈ s.submitted
      ∧ (s.slot 15).state ≠ .pending ∧ s.done = [] ∧ s.events.length + s.pendingList.length < 48 ∧ s.cmdState = .busy ∧ s.cmd = 0x0F
      ∧ (s.args.get 0).toNat = lineNumber .one := by
  decide +kernel

theorem witness_QuiesceAndItsEnd :
    (let s := { running { quietLine .faulted with faulted := true, faults := 8 } with line1 := quietLine .idle };
      s.mode = .run ∧ s.pendingRequest = none ∧ ∀ n ∈ [LineId.zero, .one], (s.line n).enable = true → (s.line n).attempt = none
        ∧ ((s.line n).engine = .idle ∨ (s.line n).engine = .turnaround ∨ (s.line n).faulted = true ∧ (s.line n).engine = .faulted))
      ∧ (let s := running { quietLine .awaitReply with attempt := some cyclicAttempt }
        LineId.zero ≠ .one ∧ s.mode = .run ∧ s.pendingRequest = none ∧ (s.line .zero).enable = true ∧ (s.line .one).enable = false
          ∧ (s.line .zero).faulted = false ∧ (s.line .zero).engine ≠ .hold ∧ (s.line .zero).attempt = some cyclicAttempt
          ∧ cyclicAttempt.origin ≠ .sync ∧ cyclicAttempt.retryOwed = false)
      ∧ (let s := { running (quietLine .hold) with mode := .quiescing }
        s.mode = .quiescing
          ∧ ∀ n ∈ [LineId.zero, .one], (s.line n).enable = true → (s.line n).engine = .hold ∨ (s.line n).faulted = true)
      ∧ (let s := { running (quietLine .awaitReply) with mode := .quiescing }
        s.mode = .quiescing ∧ (s.line .zero).enable = true ∧ (s.line .zero).engine ≠ .hold ∧ (s.line .zero).faulted = false) := by
  refine ⟨?_, ?_, ?_, ?_⟩ <;> decide

/-- QUIESCE between attempts: an entry's and a slot's, the other line disabled or in an attempt. -/
theorem witness_QuiesceAndItsEnd_between :
    ∀ x ∈ [running { quietLine .turnaround with attempt := some (owing cyclicAttempt) },
        (running { quietLine .turnaround with attempt := some (owing requestAttempt) }).setSlot 0 { lateSlot .active with retries := 1 }],
      ∃ a st notices, LineId.zero ≠ .one ∧ x.mode = .run ∧ x.pendingRequest = none ∧ (x.line .zero).enable = true
        ∧ betweenAttempts x .zero a 0 .timeout ∧ lastTakes x 0 .timeout true st notices ∧ ¬ parkWaits x 0
        ∧ (a.origin = .cyclic 0 ∨ a.origin = .acyclic 0 ∧ a.attempt = some 1 ∧ 1 ≤ (x.slot 0).retries.toNat ∧ a.stop = noStop)
        ∧ (x.line .one).enable = false
        ∧ let y := { x with line1 := { quietLine .awaitReply with attempt := some cyclicAttempt } }
          (y.line .one).enable = true ∧ (y.line .one).attempt = some cyclicAttempt ∧ cyclicAttempt.origin ≠ .sync
            ∧ cyclicAttempt.retryOwed = false ∧ (y.line .one).engine ≠ .hold ∧ (y.line .one).faulted = false := by
  simp only [List.mem_cons, List.not_mem_nil, or_false]
  rintro x (rfl | rfl)
  · exact ⟨owing cyclicAttempt, _, _, nofun, rfl, rfl, rfl, witness_betweenAttempts cyclicAttempt nofun rfl _ rfl,
      ⟨_, .inr (.inl ⟨rfl, .inl rfl, by decide +kernel, rfl, rfl⟩), rfl⟩, nofun, .inl rfl, rfl, rfl, rfl, nofun, rfl, nofun, rfl⟩
  · exact ⟨owing requestAttempt, _, _, nofun, rfl, rfl, rfl, witness_betweenAttempts requestAttempt nofun rfl _ rfl,
      ⟨_, .inr (.inl ⟨rfl, .inl rfl, by decide +kernel, rfl, rfl⟩), rfl⟩, nofun, .inr ⟨rfl, rfl, by decide +kernel, rfl⟩, rfl, rfl, rfl,
      nofun, rfl, nofun, rfl⟩

/-- An attempt of line 0 in QUIESCING with QUIESCE in its STOP set. -/
def quiescing (l : Line) : State := { (running l).setStation 0 station5 with mode := .quiescing, pendingRequest := some .quiesce }

/-- At the last line with a PARK BUSY and without, and while the other line is active. -/
theorem witness_RestInQuiescing_attempt :
    let a := { cyclicAttempt with stop := { noStop with quiesce := true } }
    let s := quiescing { quietLine .awaitReply with attempt := some a }
    let other := { s with line1 := quietLine .sending }
    (∀ x ∈ [s, parking s], ∃ b notices, attemptEnds x .zero (.replyWindowExpiry .zero) .timeout (x.line .zero) a b ∧ a.origin = .cyclic 0
        ∧ a.station = some 0 ∧ a.stop ≠ noStop ∧ OutcomeCode.timeout ≠ .ok ∧ x.mode = .quiescing ∧ (x.line .zero).breakRequest = false
        ∧ lastToRest x .zero
        ∧ (let st := { station5 with last := .timeout, failedAttempts := 1, missed := 1, missCount := 1, health := .degraded };
          stationTakes x 0 .timeout true st notices ∧ parkClear x 0 st))
      ∧ (∃ b, attemptEnds other .zero (.replyWindowExpiry .zero) .timeout (other.line .zero) a b) ∧ goesTo other .zero .hold := by
  refine ⟨?_, ⟨_, .inl ⟨rfl, rfl, rfl, rfl, rfl, rfl⟩⟩, .inr ⟨rfl, rfl, .inl ⟨.one, nofun, rfl, nofun, rfl⟩⟩⟩
  simp only [List.mem_cons, List.not_mem_nil, or_false]
  rintro x (rfl | rfl) <;>
    exact ⟨_, _, .inl ⟨rfl, rfl, rfl, rfl, rfl, rfl⟩, rfl, rfl, nofun, nofun, rfl, rfl, ⟨rfl, fun | .one, _, h => nomatch h⟩,
      .inr (.inl ⟨rfl, .inl rfl, by decide +kernel, rfl, rfl⟩), fun _ => ⟨rfl, nofun⟩⟩

/-- SYNC work ends with its last character, after a quiet wait, and at the quiet limit. -/
theorem witness_RestInQuiescing_sync :
    (∃ l b, let s := sendingLast syncAttempt (some ⟨0x05, true, false, false⟩) []
        syncEnds s .zero (.characterSent .zero) l b ∧ goesTo s .zero .turnaround)
      ∧ (∃ l b, let s := quiescing { quietLine .quietWait with attempt := some syncAttempt }
        syncEnds s .zero (.quietWaitEnd .zero) l b ∧ (s.line .zero).breakRequest = false ∧ lastToRest s .zero)
      ∧ ∃ l b, let s := quiescing { quietLine .quietWait with attempt := some syncAttempt, faults := 6 }
        syncEnds s .zero (.quietLimitExpiry .zero) l b ∧ lastToRest s .zero := by
  refine ⟨⟨_, _, .inl ⟨syncAttempt, ⟨0x05, true⟩, rfl, ⟨rfl, rfl, rfl⟩, ⟨_, rfl, rfl, rfl, rfl⟩, rfl, rfl, rfl, rfl⟩,
      .inl ⟨rfl, rfl⟩⟩,
    ⟨_, _, .inr ⟨syncAttempt, rfl, rfl, rfl, rfl, .inl ⟨rfl, .inl ⟨rfl, rfl⟩, rfl, rfl⟩⟩, rfl, rfl, fun | .one, _, h => nomatch h⟩,
    _, _, .inr ⟨syncAttempt, rfl, rfl, rfl, rfl, .inr ⟨rfl, by decide, rfl, rfl⟩⟩, rfl, fun | .one, _, h => nomatch h⟩

theorem witness_RestInQuiescing_break :
    ∀ faulted : Bool, let s := { quiescing { quietLine .breaking with drive := .breakGuard, faulted := faulted } with
        cmdState := .busy, cmd := 0x0F, args := #v[0, 0, 0, 0] }
      (s.line .zero).engine = .breaking ∧ (s.line .zero).drive = .breakGuard ∧ (s.line .zero).breakRequest = false ∧ lastToRest s .zero
        ∧ s.cmdState = .busy ∧ s.cmd = 0x0F ∧ (s.args.get 0).toNat = lineNumber .zero ∧ { s with cmdState := .idle }.cmdState ≠ .busy :=
  fun _ => ⟨rfl, rfl, rfl, ⟨rfl, fun | .one, _, h => nomatch h⟩, rfl, rfl, rfl, nofun⟩

theorem witness_LeavingQuiesced_run :
    (let s := { running (quietLine .hold) with mode := .quiesced };
      s.mode = .quiesced ∧ s.pendingRequest = none ∧ (s.line .zero).enable = true ∧ (s.line .one).enable = false
        ∧ (s.line .zero).attempt = none ∧ (s.line .zero).breakRequest = false ∧ (s.line .zero).engine = .hold
        ∧ (s.line .zero).settled = false)
      ∧ (let s := { running { quietLine .hold with settled := true, rx := .waitHigh } with mode := .quiesced }
        (s.line .zero).engine = .hold ∧ ¬ isQuiet (s.line .zero))
      ∧ (let s := { running { quietLine .faulted with faulted := true, faults := 8 } with mode := .quiesced }
        s.mode = .quiesced ∧ (s.line .zero).engine = .faulted ∧ (s.line .zero).attempt = none
          ∧ (s.line .zero).breakRequest = false) := by
  unfold isQuiet
  refine ⟨?_, ?_, ?_⟩ <;> decide

/-- Both lines enabled: HOLD on a line known to be quiet, which decides at once, and a break under way. -/
theorem witness_LeavingQuiesced_lines :
    let s := { running { quietLine .hold with settled := true } with
      mode := .quiesced, line1 := { quietLine .breaking with drive := .breakGuard, faulted := true, faults := 8 } }
    s.mode = .quiesced ∧ s.pendingRequest = none
      ∧ (∀ n ∈ [LineId.zero, .one], (s.line n).enable = true ∧ (s.line n).attempt = none ∧ (s.line n).breakRequest = false
        ∧ ((s.line n).engine = .hold ∨ (s.line n).engine = .faulted ∨ (s.line n).engine = .breaking))
      ∧ (s.line .zero).engine = .hold ∧ isQuiet (s.line .zero) ∧ (s.line .zero).settled = true := by
  unfold isQuiet
  decide

/-- The step of that return: CYCNUM is 1 higher, the engine that decided is IDLE, and AGE and PROBE_COUNTDOWN stay. -/
theorem test_return_leaves_the_countdowns :
    let off := { station5 with health := .offline, missCount := 3, probeCountdown := 1, age := 7 }
    let s := after (exec .modereqRun ({ running { quietLine .hold with settled := true } with mode := .quiesced }.setStation 0 off))
    s.mode = .run ∧ s.line0.cycnum = 1 ∧ s.line0.engine = .idle ∧ s.station 0 = off := by decide +kernel

theorem witness_LeavingQuiesced_config :
    let s := { running (quietLine .hold) with mode := .quiesced }
    s.mode = .quiesced ∧ s.pendingRequest = none ∧ s.cmdState ≠ .busy ∧ s.pendingList = [] := by decide

/-- Two sources of equal level pending: the lower number is the top. -/
theorem witness_InterruptRegistersAndTop :
    (inMode .run).mode ≠ .init ∧ sourceIsPending (levels 0xC010) 14 ∧ sourceIsPending (levels 0xC010) 15
      ∧ (∀ j, sourceIsPending (levels 0xC010) j → ((levels 0xC010).ilevel.get j).toNat < ((levels 0xC010).ilevel.get 14).toNat
        ∨ (((levels 0xC010).ilevel.get j).toNat = ((levels 0xC010).ilevel.get 14).toNat ∧ (14 : Fin 16).val ≤ j.val))
      ∧ ∀ i, ¬ sourceIsPending (inMode .run) i := by
  unfold sourceIsPending
  refine ⟨?_, ?_, ?_, ?_, ?_⟩ <;> decide

theorem witness_RegisterWrites_lines :
    (inMode .config).mode = .config ∧ (inMode .run).mode = .run ∧ (inMode .quiesced).mode = .quiesced := by decide

theorem witness_RegisterWrites_others :
    (inMode .config).mode ≠ .init ∧ ({ inMode .run with drain := true } : State).drain = true ∧ (0xFFFE : Word).getLsbD 0 = false
      ∧ (0x30#6).toNat ≥ 0x30 ∧ (0x0F#6).toNat ∈ [0x0F] := by decide

/-- TAPADDR at an address. -/
def atTap (a : Word) (s : State) : State := { s with tapaddr := a }

/-- The first and last words of the regions, and the addresses beside them that belong to none. -/
theorem witness_TapReadsAndBlockWrites_reads :
    (atTap 0x17FF (inMode .run)).mode ≠ .init ∧ tapWord (twoBlocks .run) 0x0010 (some 0) ∧ tapWord (inMode .run) 0x07FF none
      ∧ tapWord (inMode .run) 0x0800 none ∧ tapWord (inMode .run) 0x1000 (some 0x0030) ∧ tapWord (inMode .run) 0x11FF (some 0)
      ∧ tapWord (inMode .run) 0x1200 (some 0) ∧ tapWord (inMode .run) 0x12FF (some 0) ∧ tapWord (inMode .run) 0x1300 none
      ∧ tapWord (inMode .run) 0x1400 (some 0) ∧ tapWord (inMode .run) 0x147F (some 0) ∧ tapWord (inMode .run) 0x1480 none
      ∧ tapWord (inMode .run) 0x1600 (some 0) ∧ tapWord (inMode .run) 0x167F (some 0) ∧ tapWord (inMode .run) 0x1680 none := by
  refine ⟨by decide, Or.inl ⟨1, 0, by decide⟩, Or.inl ⟨127, 15, by decide⟩, Or.inr (Or.inl (by decide)), Or.inr (Or.inl ⟨0, 0, by decide⟩),
    Or.inr (Or.inl ⟨31, 15, by decide⟩), Or.inr (Or.inr (Or.inl ⟨0, 0, by decide⟩)), Or.inr (Or.inr (Or.inl ⟨63, 3, by decide⟩)),
    Or.inr (Or.inr (Or.inl (by decide))), Or.inr (Or.inr (Or.inr (Or.inl ⟨0, 0, by decide⟩))),
    Or.inr (Or.inr (Or.inr (Or.inl ⟨15, 7, by decide⟩))), Or.inr (Or.inr (Or.inr (Or.inl (by decide)))),
    Or.inr (Or.inr (Or.inr (Or.inr ⟨0, by decide⟩))), Or.inr (Or.inr (Or.inr (Or.inr ⟨127, by decide⟩))),
    Or.inr (Or.inr (Or.inr (Or.inr (by decide))))⟩

theorem witness_TapReadsAndBlockWrites_writes :
    (let s := atTap 0x001F (twoBlocks .run);
      s.mode ≠ .init ∧ s.tapaddr.toNat = 16 * (1 : BlockIx).val + 15 ∧ s.owner 1 = .host ∧ s.MemoryLawful)
      ∧ (let s := atTap 0x0010 ((inMode .run).setOwner 1 (.outputStaged 0))
        s.tapaddr.toNat = 16 * (1 : BlockIx).val + 0 ∧ s.owner 1 = .outputStaged 0 ∧ (s.entry 0).commitPending = false)
      ∧ (let s := atTap 0x07FF (inMode .run)
        s.tapaddr.toNat = 16 * (127 : BlockIx).val + 15 ∧ s.owner 127 ≠ .host ∧ ∀ e, s.owner 127 ≠ .outputStaged e) := by
  unfold State.MemoryLawful
  refine ⟨?_, ?_, ?_⟩ <;> decide

theorem witness_TapWritesToRecords :
    (let s := atTap 0x11F0 ((inMode .config).setStation 31 { station5 with health := .parked });
      s.mode = .config ∧ s.tapaddr.toNat = 0x1000 + 16 * (31 : StationIx).val + 0 ∧ (s.station 31).health = .parked)
      ∧ (let s := atTap 0x1000 ((inMode .config).setStation 0 { station5 with health := .offline, missCount := 3 })
        s.tapaddr.toNat = 0x1000 + 16 * (0 : StationIx).val + 0 ∧ (s.station 0).health ≠ .parked)
      ∧ (atTap 0x1001 (inMode .config)).tapaddr.toNat = 0x1000 + 16 * (0 : StationIx).val + 1
      ∧ (atTap 0x11FF (inMode .run)).tapaddr.toNat = 0x1000 + 16 * (31 : StationIx).val + 15
      ∧ ((atTap 0x12FC (inMode .config)).tapaddr.toNat = 0x1200 + 4 * (63 : EntryIx).val + 0
        ∧ (31 : StationIx).val = (0x1F00 : Word).toNat / 256 % 32)
      ∧ (atTap 0x1201 (inMode .config)).tapaddr.toNat = 0x1200 + 4 * (0 : EntryIx).val + 1
      ∧ (atTap 0x12FF (inMode .run)).tapaddr.toNat = 0x1200 + 4 * (63 : EntryIx).val + 3
      ∧ (0x800 ≤ (atTap 0x0FFF (inMode .run)).tapaddr.toNat ∧ (atTap 0x0FFF (inMode .run)).tapaddr.toNat < 0x1000)
      ∧ 0x1300 ≤ (atTap 0x1300 (inMode .run)).tapaddr.toNat := by
  refine ⟨?_, ?_, ?_, ?_, ?_, ?_, ?_, ?_, ?_⟩ <;> decide

theorem witness_RecordWordLayouts :
    ({ station5 with image := some (127, 0) } : Station).image = some (127, 0)
      ∧ ({ entry0 with binding := some (0, 127) } : Entry).binding = some (0, 127) ∧ station5.image = none ∧ entry0.binding = none := by
  decide

/-- The newest record a marker whose count is 254 or 255, and the boundaries 47, 48, 63, 64 of the occupancy. -/
theorem witness_NoticeTakenOrLost :
    ((withRecords 47 (inMode .run)).events.length < 48 ∧ 48 ≤ (withRecords 48 (inMode .run)).events.length
        ∧ (withRecords 63 (inMode .run)).events.length < 64 ∧ 64 ≤ (withRecords 64 (inMode .run)).events.length)
      ∧ (lossMarker 254).kind = .loss ∧ (lossMarker 254).detailB.toNat < 255 ∧ 255 ≤ (lossMarker 255).detailB.toNat
      ∧ (∀ l m, (withRecords 48 (inMode .run)).events = l ++ [m] → m.kind = .loss → 255 ≤ m.detailB.toNat) := by
  refine ⟨by decide, by decide, by decide, by decide, ?_⟩
  intro l m h hm
  have hx : m ∈ List.replicate 48 doneRecord := by
    rw [show List.replicate 48 doneRecord = l ++ [m] from h]
    simp
  rw [List.eq_of_mem_replicate hx] at hm
  cases hm

theorem witness_RecordsLeaveTheQueue :
    (inMode .run).events = [] ∧ (withRecords 1 (inMode .run)).events = doneRecord :: [] ∧ (withRecords 1 (inMode .run)).done = []
      ∧ (let s := { withRecords 64 (inMode .run) with done := [(6, doneRecord)] }
        s.events = doneRecord :: List.replicate 63 doneRecord ∧ s.done = (6, doneRecord) :: []
          ∧ (List.replicate 63 doneRecord).length < 64 ∧ 64 ≤ s.events.length)
      ∧ (let s := { withRecords 63 (inMode .run) with done := [(6, doneRecord)] }
        s.done = (6, doneRecord) :: [] ∧ s.events.length < 64)
      ∧ (let s := { withRecords 1 (inMode .run) with drain := true, dmaWord := 2 }
        s.drain = true ∧ s.dmaWord.toNat < 3)
      ∧ (let s := { withRecords 1 (inMode .run) with drain := true, dmaWord := 3 }
        s.drain = true ∧ s.dmaWord = 3 ∧ s.done = [])
      ∧ (let s := { withRecords 64 (inMode .run) with drain := true, dmaWord := 3, done := [(6, doneRecord), (9, doneRecord)] }
        s.drain = true ∧ s.events = doneRecord :: List.replicate 63 doneRecord ∧ s.dmaWord = 3
          ∧ s.done = (6, doneRecord) :: [(9, doneRecord)] ∧ (List.replicate 63 doneRecord).length < 64)
      ∧ (inMode .run).drain = false := by
  refine ⟨?_, ?_, ?_, ?_, ?_, ?_, ?_, ?_, ?_⟩ <;> decide

/-! ## The Command Unit -/

theorem witness_CommandUnitDiscardsAndRejects :
    (commandCode? .submit = some 0x0A ∧ commandCode? (.commandOverrun 3) = some 3 ∧ commandCode? (.badCommand 0x10) = some 0x10
        ∧ ({ inMode .run with cmdState := .busy } : State).mode ≠ .init ∧ ({ inMode .run with cmdState := .busy } : State).cmdState = .busy)
      ∧ 15 < (0x0010 : Word).toNat ∧ (inMode .run).accepts := by
  unfold State.accepts
  decide

theorem witness_AllocAndFreeBlock :
    (twoBlocks .run).accepts
      ∧ ((twoBlocks .run).owner 2 = .free ∧ ∀ c : BlockIx, c.val < 2 → (twoBlocks .run).owner c ≠ .free)
      ∧ (∀ b, ({ inMode .run with owners := Vector.replicate 128 .host } : State).owner b ≠ .free)
      ∧ 127 < ((withArgs 128 0 0 0 (inMode .run)).carg.get 0).toNat
      ∧ ((withArgs 1 0 0 0 (twoBlocks .run)).argIs 0 (1 : BlockIx).val ∧ (twoBlocks .run).owner 1 = .host)
      ∧ (withArgs 127 0 0 0 (twoBlocks .run)).argIs 0 (127 : BlockIx).val ∧ (twoBlocks .run).owner 127 ≠ .host := by
  unfold State.accepts State.argIs
  refine ⟨?_, ?_, ?_, ?_, ?_, ?_⟩ <;> decide +kernel

theorem witness_BindPairs :
    (63 < ((withArgs 64 0 1 0 (inMode .config)).carg.get 0).toNat ∧ 31 < ((withArgs 32 0 1 0 (inMode .config)).carg.get 0).toNat
        ∧ 127 < ((withArgs 0 128 1 0 (inMode .config)).carg.get 1).toNat ∧ 127 < ((withArgs 0 0 128 0 (inMode .config)).carg.get 2).toNat)
      ∧ (∀ m ∈ [Mode.config, .run],
        let s := withArgs 0 0 1 0 (twoBlocks m)
        s.accepts ∧ s.argIs 0 (0 : EntryIx).val ∧ s.argIs 0 (0 : StationIx).val ∧ s.argIs 1 (0 : BlockIx).val ∧ s.argIs 2 (1 : BlockIx).val
          ∧ (s.entry 0).binding = none ∧ (s.station 0).image = none ∧ s.owner 0 = .host ∧ s.owner 1 = .host)
      ∧ (withArgs 63 127 127 0 (inMode .config)).argIs 0 (63 : EntryIx).val
      ∧ (withArgs 31 127 127 0 (inMode .config)).argIs 0 (31 : StationIx).val
      ∧ ((withArgs 31 127 127 0 (inMode .config)).argIs 1 (127 : BlockIx).val ∧ (inMode .config).owner 127 ≠ .host)
      ∧ ((configured { station5 with image := some (0, 1) } { entry0 with binding := some (0, 1) }).entry 0).binding ≠ none
      ∧ ((configured { station5 with image := some (0, 1) } entry0).station 0).image ≠ none := by
  unfold State.accepts State.argIs
  refine ⟨?_, ?_, ?_, ?_, ?_, ?_, ?_⟩ <;> decide

/-- Both bindings in place. -/
def bound (m : Mode) : State :=
  { configured { station5 with image := some (2, 3) } { entry0 with binding := some (0, 1) } with mode := m }

theorem witness_UnbindPairs :
    (63 < ((withArgs 64 0 0 0 (bound .config)).carg.get 0).toNat ∧ 31 < ((withArgs 32 0 0 0 (bound .config)).carg.get 0).toNat)
      ∧ (∀ m ∈ [Mode.config, .run], let s := withArgs 0 0 0 0 (bound m)
        s.accepts ∧ s.argIs 0 (0 : EntryIx).val ∧ s.argIs 0 (0 : StationIx).val ∧ (s.entry 0).binding = some (0, 1)
          ∧ (s.station 0).image = some (2, 3))
      ∧ ((bound .config).entry 63).binding = none ∧ ((bound .config).station 31).image = none
      ∧ (withArgs 63 0 0 0 (bound .config)).argIs 0 (63 : EntryIx).val
      ∧ (withArgs 31 0 0 0 (bound .config)).argIs 0 (31 : StationIx).val := by
  unfold State.accepts State.argIs
  refine ⟨?_, ?_, ?_, ?_, ?_, ?_⟩ <;> decide

theorem witness_CommitHoldAndRelease_commit :
    (63 < ((withArgs 64 0 0 0 (bound .run)).carg.get 0).toNat)
      ∧ ((withArgs 63 0 0 0 (bound .run)).argIs 0 (63 : EntryIx).val ∧ ((bound .run).entry 63).binding = none)
      ∧ (let s := withArgs 0 33 0 0 (bound .run)
        s.accepts ∧ s.argIs 0 (0 : EntryIx).val ∧ (s.entry 0).binding = some (0, 1) ∧ 32 < (s.carg.get 1).toNat)
      ∧ (let s := withArgs 0 32 0 0 (bound .run)
        s.argIs 0 (0 : EntryIx).val ∧ (s.entry 0).binding = some (0, 1) ∧ s.argIs 1 (32 : BitVec 6).toNat ∧ (32 : BitVec 6).toNat ≤ 32
          ∧ (s.entry 0).commitPending = false)
      ∧ (let s := withArgs 0 32 0 0 ((bound .run).setEntry 0 { entry0 with binding := some (0, 1), commitPending := true })
        s.argIs 0 (0 : EntryIx).val ∧ (s.entry 0).binding = some (0, 1) ∧ (s.carg.get 1).toNat ≤ 32 ∧ (s.entry 0).commitPending = true) := by
  unfold State.accepts State.argIs
  refine ⟨?_, ?_, ?_, ?_, ?_⟩ <;> decide

/-- Station 0 with its pair held or not, with a newer reply or none. -/
def imaged (hold newer : Bool) : State :=
  withArgs 0 0 0 0 ((inMode .run).setStation 0 { station5 with image := some (2, 3), hold := hold, newer := newer })

theorem witness_CommitHoldAndRelease_images :
    31 < ((withArgs 32 0 0 0 (inMode .run)).carg.get 0).toNat
      ∧ ((withArgs 31 0 0 0 (inMode .run)).argIs 0 (31 : StationIx).val ∧ ((inMode .run).station 31).image = none)
      ∧ (∀ hold newer, (imaged hold newer).accepts ∧ (imaged hold newer).argIs 0 (0 : StationIx).val
        ∧ ((imaged hold newer).station 0).image = some (2, 3) ∧ ((imaged hold newer).station 0).hold = hold
        ∧ ((imaged hold newer).station 0).newer = newer) := by
  unfold State.accepts State.argIs
  refine ⟨?_, ?_, ?_⟩ <;> decide

/-- A SUBMIT that passes: station 0, WRITE, blocks 0 and 1 (or none), length 32, no engine IDLE. -/
def submitting (cargs : Vector Word 4) : State := { (twoBlocks .run).setStation 0 station5 with
  line0 := quietLine .awaitReply, carg := cargs }

theorem witness_Submit_refused :
    let full : State := { submitting #v[0x0080, 7, 0x0100, 32] with slots := Vector.replicate 16 (lateSlot .pending) }
    (submitting #v[0x0080, 7, 0x0100, 33]).accepts
      ∧ submitFails (submitting #v[0x00A0, 7, 0x0100, 32]) 1 .badArgument
      ∧ submitFails (submitting #v[0x4080, 7, 0x0100, 32]) 1 .badArgument
      ∧ submitFails full 2 .queueFull
      ∧ submitFails ((submitting #v[0x0080, 7, 0x0100, 32]).setSlot 15 (lateSlot .pending)) 3 .tagInUse
      ∧ submitFails { submitting #v[0x0080, 7, 0x0100, 32] with line0 := Line.reset } 4 .lineDisabled
      ∧ submitFails (submitting #v[0x0081, 7, 0x0100, 32]) 5 .badArgument
      ∧ submitFails ((submitting #v[0x0080, 7, 0x0100, 32]).setStation 0 { station5 with health := .parked }) 6 .stationParked
      ∧ submitFails ((submitting #v[0x0080, 7, 0x0100, 32]).setStation 0 { station5 with health := .offline }) 7 .stationOffline
      ∧ submitFails (submitting #v[0x0080, 7, 0x0000, 32]) 8 .notOwner
      ∧ submitFails (submitting #v[0x0080, 7, 0x0200, 32]) 8 .notOwner
      ∧ submitFails (submitting #v[0x0080, 7, 0x0100, 33]) 9 .badArgument := by
  have station0 (u : StationIx) (h : u.val = 0) : u = 0 := Fin.ext h
  refine ⟨by unfold State.accepts; decide, ⟨rfl, by decide⟩, ⟨rfl, by decide⟩, ⟨rfl, by decide +kernel⟩,
    ⟨rfl, 15, by decide +kernel⟩, ⟨rfl, ?_⟩, ⟨rfl, ?_⟩, ⟨rfl, ?_⟩, ⟨rfl, ?_⟩, ⟨rfl, by decide⟩, ⟨rfl, by decide +kernel⟩, ⟨rfl, by decide⟩⟩ <;>
  · intro u hu
    revert u
    decide +kernel

theorem witness_Submit_taken :
    ∀ reply : Word, reply = 0xFF00 ∨ reply = 0x0100 →
      let s := submitting #v[0x0080, 7, reply, 32]
      s.accepts ∧ (∀ i r, ¬ submitFails s i r) ∧ (s.slot 0).state = .free ∧ (0 : StationIx).val = (s.carg.get 0).toNat % 64
        ∧ (0 : BlockIx).val = (s.carg.get 2).toNat % 256 ∧ (s.line (s.station 0).line).engine ≠ .idle
        ∧ ((s.carg.get 2).toNat / 256 = 255 ∨ (1 : BlockIx).val = (s.carg.get 2).toNat / 256) := by
  have noCheck (s : State) (i : Nat) (r : ResultCode) (h : submitFails s i r) : i ∈ [1, 2, 3, 4, 5, 6, 7, 8, 9] := by
    unfold submitFails at h
    split at h <;> first | decide | exact h.elim
  rintro reply (rfl | rfl) <;>
  · refine ⟨by unfold State.accepts; decide, ?_, by decide +kernel⟩
    intro i r h
    have hi := noCheck _ i r h
    simp only [List.mem_cons, List.not_mem_nil, or_false] at hi
    rcases hi with rfl | rfl | rfl | rfl | rfl | rfl | rfl | rfl | rfl <;> revert h <;> unfold submitFails <;> (try rintro ⟨-, h⟩) <;>
      revert h <;> decide +kernel

/-- An IDLE engine on a line known to be quiet. -/
theorem witness_Submit_idle :
    let s := { submitting #v[0x0080, 7, 0x0100, 32] with line0 := { quietLine .idle with phase := .acyclic, walk := 64, settled := true } }
    s.mode = .run ∧ (s.line (s.station 0).line).engine = .idle ∧ (s.line (s.station 0).line).attempt = none
      ∧ isQuiet (s.line (s.station 0).line) ∧ (s.line (s.station 0).line).settled = true ∧ s.owner 0 = .host ∧ s.owner 1 = .host := by
  unfold isQuiet
  decide +kernel

theorem witness_Abort :
    15 < ((withArgs 16 0 0 0 (inMode .run)).carg.get 0).toNat
      ∧ (let s := withArgs 15 0 0 0 (inMode .run)
        s.accepts ∧ s.argIs 0 (15 : SlotIx).val ∧ (s.slot 15).state = .free)
      ∧ (let s := withArgs 15 0 0 0 ((inMode .run).setSlot 15 (lateSlot .done))
        s.argIs 0 (15 : SlotIx).val ∧ (s.slot 15).state = .done)
      ∧ (let s := withArgs 0 0 0 0 (withRecords 63 threeSlots)
        s.accepts ∧ s.argIs 0 (0 : SlotIx).val ∧ (s.slot 0).state = .pending ∧ s.events.length < 64 ∧ s.done = [])
      ∧ (let s := withArgs 0 0 0 0 (withRecords 64 threeSlots)
        s.argIs 0 (0 : SlotIx).val ∧ (s.slot 0).state = .pending ∧ 64 ≤ s.events.length)
      ∧ (let s := withArgs 0 0 0 0 ((running { quietLine .awaitReply with attempt := some requestAttempt }).setSlot 0 (lateSlot .active))
        s.argIs 0 (0 : SlotIx).val ∧ (s.slot 0).state = .active ∧ LineId.zero = (s.station (s.slot 0).station).line
          ∧ (s.line .zero).attempt = some requestAttempt ∧ requestAttempt.origin = .acyclic 0 ∧ requestAttempt.retryOwed = false) := by
  unfold State.accepts State.argIs
  refine ⟨?_, ?_, ?_, ?_, ?_, ?_⟩ <;> decide

theorem witness_activeIfQuiescing :
    ∀ m ∈ [Mode.run, .quiescing], activeIfQuiescing { running (quietLine .awaitReply) with mode := m } .zero := by
  unfold activeIfQuiescing
  decide

/-- ABORT and PARK between attempts: the slot's transaction and the entry's. -/
theorem witness_AbortAndPark_between :
    (let s := withArgs 0 0 0 0 ((running { quietLine .turnaround with attempt := some (owing requestAttempt) }).setSlot 0 (lateSlot .active));
      s.accepts ∧ s.argIs 0 (0 : SlotIx).val ∧ s.argIs 0 (0 : StationIx).val ∧ (s.slot 0).state = .active ∧ activeIfQuiescing s .zero
        ∧ betweenAttempts s .zero (owing requestAttempt) 0 .timeout ∧ requestAttempt.stop.abort = false ∧ s.pendingOf 0 = []
        ∧ ∃ st notices, lastTakes s 0 .timeout false st notices ∧ st.health ≠ .parked)
      ∧ let s := withArgs 0 0 0 0 (running { quietLine .turnaround with attempt := some (owing cyclicAttempt) })
        s.accepts ∧ s.argIs 0 (0 : StationIx).val ∧ (s.station 0).health ≠ .parked ∧ s.pendingOf 0 = [] ∧ activeIfQuiescing s .zero
          ∧ betweenAttempts s .zero (owing cyclicAttempt) 0 .timeout
          ∧ ∃ st notices, lastTakes s 0 .timeout true st notices ∧ st.health ≠ .parked :=
  ⟨⟨⟨nofun, nofun⟩, rfl, rfl, rfl, nofun, witness_betweenAttempts requestAttempt nofun rfl _ rfl, rfl, rfl, _, _,
      ⟨_, .inr (.inl ⟨rfl, .inl rfl, by decide +kernel, rfl, rfl⟩), rfl⟩, nofun⟩,
    ⟨nofun, nofun⟩, rfl, nofun, rfl, nofun, witness_betweenAttempts cyclicAttempt nofun rfl _ rfl, _, _,
      ⟨_, .inr (.inl ⟨rfl, .inl rfl, by decide +kernel, rfl, rfl⟩), rfl⟩, nofun⟩

theorem witness_Park :
    31 < ((withArgs 32 0 0 0 (inMode .run)).carg.get 0).toNat
      ∧ (let s := withArgs 31 0 0 0 ((inMode .run).setStation 31 { station5 with health := .parked })
        s.accepts ∧ s.argIs 0 (31 : StationIx).val ∧ (s.station 31).health = .parked)
      ∧ (let s := withArgs 0 0 0 0 (running (quietLine .idle))
        s.accepts ∧ s.argIs 0 (0 : StationIx).val ∧ (s.station 0).health ≠ .parked ∧ s.pendingOf 0 = []
          ∧ ∀ a, (s.line (s.station 0).line).attempt = some a → a.station ≠ some 0)
      ∧ ((withArgs 0 0 0 0 threeSlots).argIs 0 (0 : StationIx).val ∧ (threeSlots.station 0).health ≠ .parked
        ∧ (1 : SlotIx) ∈ threeSlots.submitted ∧ (threeSlots.slot 1).state = .pending ∧ (threeSlots.slot 1).station = 0)
      ∧ (let s := withArgs 0 0 0 0 (running { quietLine .awaitReply with attempt := some cyclicAttempt })
        s.argIs 0 (0 : StationIx).val ∧ (s.station 0).health ≠ .parked ∧ s.pendingOf 0 = [] ∧ LineId.zero = (s.station 0).line
          ∧ (s.line .zero).attempt = some cyclicAttempt ∧ cyclicAttempt.origin ≠ .sync ∧ cyclicAttempt.station = some 0
          ∧ cyclicAttempt.retryOwed = false)
      ∧ (let s := { running (quietLine .turnaround) with cmdState := .busy, cmd := 0x0C, args := #v[0, 0, 0, 0] }
        s.cmdState = .busy ∧ s.cmd = 0x0C ∧ (s.args.get 0).toNat = (0 : StationIx).val ∧ s.pendingOf 0 = []
          ∧ (∀ a, (s.line (s.station 0).line).attempt = some a → a.station ≠ some 0) ∧ (s.station 0).health ≠ .parked) := by
  unfold State.accepts State.argIs
  refine ⟨?_, ?_, ⟨?_, ?_, ?_, ?_, ?_⟩, ?_, ?_, ⟨?_, ?_, ?_, ?_, ?_, ?_⟩⟩
  case refine_7 =>
    rintro a ⟨⟩
  case refine_14 =>
    rintro a ⟨⟩
  all_goals decide

theorem witness_Resume :
    31 < ((withArgs 32 0 0 0 (inMode .run)).carg.get 0).toNat ∧ (withArgs 31 0 0 0 (inMode .run)).accepts
      ∧ (withArgs 31 0 0 0 (inMode .run)).argIs 0 (31 : StationIx).val ∧ ((inMode .run).station 31).health = .online
      ∧ ∀ r : Bool, (let s := (inMode .run).setStation 31 { station5 with health := .offline, missCount := 3, reachable := r }
        (s.station 31).health = .offline ∧ (s.station 31).reachable = r) := by
  unfold State.accepts State.argIs
  decide

theorem witness_ClearCounters :
    (withArgs 31 0 0 0 (inMode .run)).accepts ∧ (withArgs 31 0 0 0 (inMode .run)).argIs 0 (31 : StationIx).val
      ∧ (withArgs 0xFFFF 0 0 0 (inMode .run)).carg.get 0 = 0xFFFF
      ∧ 31 < ((withArgs 32 0 0 0 (inMode .run)).carg.get 0).toNat ∧ (withArgs 32 0 0 0 (inMode .run)).carg.get 0 ≠ 0xFFFF := by
  unfold State.accepts State.argIs
  decide

theorem witness_LineBreak :
    1 < ((withArgs 2 0 0 0 (inMode .run)).carg.get 0).toNat
      ∧ (let s := withArgs 1 0 0 0 (inMode .config)
        s.accepts ∧ s.argIs 0 (lineNumber .one) ∧ s.mode = .config)
      ∧ (let s := withArgs 1 0 0 0 (inMode .run)
        s.argIs 0 (lineNumber .one) ∧ s.mode ≠ .config ∧ (s.line .one).enable = false)
      ∧ (let s := withArgs 0 0 0 0 (running { quietLine .faulted with faulted := true, faults := 8 })
        s.accepts ∧ s.argIs 0 (lineNumber .zero) ∧ s.mode ≠ .config ∧ (s.line .zero).enable = true ∧ s.mode ≠ .quiescing
          ∧ (s.line .zero).attempt = none ∧ (s.line .zero).engine = .faulted)
      ∧ (let s := withArgs 0 0 0 0 (breaking .breakLow .run)
        s.argIs 0 (lineNumber .zero) ∧ (s.line .zero).engine = .breaking)
      ∧ (let s := withArgs 0 0 0 0 (running { quietLine .awaitReply with attempt := some cyclicAttempt })
        s.argIs 0 (lineNumber .zero) ∧ (s.line .zero).enable = true ∧ (s.line .zero).attempt = some cyclicAttempt
          ∧ (s.line .zero).engine ≠ .breaking ∧ (s.line .zero).engine ≠ .hold ∧ cyclicAttempt.origin ≠ .sync
          ∧ cyclicAttempt.retryOwed = false) := by
  unfold State.accepts State.argIs
  refine ⟨?_, ?_, ?_, ?_, ?_, ?_⟩ <;> decide

/-- LINE_BREAK between attempts: an entry's, and a slot's within its RETRIES. -/
theorem witness_LineBreak_between :
    (let s := withArgs 0 0 0 0 (running { quietLine .turnaround with attempt := some (owing cyclicAttempt) });
      s.accepts ∧ s.argIs 0 (lineNumber .zero) ∧ s.mode ≠ .config ∧ (s.line .zero).enable = true
        ∧ betweenAttempts s .zero (owing cyclicAttempt) 0 .timeout ∧ ∃ st notices, lastTakes s 0 .timeout true st notices)
      ∧ let s := withArgs 0 0 0 0 ((running { quietLine .turnaround with attempt := some (owing requestAttempt) }).setSlot 0
          { lateSlot .active with retries := 1 })
        betweenAttempts s .zero (owing requestAttempt) 0 .timeout ∧ (owing requestAttempt).attempt = some 1
          ∧ 1 ≤ (s.slot 0).retries.toNat ∧ (owing requestAttempt).stop = noStop :=
  ⟨⟨⟨nofun, nofun⟩, rfl, nofun, rfl, witness_betweenAttempts cyclicAttempt nofun rfl _ rfl, _, _, _,
      .inr (.inl ⟨rfl, .inl rfl, by decide +kernel, rfl, rfl⟩), rfl⟩,
    witness_betweenAttempts requestAttempt nofun rfl _ rfl, rfl, by decide +kernel, rfl⟩

/-! ## The invariants: a lawful state in RUN with a command waiting -/

theorem witness_StationsStayLawful :
    let s := queued (.replyWindowExpiry .zero) (running { quietLine .awaitReply with attempt := some cyclicAttempt })
    s.StationsLawful ∧ ∃ t, step s = .next t := by
  unfold State.StationsLawful
  exact ⟨by decide +kernel, _, rfl⟩

theorem witness_QueueMemoryAndRegistersStayLawful_queue :
    let s := queued .evrec3Read { withRecords 64 (inMode .run) with done := [(6, doneRecord)] }
    s.QueueLawful ∧ ∃ t, step s = .next t := by
  unfold State.QueueLawful
  exact ⟨by decide +kernel, _, rfl⟩

theorem witness_EnginesAndRequestsStayLawful :
    let s := queued (.quietLimitExpiry .zero) { running { quietLine .quietWait with faults := 7 } with line1 := Line.reset }
    s.EnginesLawful ∧ s.RequestLawful ∧ ∃ t, step s = .next t := by
  unfold State.EnginesLawful State.RequestLawful
  refine ⟨?_, by decide, _, rfl⟩
  rintro (_ | _) <;> decide

theorem witness_QueueMemoryAndRegistersStayLawful_registers :
    let s := queued (.tapdataWrite 0x1234) { atTap 0x0010 (twoBlocks .run) with payload := [(32, 0xAA)], evthresh := 64 }
    s.MemoryLawful ∧ s.RegistersLawful ∧ ∃ t, step s = .next t := by
  unfold State.MemoryLawful State.RegistersLawful
  exact ⟨by decide, by decide, _, rfl⟩

end Sys2Proof.Tests
end

section
/-!
SUPPORT. The due rule of a schedule entry (R61): conditions 1 to 3 are the entry's phase with its line, conditions 4 and 5
the station's health. Each answer of `due` is one conjunction of the two.
-/

namespace Sys2Proof.Machine

namespace State

/-- Conditions 1 to 3 of R61, in numbers. -/
theorem inPhase_iff (s : State) (n : LineId) (c : Word) (e : EntryIx) :
    s.inPhase n c e = true ↔ (s.entry e).enabled = true ∧ (s.station (s.entry e).station).enabled = true
      ∧ (s.station (s.entry e).station).line = n ∧ c.toNat % 2 ^ (s.entry e).divExp.toNat = (s.entry e).phase.toNat := by
  simp only [inPhase, dividerOf, Bool.and_eq_true, beq_iff_eq, and_assoc]

/-- An entry out of phase is not due, whatever its station's health. -/
theorem due_of_not_inPhase (s : State) (n : LineId) (c : Word) (e : EntryIx) (h : s.inPhase n c e = false) :
    s.due n c e = none := by
  simp [due, h]

/-- Due as a cyclic transaction: in phase, and the station answers polls (R61). -/
theorem due_eq_cyclic_iff (s : State) (n : LineId) (c : Word) (e : EntryIx) :
    s.due n c e = some false ↔ s.inPhase n c e = true
      ∧ ((s.station (s.entry e).station).health = .online ∨ (s.station (s.entry e).station).health = .degraded) := by
  cases hp : s.inPhase n c e with
  | false => simp [due_of_not_inPhase s n c e hp]
  | true => cases hh : (s.station (s.entry e).station).health <;> simp [due, hp, hh]

/-- Due as a probe: in phase, and the station is OFFLINE with PROBE_DUE set (R61). -/
theorem due_eq_probe_iff (s : State) (n : LineId) (c : Word) (e : EntryIx) :
    s.due n c e = some true ↔ s.inPhase n c e = true
      ∧ (s.station (s.entry e).station).health = .offline ∧ (s.station (s.entry e).station).probeDue = true := by
  cases hp : s.inPhase n c e with
  | false => simp [due_of_not_inPhase s n c e hp]
  | true => cases hh : (s.station (s.entry e).station).health <;> simp [due, hp, hh]

end State

/-- Settles O23: each answer of the due rule is the phase and the health, and the phase is conditions 1 to 3 in numbers. -/
theorem dueRule : Obligations.DueRule := by
  intro s n c e en st
  refine ⟨?cyclic, ?probe⟩
  case cyclic => rw [s.due_eq_cyclic_iff, s.inPhase_iff]; simp only [and_assoc, en, st]
  case probe => rw [s.due_eq_probe_iff, s.inPhase_iff]; simp only [and_assoc, en, st]

end Sys2Proof.Machine
end

section
/-!
SUPPORT. CLEAR_COUNTERS (R90): the row hands its body the taken state, and the body's three ends are one equation each.
-/

namespace Sys2Proof.Machine

namespace State

/-- A station number is below 32, so it is not the argument that names all stations. -/
theorem ne_allStations_of_argIs {s : State} {u : StationIx} (h : s.argIs 0 u.val) : s.carg.get 0 ≠ 0xFFFF := by
  intro hall
  have hval : (0xFFFF : Word).toNat = u.val := hall ▸ h
  have hlt : u.val < 32 := u.isLt
  have hnum : (0xFFFF : Word).toNat = 65535 := rfl
  omega

/-- Argument 0xFFFF names all 32 stations. -/
theorem clearCountersBody_all (s : State) (h : s.arg 0 = 0xFFFF) :
    s.clearCountersBody = (s.mapStations fun _ st => st.clearCounters).complete .ok 32 := if_pos h

/-- An argument below 32 names its station. -/
theorem clearCountersBody_one (s : State) (u : StationIx) (hall : s.arg 0 ≠ 0xFFFF) (hu : (s.arg 0).toNat = u.val) :
    s.clearCountersBody = (s.modifyStation u Station.clearCounters).complete .ok 1 := by
  unfold clearCountersBody
  rw [if_neg hall, index?_some u hu]

/-- Any other argument is refused. -/
theorem clearCountersBody_badArgument (s : State) (hall : s.arg 0 ≠ 0xFFFF) (hbig : 31 < (s.arg 0).toNat) :
    s.clearCountersBody = s.refuse .badArgument := by
  unfold clearCountersBody
  rw [if_neg hall, index?_none hbig]

end State

/-- A CLEAR_COUNTERS that the Command Unit takes is its body on the taken state (R169). -/
theorem exec_clearCounters (s : State) (h : s.accepts) :
    exec .clearCounters s = .next (s.takeCommand 0x0E).clearCountersBody :=
  congrArg _ (State.hostCommand_of_accepts 0x0E State.clearCountersBody s h)

/-- Settles O55: the Command Unit takes the write, and each argument ends in its own equation of the body. -/
theorem clearCounters : Obligations.ClearCounters := by
  intro s hs
  rw [exec_clearCounters s hs]
  refine ⟨?one, ?all, ?badArgument⟩
  case one =>
    intro u hu
    rw [(s.takeCommand 0x0E).clearCountersBody_one u (State.ne_allStations_of_argIs hu) hu]
    rfl
  case all =>
    intro hall
    refine ⟨_, congrArg _ ((s.takeCommand 0x0E).clearCountersBody_all hall), rfl, fun u => ?_⟩
    exact State.station_mapStations (fun _ st => st.clearCounters) s u
  case badArgument =>
    intro hbig hall
    rw [(s.takeCommand 0x0E).clearCountersBody_badArgument hall hbig, State.refuse_takeCommand]

end Sys2Proof.Machine
end

section
/-!
SUPPORT. Blocks and their pairs (R96, R97, R99, R100, R105, R106). Each command's end is one equation of its row: the search
for a FREE block, and the checks that follow the arguments of a bind and of an unbind, which the output and the image commands
have in common.
-/

namespace Sys2Proof.Machine

theorem toNat_lt_of_index?_eq_some {n : Nat} {w : Word} {i : Fin n} (h : index? n w = some i) : w.toNat < n := by
  by_contra hw
  have hnone : index? n w = none := State.index?_none (by omega)
  rw [hnone] at h
  contradiction

namespace State

/-! ## The search for a FREE block (R96) -/

theorem lowestFreeBlock_eq_some {s : State} {b : BlockIx} (hb : s.owner b = .free)
    (hlow : ∀ c : BlockIx, c.val < b.val → s.owner c ≠ .free) : s.lowestFreeBlock = some b := by
  obtain ⟨below, above, hsplit, hbelow⟩ := finRange_split b
  unfold lowestFreeBlock
  rw [hsplit]
  exact find?_first _ below above b (fun c hc => beq_eq_false_iff_ne.2 (hlow c (hbelow c hc))) (beq_iff_eq.2 hb)

theorem lowestFreeBlock_eq_none {s : State} (h : ∀ b, s.owner b ≠ .free) : s.lowestFreeBlock = none :=
  List.find?_eq_none.2 fun b _ hb => h b (beq_iff_eq.1 hb)

/-- The host reads no word of a FREE block (R94). -/
theorem tapRead?_of_free {s : State} {b : BlockIx} (hb : s.owner b = .free) {i : Nat} (hi : i < 16) :
    s.tapRead? (16 * b.val + i) = none := by
  unfold tapRead?
  rw [tapPlace_inBlock _ b i hi rfl]
  exact if_pos hb

theorem twoHostBlocks_iff (s : State) (a b : BlockIx) :
    s.twoHostBlocks a b = true ↔ a ≠ b ∧ s.owner a = .host ∧ s.owner b = .host := by
  simp only [twoHostBlocks, Bool.and_eq_true, bne_iff_ne, beq_iff_eq, and_assoc]

/-! ## The checks that follow the arguments -/

/-- A bind once its arguments are in range (R99, R105): CONFIG, no pair yet, two HOST blocks; then the state `t` with the pair. -/
def bindChecked (code : Word) (pair : Option (BlockIx × BlockIx)) (a b : BlockIx) (t s : State) : State :=
  if s.mode ≠ .config then s.commandDone code .wrongMode 0
  else if pair.isSome then s.commandDone code .alreadyBound 0
  else if s.twoHostBlocks a b then t.commandDone code .ok 0
  else s.commandDone code .notOwner 0

/-- An unbind once its argument is in range (R100, R106): CONFIG, then a pair; then the state `t` without that pair. -/
def unbindChecked (code : Word) (pair : Option (BlockIx × BlockIx)) (t : BlockIx × BlockIx → State) (s : State) : State :=
  if s.mode ≠ .config then s.commandDone code .wrongMode 0
  else
    match pair with
    | none => s.commandDone code .notBound 0
    | some p => (t p).commandDone code .ok 0

section
variable {s t : State} {code : Word} {pair : Option (BlockIx × BlockIx)} {a b : BlockIx}

theorem bindChecked_wrongMode (hm : s.mode ≠ .config) : bindChecked code pair a b t s = s.commandDone code .wrongMode 0 :=
  if_pos hm

theorem bindChecked_alreadyBound (hm : s.mode = .config) (hp : pair ≠ none) :
    bindChecked code pair a b t s = s.commandDone code .alreadyBound 0 := by
  unfold bindChecked
  rw [if_neg (not_not.2 hm), if_pos (Option.isSome_iff_ne_none.2 hp)]

/-- A bind that has passed its first three checks is decided by the two blocks. -/
theorem bindChecked_unbound (hm : s.mode = .config) : bindChecked code none a b t s
    = if s.twoHostBlocks a b then t.commandDone code .ok 0 else s.commandDone code .notOwner 0 :=
  if_neg (not_not.2 hm)

theorem bindChecked_notOwner (hm : s.mode = .config) (hp : pair = none) (h : a = b ∨ s.owner a ≠ .host ∨ s.owner b ≠ .host) :
    bindChecked code pair a b t s = s.commandDone code .notOwner 0 := by
  subst hp
  rw [bindChecked_unbound hm, if_neg]
  rw [twoHostBlocks_iff]
  rintro ⟨hne, ha, hb⟩
  obtain h | h | h := h
  · exact hne h
  · exact h ha
  · exact h hb

theorem bindChecked_ok (hm : s.mode = .config) (hp : pair = none) (hne : a ≠ b) (ha : s.owner a = .host) (hb : s.owner b = .host) :
    bindChecked code pair a b t s = t.commandDone code .ok 0 := by
  subst hp
  rw [bindChecked_unbound hm, if_pos ((s.twoHostBlocks_iff a b).2 ⟨hne, ha, hb⟩)]

end

section
variable {s : State} {code : Word} {pair : Option (BlockIx × BlockIx)} {t : BlockIx × BlockIx → State}

theorem unbindChecked_wrongMode (hm : s.mode ≠ .config) : unbindChecked code pair t s = s.commandDone code .wrongMode 0 :=
  if_pos hm

theorem unbindChecked_notBound (hm : s.mode = .config) (hp : pair = none) :
    unbindChecked code pair t s = s.commandDone code .notBound 0 := by
  subst hp
  exact if_neg (not_not.2 hm)

theorem unbindChecked_ok (hm : s.mode = .config) {p : BlockIx × BlockIx} (hp : pair = some p) :
    unbindChecked code pair t s = (t p).commandDone code .ok 0 := by
  subst hp
  exact if_neg (not_not.2 hm)

end

end State

/-! ## The rows, taken by the Command Unit (R169) -/

section
variable {s : State} (hs : s.accepts)
include hs

theorem exec_allocBlock_of_free {b : BlockIx} (hb : s.owner b = .free) (hlow : ∀ c : BlockIx, c.val < b.val → s.owner c ≠ .free) :
    exec .allocBlock s = .next ((s.setOwner b .host).commandDone 0x01 .ok (BitVec.ofNat 16 b.val)) := by
  refine congrArg _ ((State.hostCommand_of_accepts 0x01 State.allocBlockBody s hs).trans ?_)
  have hfound : (s.takeCommand 0x01).lowestFreeBlock = some b := State.lowestFreeBlock_eq_some hb hlow
  unfold State.allocBlockBody
  rw [hfound]
  rfl

theorem exec_allocBlock_of_noneFree (h : ∀ b, s.owner b ≠ .free) : exec .allocBlock s = .next (s.commandDone 0x01 .noBlock 0) := by
  refine congrArg _ ((State.hostCommand_of_accepts 0x01 State.allocBlockBody s hs).trans ?_)
  have hnone : (s.takeCommand 0x01).lowestFreeBlock = none := State.lowestFreeBlock_eq_none h
  unfold State.allocBlockBody
  rw [hnone, State.refuse_takeCommand]

theorem exec_freeBlock_badArgument (h : 127 < (s.carg.get 0).toNat) :
    exec .freeBlock s = .next (s.commandDone 0x02 .badArgument 0) := by
  refine congrArg _ ((State.hostCommand_of_accepts 0x02 State.freeBlockBody s hs).trans ?_)
  unfold State.freeBlockBody
  rw [State.takeCommand_arg, State.index?_none h, State.refuse_takeCommand]

/-- FREE_BLOCK of a block: freed when it is HOST, refused otherwise (R97). -/
theorem exec_freeBlock {b : BlockIx} (hb : s.argIs 0 b.val) : exec .freeBlock s
    = .next (if s.owner b = .host then (s.setOwner b .free).commandDone 0x02 .ok 0 else s.commandDone 0x02 .notOwner 0) := by
  refine congrArg _ ((State.hostCommand_of_accepts 0x02 State.freeBlockBody s hs).trans ?_)
  unfold State.freeBlockBody
  rw [State.takeCommand_arg, State.index?_some b hb]
  rfl

theorem exec_bindOutput_badArgument
    (h : 63 < (s.carg.get 0).toNat ∨ 127 < (s.carg.get 1).toNat ∨ 127 < (s.carg.get 2).toNat) :
    exec .bindOutput s = .next (s.commandDone 0x03 .badArgument 0) := by
  refine congrArg _ ((State.hostCommand_of_accepts 0x03 State.bindOutputBody s hs).trans ?_)
  unfold State.bindOutputBody
  simp only [State.takeCommand_arg]
  split
  case h_1 he ha hb =>
    have he := toNat_lt_of_index?_eq_some he
    have ha := toNat_lt_of_index?_eq_some ha
    have hb := toNat_lt_of_index?_eq_some hb
    omega
  case h_2 => rfl

theorem exec_bindOutput {e : EntryIx} {a b : BlockIx} (he : s.argIs 0 e.val) (ha : s.argIs 1 a.val) (hb : s.argIs 2 b.val) :
    exec .bindOutput s = .next (State.bindChecked 0x03 (s.entry e).binding a b (s.bindEntry e a b) s) := by
  refine congrArg _ ((State.hostCommand_of_accepts 0x03 State.bindOutputBody s hs).trans ?_)
  unfold State.bindOutputBody
  simp only [State.takeCommand_arg]
  rw [State.index?_some e he, State.index?_some a ha, State.index?_some b hb]
  rfl

theorem exec_bindImage_badArgument
    (h : 31 < (s.carg.get 0).toNat ∨ 127 < (s.carg.get 1).toNat ∨ 127 < (s.carg.get 2).toNat) :
    exec .bindImage s = .next (s.commandDone 0x04 .badArgument 0) := by
  refine congrArg _ ((State.hostCommand_of_accepts 0x04 State.bindImageBody s hs).trans ?_)
  unfold State.bindImageBody
  simp only [State.takeCommand_arg]
  split
  case h_1 hu ha hb =>
    have hu := toNat_lt_of_index?_eq_some hu
    have ha := toNat_lt_of_index?_eq_some ha
    have hb := toNat_lt_of_index?_eq_some hb
    omega
  case h_2 => rfl

theorem exec_bindImage {u : StationIx} {a b : BlockIx} (hu : s.argIs 0 u.val) (ha : s.argIs 1 a.val) (hb : s.argIs 2 b.val) :
    exec .bindImage s = .next (State.bindChecked 0x04 (s.station u).image a b (s.bindStation u a b) s) := by
  refine congrArg _ ((State.hostCommand_of_accepts 0x04 State.bindImageBody s hs).trans ?_)
  unfold State.bindImageBody
  simp only [State.takeCommand_arg]
  rw [State.index?_some u hu, State.index?_some a ha, State.index?_some b hb]
  rfl

theorem exec_unbindOutput_badArgument (h : 63 < (s.carg.get 0).toNat) :
    exec .unbindOutput s = .next (s.commandDone 0x05 .badArgument 0) := by
  refine congrArg _ ((State.hostCommand_of_accepts 0x05 State.unbindOutputBody s hs).trans ?_)
  unfold State.unbindOutputBody
  rw [State.takeCommand_arg, State.index?_none h, State.refuse_takeCommand]

theorem exec_unbindOutput {e : EntryIx} (he : s.argIs 0 e.val) :
    exec .unbindOutput s = .next (State.unbindChecked 0x05 (s.entry e).binding (fun p => s.unbindEntry e p) s) := by
  refine congrArg _ ((State.hostCommand_of_accepts 0x05 State.unbindOutputBody s hs).trans ?_)
  have hbinding : ((s.takeCommand 0x05).entry e).binding = (s.entry e).binding := rfl
  unfold State.unbindOutputBody State.unbindChecked
  rw [State.takeCommand_arg, State.index?_some e he]
  simp only [hbinding]
  cases (s.entry e).binding <;> rfl

theorem exec_unbindImage_badArgument (h : 31 < (s.carg.get 0).toNat) :
    exec .unbindImage s = .next (s.commandDone 0x06 .badArgument 0) := by
  refine congrArg _ ((State.hostCommand_of_accepts 0x06 State.unbindImageBody s hs).trans ?_)
  unfold State.unbindImageBody
  rw [State.takeCommand_arg, State.index?_none h, State.refuse_takeCommand]

theorem exec_unbindImage {u : StationIx} (hu : s.argIs 0 u.val) :
    exec .unbindImage s = .next (State.unbindChecked 0x06 (s.station u).image (fun p => s.unbindStation u p) s) := by
  refine congrArg _ ((State.hostCommand_of_accepts 0x06 State.unbindImageBody s hs).trans ?_)
  have himage : ((s.takeCommand 0x06).station u).image = (s.station u).image := rfl
  unfold State.unbindImageBody State.unbindChecked
  rw [State.takeCommand_arg, State.index?_some u hu]
  simp only [himage]
  cases (s.station u).image <;> rfl

end

section
variable {c : Instr} {code : Word} {pair : Option (BlockIx × BlockIx)} {s : State}

/-- The ends of a row that comes to the checks of a bind, in the order of R99 and R105. -/
theorem bind_ends {a b : BlockIx} {t : State} (h : exec c s = .next (State.bindChecked code pair a b t s)) :
    (s.mode ≠ .config → exec c s = .next (s.commandDone code .wrongMode 0))
      ∧ (s.mode = .config → pair ≠ none → exec c s = .next (s.commandDone code .alreadyBound 0))
      ∧ (s.mode = .config → pair = none → a = b ∨ s.owner a ≠ .host ∨ s.owner b ≠ .host →
        exec c s = .next (s.commandDone code .notOwner 0))
      ∧ (s.mode = .config → pair = none → a ≠ b → s.owner a = .host → s.owner b = .host →
        exec c s = .next (t.commandDone code .ok 0)) := by
  rw [h]
  refine ⟨?wrongMode, ?alreadyBound, ?notOwner, ?ok⟩
  case wrongMode => exact fun hm => congrArg _ (State.bindChecked_wrongMode hm)
  case alreadyBound => exact fun hm hp => congrArg _ (State.bindChecked_alreadyBound hm hp)
  case notOwner => exact fun hm hp hbad => congrArg _ (State.bindChecked_notOwner hm hp hbad)
  case ok => exact fun hm hp hne ha hb => congrArg _ (State.bindChecked_ok hm hp hne ha hb)

/-- The ends of a row that comes to the checks of an unbind, in the order of R100 and R106. -/
theorem unbind_ends {t : BlockIx × BlockIx → State} (h : exec c s = .next (State.unbindChecked code pair t s)) :
    (s.mode ≠ .config → exec c s = .next (s.commandDone code .wrongMode 0))
      ∧ (s.mode = .config → pair = none → exec c s = .next (s.commandDone code .notBound 0))
      ∧ ∀ a b, s.mode = .config → pair = some (a, b) → exec c s = .next ((t (a, b)).commandDone code .ok 0) := by
  rw [h]
  refine ⟨?wrongMode, ?notBound, ?ok⟩
  case wrongMode => exact fun hm => congrArg _ (State.unbindChecked_wrongMode hm)
  case notBound => exact fun hm hp => congrArg _ (State.unbindChecked_notBound hm hp)
  case ok => exact fun a b hm hp => congrArg _ (State.unbindChecked_ok hm hp)

end

/-- Settles O47: the search finds the lowest FREE block or none, and the class of the block decides FREE_BLOCK. -/
theorem allocAndFreeBlock : Obligations.AllocAndFreeBlock := by
  refine ⟨fun s hs => ⟨?found, ?noneFree⟩, fun s hs => ⟨exec_freeBlock_badArgument hs, fun b harg => ⟨?notOwner, ?freed⟩⟩⟩
  case found => exact fun b hb hlow => exec_allocBlock_of_free hs hb hlow
  case noneFree => exact exec_allocBlock_of_noneFree hs
  case notOwner =>
    intro hb
    rw [exec_freeBlock hs harg, if_neg hb]
  case freed =>
    intro hb
    refine ⟨by rw [exec_freeBlock hs harg, if_pos hb], fun i hi => State.tapRead?_of_free ?_ hi⟩
    rw [State.owner_setOwner, if_pos rfl]

/-- Settles O48: once the arguments are in range, both binds come to the same three checks. -/
theorem bindPairs : Obligations.BindPairs := by
  refine ⟨fun s hs => ⟨exec_bindOutput_badArgument hs, ?output⟩, fun s hs => ⟨exec_bindImage_badArgument hs, ?image⟩⟩
  case output => exact fun e a b he ha hb => bind_ends (exec_bindOutput hs he ha hb)
  case image => exact fun u a b hu ha hb => bind_ends (exec_bindImage hs hu ha hb)

/-- Settles O49: once the argument is in range, both unbinds come to the same two checks. -/
theorem unbindPairs : Obligations.UnbindPairs := by
  refine ⟨fun s hs => ⟨exec_unbindOutput_badArgument hs, ?output⟩, fun s hs => ⟨exec_unbindImage_badArgument hs, ?image⟩⟩
  case output => exact fun e he => unbind_ends (exec_unbindOutput hs he)
  case image => exact fun u hu => unbind_ends (exec_unbindImage hs hu)

end Sys2Proof.Machine
end

section
/-!
SUPPORT. The offer of a notice (R139, R140): the CYCLE the queue writes, and what the two kinds of newest record make of a loss.
-/

namespace Sys2Proof.Machine

/-- The three kinds of record that belong to no line (Table 7-2). -/
theorem EventKind.ofLine_eq_false_iff (k : EventKind) : k.ofLine = false ↔ k = .none ∨ k = .mode ∨ k = .loss := by
  cases k <;> simp [ofLine]

namespace State

/-- The CYCLE the queue writes, by the kinds that belong to no line (R135, R136). -/
theorem stamp_eq (s : State) (e : Event) : s.stamp e = { e with
    cycle := if e.kind = .none ∨ e.kind = .mode ∨ e.kind = .loss then 0 else (s.line e.line).cycnum } := by
  unfold stamp
  simp only [← EventKind.ofLine_eq_false_iff]
  cases e.kind.ofLine <;> rfl

theorem offerNotice_of_room {s : State} (e : Event) (h : s.events.length < 48) :
    s.offerNotice e = { s with events := s.events ++ [s.stamp e] } := by
  rw [offerNotice_eq, if_pos h]

theorem offerNotice_of_full {s : State} (e : Event) (h : 48 ≤ s.events.length) : s.offerNotice e
    = { s with events := lossEvents s.events, evlost := satInc s.evlost, edges := s.edges ||| 0x0004 } := by
  rw [offerNotice_eq, if_neg (Nat.not_lt.2 h)]

/-! ## The newest record decides where a loss is counted (R140) -/

theorem openMarker?_append {m : Event} (l : List Event) (hk : m.kind = .loss) (hc : m.detailB.toNat < 255) :
    openMarker? (l ++ [m]) = some m := by
  simp [openMarker?, hk, hc]

/-- No marker is open when the newest record is no marker, or one whose count is full. -/
theorem openMarker?_eq_none {evs : List Event} (h : ∀ l m, evs = l ++ [m] → m.kind = .loss → 255 ≤ m.detailB.toNat) :
    openMarker? evs = none := by
  cases hm : openMarker? evs with
  | none => rfl
  | some m =>
    obtain ⟨hlast, hkind, hcount⟩ := openMarker?_some evs m hm
    exact absurd hcount (Nat.not_lt.2 (h _ m hlast hkind))

/-- Case 1: the open marker's count increments. -/
theorem lossEvents_append {m : Event} (l : List Event) (hk : m.kind = .loss) (hc : m.detailB.toNat < 255) :
    lossEvents (l ++ [m]) = l ++ [{ m with detailB := m.detailB + 1 }] := by
  simp only [lossEvents, openMarker?_append l hk hc, List.dropLast_concat]

/-- Cases 2 and 3: with no open marker a new one is appended while there is room. -/
theorem lossEvents_of_noMarker {evs : List Event} (h : openMarker? evs = none) :
    lossEvents evs = if evs.length < Config.queueLimit then evs ++ [lossMarker 1] else evs := by
  simp only [lossEvents, h]

end State

/-- Settles O44: below 48 records the stamped notice joins the tail; from 48 on the newest record and the room decide the accounting. -/
theorem noticeTakenOrLost : Obligations.NoticeTakenOrLost := by
  refine fun s e => ⟨?taken, fun hfull => ?lost⟩
  case taken =>
    intro hroom
    rw [State.offerNotice_of_room e hroom, State.stamp_eq]
  case lost =>
    refine ⟨_, State.offerNotice_of_full e hfull, rfl, ?openMarker, fun hclosed => ?noMarker⟩
    case openMarker =>
      intro l m hlast hkind hcount
      simp only [hlast, State.lossEvents_append l hkind hcount]
    case noMarker =>
      have hevents := State.lossEvents_of_noMarker (State.openMarker?_eq_none hclosed)
      exact ⟨fun hroom => hevents.trans (if_pos hroom), fun hno => hevents.trans (if_neg (Nat.not_lt.2 hno))⟩

end Sys2Proof.Machine
end

section
/-!
SUPPORT. One step of the block (log entry 1), and a RUN request whose validation fails (R154): the request in CONFIG comes to the
validation, its error to one record and one flag.
-/

namespace Sys2Proof.Machine

/-- A command that waits is taken from the queue before it runs. -/
theorem step_of_pending_cons {c : Instr} {rest : List Instr} {s : State} (h : s.pending = c :: rest) :
    step s = exec c { s with pending := rest } := by
  unfold step
  rw [h]

theorem step_of_pending_nil {s : State} (h : s.pending = []) : step s = .next s := by
  unfold step
  rw [h]

/-- Settles O1: the queue is empty or has a front command, and each is one equation of the step. -/
theorem stepRunsTheFrontCommand : Obligations.StepRunsTheFrontCommand :=
  ⟨fun _ _ _ hfront => step_of_pending_cons hfront, fun _ hempty => step_of_pending_nil hempty⟩

namespace State

/-- With no request pending, a write of RUN in CONFIG is taken (R151). -/
theorem modeRequest_run_of_config {s : State} (hm : s.mode = .config) (hp : s.pendingRequest = none) :
    s.modeRequest 2 = s.runFromConfig := by
  have hinit : s.inInit = false := by rw [inInit, hm]; rfl
  simp [modeRequest, hinit, hp, hm]

theorem runFromConfig_of_error {s : State} {code : BitVec 4} {index : BitVec 6} (h : s.validate = some (code, index)) :
    s.runFromConfig = s.validationFailed code index := by
  unfold runFromConfig
  rw [h]

/-- The error is recorded, MODE_DONE is raised, and the notice reports the mode the block stays in (R152, R154). -/
theorem validationFailed_eq (code : BitVec 4) (index : BitVec 6) (s : State) : s.validationFailed code index
    = ({ s with errCode := code, errIndex := index, edges := s.edges ||| 0x0020 } : State).offerNotice
        (modeRecord s.mode.code.toNat code.toNat index.toNat) := by
  rw [← modeNotice_eq]
  rfl

end State

/-- Settles O33: in CONFIG, whose code is 1, the request comes to the validation and the validation to its error. -/
theorem failedValidation : Obligations.FailedValidation := by
  intro s code index hmode hpending herror
  have hfailed : s.modeRequest 2 = s.validationFailed code index :=
    (State.modeRequest_run_of_config hmode hpending).trans (State.runFromConfig_of_error herror)
  have hcode : s.mode.code.toNat = 1 := by rw [hmode]; rfl
  calc exec .modereqRun s
      = .next (s.modeRequest 2) := rfl
    _ = .next (s.validationFailed code index) := by rw [hfailed]
    _ = _ := by rw [State.validationFailed_eq, hcode]

end Sys2Proof.Machine
end

section
/-!
SUPPORT. The interrupt registers and the top source (R174 to R177): IFLAG bit by bit, one equation per register write outside INIT,
and what the pending sources say of INT# and ITOP.
-/

namespace Sys2Proof.Machine

namespace State

/-! ## IFLAG bit by bit (R174) -/

/-- The mask of the two level sources, bit by bit. -/
theorem three_getLsbD {i : Nat} (hi : i < 16) : (3 : Word).getLsbD i = decide (i < 2) :=
  (by decide : ∀ j : Fin 16, (3 : Word).getLsbD j.val = decide (j.val < 2)) ⟨i, hi⟩

/-- The stored flags reach IFLAG in bits 2 to 15 only. -/
theorem edgeMask_getLsbD {i : Nat} (hi : i < 16) : edgeMask.getLsbD i = decide (2 ≤ i) :=
  (by decide : ∀ j : Fin 16, edgeMask.getLsbD j.val = decide (2 ≤ j.val)) ⟨i, hi⟩

/-- Two level flags in the lowest bits of a word leave the other bits 0. -/
theorem levelFlags_getLsbD (a b : Bool) {i : Nat} (hi : i < 16) :
    (0#14 ++ bit b ++ bit a).getLsbD i = if i = 0 then a else if i = 1 then b else false :=
  (by decide : ∀ (a b : Bool) (j : Fin 16), (0#14 ++ bit b ++ bit a).getLsbD j.val
    = if j.val = 0 then a else if j.val = 1 then b else false) a b ⟨i, hi⟩

/-- Bit 0 is EVENT_AVAILABLE's condition (R146). -/
theorem iflag_getLsbD_zero (s : State) : s.iflag.getLsbD 0 = s.eventAvailable := by
  rw [iflag, BitVec.getLsbD_or, BitVec.getLsbD_and, edgeMask_getLsbD (by decide), levelFlags_getLsbD _ _ (by decide)]
  simp

/-- Bit 1 is EVENT_THRESHOLD's condition (R146). -/
theorem iflag_getLsbD_one (s : State) : s.iflag.getLsbD 1 = s.eventThreshold := by
  rw [iflag, BitVec.getLsbD_or, BitVec.getLsbD_and, edgeMask_getLsbD (by decide), levelFlags_getLsbD _ _ (by decide)]
  simp

/-- The other bits are the stored edge flags. -/
theorem iflag_getLsbD_edge (s : State) {i : Nat} (h2 : 2 ≤ i) (hi : i < 16) : s.iflag.getLsbD i = s.edges.getLsbD i := by
  rw [iflag, BitVec.getLsbD_or, BitVec.getLsbD_and, edgeMask_getLsbD hi, levelFlags_getLsbD _ _ hi, if_neg (by omega),
    if_neg (by omega), decide_eq_true h2, Bool.and_true, Bool.or_false]

/-- An IFLAG write leaves the level flags, which follow the queue (R175). -/
theorem iflag_clearFlags_level (v : Word) (s : State) {i : Nat} (h2 : i < 2) :
    (s.clearFlags v).iflag.getLsbD i = s.iflag.getLsbD i := by
  match i with
  | 0 => rw [iflag_getLsbD_zero, iflag_getLsbD_zero]; rfl
  | 1 => rw [iflag_getLsbD_one, iflag_getLsbD_one]; rfl

/-- A written 1 clears an edge flag and is ignored for a level flag (R175). -/
theorem iflag_clearFlags (v : Word) (s : State) : (s.clearFlags v).iflag = (s.iflag &&& ~~~v) ||| (s.iflag &&& 3) := by
  apply BitVec.eq_of_getLsbD_eq
  intro i hi
  rw [BitVec.getLsbD_or, BitVec.getLsbD_and, BitVec.getLsbD_and, three_getLsbD hi]
  by_cases h2 : i < 2
  case pos =>
    rw [s.iflag_clearFlags_level v h2, decide_eq_true h2]
    cases s.iflag.getLsbD i <;> simp
  case neg =>
    have hnew : (s.clearFlags v).iflag.getLsbD i = (s.edges &&& ~~~v).getLsbD i := iflag_getLsbD_edge _ (by omega) hi
    rw [hnew, s.iflag_getLsbD_edge (by omega) hi, BitVec.getLsbD_and, decide_eq_false h2, Bool.and_false, Bool.or_false]

/-! ## Levels (R176) -/

/-- The level field of a source is hexadecimal digit `k` of the written word (Table 10-1). -/
theorem levelField_toNat (v : Word) (k : Nat) : (v.extractLsb' (4 * k) 4).toNat = v.toNat / 16 ^ k % 16 := by
  rw [BitVec.extractLsb'_toNat, Nat.shiftRight_eq_div_pow, Nat.pow_mul]

/-- A written ILEVEL register sets its own four levels, each to at most 7, and leaves the other twelve. -/
theorem storeLevels_ilevel_toNat (r : Fin 4) (v : Word) (s : State) (i : Fin 16) :
    ((s.storeLevels r v).ilevel.get i).toNat
      = if i.val / 4 = r.val then min 7 (v.toNat / 16 ^ (i.val % 4) % 16) else (s.ilevel.get i).toNat := by
  have hget : (s.storeLevels r v).ilevel.get i = writtenLevel r v i (s.ilevel.get i) := get_mapTable ..
  rw [hget, writtenLevel]
  split
  case isTrue => rw [narrowLevel_toNat, levelField_toNat]
  case isFalse => rfl

/-! ## INT# and ITOP (R177) -/

theorem mem_pendingSources_iff (s : State) (i : Fin 16) : i ∈ s.pendingSources ↔ sourceIsPending s i := by
  rw [pendingSources, List.mem_filter, sourcePending_iff, and_iff_right (List.mem_finRange i)]

theorem pendingSources_eq_nil_iff (s : State) : s.pendingSources = [] ↔ ∀ i, ¬ sourceIsPending s i := by
  simp only [List.eq_nil_iff_forall_not_mem, mem_pendingSources_iff]

theorem intAsserted_iff (s : State) : s.intAsserted = true ↔ ∃ i, sourceIsPending s i := by
  rw [intAsserted, Bool.not_eq_true', Bool.eq_false_iff, Ne, List.isEmpty_iff, pendingSources_eq_nil_iff, not_forall_not]

end State

/-! ## The register writes outside INIT, one equation each -/

section
variable {s : State} (hm : s.mode ≠ .init) (v : Word)
include hm

theorem exec_iflagWrite : exec (.iflagWrite v) s = .next (s.clearFlags v) :=
  congrArg Host.Outcome.next (State.hostWrite_of_mode 0x18 v s hm)

theorem exec_registerWrite_ienable : exec (.registerWrite 0x19 v) s = .next { s with ienable := v } :=
  congrArg Host.Outcome.next (State.hostWrite_of_mode 0x19 v s hm)

theorem exec_ithreshWrite : exec (.ithreshWrite v) s = .next (s.storeThresh v) :=
  congrArg Host.Outcome.next (State.hostWrite_of_mode 0x1E v s hm)

/-- ILEVEL0 to ILEVEL3 stand at consecutive addresses, each with its own four levels. -/
theorem exec_ilevelWrite (r : Fin 4) : exec (.ilevelWrite r v) s = .next (s.storeLevels r v) := by
  have haddr : s.writeRegister (BitVec.ofNat 6 (0x1A + r.val)) v = s.storeLevels r v := by
    match r with
    | 0 | 1 | 2 | 3 => rfl
  exact congrArg Host.Outcome.next ((State.hostWrite_of_mode _ v s hm).trans haddr)

end

/-- Settles O39: each write is its equation, IFLAG is read bit by bit, and ITOP is the top of the pending sources. -/
theorem interruptRegistersAndTop : Obligations.InterruptRegistersAndTop := by
  refine ⟨?writes, ?top, ?flags⟩
  case writes =>
    intro s v hm
    refine ⟨exec_iflagWrite hm v, ?iflag, exec_registerWrite_ienable hm v,
      ⟨_, exec_ithreshWrite hm v, State.narrowThresh_toNat v⟩,
      fun r => ⟨_, exec_ilevelWrite hm v r, rfl, s.storeLevels_ilevel_toNat r v⟩⟩
    case iflag =>
      intro t ht
      obtain rfl : s.clearFlags v = t := Host.Outcome.next.inj ((exec_iflagWrite hm v).symm.trans ht)
      exact s.iflag_clearFlags v
  case top =>
    intro s
    refine ⟨s.intAsserted_iff, ?none, s.itop_eq⟩
    case none =>
      intro hnone
      rw [s.itop_of_none (s.pendingSources_eq_nil_iff.mpr hnone)]
      rfl
  case flags =>
    intro s
    refine ⟨?available, ?threshold, fun i => s.iflag_getLsbD_edge⟩
    case available => rw [s.iflag_getLsbD_zero]; exact decide_eq_true_iff
    case threshold => rw [s.iflag_getLsbD_one]; exact decide_eq_true_iff

end Sys2Proof.Machine
end

section
/-!
SUPPORT. The laws of the machine along a step (R3, R22, R77, R92, R104, R137, R151, R176): a law that speaks of no waiting command and
that every command keeps is kept by every step.
-/

namespace Sys2Proof.Machine

/-- A law that does not see the queue of commands and that every command keeps is kept by every step (log entry 1). -/
theorem step_preserves {P : State → Prop} (hqueue : ∀ (s : State) (rest : List Instr), P s → P { s with pending := rest })
    (hexec : ∀ (c : Instr) (s t : State), exec c s = .next t → P s → P t) {s t : State} (hs : P s) (h : step s = .next t) : P t := by
  cases hp : s.pending with
  | nil =>
    rw [step_of_pending_nil hp] at h
    exact Host.Outcome.next.inj h ▸ hs
  | cons c rest =>
    rw [step_of_pending_cons hp] at h
    exact hexec c _ t h (hqueue s rest hs)

/-- The engines' laws and the request's law do not see the queue of commands. -/
theorem engineLaws_withPending (s : State) (rest : List Instr) (h : s.EngineLaws) :
    ({ s with pending := rest } : State).EngineLaws :=
  State.same_laws ⟨rfl, rfl, rfl, rfl⟩ h

/-- Settles O57: every command keeps the station laws, and so does a step. -/
theorem stationsStayLawful : Obligations.StationsStayLawful := fun _ _ =>
  step_preserves (fun _ _ h => h) (fun c s t h => (exec_keeps c s t h).stations)

/-- Settles O58: every command keeps each of the three laws, and so does a step. -/
theorem queueMemoryAndRegistersStayLawful : Obligations.QueueMemoryAndRegistersStayLawful := by
  refine ⟨fun _ _ => ?queue, fun _ _ => ?memory, fun _ _ => ?registers⟩
  case queue => exact step_preserves (fun _ _ h => h) (fun c s t h => (exec_keeps c s t h).queue)
  case memory => exact step_preserves (fun _ _ h => h) (fun c s t h => (exec_keeps c s t h).memory)
  case registers => exact step_preserves (fun _ _ h => h) (fun c s t h => (exec_keeps c s t h).registers)

/-- Settles O59: the engines' laws and the request's law are kept together, by every command and so by every step. -/
theorem enginesAndRequestsStayLawful : Obligations.EnginesAndRequestsStayLawful := fun _ _ hengines hrequest =>
  step_preserves engineLaws_withPending exec_engineLaws ⟨hengines, hrequest⟩

/-- No command ends in a fault or a refusal. -/
theorem exec_next (c : Instr) (s : State) : ∃ t, exec c s = .next t := by
  cases c
  all_goals exact ⟨_, rfl⟩

/-- Settles O2: a command answers, and what it answers keeps the queue of waiting commands. -/
theorem everyCommandCompletesAndLeavesTheQueue : Obligations.EveryCommandCompletesAndLeavesTheQueue := by
  intro c s
  obtain ⟨t, ht⟩ := exec_next c s
  exact ⟨t, ht, (exec_keeps c s t ht).pending⟩

/-! ## Reset -/

section
variable {α : Type} {n : Nat} (x : α) (i : Fin n)

theorem get_replicate : (Vector.replicate n x).get i = x := by
  simp [Vector.get]

end

/-- A line after hard reset is lawful: its engine is OFF, not faulted, with no fault counted and DIV 255. -/
theorem Line.reset_lawful : Line.reset.lawful = true := by decide

theorem reset_stationsLawful : State.reset.StationsLawful := fun t => by
  have hreset : State.reset.station t = Station.reset := get_replicate ..
  rw [hreset]
  exact Station.reset_lawful

/-- Settles O60: the reset state's queue is empty, its engines are OFF, and its stations and registers hold their reset values. -/
theorem resetIsLawful : Obligations.ResetIsLawful := by
  refine ⟨reset_stationsLawful, ?queue, ?engines, State.reset_payload_wf, rfl, ?registers⟩
  case queue => exact State.queueLawful_empty _ rfl rfl
  case engines =>
    intro n
    have hline : State.reset.line n = Line.reset := by cases n <;> rfl
    rw [hline]
    exact ⟨Line.reset_lawful, fun _ => rfl⟩
  case registers => exact ⟨by decide, by decide, by decide, rfl, rfl⟩

end Sys2Proof.Machine
end

section
/-!
SUPPORT. Hard reset, the clearing and control reset (R149, R150, R160): the register window after a hard reset, internal memory after
the clearing, and what INIT ignores.
-/

namespace Sys2Proof.Machine

namespace State

/-! ## The window after a hard reset (R149) -/

theorem inInit_of_mode {s : State} (h : s.mode = .init) : s.inInit = true := by
  rw [inInit, h]
  rfl

/-- A hard reset leaves nothing to interrupt with: no flag, an empty queue, a threshold of 1. -/
theorem hardReset_pendingSources (s : State) : s.hardReset.pendingSources = [] :=
  pendingSources_of_iflag _ (iflag_of_empty _ rfl rfl (by decide : 1 ≤ (1#7).toNat))

theorem reset_pendingSources : State.reset.pendingSources = [] :=
  pendingSources_of_iflag _ (iflag_of_empty _ rfl rfl (by decide : 1 ≤ (1#7).toNat))

/-- The window shows nothing of what a hard reset keeps: memory is hidden in INIT, and the pins have no register. -/
theorem readRegister_hardReset (s : State) (a : BitVec 6) : s.hardReset.readRegister a = State.reset.readRegister a := by
  have hhidden : s.hardReset.inInit = true := inInit_of_mode rfl
  have hhidden' : State.reset.inInit = true := inInit_of_mode rfl
  simp only [readRegister, if_pos hhidden, if_pos hhidden', itop_of_none _ s.hardReset_pendingSources,
    itop_of_none _ reset_pendingSources]
  rfl

/-- Table 10-1: the words of the window after a hard reset. -/
theorem readRegister_reset (a : BitVec 6) : State.reset.readRegister a = hardResetWord a := by
  revert a
  decide +kernel

/-- A hard reset leaves of a line the level of its pin alone. -/
theorem line_hardReset (s : State) (n : LineId) : s.hardReset.line n = { Line.reset with rxd := (s.line n).rxd } := by
  cases n <;> rfl

/-! ## INIT ignores the host (R150) -/

theorem hostWrite_of_init (a : BitVec 6) (v : Word) {s : State} (h : s.mode = .init) : s.hostWrite a v = s :=
  if_pos (inInit_of_mode h)

theorem hostCommand_of_init (code : Word) (body : State → State) {s : State} (h : s.mode = .init) : s.hostCommand code body = s :=
  if_pos (inInit_of_mode h)

theorem modeRequest_of_init (v : Word) {s : State} (h : s.mode = .init) : s.modeRequest v = s := if_pos (inInit_of_mode h)

end State

/-- Every host write is one of the two kinds of write that INIT ignores, or a row that asks for INIT itself (R150). -/
theorem exec_hostWrite_of_init (c : Instr) {s : State} (hw : isHostWrite c = true) (hm : s.mode = .init) : exec c s = .next s := by
  cases hcode : commandCode? c with
  | some code =>
    obtain ⟨body, hbody⟩ := State.exec_command c code hcode
    rw [hbody, State.hostCommand_of_init code body hm]
  | none =>
    cases c <;> try contradiction
    case controlReset => exact congrArg _ (if_pos (State.inInit_of_mode hm))
    case modereqRun | modereqQuiesce | modereqConfig => exact congrArg _ (State.modeRequest_of_init _ hm)
    case tapdataWrite v => exact congrArg _ (if_pos (State.inInit_of_mode hm))
    case linedivWrite n v => cases n <;> exact congrArg _ (State.hostWrite_of_init _ v hm)
    case devstatWrite v | evlostWrite v | evthreshWrite v | dmactlWrite v | iflagWrite v | ilevelWrite _ v | ithreshWrite v
      | registerWrite _ v => exact congrArg _ (State.hostWrite_of_init _ v hm)

/-! ## Internal memory after the clearing (R149) -/

/-- Table 10-4: the words of a station record after hard reset. -/
theorem Station.word_reset (i : Nat) : Station.reset.word i = stationResetWord i := by
  match i with
  | 0 | 1 | 2 | 3 | 4 | 5 | 6 | 7 | 8 | 9 | 10 | 11 => decide
  | _ + 12 => rfl

theorem Entry.word_reset (i : Nat) : Entry.reset.word i = 0 := by
  match i with
  | 0 | 1 | 2 | 3 => decide
  | _ + 4 => rfl

theorem Slot.word_reset (i : Nat) : Slot.reset.word i = 0 := by
  match i with
  | 0 | 1 | 2 | 3 | 4 | 5 => decide
  | _ + 6 => rfl

/-- Once RESET# is high in INIT, the clearing completes in one step (log entry 4). -/
theorem exec_clearingComplete {s : State} (hm : s.mode = .init) (hr : s.resetLow = false) :
    exec .clearingComplete s = .next s.finishClearing :=
  congrArg Host.Outcome.next (if_pos ⟨hm, hr⟩)

/-- Settles O3: the reset words are those of the reset state, the clearing fills every table with its reset record, and INIT
ignores every kind of host write. -/
theorem hardResetAndInit : Obligations.HardResetAndInit := by
  refine ⟨⟨⟨State.readRegister_reset, ?reset⟩, fun _ => rfl, fun s hm hr => ?clearing⟩,
    fun c s => exec_hostWrite_of_init c, ?read⟩
  case reset =>
    intro s
    refine ⟨s.hardReset, rfl, rfl, rfl, fun a => (s.readRegister_hardReset a).trans (State.readRegister_reset a),
      State.intAsserted_of_none _ s.hardReset_pendingSources, rfl, rfl, fun n => ?line⟩
    rw [s.line_hardReset n]
    exact ⟨rfl, rfl, rfl, rfl, rfl, rfl, rfl, rfl, rfl⟩
  case clearing =>
    refine ⟨_, exec_clearingComplete hm hr, rfl, fun _ => rfl, fun b => ?owner, fun u i => ?station, fun e i => ?entry, fun k i => ?slot⟩
    case owner => exact congrArg Owner.word (get_replicate Owner.free b)
    case station => exact (congrArg (Station.word · i) (get_replicate Station.reset u)).trans (Station.word_reset i)
    case entry => exact (congrArg (Entry.word · i) (get_replicate Entry.reset e)).trans (Entry.word_reset i)
    case slot => exact (congrArg (Slot.word · i) (get_replicate Slot.reset k)).trans (Slot.word_reset i)
  case read =>
    intro s hm
    exact ⟨congrArg Host.Outcome.next (if_pos (State.inInit_of_mode hm)), if_pos (State.inInit_of_mode hm)⟩

/-! ## Control reset (R160) -/

namespace State

theorem controlReset_line (s : State) (n : LineId) : s.controlReset.line n = resetLine (s.line n) := by
  rw [controlReset_eq]
  cases n <;> rfl

theorem controlReset_station (s : State) (u : StationIx) : s.controlReset.station u = (s.station u).controlReset := by
  rw [controlReset_eq]
  exact get_mapTable ..

theorem controlReset_slot (s : State) (k : SlotIx) : s.controlReset.slot k
    = if (s.slot k).state = .free then s.slot k else { s.slot k with state := .free, deferred := false } := by
  rw [controlReset_eq]
  exact get_mapTable ..

theorem controlReset_owner (s : State) (b : BlockIx) : s.controlReset.owner b = if (s.owner b).isRequest then .host else s.owner b := by
  rw [controlReset_eq]
  exact get_mapTable ..

/-- DEVSTAT in CONFIG with nothing under way (Table 10-1). -/
theorem devstat_of_config {s : State} (hm : s.mode = .config) (hc : s.cmdState = .idle) (hr : s.reqRefused = false)
    (hp : s.pendingRequest = none) : s.devstat = 0x0021 := by
  unfold devstat
  rw [hm, hc, hr, hp]
  decide

/-- After a control reset of a state with a lawful threshold no source is pending. -/
theorem controlReset_pendingSources (s : State) (h : s.RegistersLawful) : s.controlReset.pendingSources = [] := by
  obtain ⟨hthresh, _⟩ := h
  rw [controlReset_eq]
  exact pendingSources_of_iflag _ (iflag_of_empty _ rfl rfl hthresh)

end State

theorem Owner.isRequest_eq_true_iff (o : Owner) : o.isRequest = true ↔ ∃ k, o = .request k ∨ o = .reply k := by
  cases o <;> simp [isRequest]

/-- A write of CTRL without the reset bit does nothing (R160). -/
theorem exec_ctrlWrite_zero (s : State) {v : Word} (h : v.getLsbD 0 = false) : exec (.registerWrite 0x02 v) s = .next s := by
  by_cases hm : s.mode = .init
  case pos => exact congrArg _ (State.hostWrite_of_init 0x02 v hm)
  case neg =>
    refine congrArg _ ((State.hostWrite_of_mode 0x02 v s hm).trans ?_)
    exact if_neg (by rw [h]; decide)

/-- Settles O4: a control reset is one update of the state, read table by table. -/
theorem controlResetSetsEveryBlock : Obligations.ControlResetSetsEveryBlock := by
  refine ⟨fun s hm => exec_hostWrite_of_init .controlReset rfl hm, fun s v => exec_ctrlWrite_zero s, fun _ => rfl, fun s hm => ?_⟩
  have hinit : ¬ s.inInit = true := by simp [State.inInit, hm]
  refine ⟨s.controlReset, congrArg Host.Outcome.next (if_neg hinit), ?frame, s.controlReset_line, s.controlReset_station,
    s.controlReset_slot, fun b hb => ?kept, fun b k hb => ?lent, ?devstat, fun hlaw => ⟨?itop, ?int⟩⟩
  case frame => rw [State.controlReset_eq]
  case kept =>
    rw [s.controlReset_owner, if_neg]
    rw [Owner.isRequest_eq_true_iff]
    rintro ⟨k, h | h⟩
    · exact (hb k).1 h
    · exact (hb k).2 h
  case lent => rw [s.controlReset_owner, if_pos ((Owner.isRequest_eq_true_iff _).2 ⟨k, hb⟩)]
  case devstat =>
    rw [State.controlReset_eq]
    exact State.devstat_of_config rfl rfl rfl rfl
  case itop =>
    have htop : s.controlReset.itop = 31 := State.itop_of_none _ (s.controlReset_pendingSources hlaw)
    exact congrArg (0#11 ++ ·) htop
  case int => exact State.intAsserted_of_none _ (s.controlReset_pendingSources hlaw)

end Sys2Proof.Machine
end

section
/-!
SUPPORT. The receiver's rows (R4, R7), a character from its samples and on the line (R2, R5, R6), and lengths (R3, R8, R17 to R19).
-/

namespace Sys2Proof.Machine

/-! ## The receiver's rows -/

section
variable {n : LineId} {s : State}

theorem exec_startNotConfirmed_of_starting (h : (s.line n).rx = .starting) :
    exec (.startNotConfirmed n) s = .next (s.setLine n { s.line n with rx := .hunting, rxd := true }) :=
  congrArg Host.Outcome.next (if_pos h)

theorem exec_startNotConfirmed_of_not_starting (h : (s.line n).rx ≠ .starting) : exec (.startNotConfirmed n) s = .next s :=
  congrArg Host.Outcome.next (if_neg h)

theorem exec_startConfirmed_of_not_starting (h : (s.line n).rx ≠ .starting) : exec (.startConfirmed n) s = .next s :=
  congrArg Host.Outcome.next (if_neg h)

/-- What a confirmed start makes of the engine (Table 2-1): quiet has ended, or the reply window closes. -/
theorem startEvent_eq : s.startEvent n = s.setLine n { s.line n with
    settled := false
    engine := if (s.line n).engine = .idle then .turnaround
      else if (s.line n).engine = .awaitReply then .receiving else (s.line n).engine } := by
  unfold State.startEvent State.modifyLine
  cases he : (s.line n).engine <;> simp [he]

theorem exec_startConfirmed_of_starting (h : (s.line n).rx = .starting) :
    exec (.startConfirmed n) s = .next (s.setLine n { s.line n with
      rx := .assembling, settled := false
      engine := if (s.line n).engine = .idle then .turnaround
        else if (s.line n).engine = .awaitReply then .receiving else (s.line n).engine }) := by
  refine congrArg Host.Outcome.next ((if_pos h).trans ?_)
  rw [startEvent_eq, State.modifyLine, State.line_setLine, if_pos rfl, State.setLine_setLine]

end

/-- Settles O5: each row of the receiver by the receiver's state. -/
theorem receiverFollowsThePin : Obligations.ReceiverFollowsThePin := by
  refine ⟨fun n s => ⟨?candidate, ?ignored, exec_startNotConfirmed_of_starting, exec_startConfirmed_of_starting, ?other⟩,
    fun n s => ⟨?high, ?pin⟩⟩
  case candidate =>
    intro hrx hpin
    simp only [exec, execCandidateStartBit, State.modifyLine, hrx, hpin, and_self, if_true]
  case ignored =>
    intro hrx
    simp only [exec, execCandidateStartBit, State.modifyLine, hrx, false_and, if_false]
  case other => exact fun hrx => ⟨exec_startNotConfirmed_of_not_starting hrx, exec_startConfirmed_of_not_starting hrx⟩
  case high =>
    intro hrx he
    simp only [exec, execLineReturnsTo1, State.modifyLine, hrx, ne_eq, he, not_false_eq_true, and_self, if_true]
  case pin =>
    intro h
    have hstay : ¬ ((s.line n).rx = .waitHigh ∧ (s.line n).engine ≠ .off) := by
      rintro ⟨hrx, he⟩
      exact h.elim (· hrx) he
    simp only [exec, execLineReturnsTo1, State.modifyLine, if_neg hstay]

/-! ## A character from its samples (R5, R6) -/

theorem Samples.value_iff (t : Samples) : Samples.value t = true ↔ majority t := by
  simp only [Samples.value, majority, Bool.or_eq_true, Bool.and_eq_true, or_assoc]

theorem Samples.disagree_eq_false_iff (t : Samples) : Samples.disagree t = false ↔ samplesAgree t := by
  simp only [Samples.disagree, samplesAgree, Bool.not_eq_false', Bool.and_eq_true, beq_iff_eq]

/-- Bit i of the byte is the value of data position i. -/
theorem CharSamples.byte_getLsbD (c : CharSamples) (i : Fin 8) :
    (CharSamples.decode c).byte.getLsbD i.val = Samples.value ([c.d0, c.d1, c.d2, c.d3, c.d4, c.d5, c.d6, c.d7].get i) := by
  match i with
  | 0 | 1 | 2 | 3 | 4 | 5 | 6 | 7 => simp only [decode, bit, BitVec.getLsbD_append, BitVec.getLsbD_ofBool]; rfl

theorem CharSamples.noise_eq_false_iff (c : CharSamples) :
    (CharSamples.decode c).noise = false ↔ ∀ t ∈ CharSamples.positions c, samplesAgree t := by
  simp only [decode, List.any_eq_false, Bool.not_eq_true, Samples.disagree_eq_false_iff]

/-! ## Lengths (R3, R8) -/

/-- A frame is its covered bytes and two check bytes, one character each (R8). -/
theorem length_frameChars (header : Byte) (rest : List Byte) : (frameChars (header :: rest)).length = rest.length + 3 := by
  simp [frameChars]

theorem length_requestFrame (k : SentKind) (a : BitVec 5) (q : BitVec 2) (p : List Byte) :
    (requestFrame k a q p).length = 4 + p.length := by
  rw [requestFrame, length_frameChars, List.length_cons]
  omega

/-- Settles O6: the samples position by position, the eleven bits by their place, and the lengths from the bit time. -/
theorem charactersBySamplesAndBits : Obligations.CharactersBySamplesAndBits := by
  refine ⟨fun c => ⟨fun i => ?byte, Samples.value_iff c.mark, ?framing, CharSamples.noise_eq_false_iff c⟩, fun c => ?bits, fun l => ?lengths⟩
  case byte => rw [CharSamples.byte_getLsbD, Samples.value_iff]
  case framing => rw [← Samples.value_iff, Bool.not_eq_true, ← Bool.not_eq_true']; rfl
  case bits =>
    refine ⟨rfl, rfl, fun i => ?_, rfl, rfl⟩
    match i with
    | 0 | 1 | 2 | 3 | 4 | 5 | 6 | 7 => rfl
  case lengths =>
    refine ⟨rfl, rfl, ?brk, rfl, rfl, fun k a q p => ?frame⟩
    case brk => simp only [Line.span]; omega
    case frame => rw [length_requestFrame, Line.frameClocks]

end Sys2Proof.Machine
end

section
/-!
SUPPORT. The words of the records (R179, Table 10-4 to Table 10-6): a packed word's value is the sum of its parts, each at its weight.
-/

namespace Sys2Proof.Machine

open State (toNat_append_sum)

theorem LineId.bit_toNat (n : LineId) : (LineId.bit n).toNat = lineNumber n := by cases n <;> rfl

/-- An index that fits its field is its field's value. -/
theorem toNat_ofNat_fin {m : Nat} (w : Nat) (i : Fin m) (h : m ≤ 2 ^ w) : (BitVec.ofNat w i.val).toNat = i.val := by
  rw [BitVec.toNat_ofNat, Nat.mod_eq_of_lt (Nat.lt_of_lt_of_le i.isLt h)]

/-- A pair's word has A in its low byte and B in its high byte. -/
theorem pairWord_some_toNat (a b : BlockIx) : (pairWord (some (a, b))).toNat = a.val + 256 * b.val := by
  simp only [pairWord, toNat_append_sum, toNat_ofNat_fin 7 a (by decide), toNat_ofNat_fin 7 b (by decide), BitVec.toNat_ofNat]
  omega

/-- One word of a record as the sum of its fields. -/
theorem Owner.word_toNat (o : Owner) : o.word.toNat = o.cls.toNat + 8 * o.role.toNat + 256 * o.index.toNat := by
  simp only [Owner.word, toNat_append_sum, BitVec.toNat_ofNat]
  omega

theorem Station.word0_toNat (st : Station) : (st.word 0).toNat = (bit st.enabled).toNat + 2 * lineNumber st.line
    + 4 * st.recovery.bit.toNat + 8 * (bit st.notify).toNat + 16 * st.missLimit.toNat + 256 * st.address.toNat := by
  simp only [Station.word, toNat_append_sum, LineId.bit_toNat, BitVec.toNat_ofNat]
  omega

theorem Station.word1_toNat (st : Station) : (st.word 1).toNat = st.probeInterval.toNat := by
  simp only [Station.word, toNat_append_sum, BitVec.toNat_ofNat]
  omega

theorem Station.word2_toNat (st : Station) : (st.word 2).toNat = st.health.code.toNat + 4 * (bit st.reachable).toNat
    + 8 * (bit st.probeDue).toNat + 16 * st.missCount.toNat + 256 * st.seq.toNat + 4096 * st.last.code.toNat := by
  simp only [Station.word, toNat_append_sum, BitVec.toNat_ofNat]
  omega

theorem Station.word3_toNat (st : Station) : (st.word 3).toNat = st.probeCountdown.toNat + 256 * st.age.toNat := by
  simp only [Station.word, toNat_append_sum]
  omega

theorem Station.word4_toNat (st : Station) : (st.word 4).toNat = (bit st.image.isSome).toNat + 2 * st.current.bit.toNat
    + 4 * (bit st.hold).toNat + 8 * (bit st.newer).toNat := by
  simp only [Station.word, toNat_append_sum, BitVec.toNat_ofNat]
  omega

theorem Station.word5_toNat {st : Station} {a b : BlockIx} (h : st.image = some (a, b)) : (st.word 5).toNat = a.val + 256 * b.val := by
  simp only [Station.word, toNat_append_sum, h, pairWord_some_toNat, BitVec.toNat_ofNat]
  omega

theorem Station.word6_toNat (st : Station) : (st.word 6).toNat = st.imageLen.toNat + 256 * st.nextLen.toNat := by
  simp only [Station.word, toNat_append_sum, BitVec.toNat_ofNat]
  omega

theorem Station.word11_toNat (st : Station) : (st.word 11).toNat = st.overwrites.toNat := by
  simp only [Station.word, toNat_append_sum, BitVec.toNat_ofNat]
  omega

theorem Station.word_of_le (st : Station) {i : Nat} (h : 12 ≤ i) : st.word i = 0 := by
  match i with
  | _ + 12 => rfl

theorem Entry.word0_toNat (e : Entry) : (e.word 0).toNat = (bit e.enabled).toNat + 2 * e.active.bit.toNat
    + 4 * (bit e.commitPending).toNat + 8 * e.retries.toNat + 32 * e.divExp.toNat + 256 * e.station.val := by
  simp only [Entry.word, toNat_append_sum, toNat_ofNat_fin 5 e.station (by decide), BitVec.toNat_ofNat]
  omega

theorem Entry.word1_toNat (e : Entry) : (e.word 1).toNat = e.phase.toNat + 256 * e.skipped.toNat := by
  simp only [Entry.word, toNat_append_sum, BitVec.toNat_ofNat]
  omega

theorem Entry.word2_toNat {e : Entry} {a b : BlockIx} (h : e.binding = some (a, b)) :
    (e.word 2).toNat = a.val + 256 * b.val + 32768 := by
  have hbound : (bit (some (a, b)).isSome).toNat = 1 := rfl
  simp only [Entry.word, toNat_append_sum, h, pairWord_some_toNat, hbound]
  omega

theorem Entry.word3_toNat (e : Entry) : (e.word 3).toNat = e.outputLen.toNat + 64 * e.stagedLen.toNat + 4096 * e.last.code.toNat := by
  simp only [Entry.word, toNat_append_sum]
  omega

theorem Slot.word0_toNat (k : Slot) : (k.word 0).toNat = k.state.code.toNat + 8 * (bit k.deferred).toNat
    + 16 * (bit k.abortLate).toNat + 32 * k.kind.bit.toNat + 64 * k.priority.toNat := by
  simp only [Slot.word, toNat_append_sum, BitVec.toNat_ofNat]
  omega

theorem Slot.word1_toNat (k : Slot) : (k.word 1).toNat = k.station.val + 256 * k.tag.toNat := by
  simp only [Slot.word, toNat_append_sum, toNat_ofNat_fin 5 k.station (by decide), BitVec.toNat_ofNat]
  omega

theorem Slot.word2_toNat (k : Slot) : (k.word 2).toNat = k.retries.toNat + 16 * k.attempts.toNat + 256 * k.busyCount.toNat := by
  simp only [Slot.word, toNat_append_sum, BitVec.toNat_ofNat]
  omega

theorem Slot.word3_toNat (k : Slot) : (k.word 3).toNat = k.reqBlock.toNat + 256 * k.replyBlock.toNat := by
  simp only [Slot.word, toNat_append_sum]
  omega

theorem Slot.word4_toNat (k : Slot) : (k.word 4).toNat = k.reqLen.toNat + 256 * k.replyLen.toNat := by
  simp only [Slot.word, toNat_append_sum, BitVec.toNat_ofNat]
  omega

theorem Slot.word5_toNat (k : Slot) : (k.word 5).toNat = k.outcome.code.toNat := by
  simp only [Slot.word, toNat_append_sum, BitVec.toNat_ofNat]
  omega

theorem Event.word0_toNat (v : Event) : (v.word 0).toNat = v.detailA.toNat + 64 * v.station.val + 2048 * lineNumber v.line
    + 4096 * v.kind.code.toNat := by
  simp only [Event.word, toNat_append_sum, LineId.bit_toNat, toNat_ofNat_fin 5 v.station (by decide)]
  omega

/-- Settles O43: each record's words, one sum per word that packs fields. -/
theorem recordWordLayouts : Obligations.RecordWordLayouts := by
  refine ⟨fun st => ?station, fun e => ?entry, fun k => ?slot, fun v => ⟨v.word0_toNat, rfl, rfl, rfl⟩, fun s b => (s.owner b).word_toNat⟩
  case station =>
    exact ⟨st.word0_toNat, st.word1_toNat, st.word2_toNat, st.word3_toNat, st.word4_toNat, fun _ _ => st.word5_toNat,
      fun h => by rw [Station.word, h]; rfl, st.word6_toNat, rfl, rfl, rfl, rfl, st.word11_toNat, fun _ => st.word_of_le⟩
  case entry =>
    exact ⟨e.word0_toNat, e.word1_toNat, fun _ _ => e.word2_toNat, fun h => by rw [Entry.word, h]; rfl, e.word3_toNat⟩
  case slot => exact ⟨k.word0_toNat, k.word1_toNat, k.word2_toNat, k.word3_toNat, k.word4_toNat, k.word5_toNat, rfl, rfl⟩

end Sys2Proof.Machine
end

section
/-!
SUPPORT. RESUME (R88), the Command Unit's discards (R169), COMMIT_OUTPUT, HOLD_IMAGE and RELEASE_IMAGE (R101, R110, R111), and the
records that leave the queue (R126, R141, R142, R144, R145).
-/

namespace Sys2Proof.Machine

open State

/-! ## RESUME (R88) -/

namespace State

/-- The STATION_STATE notice of a change to ONLINE is posted when HEALTH was another. -/
theorem healthNotice_toOnline (X : State) (u : StationIx) (h : (X.station u).health ≠ .online) :
    healthNotice u (X.station u) (X.station u).toOnline = [.notice (stateRecord X u (X.station u).health .online 0)] := by
  have hchange : ¬ (X.station u).health = (X.station u).toOnline.health := h
  rw [healthNotice, if_neg hchange, stationStateNotice_eq]
  rfl

/-- A RESUME that is taken, of a station that is not ONLINE. -/
theorem resumeStation_taken (code : Word) (s : State) (u : StationIx) (h : (s.station u).health ≠ .online) :
    (s.takeCommand code).resumeStation u = ((s.setStation u (s.station u).toOnline).offerNotice
      (stateRecord s u (s.station u).health .online 0)).commandDone code .ok ((s.station u).health.code.setWidth 16) := by
  have hnotice := healthNotice_toOnline (s.takeCommand code) u h
  rw [commandDone_eq, takeCommand_offerNotice]
  unfold resumeStation
  simp only [hnotice]
  rfl

end State

section
variable {s : State} (hs : s.accepts)
include hs

theorem exec_resume : exec .resume s = .next (s.takeCommand 0x0D).resumeBody :=
  congrArg _ (hostCommand_of_accepts 0x0D resumeBody s hs)

theorem exec_resume_badArgument (h : 31 < (s.carg.get 0).toNat) : exec .resume s = .next (s.commandDone 0x0D .badArgument 0) := by
  rw [exec_resume hs]
  unfold resumeBody
  rw [takeCommand_arg, index?_none h, refuse_takeCommand]

/-- RESUME of a station: the table of R88 by its HEALTH. -/
theorem exec_resume_station {u : StationIx} (hu : s.argIs 0 u.val) : exec .resume s
    = .next (match (s.station u).health with
      | .online | .degraded => s.commandDone 0x0D .wrongState 0
      | .offline => if (s.station u).reachable then (s.takeCommand 0x0D).resumeStation u else s.commandDone 0x0D .notReachable 0
      | .parked => (s.takeCommand 0x0D).resumeStation u) := by
  rw [exec_resume hs]
  unfold resumeBody
  rw [takeCommand_arg, index?_some u hu]
  rfl

end

/-- Settles O54: R88's table by the HEALTH of the station; its two permitted rows come to one end. -/
theorem resume : Obligations.Resume := by
  refine fun s hs => ⟨exec_resume_badArgument hs, fun u hu => ⟨?wrongState, ?notReachable, ?resumed⟩⟩
  all_goals rw [exec_resume_station hs hu]
  case wrongState => rintro (h | h) <;> simp only [h]
  case notReachable =>
    intro h hr
    simp only [h, hr, Bool.false_eq_true, if_false]
  case resumed =>
    rintro (h | ⟨h, hr⟩)
    · have hend := s.resumeStation_taken 0x0D u (by rw [h]; decide)
      simp only [h, hend]
      rfl
    · have hend := s.resumeStation_taken 0x0D u (by rw [h]; decide)
      simp only [h, hr, if_true, hend]
      rfl

/-! ## The Command Unit (R169) -/

/-- While a command is BUSY a CMD write sets OVERRUN alone. -/
theorem hostCommand_of_busy (code : Word) (body : State → State) {s : State} (hm : s.mode ≠ .init) (hb : s.cmdState = .busy) :
    s.hostCommand code body = { s with overrun := true } := by
  have hinit : ¬ s.inInit = true := by simp [inInit, hm]
  unfold hostCommand
  rw [if_neg hinit, if_pos hb]

/-- A code that names no command is refused with BAD_COMMAND. -/
theorem commandBody_badCommand {code : Word} (h : code = 0 ∨ 15 < code.toNat) : commandBody code = refuse .badCommand := by
  have hcode : code.toNat = 0 ∨ 15 < code.toNat := h.imp_left (congrArg BitVec.toNat)
  unfold commandBody
  split
  case h_16 => rfl
  all_goals omega

theorem cmdWrite_badCommand {code : Word} {s : State} (h : code = 0 ∨ 15 < code.toNat) (hs : s.accepts) :
    s.cmdWrite code = s.commandDone code .badCommand 0 := by
  rw [cmdWrite, hostCommand_of_accepts code _ s hs, commandBody_badCommand h, refuse_takeCommand]

/-- Settles O46: every row of a code is a CMD write, BUSY discards it, and a code outside Table 10-7 has the one refusing body. -/
theorem commandUnitDiscardsAndRejects : Obligations.CommandUnitDiscardsAndRejects := by
  refine ⟨fun c code s hcode hm hb => ?busy, fun code s h hs => ⟨?row, ?register⟩⟩
  case busy =>
    obtain ⟨body, hbody⟩ := exec_command c code hcode
    rw [hbody, hostCommand_of_busy code body hm hb]
  case row => exact congrArg Host.Outcome.next (cmdWrite_badCommand h hs)
  case register => exact congrArg Host.Outcome.next ((hostWrite_of_mode 0x08 code s hs.1).trans (cmdWrite_badCommand h hs))

/-! ## COMMIT_OUTPUT, HOLD_IMAGE and RELEASE_IMAGE (R101, R110, R111) -/

/-- The staged block of a pair is the one that is not ACTIVE (R98). -/
theorem Entry.stagedBlock_of_bound {e : Entry} {a b : BlockIx} (h : e.binding = some (a, b)) :
    e.stagedBlock = some (if e.active = .a then b else a) := by
  rw [stagedBlock, h]
  cases e.active <;> rfl

namespace State

/-- The flip in the statements' words (R108, R111): the other block becomes CURRENT. -/
theorem flipImage_eq (u : StationIx) (a b : BlockIx) (len : BitVec 6) (X : State) : X.flipImage u (a, b) len
    = ((X.setStation u { X.station u with
        current := if (X.station u).current == .a then .b else .a, imageLen := len
        imageSeq := (X.station u).imageSeq + 1, newer := false }).setOwner
          (if (X.station u).current == .a then b else a) (.imageCurrent u)).setOwner
            (if (X.station u).current == .a then a else b) (.imageNext u) := by
  unfold flipImage
  cases hc : (X.station u).current <;> simp [hc, pairBlock, Side.flip]

/-- A flip leaves NOTIFY and LINE, and its notice carries the new length and sequence. -/
theorem imageNotice_flipImage (u : StationIx) (p : BlockIx × BlockIx) (len : BitVec 6) (X : State) :
    (X.flipImage u p len).imageNotice u = if (X.station u).notify then [.notice {
      kind := .imageUpdate, line := (X.station u).line, station := u, detailA := len
      detailB := (X.station u).imageSeq + 1, cycle := 0, extra := 0 }] else [] := by
  have hst : (X.flipImage u p len).station u = { X.station u with
      current := (X.station u).current.flip, imageLen := len, imageSeq := (X.station u).imageSeq + 1, newer := false } := by
    simp only [flipImage, setOwner_station, station_setStation, if_true]
  unfold imageNotice
  rw [hst]
  rfl

end State

section
variable {s : State} (hs : s.accepts)
include hs

theorem exec_commitOutput_badEntry (h : 63 < (s.carg.get 0).toNat) : exec .commitOutput s = .next (s.commandDone 0x07 .badArgument 0) := by
  refine congrArg _ ((hostCommand_of_accepts 0x07 commitOutputBody s hs).trans ?_)
  unfold commitOutputBody
  rw [takeCommand_arg, index?_none h, refuse_takeCommand]

/-- COMMIT_OUTPUT of an entry: its pair, the length, and no commit waiting, in this order (R101). -/
theorem exec_commitOutput {e : EntryIx} (he : s.argIs 0 e.val) : exec .commitOutput s
    = .next (match (s.entry e).stagedBlock with
      | none => s.commandDone 0x07 .notBound 0
      | some b =>
        if 32 < (s.carg.get 1).toNat then s.commandDone 0x07 .badArgument 0
        else if (s.entry e).commitPending then s.commandDone 0x07 .commitPending 0
        else (s.setEntry e { s.entry e with commitPending := true, stagedLen := (s.carg.get 1).setWidth 6 }).commandDone 0x07 .ok
          (BitVec.ofNat 16 b.val)) := by
  refine congrArg _ ((hostCommand_of_accepts 0x07 commitOutputBody s hs).trans ?_)
  unfold commitOutputBody
  rw [takeCommand_arg, index?_some e he]
  rfl

theorem exec_holdImage_badArgument (h : 31 < (s.carg.get 0).toNat) : exec .holdImage s = .next (s.commandDone 0x08 .badArgument 0) := by
  refine congrArg _ ((hostCommand_of_accepts 0x08 holdImageBody s hs).trans ?_)
  unfold holdImageBody
  rw [takeCommand_arg, index?_none h, refuse_takeCommand]

/-- HOLD_IMAGE of a station: its pair, and HOLD not set (R110). -/
theorem exec_holdImage {u : StationIx} (hu : s.argIs 0 u.val) : exec .holdImage s
    = .next (if (s.station u).image.isNone then s.commandDone 0x08 .noImage 0
      else if (s.station u).hold then s.commandDone 0x08 .wrongState 0
      else (s.setStation u { s.station u with hold := true }).commandDone 0x08 .ok (s.station u).imageSeq) := by
  refine congrArg _ ((hostCommand_of_accepts 0x08 holdImageBody s hs).trans ?_)
  unfold holdImageBody
  rw [takeCommand_arg, index?_some u hu]
  rfl

theorem exec_releaseImage_badArgument (h : 31 < (s.carg.get 0).toNat) :
    exec .releaseImage s = .next (s.commandDone 0x09 .badArgument 0) := by
  refine congrArg _ ((hostCommand_of_accepts 0x09 releaseImageBody s hs).trans ?_)
  unfold releaseImageBody
  rw [takeCommand_arg, index?_none h, refuse_takeCommand]

theorem exec_releaseImage_noImage {u : StationIx} (hu : s.argIs 0 u.val) (h : (s.station u).image = none) :
    exec .releaseImage s = .next (s.commandDone 0x09 .noImage 0) := by
  refine congrArg _ ((hostCommand_of_accepts 0x09 releaseImageBody s hs).trans ?_)
  have himage : ((s.takeCommand 0x09).station u).image = none := h
  unfold releaseImageBody
  simp only [takeCommand_arg, index?_some u hu, himage, refuse_takeCommand]

/-- RELEASE_IMAGE of a station with a pair: refused without HOLD, and a reply held back is flipped in with its notice (R111). -/
theorem exec_releaseImage {u : StationIx} {p : BlockIx × BlockIx} (hu : s.argIs 0 u.val) (h : (s.station u).image = some p) :
    exec .releaseImage s = .next (
      if !(s.station u).hold then s.commandDone 0x09 .wrongState 0
      else
        let released : State := (s.takeCommand 0x09).setStation u { s.station u with hold := false }
        if (s.station u).newer then
          let flipped : State := released.flipImage u p (s.station u).nextLen
          (flipped.flush [flipped.imageNotice u]).complete .ok 1
        else released.complete .ok 0) := by
  refine congrArg _ ((hostCommand_of_accepts 0x09 releaseImageBody s hs).trans ?_)
  have himage : ((s.takeCommand 0x09).station u).image = some p := h
  unfold releaseImageBody
  simp only [takeCommand_arg, index?_some u hu, himage]
  rfl

end

/-- Settles O50: the checks of each command in order, and the flip of a RELEASE_IMAGE with a reply held back. -/
theorem commitHoldAndRelease : Obligations.CommitHoldAndRelease := by
  refine ⟨fun s hs => ⟨exec_commitOutput_badEntry hs, fun e he => ⟨?notBound, fun a b hp => ?commit⟩⟩,
    fun s hs => ⟨exec_holdImage_badArgument hs, fun u hu => ?hold⟩,
    fun s hs => ⟨exec_releaseImage_badArgument hs, fun u hu => ⟨exec_releaseImage_noImage hs hu, fun a b hp => ?release⟩⟩⟩
  case notBound =>
    intro hp
    have hstaged : (s.entry e).stagedBlock = none := by rw [Entry.stagedBlock, hp]; rfl
    simp only [exec_commitOutput hs he, hstaged]
  case commit =>
    have hrow := exec_commitOutput hs he
    simp only [Entry.stagedBlock_of_bound hp] at hrow
    refine ⟨fun hlong => ?tooLong, fun hshort hw => ?waiting, fun len hlen hle hw => ?taken⟩
    case tooLong => rw [hrow, if_pos hlong]
    case waiting => rw [hrow, if_neg (Nat.not_lt.2 hshort), if_pos hw]
    case taken =>
      have hword : (s.carg.get 1).setWidth 6 = len := by
        apply BitVec.eq_of_toNat_eq
        rw [BitVec.toNat_setWidth, hlen, Nat.mod_eq_of_lt len.isLt]
      have hshort : ¬ 32 < (s.carg.get 1).toNat := by rw [hlen]; omega
      rw [hrow, if_neg hshort, if_neg (by rw [hw]; decide), hword]
      split <;> rfl
  case hold =>
    rw [exec_holdImage hs hu]
    refine ⟨fun hp => ?noImage, fun hp hh => ?wrongState, fun hp hh => ?held⟩
    case noImage => rw [if_pos (by rw [hp]; rfl)]
    case wrongState => rw [if_neg (by rwa [Option.isNone_iff_eq_none]), if_pos hh]
    case held => rw [if_neg (by rwa [Option.isNone_iff_eq_none]), if_neg (by rw [hh]; decide)]
  case release =>
    rw [exec_releaseImage hs hu hp]
    refine ⟨fun hh => ?wrongState, fun hh hn => ?released, fun hh hn => ?flipped⟩
    case wrongState => simp only [hh, Bool.not_false, if_true]
    case released => simp only [hh, hn, Bool.not_true, Bool.false_eq_true, if_false]; rfl
    case flipped =>
      simp only [hh, hn, Bool.not_true, Bool.false_eq_true, if_false, if_true, imageNotice_flipImage, station_setStation]
      simp only [flipImage_eq, station_setStation, if_true]
      cases (s.station u).notify with
      | false => simp only [Bool.false_eq_true, if_false, setStation_setStation]; rfl
      | true =>
        simp only [if_true, setStation_setStation, flush_notice]
        rw [commandDone_eq, takeCommand_offerNotice]
        rfl

end Sys2Proof.Machine
end

section
/-!
SUPPORT. Records that leave the queue (R126, R141, R142, R144, R145): the removal step by what is held, and a DMA read by the pointer.
-/

namespace Sys2Proof.Machine

namespace State

/-! ## Held completions (R126, R141) -/

theorem takeHeld_of_none {s : State} (h : s.done = []) : s.takeHeld = s := by
  unfold takeHeld
  rw [h]

/-- With room the head held completion is taken and its slot released. -/
theorem takeHeld_of_room {s : State} {k : SlotIx} {r : Event} {ds : List (SlotIx × Event)} (h : s.done = (k, r) :: ds)
    (hroom : s.events.length < 64) : s.takeHeld = slotReleased { s with done := ds, events := s.events ++ [s.stamp r] } k
      (fieldBlock? (s.slot k).reqBlock) (fieldBlock? (s.slot k).replyBlock) := by
  unfold takeHeld
  simp only [h]
  exact (if_pos hroom).trans (freeSlot_eq k _)

theorem takeHeld_of_full {s : State} (hfull : 64 ≤ s.events.length) : s.takeHeld = s := by
  unfold takeHeld
  split
  case h_1 => rfl
  case h_2 => exact if_neg (Nat.not_lt.2 hfull)

/-! ## The removal step (R141) -/

section
variable {s : State} {e : Event} {rest : List Event}

theorem removeHead_of_nil (h : s.events = []) : s.removeHead = s := by
  unfold removeHead
  rw [h]

theorem removeHead_of_cons (h : s.events = e :: rest) :
    s.removeHead = ({ s with events := rest, dmaWord := 0 } : State).takeHeld := by
  unfold removeHead
  rw [h]

theorem removeHead_of_noneHeld (h : s.events = e :: rest) (hd : s.done = []) :
    s.removeHead = { s with events := rest, dmaWord := 0 } :=
  (removeHead_of_cons h).trans (takeHeld_of_none hd)

/-- The head held completion takes the place of the record that left. -/
theorem removeHead_of_held (h : s.events = e :: rest) {k : SlotIx} {r : Event} {ds : List (SlotIx × Event)}
    (hd : s.done = (k, r) :: ds) (hroom : rest.length < 64) : s.removeHead = slotReleased { s with
      dmaWord := 0, done := ds, events := rest ++ [s.stamp r] } k
      (fieldBlock? (s.slot k).reqBlock) (fieldBlock? (s.slot k).replyBlock) :=
  (removeHead_of_cons h).trans (takeHeld_of_room hd hroom)

theorem headWord_of_cons (h : s.events = e :: rest) (i : Nat) : s.headWord i = e.word i := by
  unfold headWord
  rw [h]

end

/-- The release of a slot leaves the queue. -/
theorem slotReleased_events (s : State) (k : SlotIx) (a b : Option BlockIx) : (slotReleased s k a b).events = s.events := by
  cases a <;> cases b <;> rfl

/-! ## The DMA drain (R144, R145) -/

theorem dreq_iff (s : State) : s.dreq = true ↔ s.drain = true ∧ s.events ≠ [] := by
  rw [dreq, Bool.and_eq_true, Bool.not_eq_true', Bool.eq_false_iff, Ne, List.isEmpty_iff]

theorem dmaRead_of_idle {s : State} (h : s.drain = false ∨ s.events = []) : s.dmaRead = { s with dout := 0 } := by
  refine if_neg ?_
  rw [dreq_iff]
  rintro ⟨hdrain, hevents⟩
  obtain h | h := h
  · exact absurd (h.symm.trans hdrain) (by decide)
  · exact hevents h

section
variable {s : State} {e : Event} {rest : List Event} (hdrain : s.drain = true) (h : s.events = e :: rest)
include hdrain h

/-- With DREQ asserted a read gives the word the pointer names, and the pointer advances. -/
theorem dmaRead_of_dreq : s.dmaRead = ({ s with dout := e.word s.dmaWord.toNat } : State).advanceDma := by
  have hdreq : s.dreq = true := s.dreq_iff.2 ⟨hdrain, by rw [h]; exact List.cons_ne_nil _ _⟩
  rw [← headWord_of_cons h]
  exact if_pos hdreq

theorem dmaRead_word (hw : s.dmaWord.toNat < 3) :
    s.dmaRead = { s with dout := e.word s.dmaWord.toNat, dmaWord := s.dmaWord + 1 } := by
  rw [dmaRead_of_dreq hdrain h]
  refine if_neg fun h3 => ?_
  have : s.dmaWord.toNat = 3 := congrArg BitVec.toNat h3
  omega

/-- After w3 the head is removed, and DRAINED is raised when that leaves the queue empty. -/
theorem dmaRead_removal (hw : s.dmaWord = 3) : s.dmaRead =
    if ({ s with dout := e.extra } : State).removeHead.events = [] then ({ s with dout := e.extra } : State).removeHead.raise .drained
    else ({ s with dout := e.extra } : State).removeHead := by
  have hword : e.word s.dmaWord.toNat = e.extra := by rw [hw]; rfl
  rw [dmaRead_of_dreq hdrain h, hword]
  exact if_pos hw

end

end State

open State

/-- A read of EVREC3 is the removal step, with w3 on the bus. -/
theorem exec_evrec3Read (s : State) : exec .evrec3Read s = .next ({ s with dout := s.headWord 3 } : State).removeHead := rfl

/-- Settles O45: the removal step by the queue and by what is held, for EVREC3 and for the DMA drain. -/
theorem recordsLeaveTheQueue : Obligations.RecordsLeaveTheQueue := by
  refine ⟨fun s => ⟨?empty, fun e rest h => ?removed⟩, fun s => ⟨?none, fun k r ds hd => ?taken⟩,
    fun s => ⟨s.dreq_iff, fun h => congrArg _ (dmaRead_of_idle h), fun e rest hdrain h => ?dma⟩⟩
  case empty =>
    intro h
    have hword : s.headWord 3 = 0 := by rw [headWord, h]
    rw [exec_evrec3Read, hword, removeHead_of_nil (s := { s with dout := 0 }) h]
  case removed =>
    have hword : s.headWord 3 = e.extra := headWord_of_cons h 3
    rw [exec_evrec3Read, hword]
    refine ⟨fun hd => congrArg _ ?noneHeld, fun k r ds hd hroom => congrArg _ ?held⟩
    case noneHeld => exact removeHead_of_noneHeld (s := { s with dout := e.extra }) h hd
    case held => exact removeHead_of_held (s := { s with dout := e.extra }) h hd hroom
  case none => exact fun hd => congrArg Host.Outcome.next (takeHeld_of_none hd)
  case taken =>
    exact ⟨fun hroom => congrArg Host.Outcome.next (takeHeld_of_room hd hroom),
      fun hfull => congrArg Host.Outcome.next (takeHeld_of_full hfull)⟩
  case dma =>
    refine ⟨fun hw => congrArg Host.Outcome.next (dmaRead_word hdrain h hw), fun hw hd => congrArg Host.Outcome.next ?noneHeld,
      fun k r ds hw hd hroom => congrArg Host.Outcome.next ?held⟩
    case noneHeld =>
      rw [dmaRead_removal hdrain h hw, removeHead_of_noneHeld (s := { s with dout := e.extra }) h hd]
      dsimp only
      split <;> rfl
    case held =>
      rw [dmaRead_removal hdrain h hw, removeHead_of_held (s := { s with dout := e.extra }) h hd hroom, if_neg]
      · rfl
      · rw [slotReleased_events]
        exact List.append_ne_nil_of_right_ne_nil _ (List.cons_ne_nil _ _)

end Sys2Proof.Machine
end

section
/-!
SUPPORT. The register window's writes (R3, R143, R145, R163, R164, R167): the line configuration registers by the mode, the other
registers that take writes, and the positions that refuse them.
-/

namespace Sys2Proof.Machine

open State

/-! ## The line configuration registers (R3, R163) -/

/-- The word address of register `i` in the group of line n (Table 9-1). -/
def lineRegister (n : LineId) (i : Nat) : BitVec 6 := BitVec.ofNat 6 (0x20 + 8 * lineNumber n + i)

theorem Line.storeDiv_eq (v : Word) (l : Line) : ∃ d : BitVec 12, d.toNat = max 15 (v.toNat % 4096) ∧ l.storeDiv v = { l with div := d } := by
  refine ⟨_, ?_, rfl⟩
  have hfield : (v.extractLsb' 0 12).toNat = v.toNat % 4096 := by rw [BitVec.extractLsb'_toNat, Nat.shiftRight_zero]
  split
  case isTrue hlow => rw [hfield] at hlow; exact (Nat.max_eq_left (Nat.le_of_lt hlow)).symm
  case isFalse hhigh => rw [hfield] at hhigh ⊢; exact (Nat.max_eq_right (Nat.not_lt.1 hhigh)).symm

namespace State

theorem writeLineConfig_of_config (a : BitVec 6) (n : LineId) (f : Line → Line) {s : State} (h : s.mode = .config) :
    s.writeLineConfig a n f = s.setLine n (f (s.line n)) := if_pos h

/-- A refused register write is recorded with its byte offset (R164, R167). -/
theorem refuseRegister_eq (a : BitVec 6) (s : State) :
    s.refuseRegister a = s.accessRefused .register .write (BitVec.ofNat 16 (2 * a.toNat)) := by
  rw [refuseRegister, refuseAccess_eq, registerOffset_eq]

/-- The offset ACCADDR records for a line's register. -/
theorem refuseRegister_lineRegister (n : LineId) {i : Nat} (hi : i < 8) (s : State) : s.refuseRegister (lineRegister n i)
    = s.accessRefused .register .write (BitVec.ofNat 16 (2 * (0x20 + 8 * lineNumber n + i))) := by
  have hplace : (lineRegister n i).toNat = 0x20 + 8 * lineNumber n + i := by
    have hn : lineNumber n ≤ 1 := by cases n <;> decide
    rw [lineRegister, BitVec.toNat_ofNat]
    omega
  rw [refuseRegister_eq, hplace]

/-- Outside CONFIG and INIT a line configuration register refuses its write (R163). -/
theorem writeLineConfig_of_refused (n : LineId) {i : Nat} (hi : i < 8) (f : Line → Line) {s : State} (h : s.mode ≠ .config) :
    s.writeLineConfig (lineRegister n i) n f
      = s.accessRefused .register .write (BitVec.ofNat 16 (2 * (0x20 + 8 * lineNumber n + i))) :=
  (if_neg h).trans (refuseRegister_lineRegister n hi s)

end State

section
variable {s : State} (hm : s.mode ≠ .init) (n : LineId) (v : Word)
include hm

theorem exec_linedivWrite : exec (.linedivWrite n v) s = .next (s.writeLineConfig (lineRegister n 1) n (Line.storeDiv v)) := by
  cases n <;> exact congrArg Host.Outcome.next (hostWrite_of_mode _ v s hm)

theorem exec_lineCfgWrite : exec (.registerWrite (lineRegister n 0) v) s
    = .next (s.writeLineConfig (lineRegister n 0) n (Line.storeCfg v)) := by
  cases n <;> exact congrArg Host.Outcome.next (hostWrite_of_mode _ v s hm)

theorem exec_lineTimeWrite : exec (.registerWrite (lineRegister n 2) v) s
    = .next (s.writeLineConfig (lineRegister n 2) n (Line.storeTime v)) := by
  cases n <;> exact congrArg Host.Outcome.next (hostWrite_of_mode _ v s hm)

theorem exec_linePeriodWrite : exec (.registerWrite (lineRegister n 3) v) s
    = .next (s.writeLineConfig (lineRegister n 3) n (Line.storePeriod v)) := by
  cases n <;> exact congrArg Host.Outcome.next (hostWrite_of_mode _ v s hm)

/-! ## The other registers that take writes (R143, R145, R168) -/

theorem exec_cargWrite (i : Fin 4) : exec (.registerWrite (BitVec.ofNat 6 (9 + i.val)) v) s = .next { s with carg := s.carg.set i v } := by
  match i with
  | 0 | 1 | 2 | 3 => exact congrArg Host.Outcome.next (hostWrite_of_mode _ v s hm)

theorem exec_tapaddrWrite : exec (.registerWrite 0x04 v) s = .next { s with tapaddr := v } :=
  congrArg Host.Outcome.next (hostWrite_of_mode 0x04 v s hm)

theorem exec_evlostWrite : exec (.evlostWrite v) s = .next { s with evlost := 0 } :=
  congrArg Host.Outcome.next (hostWrite_of_mode 0x15 v s hm)

theorem exec_evthreshWrite : exec (.evthreshWrite v) s = .next { s with evthresh := narrowEvthresh v } :=
  congrArg Host.Outcome.next (hostWrite_of_mode 0x16 v s hm)

/-- Clearing DRAIN returns the pointer to w0 (R145). -/
theorem exec_dmactlWrite : exec (.dmactlWrite v) s = .next { s with
    drain := v.getLsbD 0, dmaWord := if s.drain = true ∧ v.getLsbD 0 = false then 0 else s.dmaWord } := by
  refine congrArg Host.Outcome.next ((hostWrite_of_mode 0x17 v s hm).trans ?_)
  have hcleared : (s.drain && !v.getLsbD 0) = true ↔ s.drain = true ∧ v.getLsbD 0 = false := by
    rw [Bool.and_eq_true, Bool.not_eq_true']
  have hpointer := if_congr hcleared (Eq.refl (0 : BitVec 2)) (Eq.refl s.dmaWord)
  exact congrArg (fun w => { s with drain := v.getLsbD 0, dmaWord := w }) hpointer

end

/-! ## The positions that refuse writes (R164) -/

/-- The read-only positions below the unassigned ones (Table 9-1), with the unassigned 0x0F. -/
def readOnlyRegisters : List Nat :=
  [0x03, 0x06, 0x07, 0x0D, 0x0E, 0x0F, 0x10, 0x11, 0x12, 0x13, 0x14, 0x1F, 0x24, 0x25, 0x26, 0x27, 0x2C, 0x2D, 0x2E, 0x2F]

theorem State.writeRegister_of_readOnly {a : BitVec 6} (v : Word) (s : State) (h : a.toNat ∈ readOnlyRegisters ∨ 0x30 ≤ a.toNat) :
    s.writeRegister a v = s.refuseRegister a := by
  unfold writeRegister
  split
  case h_29 => rfl
  all_goals
    rename_i ha
    rw [ha] at h
    exact absurd h (by decide)

theorem State.readRegister_of_unassigned {a : BitVec 6} (s : State) (h : a.toNat = 0x0F ∨ 0x30 ≤ a.toNat) : s.readRegister a = 0 := by
  unfold readRegister
  split
  case h_48 => rfl
  all_goals omega

/-- Settles O40: each write outside INIT is one equation of the window, and the mode decides the line configuration. -/
theorem registerWrites : Obligations.RegisterWrites := by
  refine ⟨fun n s v => ⟨fun hm => ?config, fun hm => ?refused⟩, fun s v hm => ?others, fun s a v hm h => ?readOnly⟩
  case config =>
    have hinit : s.mode ≠ .init := by rw [hm]; decide
    obtain ⟨d, hd, hdiv⟩ := (s.line n).storeDiv_eq v
    refine ⟨⟨d, hd, ?div⟩, ?cfg, ?time, ?period⟩
    case div => rw [exec_linedivWrite hinit, writeLineConfig_of_config _ n _ hm, hdiv]
    case cfg => exact (exec_lineCfgWrite hinit n v).trans (congrArg _ (writeLineConfig_of_config _ n _ hm))
    case time => exact (exec_lineTimeWrite hinit n v).trans (congrArg _ (writeLineConfig_of_config _ n _ hm))
    case period => exact (exec_linePeriodWrite hinit n v).trans (congrArg _ (writeLineConfig_of_config _ n _ hm))
  case refused =>
    have hinit : s.mode ≠ .init := by obtain h | h | h := hm <;> rw [h] <;> decide
    have hconfig : s.mode ≠ .config := by obtain h | h | h := hm <;> rw [h] <;> decide
    refine ⟨(exec_linedivWrite hinit n v).trans (congrArg _ (writeLineConfig_of_refused n (by decide) _ hconfig)), ?_⟩
    simp only [List.forall_mem_cons, List.not_mem_nil, false_implies, implies_true, and_true]
    exact ⟨(exec_lineCfgWrite hinit n v).trans (congrArg _ (writeLineConfig_of_refused n (by decide) _ hconfig)),
      (exec_lineTimeWrite hinit n v).trans (congrArg _ (writeLineConfig_of_refused n (by decide) _ hconfig)),
      (exec_linePeriodWrite hinit n v).trans (congrArg _ (writeLineConfig_of_refused n (by decide) _ hconfig))⟩
  case others =>
    exact ⟨exec_cargWrite hm v, exec_tapaddrWrite hm v, exec_evlostWrite hm v,
      ⟨_, exec_evthreshWrite hm v, narrowEvthresh_toNat v⟩, exec_dmactlWrite hm v⟩
  case readOnly =>
    refine ⟨congrArg Host.Outcome.next ?_, readRegister_of_unassigned s⟩
    rw [hostWrite_of_mode a v s hm, writeRegister_of_readOnly v s h, refuseRegister_eq]

end Sys2Proof.Machine
end

section
/-!
SUPPORT. The Table Access Port (R59, R72, R73, R85, R92 to R95, R165 to R167): each access is answered by its place, or refused.
-/

namespace Sys2Proof.Machine

open State

/-! ## The two bytes of a word (R92) -/

theorem Memory.readWord_low (m : Memory) (w : Nat) : (Memory.readWord m w).extractLsb' 0 8 = Memory.read m (2 * w) := by
  apply BitVec.eq_of_toNat_eq
  rw [BitVec.extractLsb'_toNat, readWord, toNat_append_sum, Nat.shiftRight_zero]
  have := (Memory.read m (2 * w)).isLt
  omega

theorem Memory.readWord_high (m : Memory) (w : Nat) : (Memory.readWord m w).extractLsb' 8 8 = Memory.read m (2 * w + 1) := by
  apply BitVec.eq_of_toNat_eq
  rw [BitVec.extractLsb'_toNat, readWord, toNat_append_sum, Nat.shiftRight_eq_div_pow]
  have := (Memory.read m (2 * w)).isLt
  have := (Memory.read m (2 * w + 1)).isLt
  omega

/-! ## Reads (R94, R166) -/

namespace State

theorem tapRead?_of_some {s : State} {a : Nat} {w : Word} (h : tapWord s a (some w)) : s.tapRead? a = some w := by
  unfold tapRead?
  obtain ⟨b, i, hi, ha, hb, rfl⟩ | ⟨u, i, hi, ha, rfl⟩ | ⟨e, i, hi, ha, rfl⟩ | ⟨k, i, hi, ha, rfl⟩ | ⟨b, ha, rfl⟩ := h
  · simp only [tapPlace_inBlock a b i hi ha, if_neg hb]
  · simp only [tapPlace_inStation a u i hi ha]
  · simp only [tapPlace_inEntry a e i hi ha]
  · simp only [tapPlace_inSlot a k i hi ha]
  · simp only [tapPlace_inMap a b ha]

theorem tapRead?_of_none {s : State} {a : Nat} (h : tapWord s a none) : s.tapRead? a = none := by
  unfold tapRead?
  obtain ⟨b, i, hi, ha, hb⟩ | hplace := h
  · simp only [tapPlace_inBlock a b i hi ha, if_pos hb]
  · simp only [tapPlace_nothing a hplace]

/-- Table 9-2 is whole: every address has a word or refuses its read. -/
theorem tapWord_total (s : State) (a : Nat) : (∃ w, tapWord s a (some w)) ∨ tapWord s a none := by
  by_cases hblock : a < 0x800
  · obtain ⟨b, i, hi, ha⟩ : ∃ (b : BlockIx) (i : Nat), i < 16 ∧ a = 16 * b.val + i :=
      ⟨⟨a / 16, by omega⟩, a % 16, by omega, by simp only; omega⟩
    by_cases hb : s.owner b = .free
    · exact .inr (.inl ⟨b, i, hi, ha, hb⟩)
    · exact .inl ⟨_, .inl ⟨b, i, hi, ha, hb, rfl⟩⟩
  by_cases hstation : 0x1000 ≤ a ∧ a < 0x1200
  · exact .inl ⟨_, .inr (.inl ⟨⟨(a - 0x1000) / 16, by omega⟩, (a - 0x1000) % 16, by omega, by simp only; omega, rfl⟩)⟩
  by_cases hentry : 0x1200 ≤ a ∧ a < 0x1300
  · exact .inl ⟨_, .inr (.inr (.inl ⟨⟨(a - 0x1200) / 4, by omega⟩, (a - 0x1200) % 4, by omega, by simp only; omega, rfl⟩))⟩
  by_cases hslot : 0x1400 ≤ a ∧ a < 0x1480
  · exact .inl ⟨_, .inr (.inr (.inr (.inl ⟨⟨(a - 0x1400) / 8, by omega⟩, (a - 0x1400) % 8, by omega, by simp only; omega, rfl⟩)))⟩
  by_cases hmap : 0x1600 ≤ a ∧ a < 0x1680
  · exact .inl ⟨_, .inr (.inr (.inr (.inr ⟨⟨a - 0x1600, by omega⟩, by simp only; omega, rfl⟩)))⟩
  · exact .inr (.inr (by omega))

end State

section
variable {s : State} (hm : s.mode ≠ .init)
include hm

theorem exec_tapdataRead_of_some {w : Word} (h : s.tapRead? s.tapaddr.toNat = some w) :
    exec .tapdataRead s = .next { s with dout := w, tapaddr := s.tapaddr + 1 } := by
  have hinit : ¬ s.inInit = true := by simp [inInit, hm]
  refine congrArg Host.Outcome.next ((if_neg hinit).trans ?_)
  rw [h]
  rfl

theorem exec_tapdataRead_of_none (h : s.tapRead? s.tapaddr.toNat = none) :
    exec .tapdataRead s = .next { s.accessRefused .tap .read s.tapaddr with dout := 0, tapaddr := s.tapaddr + 1 } := by
  have hinit : ¬ s.inInit = true := by simp [inInit, hm]
  refine congrArg Host.Outcome.next ((if_neg hinit).trans ?_)
  rw [h]
  exact congrArg (fun x : State => { x with dout := 0 }) (refuseAccess_advanceTap .read s)

/-! ## Writes (R94, R166) -/

theorem exec_tapdataWrite_of_some {v : Word} {t : State} (h : s.tapWrite? s.tapaddr.toNat v = some t) :
    exec (.tapdataWrite v) s = .next t.advanceTap := by
  rw [exec_tapdataWrite s v hm, h]

theorem exec_tapdataWrite_of_none {v : Word} (h : s.tapWrite? s.tapaddr.toNat v = none) :
    exec (.tapdataWrite v) s = .next { s.accessRefused .tap .write s.tapaddr with tapaddr := s.tapaddr + 1 } := by
  rw [exec_tapdataWrite s v hm, h, ← refuseAccess_advanceTap]

end

/-- The blocks a host write is stored in (R94, R95). -/
theorem State.blockWritable_iff (s : State) (b : BlockIx) : s.blockWritable b = true
    ↔ s.owner b = .host ∨ ∃ e, s.owner b = .outputStaged e ∧ (s.entry e).commitPending = false := by
  unfold blockWritable
  cases s.owner b <;> simp

/-- A write at an address of a block is decided by the block. -/
theorem State.tapWrite?_block (s : State) (b : BlockIx) {i a : Nat} (hi : i < 16) (ha : a = 16 * b.val + i) (v : Word) :
    s.tapWrite? a v = if s.blockWritable b then some { s with payload := Memory.writeWord s.payload a v } else none := by
  unfold tapWrite?
  rw [tapPlace_inBlock a b i hi ha]

/-- Settles O41: a read is answered by its place, a write to a block by its class and role. -/
theorem tapReadsAndBlockWrites : Obligations.TapReadsAndBlockWrites := by
  refine ⟨fun s hm => ⟨fun w h => exec_tapdataRead_of_some hm (tapRead?_of_some h),
    fun h => exec_tapdataRead_of_none hm (tapRead?_of_none h), tapWord_total s _,
    fun w => ⟨Memory.readWord_low s.payload w, Memory.readWord_high s.payload w⟩⟩, ?write⟩
  case write =>
    intro s b i v hm hi ha permitted
    refine ⟨fun hp => ?stored, fun hp => ?refused⟩
    case stored =>
      have hwrite := (s.tapWrite?_block b hi ha v).trans (if_pos ((s.blockWritable_iff b).2 hp))
      refine ⟨_, exec_tapdataWrite_of_some hm hwrite, rfl, fun hmem x => ?_⟩
      have hb : b.val < 128 := b.isLt
      have hplace : 2 * s.tapaddr.toNat = 32 * b.val + 2 * i := by omega
      exact hplace ▸ Memory.read_writeWord s.payload s.tapaddr.toNat v x hmem (by omega)
    case refused =>
      refine exec_tapdataWrite_of_none hm ((s.tapWrite?_block b hi ha v).trans (if_neg ?_))
      rwa [s.blockWritable_iff b]

/-! ## Station records (R72, R73, R85) -/

namespace State

theorem tapWrite?_station (s : State) (u : StationIx) {i a : Nat} (hi : i < 16) (ha : a = 0x1000 + 16 * u.val + i) (v : Word) :
    s.tapWrite? a v = s.writeStation? u i v := by
  unfold tapWrite?
  rw [tapPlace_inStation a u i hi ha]

theorem writeStation?_word0 (s : State) (u : StationIx) (v : Word) (h : s.mode = .config) :
    s.writeStation? u 0 v = some (s.writeStationWord0 u v) := if_pos h

theorem writeStation?_word1 (s : State) (u : StationIx) (v : Word) (h : s.mode = .config) :
    s.writeStation? u 1 v = some (s.modifyStation u (Station.storeWord1 v)) := if_pos h

theorem writeStation?_refused (s : State) (u : StationIx) (v : Word) {i : Nat} (h : s.mode ≠ .config ∨ 2 ≤ i) :
    s.writeStation? u i v = none := by
  unfold writeStation?
  split
  case isTrue hm =>
    have hi : 2 ≤ i := h.resolve_left (not_not.2 hm)
    match i with
    | _ + 2 => rfl
  case isFalse => rfl

/-- A PARKED station stays PARKED, and no notice is posted (R73). -/
theorem writeStationWord0_of_parked (s : State) (u : StationIx) (v : Word) (h : (s.station u).health = .parked) :
    s.writeStationWord0 u v = s.setStation u ((s.station u).storeWord0 v) := by
  have hstored : (s.station u).writeWord0 v = (s.station u).storeWord0 v := if_pos h
  have hsame : healthNotice u (s.station u) ((s.station u).storeWord0 v) = [] := if_pos rfl
  simp only [writeStationWord0, hstored, hsame, flush_empty, flush_nil]

/-- A station that is not PARKED comes to ONLINE, and a change of HEALTH posts its notice (R73, R85). -/
theorem writeStationWord0_of_not_parked (s : State) (u : StationIx) (v : Word) (h : (s.station u).health ≠ .parked) :
    s.writeStationWord0 u v = if (s.station u).health = .online then s.setStation u ((s.station u).storeWord0 v).toOnline
      else (s.setStation u ((s.station u).storeWord0 v).toOnline).offerNotice
        (stationStateNotice u (s.station u).health ((s.station u).storeWord0 v).toOnline) := by
  have hstored : (s.station u).writeWord0 v = ((s.station u).storeWord0 v).toOnline := if_neg h
  have hnew : ((s.station u).storeWord0 v).toOnline.health = .online := rfl
  simp only [writeStationWord0, hstored, healthNotice, hnew]
  split
  case isTrue => rw [flush_empty, flush_nil]
  case isFalse => rw [flush_notice]

end State

/-- The old HEALTH of a change to ONLINE stands alone in DETAIL_B (Table 10-6). -/
theorem Health.detail_toOnline (h : Health) : BitVec.ofNat 16 (h.code.toNat + 16 * Health.online.code.toNat) = h.code.setWidth 16 := by
  cases h <;> decide

/-! ## Schedule entries (R59, R179) -/

namespace State

theorem tapWrite?_entry (s : State) (e : EntryIx) {i a : Nat} (hi : i < 4) (ha : a = 0x1200 + 4 * e.val + i) (v : Word) :
    s.tapWrite? a v = s.writeEntry? e i v := by
  unfold tapWrite?
  rw [tapPlace_inEntry a e i hi ha]

theorem writeEntry?_word0_of_config (s : State) (e : EntryIx) (v : Word) (h : s.mode = .config) :
    s.writeEntry? e 0 v = some (s.setEntry e ((s.entry e).storeWord0 v)) :=
  congrArg (fun f => some (s.modifyEntry e f)) (if_pos h)

theorem writeEntry?_word0_of_not_config (s : State) (e : EntryIx) (v : Word) (h : s.mode ≠ .config) :
    s.writeEntry? e 0 v = some (s.setEntry e ((s.entry e).storeEnabled v)) :=
  congrArg (fun f => some (s.modifyEntry e f)) (if_neg h)

theorem writeEntry?_word1 (s : State) (e : EntryIx) (v : Word) (h : s.mode = .config) :
    s.writeEntry? e 1 v = some (s.setEntry e ((s.entry e).storeWord1 v)) := if_pos h

theorem writeEntry?_refused (s : State) (e : EntryIx) (v : Word) {i : Nat} (h : 2 ≤ i ∨ (i = 1 ∧ s.mode ≠ .config)) :
    s.writeEntry? e i v = none := by
  obtain h | ⟨rfl, hm⟩ := h
  · match i with
    | _ + 2 => rfl
  · exact if_neg hm

/-- Slots, the block map and the rest of the address space refuse writes (R166). -/
theorem tapWrite?_elsewhere (s : State) (v : Word) {a : Nat} (h : (0x800 ≤ a ∧ a < 0x1000) ∨ 0x1300 ≤ a) : s.tapWrite? a v = none := by
  unfold tapWrite? tapPlace
  rw [dif_neg (by omega), dif_neg (by omega), dif_neg (by omega)]
  split
  case h_1 b hp | h_2 t i hp | h_3 e i hp => split at hp <;> first | contradiction | (split at hp <;> contradiction)
  all_goals rfl

end State

/-- STATION of entry word 0 is bits 12:8 (Table 10-4). -/
theorem stationOfBits_eq {v : Word} {u : StationIx} (h : u.val = v.toNat / 256 % 32) : stationOfBits (v.extractLsb' 8 5) = u := by
  apply Fin.ext
  show (v.extractLsb' 8 5).toNat = u.val
  rw [h, BitVec.extractLsb'_toNat, Nat.shiftRight_eq_div_pow]

/-- Settles O42: a write is decided by its place and its word, and stores the fields of that word. -/
theorem tapWritesToRecords : Obligations.TapWritesToRecords := by
  refine ⟨fun s u i v hm hi ha => ?station, fun s e i v hm hi ha => ?entry,
    fun s v hm h => exec_tapdataWrite_of_none hm (s.tapWrite?_elsewhere v h)⟩
  case station =>
    intro stored
    have hplace := s.tapWrite?_station u hi ha v
    refine ⟨fun hc h0 hh => ?parked, fun hc h0 hh => ?online, fun hc h1 => ?word1, fun h => ?refused⟩
    case parked =>
      subst h0
      rw [exec_tapdataWrite_of_some hm (hplace.trans (s.writeStation?_word0 u v hc)), s.writeStationWord0_of_parked u v hh]
      rfl
    case online =>
      subst h0
      rw [exec_tapdataWrite_of_some hm (hplace.trans (s.writeStation?_word0 u v hc)), s.writeStationWord0_of_not_parked u v hh]
      split
      case isTrue => rfl
      case isFalse =>
        rw [advanceTap_offerNotice, stationStateNotice_eq]
        exact congrArg (fun d => Host.Outcome.next (offerNotice { (stationStateNotice u (s.station u).health stored.toOnline) with
          detailA := 0, detailB := d } _)) (Health.detail_toOnline (s.station u).health)
    case word1 =>
      subst h1
      exact exec_tapdataWrite_of_some hm (hplace.trans (s.writeStation?_word1 u v hc))
    case refused => exact exec_tapdataWrite_of_none hm (hplace.trans (s.writeStation?_refused u v h))
  case entry =>
    have hplace := s.tapWrite?_entry e hi ha v
    refine ⟨fun h0 hc u hu => ?word0, fun h0 hc => ?enabled, fun h1 hc => ?word1, fun h => ?refused⟩
    case word0 =>
      subst h0
      rw [exec_tapdataWrite_of_some hm (hplace.trans (s.writeEntry?_word0_of_config e v hc)), ← stationOfBits_eq hu]
      rfl
    case enabled =>
      subst h0
      exact exec_tapdataWrite_of_some hm (hplace.trans (s.writeEntry?_word0_of_not_config e v hc))
    case word1 =>
      subst h1
      exact exec_tapdataWrite_of_some hm (hplace.trans (s.writeEntry?_word1 e v hc))
    case refused => exact exec_tapdataWrite_of_none hm (hplace.trans (s.writeEntry?_refused e v h))

end Sys2Proof.Machine
end

section
/-!
SUPPORT. Reception and transmission of characters (R8 to R16, R29, R33, R45): what one delivered character does in each state of
the engine, the equations of a reply character by its position, frames and their check sequence, and a character sent.
-/

namespace Sys2Proof.Machine

open State

/-! ## A delivered character outside a reply (R16, R45) -/

namespace State

/-- An unsolicited character with the mark set: the count alone (R45). -/
theorem unsolicited_marked (n : LineId) (s : State) (h : (s.line n).unsolMark = true) :
    s.unsolicited n = s.setLine n { s.line n with unsol := satInc (s.line n).unsol } := by
  have hl : ∀ l : Line, l.unsolMark = true → ∀ c, { l with unsol := c, unsolMark := true } = { l with unsol := c } := by
    rintro ⟨⟩ rfl c
    rfl
  simp only [unsolicited, h, if_true, modifyLine, hl _ h]

/-- The first unsolicited character of a cycle posts a notice (R45). -/
theorem unsolicited_unmarked (n : LineId) (s : State) (h : (s.line n).unsolMark = false) :
    s.unsolicited n = (s.setLine n { s.line n with unsol := satInc (s.line n).unsol, unsolMark := true }).offerNotice
      (unsolicitedNotice n (satInc (s.line n).unsol)) := by
  simp [unsolicited, h, modifyLine]

end State

/-- Settles O7: the engine takes the character by its state; the statement's groups are the groups of `engineArrival`. -/
theorem arrivalOutsideAReply : Obligations.ArrivalOutsideAReply := by
  intro n t s
  refine ⟨fun h => by simp [exec, execCharacterArrival, h], fun h => ?_⟩
  have heng : ∀ e, (s.line n).engine = e → ((s.setLine n (delivered (s.line n) t)).line n).engine = e := fun e he => by
    rw [line_setLine, if_pos rfl]
    exact he
  rw [exec_characterArrival n t s h]
  refine ⟨fun he => ?unsolicited, fun he => ?readBack, fun he => ?untouched⟩
  case unsolicited =>
    have harr : (s.setLine n (delivered (s.line n) t)).engineArrival n (CharSamples.decode t)
        = (s.setLine n (delivered (s.line n) t)).unsolicited n := by
      rcases he with he | he | he <;> simp only [engineArrival, heng _ he]
    rw [harr]
    have hmark : ((s.setLine n (delivered (s.line n) t)).line n).unsolMark = (s.line n).unsolMark := by
      rw [line_setLine, if_pos rfl, delivered]
    refine ⟨fun hm => ?_, fun hm => ?_⟩
    · rw [unsolicited_marked n _ (hmark.trans hm)]
      simp [delivered]
    · rw [unsolicited_unmarked n _ (hmark.trans hm)]
      simp [delivered, unsolicitedNotice, Event.blank]
  case readBack =>
    simp only [engineArrival, heng _ he]
    simp only [modifyLine, setLine_setLine, line_setLine, if_true]
  case untouched => rcases he with he | he | he | he <;> simp only [engineArrival, heng _ he]

/-! ## A reply character (R15, R33) -/

theorem replyKind?_isNone_iff : ∀ k : BitVec 3, (replyKind? k).isNone = true ↔ k.toNat < 4 ∨ k.toNat = 7 := by decide

theorem replyKind?_of_code : ∀ (k : BitVec 3) (r : ReplyKind),
    k.toNat = (match r with | .ok => 4 | .busy => 5 | .refused => 6) → replyKind? k = some r := by
  intro k r
  cases r <;> revert k <;> decide

/-- The check that fails first, as Table 2-4 words it. -/
theorem arrivalFailure_of_fails {p : Nat} {c : RxChar} {o : OutcomeCode} (h : arrivalFails p c o) :
    arrivalFailure p c = some o := by
  rcases h with ⟨rfl, h⟩ | ⟨rfl, hf, hp⟩ | ⟨rfl, hf, rfl, hm, hk⟩ | ⟨rfl, hf, rfl, hm, hlen⟩
  · simp [arrivalFailure, h]
  · rcases hp with ⟨rfl, hm⟩ | ⟨hp, hm⟩
    · simp [arrivalFailure, hf, hm]
    · simp [arrivalFailure, hf, hm, hp]
  · simp [arrivalFailure, hf, hm, (replyKind?_isNone_iff _).2 hk]
  · rw [arrivalFailure, if_neg (by simp [hf]), if_neg (by simp [hm]), if_neg (by decide), if_pos rfl, if_pos hlen]

/-- A character past the first two passes with the framing and mark checks alone (R33). -/
theorem arrivalFailure_past (p : Nat) (c : RxChar) (hf : c.framing = false) (hm : c.mark = false) (hp : 2 < p) :
    arrivalFailure p c = none := by
  have h1 : p ≠ 1 := by omega
  have h2 : p ≠ 2 := by omega
  simp [arrivalFailure, hf, hm, h1, h2]

/-- A line n that receives a reply, with the record of its attempt (R33). -/
structure Receives (s : State) (n : LineId) (a : Attempt) : Prop where
  assembling : (s.line n).rx = .assembling
  receiving : (s.line n).engine = .receiving
  record : (s.line n).attempt = some a

namespace Receives

variable {s : State} {n : LineId} {a : Attempt}

/-- A character that fails ends the reception (R33). -/
theorem exec_fails (h : Receives s n a) (t : CharSamples) (o : OutcomeCode)
    (hf : arrivalFailure (a.received + 1) (CharSamples.decode t) = some o) :
    exec (.characterArrival n t) s = .next
      (((s.setLine n (delivered (s.line n) t)).setAttempt n (some { a with received := a.received + 1 })).quietWait n o) := by
  have he : (delivered (s.line n) t).engine = .receiving := h.receiving
  have ha : (delivered (s.line n) t).attempt = some a := h.record
  rw [exec_characterArrival n t s h.assembling]
  simp only [engineArrival, line_setLine, if_true, he, receiveChar, ha, hf]

/-- A character that passes is taken at its position (R33). -/
theorem exec_passes (h : Receives s n a) (t : CharSamples)
    (hf : arrivalFailure (a.received + 1) (CharSamples.decode t) = none) :
    exec (.characterArrival n t) s = .next ((s.setLine n (delivered (s.line n) t)).takeReplyChar n a (CharSamples.decode t).byte) := by
  have he : (delivered (s.line n) t).engine = .receiving := h.receiving
  have ha : (delivered (s.line n) t).attempt = some a := h.record
  rw [exec_characterArrival n t s h.assembling]
  simp only [engineArrival, line_setLine, if_true, he, receiveChar, ha, hf]

end Receives

namespace State

/-- The header or the sequence/length byte changes the record alone (R33). -/
theorem takeReplyChar_head (n : LineId) (a : Attempt) (v : Byte) (s : State) (h : a.received + 1 ≤ 2) :
    s.takeReplyChar n a v = s.setAttempt n (some (a.takeCovered (a.received + 1) v)) := by
  simp [takeReplyChar, h]

/-- Payload byte i is stored, then recorded (R33). -/
theorem takeReplyChar_payload (n : LineId) (a : Attempt) (v : Byte) (s : State) (len : BitVec 6) (i : Nat)
    (hlen : a.replyLen = some len) (hr : a.received = i + 2) (hi : i < len.toNat) :
    s.takeReplyChar n a v = (s.storeReplyByte a i v).setAttempt n
      (some { a with received := i + 3, check := checkByte a.check v }) := by
  have hcovered : a.takeCovered (i + 2 + 1) v = { a with received := i + 3, check := checkByte a.check v } := by
    rw [Attempt.takeCovered, if_neg (by omega), if_neg (by omega)]
  simp only [takeReplyChar, hlen, hr, hcovered, Option.getD]
  rw [if_neg (by omega), if_pos (by omega), show i + 2 + 1 - 3 = i by omega]

/-- The first check byte is held in the record (R33). -/
theorem takeReplyChar_checkHigh (n : LineId) (a : Attempt) (v : Byte) (s : State) (len : BitVec 6)
    (hlen : a.replyLen = some len) (hr : a.received = len.toNat + 2) :
    s.takeReplyChar n a v = s.setAttempt n (some { a with received := len.toNat + 3, checkHigh := v }) := by
  simp only [takeReplyChar, hlen, hr, Option.getD]
  rw [if_neg (by omega), if_neg (by omega), if_pos (by omega)]

/-- The record of a line written after a delivery. -/
theorem setAttempt_delivered (n : LineId) (t : CharSamples) (x : Option Attempt) (s : State) :
    (s.setLine n (delivered (s.line n) t)).setAttempt n x = s.setLine n { delivered (s.line n) t with attempt := x } := by
  simp only [setAttempt, modifyLine, line_setLine, if_true, setLine_setLine]

end State

theorem takeCovered_header (a : Attempt) (v : Byte) (k : ReplyKind) (hk : replyKind? (v.extractLsb' 5 3) = some k) :
    a.takeCovered 1 v = { a with
      received := 1, replyKind := some k, replyAddress := some (v.extractLsb' 0 5), check := checkSequence [v] } := by
  simp [Attempt.takeCovered, hk, checkSequence]

/-! ## Where a payload byte goes (R107, R121) -/

theorem fieldBlock?_of_eq {v : Byte} {b : BlockIx} (h : v.toNat = b.val) : fieldBlock? v = some b := by
  have hlt : v.toNat < 128 := h ▸ b.isLt
  rw [fieldBlock?, dif_pos hlt]
  exact congrArg some (Fin.ext h)

namespace State

/-- A payload byte of a READ or WRITE with a reply block (R121). -/
theorem storeReplyByte_slot (a : Attempt) (i : Nat) (v : Byte) (s : State) (k : SlotIx) (b : BlockIx) (hi : i < 32)
    (ho : a.origin = .acyclic k) (hk : a.replyKind = some .ok) (hb : (s.slot k).replyBlock.toNat = b.val) :
    s.storeReplyByte a i v = s.writeBlockByte b ⟨i, hi⟩ v := by
  simp [storeReplyByte, hi, ho, hk, writeSlotByte, fieldBlock?_of_eq hb]

/-- The record of a station after payload byte i of its POLL's reply (R107). -/
def withFirstByte (u : StationIx) (i : Nat) (s : State) : State :=
  if i = 0 ∧ (s.station u).newer = true then
    s.setStation u { s.station u with newer := false, overwrites := satInc (s.station u).overwrites }
  else s

/-- A payload byte of a POLL of a station with a pair (R107). -/
theorem storeReplyByte_poll (a : Attempt) (i : Nat) (v : Byte) (s : State) (e : EntryIx) (u : StationIx) (x y : BlockIx) (hi : i < 32)
    (ho : a.origin = .cyclic e ∨ a.origin = .probe e) (hu : a.station = some u) (hk : a.replyKind = some .ok)
    (hp : (s.station u).image = some (x, y)) :
    s.storeReplyByte a i v
      = (s.withFirstByte u i).writeBlockByte (if (s.station u).current = .a then y else x) ⟨i, hi⟩ v := by
  have hnext : (s.station u).nextBlock = some (if (s.station u).current = .a then y else x) := by
    cases hc : (s.station u).current <;> simp [Station.nextBlock, hp, hc, Side.flip, pairBlock]
  have hw : s.storeReplyByte a i v = s.writeImageByte u ⟨i, hi⟩ v := by
    rcases ho with ho | ho <;> simp [storeReplyByte, hi, ho, hu, hk]
  have hfirst : (if i = 0 then s.modifyStation u destroyNewer else s) = s.withFirstByte u i := by
    cases hn : (s.station u).newer <;> by_cases h0 : i = 0 <;>
      simp [withFirstByte, modifyStation, destroyNewer, hn, h0, setStation_self]
  rw [hw]
  simp only [writeImageByte, hnext, hfirst]

/-- A payload byte with no place to go is discarded (R33, R107, R121). -/
theorem storeReplyByte_discards (a : Attempt) (i : Nat) (v : Byte) (s : State)
    (h : a.replyKind = some .busy ∨ a.replyKind = some .refused
      ∨ (∃ e u, (a.origin = .cyclic e ∨ a.origin = .probe e) ∧ a.station = some u ∧ (s.station u).image = none)
      ∨ (∃ k, a.origin = .acyclic k ∧ (s.slot k).replyBlock = 255)) : s.storeReplyByte a i v = s := by
  have himage : ∀ (u : StationIx) (j : Fin 32), (s.station u).image = none → s.writeImageByte u j v = s := fun u j hp => by
    simp [writeImageByte, Station.nextBlock, hp]
  have hslot : ∀ (k : SlotIx) (j : Fin 32), (s.slot k).replyBlock = 255 → s.writeSlotByte k j v = s := fun k j hp => by
    simp [writeSlotByte, hp, fieldBlock?]
  unfold storeReplyByte
  split
  · rcases h with hk | hk | ⟨e, u, ho, hu, hp⟩ | ⟨k, ho, hb⟩
    · simp [hk]
    · simp [hk]
    · rcases ho with ho | ho <;> rw [ho, hu] <;> rcases a.replyKind with _ | _ | _ | _ <;> simp [himage u _ hp]
    · rw [ho]; rcases a.replyKind with _ | _ | _ | _ <;> simp [hslot k _ hb]
  · rfl

/-- The record of an attempt does not see the payload memory. -/
theorem setAttempt_writeBlockByte (X : State) (n : LineId) (x : Option Attempt) (b : BlockIx) (i : Fin 32) (v : Byte) :
    (X.writeBlockByte b i v).setAttempt n x = { X.setAttempt n x with payload := (X.writeBlockByte b i v).payload } := by
  cases n <;> rfl

/-- The record of an attempt and the record of a station do not see one another. -/
theorem setAttempt_withFirstByte (X : State) (n : LineId) (x : Option Attempt) (u : StationIx) (i : Nat) :
    (X.withFirstByte u i).setAttempt n x = (X.setAttempt n x).withFirstByte u i := by
  simp only [withFirstByte, setAttempt, modifyLine, setLine_station]
  split <;> cases n <;> rfl

theorem withFirstByte_payload (X : State) (u : StationIx) (i : Nat) : (X.withFirstByte u i).payload = X.payload := by
  unfold withFirstByte
  split <;> rfl

end State

/-- Settles O8: the failing check of Table 2-4, the two head bytes, and a payload byte of a READ or WRITE. -/
theorem replyCharactersAreCheckedAndStored : Obligations.ReplyCharactersAreCheckedAndStored := by
  refine ⟨?fails, ?head, ?payload⟩
  case fails =>
    intro n t s a o hrx he ha ho hf
    rw [Receives.exec_fails ⟨hrx, he, ha⟩ t o (arrivalFailure_of_fails hf), setAttempt_delivered]
    simp [quietWait, modifyLine, Attempt.isTransaction, ho]
  case head =>
    intro n t s a hrx he ha hfr
    refine ⟨fun k hr hm hk => ?_, fun hr hm hlen => ?_⟩
    · have hkind := replyKind?_of_code _ k hk
      have hpass : arrivalFailure (a.received + 1) (CharSamples.decode t) = none := by
        simp [arrivalFailure, hfr, hm, hr, hkind]
      rw [Receives.exec_passes ⟨hrx, he, ha⟩ t hpass, takeReplyChar_head _ _ _ _ (by omega), setAttempt_delivered, hr,
        takeCovered_header a _ k hkind]
    · have hpass : arrivalFailure (a.received + 1) (CharSamples.decode t) = none := by
        rw [hr, arrivalFailure, if_neg (by simp [hfr]), if_neg (by simp [hm]), if_neg (by decide), if_pos rfl, if_neg (Nat.not_lt.2 hlen)]
      rw [Receives.exec_passes ⟨hrx, he, ha⟩ t hpass, takeReplyChar_head _ _ _ _ (by omega), setAttempt_delivered, hr]
      rfl
  case payload =>
    intro n t s a k len i b hrx he ha ho hk hlen hr hi hi32 hfr hm hb hmem
    rw [Receives.exec_passes ⟨hrx, he, ha⟩ t (arrivalFailure_past _ _ hfr hm (by omega)),
      takeReplyChar_payload n a _ _ len i hlen hr hi,
      storeReplyByte_slot a i _ _ k b hi32 ho hk (by simpa using hb)]
    have hmem' : (s.setLine n (delivered (s.line n) t)).MemoryLawful := by simpa [MemoryLawful] using hmem
    refine ⟨_, rfl, ?_, fun x => ?_⟩
    · rw [setAttempt_writeBlockByte, setAttempt_delivered]
    · rw [setAttempt_writeBlockByte]
      exact (read_writeBlockByte b ⟨i, hi32⟩ _ _ x hmem').trans (by rw [setLine_payload])

/-- Settles O9: the equations of `storeReplyByte` under the delivery and the record. -/
theorem replyBytesGoToTheirPlace : Obligations.ReplyBytesGoToTheirPlace := by
  intro n t s a len hrx he ha hlen hfr hm byte taken
  have hpass : 2 ≤ a.received → arrivalFailure (a.received + 1) (CharSamples.decode t) = none := fun hr =>
    arrivalFailure_past _ _ hfr hm (by omega)
  refine ⟨?image, fun i hr hi hnone => ?discarded, fun hr => ?checkHigh⟩
  case image =>
    intro e u x y i hr hi hi32 ho hu hk hp hmem next first
    rw [Receives.exec_passes ⟨hrx, he, ha⟩ t (hpass (by omega)), takeReplyChar_payload n a _ _ len i hlen hr hi,
      storeReplyByte_poll a i _ _ e u x y hi32 ho hu hk (by simpa using hp)]
    have hfirst : (taken i).withFirstByte u i = first := by
      simp only [withFirstByte, first, taken, setLine_station]
    have hstate := setAttempt_writeBlockByte ((s.setLine n (delivered (s.line n) t)).withFirstByte u i) n
      (some { a with received := i + 3, check := checkByte a.check byte })
      next ⟨i, hi32⟩ byte
    rw [setAttempt_withFirstByte, setAttempt_delivered, hfirst] at hstate
    have hmem' : ((s.setLine n (delivered (s.line n) t)).withFirstByte u i).MemoryLawful := by
      rw [MemoryLawful, withFirstByte_payload, setLine_payload]
      exact hmem
    have hread := fun z => read_writeBlockByte next ⟨i, hi32⟩ byte _ z hmem'
    rw [withFirstByte_payload, setLine_payload] at hread
    rw [setLine_station]
    refine ⟨_, rfl, ?_, fun z => ?_⟩
    · exact hstate.trans (by rw [hstate])
    · rw [hstate]
      exact hread z
  case discarded =>
    rw [Receives.exec_passes ⟨hrx, he, ha⟩ t (hpass (by omega)), takeReplyChar_payload n a _ _ len i hlen hr hi,
      storeReplyByte_discards a i _ _ (by simpa using hnone), setAttempt_delivered]
  case checkHigh =>
    rw [Receives.exec_passes ⟨hrx, he, ha⟩ t (hpass (by omega)), takeReplyChar_checkHigh n a _ _ len hlen hr, setAttempt_delivered]

/-! ## Frames (R8 to R14) -/

theorem checkBit_eq (r : Word) (b : Bool) :
    checkBit r b = if r.getLsbD 15 = b then r <<< 1 else (r <<< 1) ^^^ 0x1021 := by
  unfold checkBit
  cases b <;> cases r.getLsbD 15 <;> rfl

theorem checkSequence_concat (l : List Byte) (v : Byte) : checkSequence (l ++ [v]) = checkByte (checkSequence l) v := by
  simp [checkSequence]

theorem frameChars_byte (h : Byte) (rest : List Byte) : (frameChars (h :: rest)).map TxChar.byte
    = h :: rest ++ [(checkSequence (h :: rest)).extractLsb' 8 8, (checkSequence (h :: rest)).extractLsb' 0 8] := by
  simp [frameChars, Function.comp_def]

theorem frameChars_mark (h : Byte) (rest : List Byte) :
    (frameChars (h :: rest)).map TxChar.mark = true :: List.replicate (rest.length + 2) false := by
  simp [frameChars, List.replicate_add, List.map_const', Function.comp_def]

/-- A request frame, its kind, address, sequence and length in the first two bytes (R9, R11, R13). -/
theorem requestFrame_bytes (k : SentKind) (a : BitVec 5) (q : BitVec 2) (p : List Byte) (hp : p.length ≤ 32) :
    ∃ (h l : Byte) (x y : Byte),
      (requestFrame k a q p).map TxChar.byte = h :: l :: (p ++ [x, y])
      ∧ (requestFrame k a q p).map TxChar.mark = true :: List.replicate (p.length + 3) false
      ∧ h.toNat = 32 * k.code.toNat + a.toNat ∧ l.toNat = 64 * q.toNat + p.length
      ∧ x ++ y = checkSequence (h :: l :: p) ∧ checkSequence (h :: l :: (p ++ [x, y])) = 0 := by
  refine ⟨headerByte k a, seqLenByte q (BitVec.ofNat 6 p.length), _, _, frameChars_byte _ _, ?mark, ?header, ?seqLen,
    bytes_append _, ?check⟩
  case mark => rw [requestFrame, frameChars_mark]; rfl
  case header => rw [headerByte, toNat_append_sum]; omega
  case seqLen => rw [seqLenByte, toNat_append_sum, BitVec.toNat_ofNat]; omega
  case check => exact checkSequence_append (headerByte k a :: seqLenByte q (BitVec.ofNat 6 p.length) :: p)

theorem blockBytes_get (m : Memory) (b : BlockIx) (len : Nat) : (Memory.blockBytes m b len).length = len
    ∧ ∀ i, i < len → (Memory.blockBytes m b len)[i]? = some (Memory.read m (32 * b.val + i)) := by
  simp +contextual [Memory.blockBytes]

theorem requestPayload_unbound {s : State} {o : Origin} {e : EntryIx} (len : Nat) (ho : o = .cyclic e ∨ o = .probe e)
    (h : (s.entry e).activeBlock = none) : s.requestPayload o len = [] := by
  rcases ho with rfl | rfl <;> simp only [requestPayload, h]

theorem requestPayload_bound {s : State} {o : Origin} {e : EntryIx} {b : BlockIx} (len : Nat) (ho : o = .cyclic e ∨ o = .probe e)
    (h : (s.entry e).activeBlock = some b) : s.requestPayload o len = Memory.blockBytes s.payload b len := by
  rcases ho with rfl | rfl <;> simp only [requestPayload, h]

/-- Settles O10: the frame's equations, the check register bit by bit, and the payload by the origin of the attempt. -/
theorem framesAndTheirCheckSequence : Obligations.FramesAndTheirCheckSequence := by
  refine ⟨⟨requestFrame_bytes, fun c => ⟨_, _, rfl, bytes_append _⟩⟩, ⟨checkBit_eq, fun _ _ => rfl, rfl, checkSequence_concat⟩,
    fun s len => ⟨fun e o ho => ⟨fun hb => ?unbound, fun x y hb => ?bound⟩, fun k b hb => ?slot, rfl⟩⟩
  case unbound => exact requestPayload_unbound len ho (by simp [Entry.activeBlock, hb])
  case bound =>
    have hactive : (s.entry e).activeBlock = some (if (s.entry e).active = .a then x else y) := by
      cases hc : (s.entry e).active <;> simp [Entry.activeBlock, hb, hc, pairBlock]
    rw [requestPayload_bound len ho hactive]
    exact blockBytes_get _ _ _
  case slot =>
    simp only [requestPayload, fieldBlock?_of_eq hb]
    exact blockBytes_get _ _ _

/-! ## A character sent (R16, R29) -/

theorem readBackAgrees_iff (s : State) (n : LineId) (c : TxChar) :
    readBackAgrees c (s.line n).readBack = true ↔ agrees s n c := by
  unfold readBackAgrees agrees
  cases (s.line n).readBack with
  | none => simp
  | some r => simp [and_assoc]

/-- The transmitter released after the last character of a frame. -/
theorem Line.release_of_sent (l : Line) (h : l.frameRest = []) : l.release = { l with drive := .released, readBack := none } := by
  rw [Line.release, ← h]

/-- The end of a character sent goes by the read-back (R16). -/
theorem exec_characterSent (n : LineId) (s : State) (a : Attempt) (c : TxChar) (h : sends s n a c) :
    exec (.characterSent n) s = .next (s.charSent n a c) := by
  obtain ⟨he, ha, hd⟩ := h
  simp only [exec, execCharacterSent, he, ha, hd]

/-- Settles O11: `charSent` with the read-back agreed, by what is left of the frame. -/
theorem characterSentAndReadBack : Obligations.CharacterSentAndReadBack := by
  intro n s a c hs hag
  rw [exec_characterSent n s a c hs]
  have hag : readBackAgrees c (s.line n).readBack = true := (readBackAgrees_iff s n c).2 hag
  refine ⟨fun d rest hr => ?next, fun hr ho => ?request, fun hr ho hm => ?sync⟩
  case next => simp [charSent, hag, hr, setAttempt, modifyLine]
  case request =>
    simp only [charSent, hag, hr, if_true, frameSent, Attempt.isTransaction, bne_iff_ne, ne_eq, ho, not_false_eq_true,
      setEngine, setAttempt, modifyLine, setLine_setLine, line_setLine, Line.release_of_sent]
  case sync =>
    have hrest : restState s.mode = .turnaround := by rw [hm]; rfl
    have hrun : s.mode ≠ .quiescing := by rw [hm]; decide
    simp only [charSent, hag, hr, if_true, frameSent, Attempt.isTransaction, ho, bne_self_eq_false, Bool.false_eq_true, if_false,
      setEngine, setAttempt, modifyLine, setLine_setLine, line_setLine, setLine_mode, hrest, Line.release_of_sent]
    rw [settle_run _ _ _ (by rwa [setLine_mode]), flush_nil]
    simp only [line_setLine, if_true, setLine_setLine]

end Sys2Proof.Machine
end

section
/-!
SUPPORT. The end of an attempt (R33 to R41): the retry it owes, and the end of a cyclic transaction or a probe, from the event to
the posts of its step.
-/

namespace Sys2Proof.Machine

open State

/-! ## What the event that ends an attempt leaves -/

/-- Two states that differ in the event queue and the stored flags alone. -/
structure SameButPosts (s b : State) : Prop where
  mode : b.mode = s.mode
  line : ∀ m, b.line m = s.line m
  station : ∀ u, b.station u = s.station u
  entry : ∀ j, b.entry j = s.entry j
  slot : ∀ k, b.slot k = s.slot k
  command : b.cmdState = s.cmdState ∧ b.cmd = s.cmd ∧ b.args = s.args
  submitted : b.submitted = s.submitted
  payload : b.payload = s.payload

theorem attemptEnds_sameButPosts {n : LineId} {s : State} {c : Instr} {o : OutcomeCode} {l : Line} {a : Attempt} {b : State}
    (h : attemptEnds s n c o l a b) : SameButPosts s b := by
  obtain ⟨_, ev, lost, ed, rfl⟩ := attemptEnds_frame n s c o l a b h
  exact ⟨rfl, fun m => by cases m <;> rfl, fun _ => rfl, fun _ => rfl, fun _ => rfl, ⟨rfl, rfl, rfl⟩, rfl, rfl⟩

theorem restState_ne_faulted (m : Mode) : restState m ≠ .faulted := by cases m <;> decide

theorem restState_of_run {m : Mode} (h : m = .run) : restState m = .turnaround := by rw [h]; rfl

/-- In RUN the engine goes to TURNAROUND (R32, R34, R35). -/
theorem goesTo_run {s : State} (n : LineId) (h : s.mode = .run) : goesTo s n .turnaround := .inl ⟨h, rfl⟩

/-- Settles O13: the gap limit ends a reception, and a cyclic attempt within RETRIES stays in flight. -/
theorem failedAttemptsWaitOrRetry : Obligations.FailedAttemptsWaitOrRetry := by
  refine ⟨?gap, ?retry⟩
  case gap =>
    intro n s a he hrx ha hr ho
    have hgap : (s.line n).gapOpen = true := by simp [Line.gapOpen, hrx, ha, hr]
    simp [exec, execGapLimitExceeded, he, hgap, quietWait, modifyLine, ha, Attempt.isTransaction, ho]
  case retry =>
    intro n s c o l a e u m b h hm ho hu hatt hretry hstop hmiss
    have hb := attemptEnds_sameButPosts h
    rw [exec_attemptEnds n s c o l a b h, restState_of_run hm,
      endAttempt_retry n _ a e u m o (by simp) ho hu hatt (by simpa [hb.entry] using hretry) hstop (by simp) hmiss,
      settle_run n _ [] (by simp [hb.mode, hm]), flush_nil, breakBegun_held _ (by simp)]
    simp [hb.station, setLine_setStation]

/-! ## The end of a POLL (R41, R60) -/

/-- A POLL that is final: no retry is due, or a STOP reason forbids it (R38, R40). -/
def pollIsFinal (s : State) (a : Attempt) (j : EntryIx) (o : OutcomeCode) : Prop :=
  a.origin = .probe j ∨ ∃ m, a.origin = .cyclic j ∧ a.attempt = some m
    ∧ ((s.entry j).retries.toNat < m ∨ a.stop ≠ noStop ∨ o = .ok ∨ o = .busy ∨ o = .refused)

theorem retryDue_probe (s : State) (a : Attempt) (j : EntryIx) (o : OutcomeCode) (h : a.origin = .probe j) :
    s.retryDue a o = false := by
  simp [retryDue, retryBudget, h]

/-- A contact owes no retry (R38). -/
theorem retryDue_contact (s : State) (a : Attempt) (o : OutcomeCode) (h : o = .ok ∨ o = .busy ∨ o = .refused) :
    s.retryDue a o = false := by
  rcases h with rfl | rfl | rfl <;> rfl

theorem retryDue_spent (s : State) (a : Attempt) (j : EntryIx) (m : Nat) (o : OutcomeCode) (ho : a.origin = .cyclic j)
    (hm : a.attempt = some m) (h : (s.entry j).retries.toNat < m) : s.retryDue a o = false := by
  simp [retryDue, retryBudget, ho, hm, h]

theorem pollIsFinal_noRetry {s b : State} {a : Attempt} {j : EntryIx} {o : OutcomeCode} (h : pollIsFinal s a j o)
    (hb : b.entry j = s.entry j) : b.retryDue a o = false ∨ a.stop ≠ noStop := by
  rcases h with h | ⟨m, ho, hm, h | h | h⟩
  · exact .inl (retryDue_probe _ _ _ _ h)
  · exact .inl (retryDue_spent _ _ _ _ _ ho hm (by rwa [hb]))
  · exact .inr h
  · exact .inl (retryDue_contact _ _ _ h)

/-- The state a POLL's end starts from: the engine in the state the mode calls for, the record gone, the attempt counted (R37). -/
def pollEnded (n : LineId) (l : Line) (o : OutcomeCode) (u : StationIx) (s b : State) : State :=
  (b.setLine n { l with engine := restState s.mode, attempt := none }).setStation u (attemptCounted o (s.station u))

/-- The attempt record with which `pollEnd` is called. -/
def endedRecord (a : Attempt) (o : OutcomeCode) : Attempt :=
  { a with outcome := some o, retryOwed := false, fixedOutcome := none }

/-- The last attempt of a cyclic transaction or a probe hands its outcome to `pollEnd` (R38, R41). -/
theorem exec_pollEnds {n : LineId} {s : State} {c : Instr} {o : OutcomeCode} {l : Line} {a : Attempt} {b : State} {u : StationIx}
    (j : EntryIx) (p : Bool) (h : attemptEnds s n c o l a b) (hu : a.station = some u)
    (ho : a.origin = if p then .probe j else .cyclic j) (hr : s.retryDue a o = false ∨ a.stop ≠ noStop) :
    exec c s = .next (settle n ((pollEnded n l o u s b).pollEnd j u p (endedRecord a o) o)) := by
  have hb := attemptEnds_sameButPosts h
  have hretry : ∀ x, (b.setLine n x).retryDue a o = s.retryDue a o := by
    intro x
    cases p <;> simp [retryDue, retryBudget, ho, hb.entry]
  rw [exec_attemptEnds n s c o l a b h, endAttempt_end n _ a u o (by simp) hu (by
    rw [hretry]
    exact hr.imp id .inl)]
  have hrec : ∀ X : State, X.recordAttempt a o = X := fun X => by cases p <;> simp [recordAttempt, ho]
  rw [hrec, setLine_station, hb.station]
  cases p <;> simp [endTransaction, ho, setAttempt_ended, pollEnded, endedRecord]

/-- What the end of a POLL leaves of its station, the image pair and a PARK that waited (R41, R87, R108). -/
def pollLeft (s : State) (u : StationIx) (o : OutcomeCode) (len : BitVec 6) (st : Station) (X : State) : State :=
  parkFinished s u (if o = .ok then imageAccepted u len (stationLeft u st X) else stationLeft u st X)

theorem imageAccepted_line (u : StationIx) (len : BitVec 6) (X : State) (m : LineId) : (imageAccepted u len X).line m = X.line m := by
  obtain ⟨sts, ow, h⟩ := imageAccepted_frame u len X
  rw [h]
  cases m <;> rfl

theorem imageAccepted_mode (u : StationIx) (len : BitVec 6) (X : State) : (imageAccepted u len X).mode = X.mode := by
  obtain ⟨sts, ow, h⟩ := imageAccepted_frame u len X
  rw [h]

@[simp] theorem pollLeft_line (s : State) (u : StationIx) (o : OutcomeCode) (len : BitVec 6) (st : Station) (X : State) (m : LineId) :
    (pollLeft s u o len st X).line m = X.line m := by
  unfold pollLeft
  split <;> simp [imageAccepted_line]

@[simp] theorem pollLeft_mode (s : State) (u : StationIx) (o : OutcomeCode) (len : BitVec 6) (st : Station) (X : State) :
    (pollLeft s u o len st X).mode = X.mode := by
  unfold pollLeft
  split <;> simp [imageAccepted_mode]

theorem setLine_pollLeft (n : LineId) (l : Line) (s : State) (u : StationIx) (o : OutcomeCode) (len : BitVec 6) (st : Station)
    (X : State) : (pollLeft s u o len st X).setLine n l = pollLeft s u o len st (X.setLine n l) := by
  unfold pollLeft
  rw [setLine_parkFinished]
  split <;> simp only [setLine_imageAccepted, setLine_stationLeft]

/-- A record of the station that keeps HEALTH is overwritten by the one the outcome leaves. -/
theorem pollLeft_setStation (s : State) (u : StationIx) (o : OutcomeCode) (len : BitVec 6) (st x : Station) (X : State)
    (h : x.health = (X.station u).health) : pollLeft s u o len st (X.setStation u x) = pollLeft s u o len st X := by
  simp only [pollLeft, stationLeft_setStation u st x X h]

/-- The end of a POLL whose outcome the station takes, from the event to the posts (R41, R48, R60, R87, R137). -/
theorem pollEnds_answer {n : LineId} {s : State} {c : Instr} {o : OutcomeCode} {l : Line} {a : Attempt} {b : State} {u : StationIx}
    {len : BitVec 6} {e : EngineState} {st : Station} {notices : List Event} (j : EntryIx) (p : Bool)
    (h : attemptEnds s n c o l a b) (hu : a.station = some u) (ho : a.origin = if p then .probe j else .cyclic j)
    (hr : s.retryDue a o = false ∨ a.stop ≠ noStop) (hlen : o = .ok → a.replyLen = some len) (hg : goesTo s n e)
    (hpk : parkClear s u st)
    (ht : stationTakes s u o true st notices ∧ (p = false ∨ (s.station u).health ≠ .offline ∨ o = .collision)
      ∨ (p = true ∧ probeTakes s u o st notices)) :
    answersInSomeOrder (exec c s) (pollLeft s u o len st
        ((b.setLine n (breakBegun { l with engine := e, attempt := none })).setEntry j { s.entry j with last := o }))
      (notices ++ parkRecords s u st.health) (imageRecords s u o len) := by
  have hb := attemptEnds_sameButPosts h
  obtain ⟨⟨hbreak, -, henable, hfaulted⟩, -⟩ := attemptEnds_frame n s c o l a b h
  have hend := pollEnd_eq (pollEnded n l o u s b) s j u p (endedRecord a o) o st notices len (by simp [pollEnded]) ht hlen
    (by simpa [pollEnded] using hb.command)
    (fun hp => (pendingOf_congr _ s u (by simp [pollEnded, hb.submitted]) fun k => by simp [pollEnded, hb.slot]).trans hp) hpk
  have hleft : ∀ x, pollLeft s u o len st (((b.setLine n x).setStation u (attemptCounted o (s.station u))).setEntry j
      { s.entry j with last := o }) = pollLeft s u o len st ((b.setLine n x).setEntry j { s.entry j with last := o }) := by
    intro x
    rw [setEntry_setStation]
    exact pollLeft_setStation s u o len st _ _ (by simp [attemptCounted, hb.station])
  rw [exec_pollEnds j p h hu ho hr, hend]
  change answersInSomeOrder (.next (settle n (pollLeft s u o len st _, _))) _ _ _
  have hentry : (pollEnded n l o u s b).entry j = s.entry j := by simp [pollEnded, hb.entry]
  rw [hentry]
  rw [pollEnded, goesTo_rest n s e hg, hleft, settle_goesTo n s e hg _ _ l (by simp [hb.mode])
    (fun m hm => by simp [hb.line, Ne.symm hm]) (by simp) ⟨hbreak, henable, hfaulted⟩, setLine_pollLeft, setLine_setEntry, setLine_setLine]
  exact flush_two _ _ _ _ (filter_pollGroups _ _)

/-- Settles O18: a cyclic transaction and a probe, each with what its station takes. -/
theorem pollsAndProbesEnd : Obligations.PollsAndProbesEnd := by
  intro n s c o l a j u len e st notices b h hu hlen hg hpk hkind ended
  rcases hkind with ⟨m, ho, hm, ht, hfinal⟩ | ⟨ho, ht⟩
  · exact pollEnds_answer j false h hu ho (pollIsFinal_noRetry (.inr ⟨m, ho, hm, hfinal⟩) rfl) hlen hg hpk (.inl ⟨ht, .inl rfl⟩)
  · refine pollEnds_answer j true h hu ho (.inl (retryDue_probe s a j o ho)) hlen hg hpk ?_
    rcases ht with ⟨hh, ht⟩ | ht
    · exact .inl ⟨ht, .inr (.inl hh)⟩
    · exact .inr ⟨rfl, ht⟩

/-! ## The end of a POLL with no PARK that waits -/

theorem parkFinished_none {s : State} {u : StationIx} (X : State) (h : ¬ parkWaits s u) : parkFinished s u X = X := if_neg h

theorem parkRecords_none {s : State} {u : StationIx} (h : ¬ parkWaits s u) (x : Health) : parkRecords s u x = [] := if_neg h

theorem parkClear_none {s : State} {u : StationIx} (h : ¬ parkWaits s u) (st : Station) : parkClear s u st := fun hp => absurd hp h

theorem imageRecords_notOk (s : State) (u : StationIx) (o : OutcomeCode) (len : BitVec 6) (h : o ≠ .ok) : imageRecords s u o len = [] := by
  simp [imageRecords, h]

/-- A POLL that ends without OK in RUN: the station's notices alone (R41, R60). -/
theorem pollEnds_notOk {n : LineId} {s : State} {c : Instr} {o : OutcomeCode} {l : Line} {a : Attempt} {b : State} {u : StationIx}
    {st : Station} {notices : List Event} (j : EntryIx)
    (h : attemptEnds s n c o l a b) (hu : a.station = some u) (ho : a.origin = .cyclic j) (hok : o ≠ .ok)
    (hr : s.retryDue a o = false ∨ a.stop ≠ noStop) (hm : s.mode = .run) (hpk : ¬ parkWaits s u)
    (ht : stationTakes s u o true st notices) :
    exec c s = .next (offered notices (stationLeft u st
      ((b.setLine n (breakBegun { l with engine := .turnaround, attempt := none })).setEntry j { s.entry j with last := o }))) := by
  have hans := pollEnds_answer (len := 0) j false h hu ho hr (fun h => absurd h hok) (goesTo_run n hm) (parkClear_none hpk st)
    (.inl ⟨ht, .inl rfl⟩)
  rw [imageRecords_notOk s u o 0 hok, parkRecords_none hpk, List.append_nil] at hans
  rw [answers_one hans, pollLeft, parkFinished_none _ hpk, if_neg hok]

/-- Settles O14: the miss or COLLISION as the station takes it, and the notice of a station that was ONLINE. -/
theorem finalMissOfACyclicTransaction : Obligations.FinalMissOfACyclicTransaction := by
  intro n s a e u m o hm ha ho hu hatt hfinal hpk hevent c st line
  have hends : attemptEnds s n c o (s.line n) a s := by
    rcases hevent with ⟨he, rfl⟩ | ⟨he, hq, hfix, hmiss⟩
    · exact .inl ⟨if_pos he, rfl, he, ha, rfl, rfl⟩
    · exact .inr (.inl ⟨if_neg (by simp [he]), hmiss, he, hq, ha, hfix, rfl, rfl⟩)
  have hmiss : o.isMiss = true ∨ o = .collision := by
    rcases hevent with ⟨-, rfl⟩ | ⟨-, -, -, hmiss⟩
    · exact .inl rfl
    · exact hmiss
  have hok : o ≠ .ok := by
    rintro rfl
    rcases hmiss with h | h <;> cases h
  have hr : s.retryDue a o = false ∨ a.stop ≠ noStop := hfinal.imp (retryDue_spent s a e m o ho hatt) id
  refine ⟨fun hcol => ?collision, fun hcol hh hlimit => ?miss⟩
  case collision =>
    have ht : stationTakes s u o true { st with last := .collision } [] := .inr (.inr (.inr ⟨hcol, by rw [hcol], rfl⟩))
    rw [pollEnds_notOk e hends hu ho hok hr hm hpk ht, stationLeft_stays u _ _ (by
      rw [setEntry_station, setLine_station]
      exact (em _).symm), hcol]
    rfl
  case miss =>
    intro missed
    have ht : stationTakes s u o true { st with
        last := o, failedAttempts := satInc st.failedAttempts, missed := satInc st.missed
        health := .degraded, missCount := st.missCount + 1 }
        (if st.health = .online then [stateRecord s u .online .degraded (st.missCount + 1)] else []) :=
      .inr (.inl ⟨hmiss.resolve_right hcol, hh, hlimit, rfl, rfl⟩)
    rw [pollEnds_notOk e hends hu ho hok hr hm hpk ht, stationLeft_stays u _ _ (.inl (by simp))]
    rcases hh with hh | hh <;> simp only [hh, if_true, reduceCtorEq, if_false] <;> rfl

/-! ## Contacts (R34, R78, R108) -/

/-- An OK POLL of an ONLINE station in RUN, whatever its attempt's number: the image pair alone posts (R41, R108). -/
theorem okPoll_ends {n : LineId} {t : CharSamples} {s : State} {a : Attempt} {len : BitVec 6} {u : StationIx} (e : EntryIx)
    (h : replyEnds s n t a len) (ho : a.origin = .cyclic e) (hu : a.station = some u)
    (hg : replyGives a (a.checkHigh ++ (CharSamples.decode t).byte) (s.station u).address .ok)
    (hm : s.mode = .run) (hpk : ¬ parkWaits s u) (hh : (s.station u).health = .online) :
    exec (.characterArrival n t) s = .next (offered (imageRecords s u .ok len) (imageAccepted u len
      (((s.setLine n (breakBegun { delivered (s.line n) t with engine := .turnaround, attempt := none })).setEntry e
        { s.entry e with last := .ok }).setStation u
          { s.station u with missCount := 0, last := .ok, good := satInc (s.station u).good, age := 0 }))) := by
  have hends : attemptEnds s n (.characterArrival n t) .ok (delivered (s.line n) t) { a with received := a.received + 1 } s :=
    .inr (.inr (.inr ⟨t, a, len, u, rfl, h, hu, hg, rfl, rfl, rfl⟩))
  have ht : stationTakes s u .ok true { s.station u with
      missCount := 0, last := .ok, good := satInc (s.station u).good, age := 0 } [] :=
    .inl ⟨.inl rfl, .inl hh, by simp [hh], by simp [hh]⟩
  have hans := pollEnds_answer (len := len) e false hends hu ho (.inl (retryDue_contact _ _ _ (.inl rfl))) (fun _ => h.2.2.2.1)
    (goesTo_run n hm) (parkClear_none hpk _) (.inl ⟨ht, .inl rfl⟩)
  rw [parkRecords_none hpk, List.append_nil, pollLeft, parkFinished_none _ hpk, if_pos rfl,
    stationLeft_stays u _ _ (.inl (by simp [hh]))] at hans
  obtain ⟨order, hperm, -, hsub, hnext⟩ := hans
  have horder : imageRecords s u .ok len = order := hsub.eq_of_length (by simpa using hperm.length_eq.symm)
  rw [hnext, if_pos (Or.inl rfl), horder]

theorem imageAccepted_unbound {X : State} {u : StationIx} (len : BitVec 6) (h : (X.station u).image = none) :
    imageAccepted u len X = X := by
  simp only [imageAccepted, h]

theorem imageAccepted_held {X : State} {u : StationIx} {x y : BlockIx} (len : BitVec 6) (h : (X.station u).image = some (x, y))
    (hhold : (X.station u).hold = true) : imageAccepted u len X = X.setStation u { X.station u with
      newer := true, nextLen := len
      overwrites := if len = 0 ∧ (X.station u).newer = true then satInc (X.station u).overwrites else (X.station u).overwrites } := by
  unfold imageAccepted
  simp only []
  split
  · rename_i h'; rw [h] at h'; cases h'
  · rw [if_pos hhold]

theorem imageAccepted_flips {X : State} {u : StationIx} {x y : BlockIx} (len : BitVec 6) (h : (X.station u).image = some (x, y))
    (hhold : (X.station u).hold = false) : imageAccepted u len X = ((X.setStation u { X.station u with
      current := if (X.station u).current == .a then .b else .a, imageLen := len
      imageSeq := (X.station u).imageSeq + 1, newer := false }).setOwner
        (if (X.station u).current == .a then y else x) (.imageCurrent u)).setOwner
        (if (X.station u).current == .a then x else y) (.imageNext u) := by
  unfold imageAccepted
  simp only []
  split
  · rename_i h'; rw [h] at h'; cases h'
  · rename_i x' y' h'
    rw [h] at h'
    cases h'
    rw [if_neg (by simp [hhold])]

theorem imageRecords_unbound {s : State} {u : StationIx} (o : OutcomeCode) (len : BitVec 6) (h : (s.station u).image = none) :
    imageRecords s u o len = [] := by
  simp [imageRecords, h]

theorem imageRecords_held {s : State} {u : StationIx} (o : OutcomeCode) (len : BitVec 6) (h : (s.station u).hold = true) :
    imageRecords s u o len = [] := by
  simp [imageRecords, h]

theorem imageRecords_flips {s : State} {u : StationIx} (len : BitVec 6) (h : (s.station u).image ≠ none)
    (hhold : (s.station u).hold = false) : imageRecords s u .ok len = if (s.station u).notify then [{
      kind := .imageUpdate, line := (s.station u).line, station := u, detailA := len
      detailB := (s.station u).imageSeq + 1, cycle := 0, extra := 0 }] else [] := by
  simp [imageRecords, h, hhold]

/-- Settles O17: what `imageAccepted` and its notice are without a pair, under HOLD, and at a flip. -/
theorem okPollIsAccepted : Obligations.OkPollIsAccepted := by
  intro n t s a len e u h ho hu hg hm hpk hh st ended
  have hst : (ended.setStation u st).station u = st := by simp
  have hexec : exec (.characterArrival n t) s
      = .next (offered (imageRecords s u .ok len) (imageAccepted u len (ended.setStation u st))) := okPoll_ends e h ho hu hg hm hpk hh
  rw [hexec]
  refine ⟨fun himage => ?unbound, fun x y himage => ⟨fun hhold => ?held, fun hhold => ?flips⟩⟩
  case unbound => rw [imageAccepted_unbound len (by rwa [hst]), imageRecords_unbound .ok len himage]; rfl
  case held =>
    rw [imageAccepted_held len (by rwa [hst]) (by rwa [hst]), imageRecords_held .ok len hhold, hst, setStation_setStation]; rfl
  case flips =>
    intro onA flipped
    have hbound : (s.station u).image ≠ none := fun h => by cases (h.symm.trans himage)
    rw [imageAccepted_flips len (by rwa [hst]) (by rwa [hst]), imageRecords_flips len hbound hhold, hst, setStation_setStation]
    change Host.Outcome.next (offered (if st.notify then _ else _) flipped) = _
    cases st.notify <;> rfl

/-- What every end of a POLL leaves: LAST of the entry and of the station, and everything but that station's own state (R41, R60). -/
structure EndsPoll (X Y : State) (e : EntryIx) (u : StationIx) (o : OutcomeCode) : Prop where
  mode : Y.mode = X.mode
  line : ∀ m, Y.line m = X.line m
  entry : ∀ j, Y.entry j = if e = j then { X.entry e with last := o } else X.entry j
  last : (Y.station u).last = o
  station : ∀ v, v ≠ u → Y.station v = X.station v
  payload : Y.payload = X.payload

theorem endsPoll_of_frame {X : State} {e : EntryIx} {u : StationIx} {o : OutcomeCode} {st : Station} (hlast : st.last = o)
    (sl : Vector Slot 16) (sub : List SlotIx) (ed : Word) (ow : Vector Owner 128) :
    EndsPoll X { (X.setEntry e { X.entry e with last := o }).setStation u st with
      slots := sl, submitted := sub, edges := ed, owners := ow } e u o := by
  have hst : ∀ v, ({ (X.setEntry e { X.entry e with last := o }).setStation u st with
      slots := sl, submitted := sub, edges := ed, owners := ow } : State).station v = if u = v then st else X.station v :=
    fun v => station_setStation u st _ v
  exact ⟨rfl, fun m => by cases m <;> rfl, fun j => entry_setEntry e _ X j, by rw [hst, if_pos rfl, hlast],
    fun v hv => by rw [hst, if_neg (Ne.symm hv)], rfl⟩

/-- The end of a POLL with no PARK that waits. -/
theorem pollEnd_endsPoll {X : State} {u : StationIx} (e : EntryIx) (p : Bool) (a : Attempt) (o : OutcomeCode) (h : ¬ parkWaits X u) :
    EndsPoll X (X.pollEnd e u p a o).1 e u o := by
  obtain ⟨st, sl, sub, ed, hout, hlast⟩ := stationOutcome_frame u o p true (X.setEntry e { X.entry e with last := o })
  obtain ⟨st', ow, himg, hlast'⟩ := acceptImage_frame u ((a.replyLen).getD 0)
    ((X.setEntry e { X.entry e with last := o }).stationOutcome u o p true).1
  have hst : ({ (X.setEntry e { X.entry e with last := o }).setStation u st with slots := sl, submitted := sub, edges := ed }
      : State).station u = st := (station_setStation u st _ u).trans (if_pos rfl)
  have hset : ({ (X.setEntry e { X.entry e with last := o }).setStation u st with slots := sl, submitted := sub, edges := ed }
      : State).setStation u st' = { (X.setEntry e { X.entry e with last := o }).setStation u st' with
        slots := sl, submitted := sub, edges := ed } := by simp [setStation]
  rw [hout] at himg hlast'
  rw [hst, hlast] at hlast'
  rw [hset] at himg
  unfold pollEnd
  simp only [modifyEntry]
  by_cases ho : o = .ok
  · rw [if_pos ho, parkIfWaiting_none _ u (by rw [hout, himg]; exact h)]
    simp only [hout, himg]
    exact endsPoll_of_frame hlast' sl sub ed ow
  · rw [if_neg ho, parkIfWaiting_none _ u (by rw [hout]; exact h)]
    simp only [hout]
    exact endsPoll_of_frame hlast sl sub ed X.owners

/-- Settles O16: the outcome of R34 reaches `pollEnd`, whose parts change their own state alone. -/
theorem completeReplyGivesItsOutcome : Obligations.CompleteReplyGivesItsOutcome := by
  intro n t s a len e u m o h ho hu hatt hg hfinal hm hpk
  have hends : attemptEnds s n (.characterArrival n t) o (delivered (s.line n) t) { a with received := a.received + 1 } s :=
    .inr (.inr (.inr ⟨t, a, len, u, rfl, h, hu, hg, rfl, rfl, rfl⟩))
  have hr : s.retryDue { a with received := a.received + 1 } o = false :=
    hfinal.elim (retryDue_spent s _ e m o ho hatt) (retryDue_contact s _ o)
  rw [exec_pollEnds e false hends hu ho (.inl hr)]
  have hend := pollEnd_endsPoll (X := pollEnded n (delivered (s.line n) t) o u s s) e false
    (endedRecord { a with received := a.received + 1 } o) o (by simpa [pollEnded] using hpk)
  generalize (pollEnded n (delivered (s.line n) t) o u s s).pollEnd e u false
    (endedRecord { a with received := a.received + 1 } o) o = r at hend
  obtain ⟨Y, gs⟩ := r
  obtain ⟨hmode, hline, hentry, hlast, hstation, hpayload⟩ := hend
  have hline' : Y.line n = { delivered (s.line n) t with engine := .turnaround, attempt := none } := by
    rw [hline, pollEnded, setStation_line, line_setLine, if_pos rfl, restState_of_run hm]
  refine ⟨_, rfl, ?_⟩
  rw [settle_run n Y gs (by rw [hmode]; simp [pollEnded, hm]), hline']
  obtain ⟨ev, lost, ed, sl, ow, dn, i, hf⟩ := flush_frame gs
    (Y.setLine n (breakBegun { delivered (s.line n) t with engine := .turnaround, attempt := none }))
  rw [hf]
  refine ⟨?line, ?entry, ?others, ?last, ?stations, ?payload⟩
  case line => cases n <;> rfl
  case entry => exact (setLine_entry n _ Y e).trans ((hentry e).trans (by simp [pollEnded]))
  case others => exact fun j hj => (setLine_entry n _ Y j).trans ((hentry j).trans (by simp [pollEnded, Ne.symm hj]))
  case last => exact (congrArg Station.last (setLine_station n _ Y u)).trans hlast
  case stations => exact fun v hv => (setLine_station n _ Y v).trans ((hstation v hv).trans (by simp [pollEnded, Ne.symm hv]))
  case payload => exact (setLine_payload n _ Y).trans (hpayload.trans (by simp [pollEnded]))

end Sys2Proof.Machine
end

section
/-!
SUPPORT. The end of an attempt of a slot (R37 to R42, R120 to R132): the retry, the return to PENDING, the deferral, the completion, and
a PARK that waited for it.
-/

namespace Sys2Proof.Machine

open State

/-! ## A park with PENDING slots (R86, R132) -/

/-- What a park leaves, the station's PENDING slots completed with STATION_PARKED and their posts still to be offered. -/
structure Parks (X : State) (u : StationIx) (Y : State) (posts : List Post) : Prop where
  frame : ∃ sl sub, Y = ({ X.setStation u (parked (X.station u)) with slots := sl, submitted := sub } : State).complete .ok
    ((X.station u).health.code.setWidth 16)
  submitted : Y.submitted = X.submitted.filter fun k => k ∉ X.pendingOf u
  slot : ∀ k, Y.slot k = if k ∈ X.pendingOf u then { X.slot k with outcome := .stationParked, replyLen := 0, deferred := false }
    else X.slot k
  posted : ∀ k, k ∈ X.pendingOf u → completes posts k

theorem parkNow_parks (X : State) (u : StationIx) : Parks X u (X.parkNow u).1 (X.parkNow u).2.2 := by
  have hp : (X.setStation u (X.station u).toParked).pendingOf u = X.pendingOf u := rfl
  have hF : (X.setStation u (X.station u).toParked).finishPendingOf u .stationParked
      = (X.setStation u (X.station u).toParked).finishSlots .stationParked (X.pendingOf u) := by rw [finishPendingOf, hp]
  obtain ⟨sl, sub, hframe⟩ := finishSlots_frame .stationParked (X.pendingOf u) (X.setStation u (X.station u).toParked)
  obtain ⟨hslot, hsub, hposts⟩ := finishSlots_spec .stationParked (X.pendingOf u) (X.setStation u (X.station u).toParked)
  have hnow : X.parkNow u = (State.complete .ok ((X.station u).health.code.setWidth 16)
        ((X.setStation u (X.station u).toParked).finishSlots .stationParked (X.pendingOf u)).1,
      healthNotice u (X.station u) (X.station u).toParked,
      ((X.setStation u (X.station u).toParked).finishSlots .stationParked (X.pendingOf u)).2) := by
    unfold parkNow
    simp only [hF]
  rw [hnow]
  refine ⟨⟨sl, sub, ?_⟩, hsub, hslot, fun k hk => ?_⟩
  · rw [hframe]; rfl
  · rw [completes, hposts]
    exact ⟨_, List.mem_map.2 ⟨k, hk, rfl⟩⟩

/-- The PENDING slots of a station after its park, once the posts of the step have been offered (R132). -/
theorem Parks.completed {X Y : State} {u : StationIx} {posts : List Post} (h : Parks X u Y posts) {Z : State} (hs : Z.submitted = Y.submitted)
    (hsl : ∀ k, Z.slot k = Y.slot k) {gs : Groups} (hg : ∀ k, completes posts k → completes gs.flatten k) {k : SlotIx}
    (hk : k ∈ X.pendingOf u) : completedWith (Z.flush gs) k .stationParked := by
  refine flush_completedWith gs Z k _ (hg k (h.posted k hk)) ?_ ?_ ?_
  · rw [hs, h.submitted]
    simp [hk]
  · rw [hsl, h.slot, if_pos hk]
  · rw [hsl, h.slot, if_pos hk]

/-! ## The end of a slot's transaction (R40, R41) -/

/-- The slot when its attempt has ended (R37, R120). -/
def slotCounted (s : State) (k : SlotIx) (m : Nat) (o : OutcomeCode) : Slot :=
  { s.slot k with outcome := o, attempts := if o = .busy then (s.slot k).attempts else BitVec.ofNat 4 m }

/-- The state the end of a slot's transaction starts from: the engine in the state the mode calls for, the record gone, the attempt
counted at the slot and at the station. -/
def slotEnded (n : LineId) (l : Line) (k : SlotIx) (m : Nat) (o : OutcomeCode) (u : StationIx) (s b : State) : State :=
  ((b.setLine n { l with engine := restState s.mode, attempt := none }).setSlot k (slotCounted s k m o)).setStation u
    (attemptCounted o (s.station u))

/-- The last attempt of a slot's transaction hands its outcome to `acyclicEnd` (R38, R40). -/
theorem exec_slotEnds {n : LineId} {s : State} {c : Instr} {o : OutcomeCode} {l : Line} {a : Attempt} {b : State} {u : StationIx}
    {k : SlotIx} {m : Nat} (h : attemptEnds s n c o l a b) (ho : a.origin = .acyclic k) (hu : a.station = some u) (hm : a.attempt = some m)
    (hr : s.retryDue a o = false ∨ a.stop ≠ noStop) :
    exec c s = .next (settle n ((slotEnded n l k m o u s b).acyclicEnd k u (endedRecord a o) o)) := by
  have hb := attemptEnds_sameButPosts h
  have hretry : ∀ x, (b.setLine n x).retryDue a o = s.retryDue a o := by
    intro x
    simp [retryDue, retryBudget, ho, hb.slot]
  rw [exec_attemptEnds n s c o l a b h, endAttempt_slot_end n b l _ a k u m o ho hu hm (by
    rw [hretry]
    exact hr.imp id .inl), hb.slot, hb.station]
  rfl

/-- The end of an attempt leaves every slot's state and station, and so the PENDING slots of every station. -/
theorem pendingOf_slotEnded {s b : State} (hb : SameButPosts s b) (n : LineId) (l : Line) (k : SlotIx) (m : Nat) (o : OutcomeCode)
    (u v : StationIx) : (slotEnded n l k m o u s b).pendingOf v = s.pendingOf v := by
  refine pendingOf_congr _ s v (by simp [slotEnded, hb.submitted]) fun j => ?_
  by_cases hk : k = j
  · subst hk; simp [slotEnded, slotCounted]
  · simp [slotEnded, hk, hb.slot]

/-- With no break that waits, QUIESCED is not reached at the end of an attempt (R157). -/
theorem staysInMode_of_goesTo {s : State} {n : LineId} {e : EngineState} (h : goesTo s n e) (hb : (s.line n).breakRequest = false) :
    staysInMode s n := by
  rcases h with ⟨hm, -⟩ | ⟨hm, -, hact | ⟨hbreak, -⟩⟩
  · exact .inl hm
  · exact .inr ⟨hm, hact⟩
  · rw [hb] at hbreak; cases hbreak

/-- BUSY below the seventh defers the slot (R122). -/
theorem deferSlot_below (X : State) (k : SlotIx) (h : (X.slot k).busyCount.toNat < 6) :
    X.deferSlot k = (X.setSlot k { X.slot k with
      state := .pending, deferred := true, busyCount := (X.slot k).busyCount + 1 }, []) := by
  obtain ⟨hinc, hlt⟩ := busy_below _ h
  unfold deferSlot countBusy modifySlot
  simp only [slot_setSlot, if_true, hinc, hlt, setSlot_setSlot]

/-- The slot that BUSY below the seventh leaves (R122). -/
def slotDeferred (s : State) (k : SlotIx) : Slot :=
  { s.slot k with state := .pending, deferred := true, outcome := .busy, busyCount := (s.slot k).busyCount + 1 }

/-- The state of a deferred slot's transaction before a PARK that waits (R41, R122). -/
def slotDeferredState (s : State) (n : LineId) (l : Line) (e : EngineState) (k : SlotIx) (u : StationIx) (st : Station) (b : State) : State :=
  ((b.setLine n { l with engine := e, attempt := none }).setSlot k (slotDeferred s k)).setStation u st

/-- BUSY leaves its station ONLINE (R78). -/
theorem stationTakes_busy_health {s : State} {u : StationIx} {poll : Bool} {st : Station} {notices : List Event}
    (ht : stationTakes s u .busy poll st notices) : st.health = .online := by
  rcases ht with ⟨-, -, hst, -⟩ | ⟨hmiss, -⟩ | ⟨hmiss, -⟩ | ⟨hcol, -⟩
  · rw [hst]
  · cases hmiss
  · cases hmiss
  · cases hcol

/-- A deferral up to a PARK that waits. -/
theorem acyclicEnd_defers {n : LineId} {s : State} {l : Line} {a : Attempt} {b : State} {u : StationIx} {k : SlotIx} {m : Nat}
    {st : Station} {notices : List Event} (hb : SameButPosts s b) (habort : a.stop.abort = false)
    (hcount : (s.slot k).busyCount.toNat < 6) (ht : stationTakes s u .busy false st notices) :
    (slotEnded n l k m .busy u s b).acyclicEnd k u (endedRecord a .busy) .busy
      = ((((slotDeferredState s n l (restState s.mode) k u st b).parkIfWaiting u).1),
        [notices.map .notice ++ ((slotDeferredState s n l (restState s.mode) k u st b).parkIfWaiting u).2.1,
          ((slotDeferredState s n l (restState s.mode) k u st b).parkIfWaiting u).2.2]) := by
  have hout : (slotEnded n l k m .busy u s b).stationOutcome u .busy false false
      = (stationLeft u st (slotEnded n l k m .busy u s b), notices.map Post.notice) := by
    refine stationOutcome_takes s _ u .busy false false st notices ht (by simp [slotEnded]) (.inl rfl)
      fun hp => (pendingOf_slotEnded hb n l k m .busy u u).trans hp
  have hhealth := stationTakes_busy_health ht
  have hdefer : State.deferSlot k (stationLeft u st (slotEnded n l k m .busy u s b))
      = (slotDeferredState s n l (restState s.mode) k u st b, []) := by
    rw [deferSlot_below _ _ (by simpa [slotEnded, slotCounted] using hcount), stationLeft_stays u _ _ (.inl (by simp [hhealth]))]
    simp [slotEnded, slotCounted, slotDeferredState, slotDeferred, setSlot_setStation]
  have hretry : (slotEnded n l k m .busy u s b).retryDue (endedRecord a .busy) .busy = false := rfl
  have hab : (endedRecord a .busy).stop.abort = false := habort
  unfold acyclicEnd
  simp only [hab, hretry, Bool.and_false, Bool.false_eq_true, if_false]
  unfold slotEnd
  simp only [hout, completeSlot, if_true, hdefer, List.nil_append]

/-- One owner's notices, in their order. -/
theorem flush_notices (p : List Event) (s : State) : s.flush [p.map .notice, []] = offered p s := by
  rcases p with _ | ⟨x, p⟩
  · rfl
  · exact postAll_notices (x :: p) s

/-- The state a completed slot's transaction leaves, its posts still to be offered (R41, R87, R125). -/
def slotLeft (s : State) (u : StationIx) (st : Station) (k : SlotIx) (sl : Slot) (X : State) : State :=
  parkFinished s u { (stationLeft u st X).setSlot k sl with submitted := s.submitted.filter (· ≠ k) }

theorem slotLeft_line (s : State) (u : StationIx) (st : Station) (k : SlotIx) (sl : Slot) (X : State) (j : LineId) :
    (slotLeft s u st k sl X).line j = X.line j := by
  rw [slotLeft, parkFinished_line, line_submitted, setSlot_line, stationLeft_line]

theorem slotLeft_mode (s : State) (u : StationIx) (st : Station) (k : SlotIx) (sl : Slot) (X : State) :
    (slotLeft s u st k sl X).mode = X.mode := by
  rw [slotLeft, parkFinished_mode]
  exact stationLeft_mode u st X

theorem setLine_slotLeft (n : LineId) (l : Line) (s : State) (u : StationIx) (st : Station) (k : SlotIx) (sl : Slot) (X : State) :
    (slotLeft s u st k sl X).setLine n l = slotLeft s u st k sl (X.setLine n l) := by
  rw [slotLeft, setLine_parkFinished, setLine_withSubmitted, setLine_setSlot, setLine_stationLeft, slotLeft]

/-- The slot and the station as the attempt's end left them are overwritten. -/
theorem slotLeft_slotEnded (s : State) (u : StationIx) (st : Station) (k : SlotIx) (sl x : Slot) (y : Station) (X : State)
    (h : y.health = (X.station u).health) :
    slotLeft s u st k sl ((X.setSlot k x).setStation u y) = slotLeft s u st k sl X := by
  rw [slotLeft, stationLeft_setStation u st y _ (by simpa using h), setSlot_stationLeft, setSlot_setSlot, ← setSlot_stationLeft, slotLeft]

/-- A PARK that waited takes effect after the BUSY that ends its station's transaction, and the slot just deferred completes with
STATION_PARKED (R87, R122, R132). -/
theorem slotEnds_parked {n : LineId} {s : State} {c : Instr} {o : OutcomeCode} {l : Line} {a : Attempt} {b : State} {u : StationIx}
    {k : SlotIx} {m : Nat} {e : EngineState} {st : Station} {notices : List Event} (h : attemptEnds s n c o l a b)
    (ho : a.origin = .acyclic k) (hu : a.station = some u) (hm : a.attempt = some m) (hg : goesTo s n e) (hbusy : o = .busy)
    (hcount : (s.slot k).busyCount.toNat < 6) (habort : a.stop.abort = false) (ht : stationTakes s u o false st notices)
    (hpk : parkWaits s u) (hsub : k ∈ s.submitted) (hku : (s.slot k).station = u) :
    ∃ t, exec c s = .next t ∧ t.station u = parked st
      ∧ t.line n = (b.setLine n (breakBegun { l with engine := e, attempt := none })).line n
      ∧ t.cmdState = .done ∧ t.result = .ok ∧ t.cvalue = 0 ∧ t.edges.getLsbD 4 = true
      ∧ (∀ v, v ≠ u → t.station v = s.station v)
      ∧ ∀ j, j = k ∨ j ∈ s.submitted ∧ (s.slot j).state = .pending ∧ (s.slot j).station = u → completedWith t j .stationParked := by
  have hb := attemptEnds_sameButPosts h
  obtain ⟨⟨hbreak, -, henable, hfaulted⟩, -⟩ := attemptEnds_frame n s c o l a b h
  have hrest := goesTo_rest n s e hg
  subst hbusy
  rw [exec_slotEnds h ho hu hm (.inl (retryDue_contact s a _ (.inr (.inl rfl)))), acyclicEnd_defers hb habort hcount ht]
  have hwaits : (slotDeferredState s n l (restState s.mode) k u st b).waitingPark = some u := by
    rw [waitingPark_iff]
    simpa [parkWaits, slotDeferredState, hb.command] using hpk
  have hpark : (slotDeferredState s n l (restState s.mode) k u st b).parkIfWaiting u
      = (slotDeferredState s n l (restState s.mode) k u st b).parkNow u := if_pos hwaits
  have hparks := parkNow_parks (slotDeferredState s n l (restState s.mode) k u st b) u
  rw [hpark]
  generalize hX : slotDeferredState s n l (restState s.mode) k u st b = X at *
  obtain ⟨sls, sub, hframe⟩ := hparks.frame
  have hXline : ∀ j, X.line j = (b.setLine n { l with engine := e, attempt := none }).line j := fun j => by
    rw [← hX, slotDeferredState, setStation_line, setSlot_line, hrest]
  have hYline : ∀ j, (X.parkNow u).1.line j = (b.setLine n { l with engine := e, attempt := none }).line j := fun j => by
    rw [hframe, ← hXline]; cases j <;> rfl
  have hYmode : (X.parkNow u).1.mode = s.mode := by
    rw [hframe, ← hb.mode, ← hX]; simp [slotDeferredState, complete, raise]
  rw [settle_goesTo n s e hg _ _ l hYmode (fun j hj => by rw [hYline]; simp [hb.line, Ne.symm hj]) (by rw [hYline]; simp)
    ⟨hbreak, henable, hfaulted⟩]
  have hXstation : ∀ v, X.station v = if u = v then st else s.station v := fun v => by
    rw [← hX, slotDeferredState, station_setStation, setSlot_station, setLine_station, hb.station]
  have hhealth := stationTakes_busy_health ht
  obtain ⟨ev, lost, ed, sl', ow, dn, i, hflush⟩ := flush_frame
    [notices.map .notice ++ (X.parkNow u).2.1, (X.parkNow u).2.2]
    ((X.parkNow u).1.setLine n (breakBegun { l with engine := e, attempt := none }))
  have hYstation : ∀ v, (X.parkNow u).1.station v = if u = v then parked st else s.station v := fun v => by
    rw [hframe]
    refine (station_setStation u _ X v).trans ?_
    simp only [hXstation, if_true]
    split <;> rfl
  have hpending : ∀ j, j = k ∨ j ∈ s.submitted ∧ (s.slot j).state = .pending ∧ (s.slot j).station = u → j ∈ X.pendingOf u := by
    intro j hj
    have hXslot : X.slot j = if k = j then slotDeferred s k else s.slot j := by
      rw [← hX, slotDeferredState, setStation_slot, slot_setSlot, setLine_slot, hb.slot]
    have hXsub : X.submitted = s.submitted := by rw [← hX]; simp [slotDeferredState, hb.submitted]
    rw [mem_pendingOf, hXsub, hXslot]
    rcases hj with rfl | ⟨hj, hst, hstation⟩
    · simp [slotDeferred, hsub, hku]
    · by_cases hk : k = j
      · subst hk; simp [slotDeferred, hj, hstation]
      · simp [hk, hj, hst, hstation]
  refine ⟨_, rfl, ?station, ?line, ?state, ?result, ?value, ?flag, fun v hv => ?others, fun j hj => ?completed⟩
  case station =>
    rw [hflush]
    exact (setLine_station _ _ _ u).trans ((hYstation u).trans (if_pos rfl))
  case line => rw [hflush]; cases n <;> rfl
  case state => rw [hflush]; exact (setLine_cmdState _ _ _).trans (by rw [hframe]; rfl)
  case result => rw [hflush]; exact (setLine_result _ _ _).trans (by rw [hframe]; rfl)
  case value =>
    rw [hflush]
    refine (setLine_cvalue _ _ _).trans ?_
    rw [hframe]
    simp [complete, raise, hXstation, hhealth, Health.code]
  case flag =>
    refine flush_edges _ _ _ ?_
    rw [setLine_edges, hframe]
    simp [complete, raise]
    right; decide
  case others =>
    rw [hflush]
    exact (setLine_station _ _ _ v).trans ((hYstation v).trans (if_neg (Ne.symm hv)))
  case completed =>
    refine hparks.completed (by simp) (by simp) (fun k' hk' => ?_) (hpending j hj)
    simp only [List.flatten_cons, List.flatten_nil, List.append_nil, completes_append]
    exact .inr hk'

/-- Settles O20: the four ends of a slot's attempt. -/
theorem slotsAfterTheirAttempts : Obligations.SlotsAfterTheirAttempts := by
  intro n s c o l a k u m e sl len st notices b h ho hu hm hlen hg ended deferred
  have hb := attemptEnds_sameButPosts h
  obtain ⟨⟨hbreak, -, henable, hfaulted⟩, -⟩ := attemptEnds_frame n s c o l a b h
  have hrest := goesTo_rest n s e hg
  refine ⟨fun hretry hmiss hstop hnb => ?retry, fun hret hstop => ?returns, fun hbusy hcount habort ht => ⟨fun hpk => ?deferred, fun hpk hsub hku => ?parked⟩,
    fun htakes ht hpk => ?completes⟩
  case retry =>
    rw [exec_attemptEnds n s c o l a b h, endAttempt_slot_retry n _ a k u m o (by simp) ho hu hm (by simpa [hb.slot] using hretry) hstop
      (by simpa using restState_ne_faulted _) hmiss, settle_staysInMode n s _ _ (staysInMode_of_goesTo hg hnb) (by simp [hb.mode])
      (fun j hj => by simp [hb.line, Ne.symm hj]), flush_nil, breakBegun_held _ (by simp)]
    simp [hb.slot, hb.station, setLine_setStation, setLine_setSlot, setSlot_setStation, hrest]
  case returns =>
    obtain ⟨hretry, hmiss, habort, hpark, rfl⟩ := hret
    have hnb : o ≠ .busy := by rintro rfl; rcases hmiss with h | h <;> cases h
    have hdue : (slotEnded n l k m o u s b).retryDue (endedRecord a o) o = true := by
      have hcounts : (o.isMiss || o == .collision) = true := by simpa using hmiss
      simp [retryDue, hcounts, retryBudget, endedRecord, ho, hm, slotEnded, slotCounted, hretry]
    have hend : (slotEnded n l k m o u s b).acyclicEnd k u (endedRecord a o) o = ((slotEnded n l k m o u s b).returnSlot k, []) := by
      have hempty : (endedRecord a o).stop.isEmpty = false := by
        rw [← Bool.not_eq_true, isEmpty_iff]
        exact hstop
      have hab : (endedRecord a o).stop.abort = false := habort
      have hpk : (endedRecord a o).stop.park = false := hpark
      unfold acyclicEnd
      simp only [hab, hpk, hempty, hdue, Bool.not_false, Bool.and_self, if_true, Bool.false_eq_true, if_false]
    rw [exec_slotEnds h ho hu hm (.inr hstop), hend, settle_goesTo n s e hg _ [] l (by simp [returnSlot, modifySlot, slotEnded, hb.mode])
      (fun j hj => by simp [returnSlot, modifySlot, slotEnded, hb.line, Ne.symm hj])
      (by simp [returnSlot, modifySlot, slotEnded, hrest]) ⟨hbreak, henable, hfaulted⟩, flush_nil]
    simp [returnSlot, modifySlot, slotEnded, slotCounted, hnb, setLine_setStation, setLine_setSlot, setSlot_setStation, ended]
  case deferred =>
    subst hbusy
    rw [exec_slotEnds h ho hu hm (.inl (retryDue_contact s a _ (.inr (.inl rfl)))), acyclicEnd_defers hb habort hcount ht,
      parkIfWaiting_none _ _ (by simpa [parkWaits, slotDeferredState, hb.command] using hpk), List.append_nil]
    rw [settle_goesTo n s e hg _ _ l (by simp [slotDeferredState, hb.mode])
      (fun j hj => by simp [slotDeferredState, hb.line, Ne.symm hj])
      (by simp [slotDeferredState, hrest]) ⟨hbreak, henable, hfaulted⟩]
    rw [slotDeferredState, setLine_setStation, setLine_setSlot, setLine_setLine, flush_notices]
    rfl
  case parked => exact slotEnds_parked h ho hu hm hg hbusy hcount habort ht hpk hsub hku
  case completes =>
    have hdue := slotTakes_noRetry s s k a m o len sl htakes ho hm rfl
    have hdue' : s.retryDue a o = false ∨ a.stop ≠ noStop := by
      rcases hdue with hd | hd | hd
      · exact .inr fun h0 => by rw [h0] at hd; cases hd
      · exact .inr fun h0 => by rw [h0] at hd; cases hd
      · exact .inl hd
    rw [exec_slotEnds h ho hu hm hdue', acyclicEnd_completes (slotEnded n l k m o u s b) s k u (endedRecord a o) m o len sl st notices
      (by simp [slotEnded, slotCounted]) (by simp [slotEnded]) (fun v hv => by simp [slotEnded, hb.station, Ne.symm hv])
      (by simpa [slotEnded] using hb.command) ?pending hpk htakes ht hlen ?due]
    case pending => exact fun hp => (pendingOf_slotEnded hb n l k m o u u).trans hp
    case due =>
      rcases slotTakes_noRetry s (slotEnded n l k m o u s b) k a m o len sl htakes ho hm (by simp [slotEnded, slotCounted]) with hd | hd | hd
      · exact .inr (.inr hd)
      · exact .inl hd
      · exact .inr (.inl hd)
    have hsub : (slotEnded n l k m o u s b).submitted = s.submitted := by simp [slotEnded, hb.submitted]
    rw [hsub]
    change answersWithCompletion (.next (settle n (slotLeft s u st k sl _, _))) (slotLeft s u st k sl ended) _ _ _
    rw [slotEnded, slotLeft_slotEnded s u st k sl _ _ _ (by simp [attemptCounted, hb.station]), hrest,
      settle_goesTo n s e hg _ _ l (by rw [slotLeft_mode, setLine_mode, hb.mode])
        (fun j hj => by rw [slotLeft_line, line_setLine, if_neg (Ne.symm hj), hb.line])
        (by rw [slotLeft_line, line_setLine, if_pos rfl]) ⟨hbreak, henable, hfaulted⟩, setLine_slotLeft, setLine_setLine]
    exact flush_completion_two _ _ _ _ _ (by simp)

/-! ## A contact reply to a READ or WRITE (R41, R122, R125) -/

/-- An ONLINE station takes the contact of a READ or WRITE: its AGE stays, and nothing is posted (R78, R81). -/
theorem stationTakes_contact {s : State} {u : StationIx} {o : OutcomeCode} (h : o = .ok ∨ o = .busy ∨ o = .refused)
    (hh : (s.station u).health = .online) : stationTakes s u o false { s.station u with
      last := o, good := if o = .ok then satInc (s.station u).good else (s.station u).good, missCount := 0 } [] :=
  .inl ⟨h, .inl hh, by simp [hh], by simp [hh]⟩

/-- The completion of a slot that finds room, in the statements' words. -/
theorem completionOffered_room {X : State} {k : SlotIx} {record : Event} (h : X.events.length < 64) (hd : X.done = []) :
    completionOffered k record X = slotReleased { X with events := X.events ++ [X.stamp record] } k
      (fieldBlock? (X.slot k).reqBlock) (fieldBlock? (X.slot k).replyBlock) := if_pos ⟨h, hd⟩

/-- Settles O19: the two ends of `slotsAfterTheirAttempts` that a contact below the seventh BUSY has. -/
theorem contactReplyEndsASlotsTransaction : Obligations.ContactReplyEndsASlotsTransaction := by
  intro n t s a len k u m o h ho hu hm hku hstop hg hrun hpk hh hroom hdone ended sl record
  have hends : attemptEnds s n (.characterArrival n t) o (delivered (s.line n) t) { a with received := a.received + 1 } s :=
    .inr (.inr (.inr ⟨t, a, len, u, rfl, h, hu, hg, rfl, rfl, rfl⟩))
  have habort : a.stop.abort = false := by rw [hstop]
  obtain ⟨-, -, hdeferred, hcompletes⟩ := slotsAfterTheirAttempts n s _ o _ _ k u m .turnaround sl len
    { s.station u with last := o, good := if o = .ok then satInc (s.station u).good else (s.station u).good, missCount := 0 } [] s
    hends ho hu hm (fun _ => h.2.2.2.1) (goesTo_run n hrun)
  refine ⟨fun hok => ?completes, fun hbusy hcount => ?defers⟩
  case completes =>
    have hnb : o ≠ .busy := by rintro rfl; rcases hok with h | h <;> cases h
    have htakes : slotTakes s k { a with received := a.received + 1 } m o len sl := by
      refine .inr ⟨habort, ?_, hok.imp id .inl⟩
      simp [sl, hnb]
    have hans := hcompletes htakes (stationTakes_contact (hok.imp id .inr) hh) (parkClear_none hpk _)
    rw [parkRecords_none hpk, List.append_nil, parkFinished_none _ hpk, stationLeft_stays u _ _ (.inl (by simp [hh]))] at hans
    rw [answers_completion hans]
    generalize hX : State.setSlot k sl (State.setStation u _ _) = X
    have hline : (X.line (s.station u).line).cycnum = (s.line (s.station u).line).cycnum := by
      rw [← hX, setSlot_line, setStation_line, line_setLine]
      split
      · rename_i hn
        rw [(breakBegun_frame _).2.2.2.1, hn]
        rfl
      · rfl
    have hstamp : ({ X with submitted := s.submitted.filter (· ≠ k) } : State).stamp (requestRecord s k sl) = record := by
      have hl : ({ X with submitted := s.submitted.filter (· ≠ k) } : State).line (s.station u).line = X.line (s.station u).line :=
        line_submitted _ _ _
      have hstation : sl.station = u := hku.symm
      simp only [stamp, requestRecord, hstation, EventKind.ofLine, if_true, hl, hline]
      rfl
    have hslot : ({ X with submitted := s.submitted.filter (· ≠ k) } : State).slot k = sl := by
      have : X.slot k = sl := by rw [← hX, slot_setSlot, if_pos rfl]
      exact this
    have hevents : X.events = s.events := by rw [← hX]; simp
    have hdone' : X.done = [] := by rw [← hX]; simpa using hdone
    refine (congrArg Host.Outcome.next (completionOffered_room (X := { X with submitted := s.submitted.filter (· ≠ k) })
      (hevents ▸ hroom) hdone')).trans ?_
    rw [hstamp, hslot, ← hevents]
  case defers =>
    obtain ⟨hfree, -⟩ := hdeferred hbusy hcount habort (stationTakes_contact (.inr (.inl hbusy)) hh)
    rw [hfree hpk]
    subst hbusy
    rfl

end Sys2Proof.Machine
end

section
/-!
SUPPORT. The miss that reaches MISS_LIMIT, to the end of its step (R79, R80, R131), at an attempt's end and between attempts.
-/

namespace Sys2Proof.Machine

open State

/-! ## The end of the step -/

/-- What a step leaves that ends a transaction of station u with the miss o that reaches MISS_LIMIT, its engine in the state Y. `own` and
`ent` are those of `OffFacts`. -/
structure OffLeft (Y : State) (n : LineId) (u : StationIx) (o : OutcomeCode) (own : Option (SlotIx × OutcomeCode)) (ent : Option EntryIx)
    (t : State) : Prop where
  station : t.station u = goneOffline o (Y.station u)
  others : ∀ v, v ≠ u → t.station v = Y.station v
  line : t.line n = breakBegun (Y.line n)
  mode : Y.mode ≠ .quiescing → t.mode = Y.mode
  down : t.edges.getLsbD 14 = true
  payload : t.payload = Y.payload
  submitted : ∀ k, k ∈ t.submitted → k ∈ Y.submitted ∧ k ∉ Y.pendingOf u
  pending : ∀ k, k ∈ Y.pendingOf u → (∀ x, own ≠ some (k, x)) → completedWith t k .stationOffline
  ownSlot : ∀ k x, own = some (k, x) → completedWith t k x
  slot : ∀ k, k ∉ Y.pendingOf u → (∀ x, own ≠ some (k, x)) → t.slot k = Y.slot k
  entry : ∀ e, t.entry e = if ent = some e then { Y.entry e with last := o } else Y.entry e
  posts : Y.mode ≠ .quiescing → Y.pendingOf u = [] → own = none → Y.events.length < 48 →
    t.events = Y.events ++ [Y.stamp (stationStateNotice u (Y.station u).health (goneOffline o (Y.station u)))]

theorem settle_offLeft {Y W : State} {u : StationIx} {o : OutcomeCode} {own : Option (SlotIx × OutcomeCode)} {ent : Option EntryIx}
    {gs : Groups} (n : LineId) (h : OffFacts Y u o own ent W gs) : OffLeft Y n u o own ent (settle n (W, gs)) := by
  obtain ⟨hline, hmode, hdown, hpayload, hstation, hentry, hevents, hsub, hpend, hown, hslot, hposts⟩ := h
  obtain ⟨md, pr, ed, g, hsettle, hstays, hedges, hnone⟩ := settle_shape n W gs
  generalize hT : ({ W.setLine n (breakBegun (W.line n)) with mode := md, pendingRequest := pr, edges := ed } : State) = T at hsettle
  have hTslot : ∀ k, T.slot k = W.slot k := fun k => by rw [← hT]; exact setLine_slot n _ W k
  have hTsub : T.submitted = W.submitted := by rw [← hT]; exact setLine_submitted n _ W
  have hcompletes : ∀ k, completes (gs ++ [g]).flatten k ↔ completes gs.flatten k := fun k => by
    simp [completes_append, hnone k]
  obtain ⟨ev, lost, ed', sl, ow, dn, i, hflush⟩ := flush_frame (gs ++ [g]) T
  have hfstation : ∀ v, (T.flush (gs ++ [g])).station v = W.station v := fun v => by
    rw [hflush, ← hT]
    exact setLine_station n _ W v
  rw [hsettle]
  refine ⟨?station, fun v hv => ?others, ?line, fun hm => ?mode, ?down, ?payload, fun k hk => ?submitted, fun k hk hx => ?pending,
    fun k x hx => ?own, fun k hk hx => ?slot, fun e => ?entry, fun hm hp ho hroom => ?posts⟩
  case station => rw [hfstation, hstation, if_pos rfl]
  case others => rw [hfstation, hstation, if_neg (Ne.symm hv)]
  case line => rw [hflush, ← hT, ← hline]; cases n <;> rfl
  case mode => rw [hflush, ← hT, ← hmode]; exact (hstays (by rwa [hmode])).1
  case down => exact flush_edges _ _ _ (by rw [← hT]; exact hedges 14 hdown)
  case payload => rw [hflush, ← hT, ← hpayload]; exact setLine_payload n _ W
  case submitted =>
    have hk' : k ∈ T.submitted := by rw [hflush] at hk; exact hk
    rw [hTsub] at hk'
    obtain ⟨hin, hout, -⟩ := hsub k hk'
    exact ⟨hin, hout⟩
  case pending =>
    obtain ⟨hc, ho, hl⟩ := hpend k hk hx
    refine flush_completedWith _ T k _ ((hcompletes k).2 hc) ?_ (by rw [hTslot]; exact ho) (by rw [hTslot]; exact hl)
    rw [hTsub]
    exact fun hk' => (hsub k hk').2.1 hk
  case own =>
    obtain ⟨hc, ho, hl⟩ := hown k x hx
    refine flush_completedWith _ T k _ ((hcompletes k).2 hc) ?_ (by rw [hTslot]; exact ho) (by rw [hTslot]; exact hl)
    rw [hTsub]
    exact fun hk' => (hsub k hk').2.2 x hx
  case slot =>
    obtain ⟨hc, hs⟩ := hslot k hk hx
    rw [(flush_slot _ T k).2.2.1 (fun h => hc ((hcompletes k).1 h)), hTslot, hs]
  case entry => rw [hflush, ← hT, ← hentry]; exact setLine_entry n _ W e
  case posts =>
    obtain ⟨-, hg⟩ := hstays (by rwa [hmode])
    have hTevents : T.events = Y.events := by rw [← hT, ← hevents]; exact setLine_events n _ W
    have hstamp : ∀ e, T.stamp e = Y.stamp e := fun e => by
      have hl : (T.line e.line).cycnum = (Y.line e.line).cycnum := by
        have hTl : T.line e.line = (W.setLine n (breakBegun (W.line n))).line e.line := by rw [← hT]; cases e.line <;> rfl
        rw [hTl, line_setLine]
        split
        · rename_i hn; rw [(breakBegun_frame _).2.2.2.1, hline, hn]
        · rw [hline]
      simp only [stamp, hl]
    rw [hposts hp ho, hg, flush_append_nil]
    change (T.offerNotice _).events = _
    rw [offerNotice_eq, if_pos (by rw [hTevents]; exact hroom)]
    simp only [hTevents, hstamp]

/-! ## The end of an attempt -/

/-- Two completions of one slot at one attempt's end have one outcome (R125, R129). -/
theorem slotTakes_outcome {s : State} {k : SlotIx} {a : Attempt} {m : Nat} {o : OutcomeCode} {len : BitVec 6} {x y : Slot}
    (hx : slotTakes s k a m o len x) (hy : slotTakes s k a m o len y) : x.outcome = y.outcome := by
  rcases hx with ⟨hx, rfl⟩ | ⟨hx, rfl, -⟩ <;> rcases hy with ⟨hy, rfl⟩ | ⟨hy, rfl, -⟩
  · rfl
  · rw [hx] at hy; cases hy
  · rw [hx] at hy; cases hy
  · rfl

/-- A final miss, whichever transaction it ends, reaches `OffFacts` (R38, R41, R79). -/
theorem exec_offline {n : LineId} {s : State} {c : Instr} {o : OutcomeCode} {l : Line} {a : Attempt} {u : StationIx} {m : Nat} {b : State}
    (h : attemptEnds s n c o l a b) (ho : o.isMiss = true) (hu : a.station = some u) (hm : a.attempt = some m)
    (hpk : ¬ parkWaits s u) (hl : reachesLimit (s.station u))
    (hfinal : (∃ e, a.origin = .cyclic e ∧ ((s.entry e).retries.toNat < m ∨ a.stop ≠ noStop)) ∨ (∃ e, a.origin = .probe e)
      ∨ (∃ k sl, a.origin = .acyclic k ∧ slotTakes s k a m o 0 sl ∧ (s.slot k).state ≠ .pending)) :
    (∃ j W gs, (a.origin = .cyclic j ∨ a.origin = .probe j) ∧ exec c s = .next (settle n (W, gs))
        ∧ OffFacts (pollEnded n l o u s b) u o none (some j) W gs)
      ∨ ∃ k sl W gs, a.origin = .acyclic k ∧ slotTakes s k a m o 0 sl ∧ (s.slot k).state ≠ .pending ∧ exec c s = .next (settle n (W, gs))
        ∧ OffFacts (slotEnded n l k m o u s b) u o (some (k, sl.outcome)) none W gs := by
  have hb := attemptEnds_sameButPosts h
  have hpoll : ∀ j (p : Bool), a.origin = (if p then .probe j else .cyclic j) → s.retryDue a o = false ∨ a.stop ≠ noStop →
      ∃ W gs, exec c s = .next (settle n (W, gs)) ∧ OffFacts (pollEnded n l o u s b) u o none (some j) W gs := by
    intro j p hj hr
    obtain ⟨W, gs, hend, hO⟩ := pollEnd_off (pollEnded n l o u s b) j u p (endedRecord a o) o ho (by rw [pollEnded, station_setStation, if_pos rfl]; exact hl)
      (by simpa [pollEnded, parkWaits, hb.command] using hpk)
    exact ⟨W, gs, by rw [exec_pollEnds j p h hu hj hr, hend], hO⟩
  rcases hfinal with ⟨e, he, hr⟩ | ⟨e, he⟩ | ⟨k, sl, hk, ht, hstate⟩
  · obtain ⟨W, gs, hexec, hO⟩ := hpoll e false he (hr.imp (retryDue_spent s a e m o he hm) id)
    exact .inl ⟨e, W, gs, .inl he, hexec, hO⟩
  · obtain ⟨W, gs, hexec, hO⟩ := hpoll e true he (.inl (retryDue_probe s a e o he))
    exact .inl ⟨e, W, gs, .inr he, hexec, hO⟩
  · have hr : s.retryDue a o = false ∨ a.stop ≠ noStop := by
      rcases slotTakes_noRetry s s k a m o 0 sl ht hk hm rfl with hd | hd | hd
      · exact .inr fun h0 => by rw [h0] at hd; cases hd
      · exact .inr fun h0 => by rw [h0] at hd; cases hd
      · exact .inl hd
    have hnp : k ∉ (slotEnded n l k m o u s b).pendingOf u := by
      rw [pendingOf_slotEnded hb, mem_pendingOf]
      exact fun hp => hstate hp.2.1
    obtain ⟨W, gs, hend, hO⟩ := acyclicEnd_off (slotEnded n l k m o u s b) s k u (endedRecord a o) m o sl ho
      (by rw [slotEnded, station_setStation, if_pos rfl]; exact hl) (by simpa [slotEnded, parkWaits, hb.command] using hpk) hnp ht hk hm
      (by simp [slotEnded, slotCounted])
    exact .inr ⟨k, sl, W, gs, hk, ht, hstate, by rw [exec_slotEnds h hk hu hm hr, hend], hO⟩

/-- The line as the engine's end of work leaves it before a break that waited (R32, R51). -/
theorem restState_line (s : State) (l : Line) : ({ l with engine := restState s.mode, attempt := none } : Line)
    = { l with engine := if s.mode = .run then .turnaround else .hold, attempt := none } := by rw [restState_eq]

/-- The state in which the end of a transaction begins, the attempt of station u counted: what `pollEnded` and `slotEnded` share. -/
structure WorkEnded (s b : State) (n : LineId) (l : Line) (u : StationIx) (o : OutcomeCode) (Y : State) : Prop where
  station : ∀ v, Y.station v = if u = v then attemptCounted o (s.station u) else s.station v
  line : Y.line n = { l with engine := if s.mode = .run then .turnaround else .hold, attempt := none }
  cycnum : ∀ m, (Y.line m).cycnum = (s.line m).cycnum
  mode : Y.mode = s.mode
  payload : Y.payload = s.payload
  entry : ∀ e, Y.entry e = s.entry e
  pending : Y.pendingOf u = s.pendingOf u
  submitted : Y.submitted = s.submitted
  events : Y.events = b.events

theorem pollEnded_workEnded {s b : State} {n : LineId} {l : Line} (u : StationIx) (o : OutcomeCode) (hb : SameButPosts s b)
    (hl : l.cycnum = (s.line n).cycnum) : WorkEnded s b n l u o (pollEnded n l o u s b) where
  station v := by simp [pollEnded, hb.station]
  line := by simp [pollEnded, restState_eq]
  cycnum m := by
    rw [pollEnded, setStation_line, line_setLine, hb.line]
    split
    · rename_i hn; rw [← hn]; exact hl
    · rfl
  mode := by simp [pollEnded, hb.mode]
  payload := by simp [pollEnded, hb.payload]
  entry e := by simp [pollEnded, hb.entry]
  pending := pendingOf_congr _ s u (by simp [pollEnded, hb.submitted]) fun k => by simp [pollEnded, hb.slot]
  submitted := by simp [pollEnded, hb.submitted]
  events := by simp [pollEnded]

theorem slotEnded_workEnded {s b : State} {n : LineId} {l : Line} (k : SlotIx) (m : Nat) (u : StationIx) (o : OutcomeCode)
    (hb : SameButPosts s b) (hl : l.cycnum = (s.line n).cycnum) : WorkEnded s b n l u o (slotEnded n l k m o u s b) where
  station v := by simp [slotEnded, hb.station]
  line := by simp [slotEnded, restState_eq]
  cycnum m := by
    rw [slotEnded, setStation_line, setSlot_line, line_setLine, hb.line]
    split
    · rename_i hn; rw [← hn]; exact hl
    · rfl
  mode := by simp [slotEnded, hb.mode]
  payload := by simp [slotEnded, hb.payload]
  entry e := by simp [slotEnded, hb.entry]
  pending := pendingOf_slotEnded hb n l k m o u u
  submitted := by simp [slotEnded, hb.submitted]
  events := by simp [slotEnded]

/-- Which slot and which entry the transaction of record a has: what `own` and `ent` of `OffFacts` are at its end. -/
structure OwnsOf (s : State) (a : Attempt) (m : Nat) (o : OutcomeCode) (u : StationIx) (Y : State) (own : Option (SlotIx × OutcomeCode))
    (ent : Option EntryIx) : Prop where
  slot : ∀ k, a.origin ≠ .acyclic k → Y.slot k = s.slot k
  other : ∀ k, a.origin ≠ .acyclic k → ∀ x, own ≠ some (k, x)
  outcome : ∀ k sl, a.origin = .acyclic k → slotTakes s k a m o 0 sl → own = some (k, sl.outcome)
  notPending : ∀ k x, own = some (k, x) → (s.slot k).state ≠ .pending
  entry : ∀ e, ent = some e ↔ a.origin = .cyclic e ∨ a.origin = .probe e
  ownless : (∀ k, a.origin ≠ .acyclic k) → own = .none

theorem ownsOf_poll {s : State} {a : Attempt} {m : Nat} {o : OutcomeCode} {u : StationIx} {Y : State} {j : EntryIx}
    (hj : a.origin = .cyclic j ∨ a.origin = .probe j) (hslot : ∀ k, Y.slot k = s.slot k) : OwnsOf s a m o u Y none (some j) where
  slot k _ := hslot k
  other k _ x := nofun
  outcome k sl hk _ := by rcases hj with hj | hj <;> rw [hj] at hk <;> cases hk
  notPending k x hk := nomatch hk
  entry e := by rcases hj with hj | hj <;> simp [hj]
  ownless _ := rfl

theorem ownsOf_slot {s : State} {a : Attempt} {m : Nat} {o : OutcomeCode} {u : StationIx} {Y : State} {k : SlotIx} {sl : Slot}
    (hk : a.origin = .acyclic k) (ht : slotTakes s k a m o 0 sl) (hstate : (s.slot k).state ≠ .pending)
    (hslot : ∀ i, i ≠ k → Y.slot i = s.slot i) : OwnsOf s a m o u Y (some (k, sl.outcome)) none where
  slot i hi := hslot i (by rintro rfl; exact hi hk)
  other i hi x := by rintro ⟨⟩; exact hi hk
  outcome i sl' hi ht' := by
    rw [hk] at hi
    cases hi
    rw [slotTakes_outcome ht ht']
  notPending i x := by rintro ⟨⟩; exact hstate
  entry e := by simp [hk]
  ownless h := absurd hk (h k)

/-- The notice of a station that the miss takes OFFLINE, in numbers (R85). -/
theorem offlineRecord_eq (u : StationIx) (o : OutcomeCode) (x : Station) :
    stationStateNotice u x.health (goneOffline o x) = {
      kind := .stationState, line := x.line, station := u, detailA := x.missLimit.setWidth 6
      detailB := 0#10 ++ (2#2 ++ (0#2 ++ x.health.code)), cycle := 0, extra := 0 } := by
  cases h : x.health <;> simp [stationStateNotice, Event.blank, goneOffline] <;> decide

/-- A final miss at an attempt's end, in the words of the statement. -/
theorem attemptEnds_stationOffline (n : LineId) (s : State) (c : Instr) (o : OutcomeCode) (l : Line) (a : Attempt) (u : StationIx)
    (m : Nat) (b : State) (h : attemptEnds s n c o l a b) (ho : o.isMiss = true) (hu : a.station = some u) (hm : a.attempt = some m)
    (hpk : ¬ parkWaits s u) (hl : reachesLimit (s.station u))
    (hfinal : (∃ e, a.origin = .cyclic e ∧ ((s.entry e).retries.toNat < m ∨ a.stop ≠ noStop)) ∨ (∃ e, a.origin = .probe e)
      ∨ (∃ k sl, a.origin = .acyclic k ∧ slotTakes s k a m o 0 sl ∧ (s.slot k).state ≠ .pending)) :
    ∃ t, exec c s = .next t
      ∧ t.station u = goneOffline o (attemptCounted o (s.station u))
      ∧ (∀ v, v ≠ u → t.station v = s.station v)
      ∧ t.line n = breakBegun { l with engine := if s.mode = .run then .turnaround else .hold, attempt := none }
      ∧ (s.mode = .run → t.mode = .run) ∧ t.edges.getLsbD 14 = true ∧ t.payload = s.payload
      ∧ (∀ k, k ∈ t.submitted → (s.slot k).station = u → (s.slot k).state ≠ .pending)
      ∧ (∀ k, k ∈ s.submitted → (s.slot k).state = .pending → (s.slot k).station = u → completedWith t k .stationOffline)
      ∧ (∀ k, a.origin ≠ .acyclic k → (s.slot k).state ≠ .pending ∨ (s.slot k).station ≠ u → t.slot k = s.slot k)
      ∧ (∀ e, t.entry e = if a.origin = .cyclic e ∨ a.origin = .probe e then { s.entry e with last := o } else s.entry e)
      ∧ (∀ k sl, a.origin = .acyclic k → slotTakes s k a m o 0 sl → completedWith t k sl.outcome)
      ∧ (s.mode = .run → (∀ k, a.origin ≠ .acyclic k) → s.pendingOf u = [] → b.events.length < 48 → t.events = b.events ++ [{
          kind := .stationState, line := (s.station u).line, station := u
          detailA := (s.station u).missLimit.setWidth 6
          detailB := 0#10 ++ (2#2 ++ (0#2 ++ (s.station u).health.code)), cycle := (s.line (s.station u).line).cycnum, extra := 0 }]) := by
  have hb := attemptEnds_sameButPosts h
  obtain ⟨⟨-, hcyc, -⟩, -⟩ := attemptEnds_frame n s c o l a b h
  obtain ⟨Y, W, gs, own, ent, hexec, hO, hY, hown⟩ : ∃ Y W gs own ent, exec c s = .next (settle n (W, gs))
      ∧ OffFacts Y u o own ent W gs ∧ WorkEnded s b n l u o Y ∧ OwnsOf s a m o u Y own ent := by
    rcases exec_offline h ho hu hm hpk hl hfinal with ⟨j, W, gs, hj, hexec, hO⟩ | ⟨k, sl, W, gs, hk, ht, hstate, hexec, hO⟩
    · exact ⟨_, W, gs, none, some j, hexec, hO, pollEnded_workEnded u o hb hcyc, ownsOf_poll hj fun k => by simp [pollEnded, hb.slot]⟩
    · exact ⟨_, W, gs, _, none, hexec, hO, slotEnded_workEnded k m u o hb hcyc,
        ownsOf_slot hk ht hstate fun i hi => by simp [slotEnded, Ne.symm hi, hb.slot]⟩
  have hL := settle_offLeft n hO
  have hYu : Y.station u = attemptCounted o (s.station u) := by rw [hY.station, if_pos rfl]
  have hpend : ∀ k, k ∈ Y.pendingOf u ↔ k ∈ s.submitted ∧ (s.slot k).state = .pending ∧ (s.slot k).station = u := fun k => by
    rw [hY.pending, mem_pendingOf]
  refine ⟨_, hexec, ?station, fun v hv => ?others, ?line, fun hr => ?mode, hL.down, ?payload, fun k hk hku hst => ?submitted,
    fun k hk hst hku => ?pending, fun k hk hst => ?slot, fun e => ?entry, fun k sl hk ht => ?own, fun hr hno hp hroom => ?posts⟩
  case station => rw [hL.station, hYu]
  case others => rw [hL.others v hv, hY.station, if_neg (Ne.symm hv)]
  case line => rw [hL.line, hY.line]
  case mode => rw [hL.mode (by rw [hY.mode, hr]; decide), hY.mode, hr]
  case payload => rw [hL.payload, hY.payload]
  case submitted =>
    obtain ⟨hin, hout⟩ := hL.submitted k hk
    exact hout ((hpend k).2 ⟨hY.submitted ▸ hin, hst, hku⟩)
  case pending =>
    have hk' := (hpend k).2 ⟨hk, hst, hku⟩
    exact hL.pending k hk' fun x hx => hown.notPending k x hx hst
  case slot =>
    rw [hL.slot k (fun hk' => ?_) (hown.other k hk), hown.slot k hk]
    obtain ⟨-, h1, h2⟩ := (hpend k).1 hk'
    exact hst.elim (fun h => h h1) fun h => h h2
  case entry => rw [hL.entry, hY.entry]; exact if_congr (hown.entry e) rfl rfl
  case own => exact hL.ownSlot k _ (hown.outcome k sl hk ht)
  case posts =>
    rw [hL.posts (by rw [hY.mode, hr]; decide) (hY.pending.trans hp) (hown.ownless hno) (by rw [hY.events]; exact hroom), hY.events, hYu]
    rw [offlineRecord_eq]
    simp only [stamp, EventKind.ofLine, if_true, hY.cycnum]
    rfl

/-! ## A transaction that a STOP reason ends between attempts (R39, R41) -/

/-- The miss between attempts of a transaction that a STOP reason ends, in the words of the statement. -/
def offlineBetween (s : State) (n : LineId) (a : Attempt) (u : StationIx) (o : OutcomeCode) (t : State) : Prop :=
  t.station u = goneOffline o (s.station u)
    ∧ (∀ v, v ≠ u → t.station v = s.station v) ∧ (t.line n).attempt = none ∧ t.edges.getLsbD 14 = true
    ∧ (∀ k, k ∈ s.submitted → (s.slot k).state = .pending → (s.slot k).station = u → completedWith t k .stationOffline)
    ∧ (∀ k, a.origin = .acyclic k → completedWith t k .aborted)
    ∧ (∀ e, t.entry e = if a.origin = .cyclic e then { s.entry e with last := o } else s.entry e)

/-- A later step T of the end of a transaction between attempts, its posts offered, read in the statement's words. -/
theorem offlineBetween_of {s Y W T : State} {n : LineId} {a : Attempt} {u : StationIx} {o : OutcomeCode}
    {own : Option (SlotIx × OutcomeCode)} {ent : Option EntryIx} {gs gs' : Groups} (hO : OffFacts Y u o own ent W gs)
    (hown : ∀ k, a.origin = .acyclic k → own = some (k, .aborted)) (hnp : ∀ k x, own = some (k, x) → (s.slot k).state ≠ .pending)
    (hent : ∀ e, ent = some e ↔ a.origin = .cyclic e)
    (hstation : ∀ v, T.station v = W.station v) (hslot : ∀ k, T.slot k = W.slot k) (hentry : ∀ e, T.entry e = W.entry e)
    (hsub : T.submitted = W.submitted) (hedges : W.edges.getLsbD 14 = true → T.edges.getLsbD 14 = true)
    (hgs : ∀ k, completes gs.flatten k → completes gs'.flatten k) (hline : (T.line n).attempt = none)
    (hYstation : ∀ v, Y.station v = s.station v) (hYentry : ∀ e, Y.entry e = s.entry e)
    (hYpend : ∀ k, k ∈ Y.pendingOf u ↔ k ∈ s.pendingOf u) : offlineBetween s n a u o (T.flush gs') := by
  obtain ⟨h1, h2, h3, h4, h5, h6, h7⟩ := offFacts_flush s Y W T u o own ent gs gs' hO hstation hslot hentry hsub hedges hgs
    hYstation hYentry hYpend (fun k x hx hp => hnp k x hx ((mem_pendingOf s u k).1 hp).2.1)
  refine ⟨h1, h2, by rw [h3]; exact hline, h4, h5, fun k hk => h6 k _ (hown k hk), fun e => ?_⟩
  rw [h7]
  exact if_congr (hent e) rfl rfl

/-- The same where the step ends with `settle`. -/
theorem offlineBetween_settle {s Y W : State} {n : LineId} {a : Attempt} {u : StationIx} {o : OutcomeCode}
    {own : Option (SlotIx × OutcomeCode)} {ent : Option EntryIx} {gs : Groups} (hO : OffFacts Y u o own ent W gs)
    (hown : ∀ k, a.origin = .acyclic k → own = some (k, .aborted)) (hnp : ∀ k x, own = some (k, x) → (s.slot k).state ≠ .pending)
    (hent : ∀ e, ent = some e ↔ a.origin = .cyclic e) (hline : (Y.line n).attempt = none)
    (hYstation : ∀ v, Y.station v = s.station v) (hYentry : ∀ e, Y.entry e = s.entry e)
    (hYpend : ∀ k, k ∈ Y.pendingOf u ↔ k ∈ s.pendingOf u) : offlineBetween s n a u o (settle n (W, gs)) := by
  obtain ⟨md, pr, ed, g, hsettle, -, hedges, hnone⟩ := settle_shape n W gs
  rw [hsettle]
  refine offlineBetween_of hO hown hnp hent (fun v => setLine_station n _ W v) (fun k => setLine_slot n _ W k)
    (fun e => setLine_entry n _ W e) (setLine_submitted n _ W) (hedges 14) (fun k hk => ?_) ?_ hYstation hYentry hYpend
  · rw [List.flatten_append, completes_append]
    exact .inl hk
  · have hl : ({ W.setLine n (breakBegun (W.line n)) with mode := md, pendingRequest := pr, edges := ed } : State).line n
        = breakBegun (W.line n) := by cases n <;> rfl
    rw [hl, (breakBegun_frame _).2.2.1, hO.1 n]
    exact hline

/-- The record with which a STOP reason ends a transaction that waits between attempts (R39). -/
def stoppedRecord (a : Attempt) (x : StopReason) : Attempt := { a with stop := a.stop.add x, retryOwed := false }

/-- A POLL between attempts ends with its last outcome (R39, R41). -/
theorem stopTransaction_cyclic {X : State} {n : LineId} {a : Attempt} {u : StationIx} {o : OutcomeCode} {j : EntryIx} (x : StopReason)
    (ha : (X.line n).attempt = some a) (hr : a.retryOwed = true) (hu : a.station = some u) (ho : a.outcome = some o)
    (hj : a.origin = .cyclic j) :
    X.stopTransaction n x = (X.setAttempt n none).pollEnd j u false (stoppedRecord a x) o := by
  rw [stopTransaction_waiting X n x a u o ha hr hu ho (by simp [hj])]
  change X.endTransaction n (stoppedRecord a x) u o = _
  have hj' : (stoppedRecord a x).origin = .cyclic j := hj
  simp only [endTransaction, hj']

/-- A READ or WRITE between attempts ends with its last outcome (R39, R40). -/
theorem stopTransaction_acyclic {X : State} {n : LineId} {a : Attempt} {u : StationIx} {o : OutcomeCode} {k : SlotIx} (x : StopReason)
    (ha : (X.line n).attempt = some a) (hr : a.retryOwed = true) (hu : a.station = some u) (ho : a.outcome = some o)
    (hk : a.origin = .acyclic k) :
    X.stopTransaction n x = (X.setAttempt n none).acyclicEnd k u (stoppedRecord a x) o := by
  rw [stopTransaction_waiting X n x a u o ha hr hu ho (by simp [hk])]
  change X.endTransaction n (stoppedRecord a x) u o = _
  have hk' : (stoppedRecord a x).origin = .acyclic k := hk
  simp only [endTransaction, hk']

/-! ### LINE_BREAK -/

theorem lineArg_of {w : Word} {n : LineId} (h : w.toNat = lineNumber n) : lineArg w = some n := by
  have hw : w = BitVec.ofNat 16 (lineNumber n) := by rw [← h, BitVec.ofNat_toNat, BitVec.setWidth_eq]
  rw [hw]
  cases n <;> rfl

/-- LINE_BREAK past its checks (R47). -/
theorem exec_lineBreak {s : State} {n : LineId} (hacc : s.accepts) (harg : s.argIs 0 (lineNumber n)) (hm : s.mode ≠ .config)
    (he : (s.line n).enable = true) : exec .lineBreak s = .next ((s.takeCommand 0x0F).requestBreak n) := by
  simp only [exec, execLineBreak, hostCommand_of_accepts _ _ s hacc, lineBreakBody, takeCommand_arg, lineArg_of harg,
    takeCommand_mode, if_neg hm, State.takeCommand_line, he, Bool.not_true, Bool.false_eq_true, if_false]

/-- A request that finds no break under way reaches the transaction in flight (R48). -/
theorem requestBreak_waits {X : State} {n : LineId} (h : (X.line n).engine ≠ .breaking) :
    X.requestBreak n = settle n ((X.setLine n { X.line n with breakRequest := true }).stopTransaction n .brk) := by
  simp only [requestBreak, if_neg h, modifyLine]

/-- LINE_BREAK at a POLL between attempts (R39, R47). -/
theorem lineBreak_offline {s : State} {n : LineId} {a : Attempt} {u : StationIx} {o : OutcomeCode} {j : EntryIx}
    (h : betweenAttempts s n a u o) (ho : o.isMiss = true) (hm : s.mode = .run) (he : (s.line n).enable = true)
    (hl : reachesLimit (s.station u)) (hacc : s.accepts) (harg : s.argIs 0 (lineNumber n)) (hj : a.origin = .cyclic j) :
    ∃ t, exec .lineBreak s = .next t ∧ offlineBetween s n a u o t := by
  obtain ⟨heng, ha, hsync, hretry, hu, hout, -⟩ := h
  obtain ⟨W, gs, hend, hO⟩ := pollEnd_off (((s.takeCommand 0x0F).setLine n { s.line n with breakRequest := true }).setAttempt n none)
    j u false (stoppedRecord a .brk) o ho (by simpa [setAttempt, modifyLine] using hl)
    (by simp [setAttempt, modifyLine, parkWaits, takeCommand])
  have hstop : State.stopTransaction n .brk ((s.takeCommand 0x0F).setLine n { s.line n with breakRequest := true }) = (W, gs) := by
    rw [stopTransaction_cyclic .brk (by simp [ha]) hretry hu hout hj, hend]
  refine ⟨_, by rw [exec_lineBreak hacc harg (by simp [hm]) he, requestBreak_waits (by simp [heng]), State.takeCommand_line, hstop],
    offlineBetween_settle hO (fun k hk => ?_) (by simp) (fun e => by simp [hj]) ?_ (fun v => ?_) (fun e => ?_) fun k => ?_⟩
  · rw [hj] at hk; cases hk
  · simp [setAttempt, modifyLine]
  · simp [setAttempt, modifyLine]
  · simp [setAttempt, modifyLine]
  · rw [pendingOf_congr _ s u] <;> simp [setAttempt, modifyLine]

/-! ### ABORT -/

/-- ABORT of an ACTIVE slot whose transaction is in flight (R128). -/
theorem exec_abort_active {s : State} {k : SlotIx} {n : LineId} {a : Attempt} (hacc : s.accepts) (harg : s.argIs 0 k.val)
    (hstate : (s.slot k).state = .active) (hn : n = (s.station (s.slot k).station).line) (ha : (s.line n).attempt = some a)
    (ho : a.origin = .acyclic k) : exec .abort s = .next (settle n (State.stopTransaction n .abort
      (State.complete .ok 1 ((s.takeCommand 0x0B).setSlot k { s.slot k with state := .abortPending })))) := by
  have hslotLine : (s.takeCommand 0x0B).slotLine k = n := hn.symm
  have hany : ((s.takeCommand 0x0B).line n).attempt.any (fun a => a.origin == .acyclic k) = true := by
    rw [State.takeCommand_line, ha]
    simp [ho]
  have hk : index? 16 ((s.takeCommand 0x0B).arg 0) = some k := index?_some k harg
  have hs : ((s.takeCommand 0x0B).slot k).state = .active := hstate
  simp only [exec, execAbort, hostCommand_of_accepts _ _ s hacc, abortBody, hk, hs, hslotLine, hany, if_true]
  rfl

/-- ABORT at a READ or WRITE between attempts (R39, R129). -/
theorem abort_offline {s : State} {n : LineId} {a : Attempt} {u : StationIx} {o : OutcomeCode} {k : SlotIx}
    (h : betweenAttempts s n a u o) (ho : o.isMiss = true) (hl : reachesLimit (s.station u)) (hacc : s.accepts) (harg : s.argIs 0 k.val)
    (hk : a.origin = .acyclic k) (hstate : (s.slot k).state = .active) (hn : (s.station (s.slot k).station).line = n) :
    ∃ t, exec .abort s = .next t ∧ offlineBetween s n a u o t := by
  obtain ⟨heng, ha, hsync, hretry, hu, hout, -⟩ := h
  generalize hX : State.complete .ok 1 ((s.takeCommand 0x0B).setSlot k { s.slot k with state := .abortPending }) = X
  have hXslot : ∀ i, X.slot i = if k = i then { s.slot k with state := .abortPending } else s.slot i := fun i => by
    rw [← hX]; exact slot_setSlot k _ _ i
  have hpend : (X.setAttempt n none).pendingOf u = s.pendingOf u := by
    have hslot : ∀ i, (X.setAttempt n none).slot i = X.slot i := fun i => by simp [setAttempt, modifyLine]
    have hsub : (X.setAttempt n none).submitted = s.submitted := by rw [setAttempt, modifyLine, setLine_submitted, ← hX]; rfl
    unfold pendingOf pendingList
    rw [hsub, List.filter_filter, List.filter_filter]
    refine List.filter_congr fun i _ => ?_
    rw [hslot, hXslot]
    split
    · rename_i hi; subst hi; simp only [hstate]; rfl
    · rfl
  have hnp : k ∉ (X.setAttempt n none).pendingOf u := by
    rw [hpend, mem_pendingOf, hstate]
    simp
  have hXline : ∀ m, X.line m = s.line m := fun m => by rw [← hX]; cases m <;> rfl
  have hXstation : ∀ v, X.station v = s.station v := fun v => by rw [← hX]; rfl
  have hXentry : ∀ v, X.entry v = s.entry v := fun v => by rw [← hX]; rfl
  obtain ⟨W, gs, hend, hO⟩ := acyclicEnd_abort_off (X.setAttempt n none) k u (stoppedRecord a .abort) o ho
    (by simpa [setAttempt, modifyLine, hXstation] using hl) (by rw [parkWaits, setAttempt, modifyLine, setLine_cmdState, ← hX]; exact nofun)
    hnp rfl
  have hstop : X.stopTransaction n .abort = (W, gs) := by
    rw [stopTransaction_acyclic .abort (by rw [hXline, ha]) hretry hu hout hk, hend]
  refine ⟨_, by rw [exec_abort_active hacc harg hstate hn.symm ha hk, hX, hstop], offlineBetween_settle hO (fun i hi => ?_)
    (fun i x hx => ?_) (fun e => by simp [hk]) (by simp [setAttempt, modifyLine]) (fun v => ?_) (fun e => ?_) fun i => by rw [hpend]⟩
  · rw [hk] at hi; cases hi; rfl
  · cases hx; rw [hstate]; decide
  · simp [setAttempt, modifyLine, hXstation]
  · simp [setAttempt, modifyLine, hXentry]

/-! ### QUIESCE -/

/-- QUIESCE in RUN (R151, R156). -/
theorem exec_quiesce {s : State} (hm : s.mode = .run) (hp : s.pendingRequest = none) : exec .modereqQuiesce s = .next s.quiesce := by
  simp [exec, execModereqQuiesce, modeRequest, inInit, hm, hp]

/-- QUIESCE reaches a POLL between attempts (R39, R51). -/
theorem quiesceLine_offline {X : State} {n : LineId} {a : Attempt} {u : StationIx} {o : OutcomeCode} {j : EntryIx}
    (h : betweenAttempts X n a u o) (ho : o.isMiss = true) (he : (X.line n).enable = true) (hpk : ¬ parkWaits X u)
    (hl : reachesLimit (X.station u)) (hj : a.origin = .cyclic j) :
    ∃ W gs, X.quiesceLine n = (W.setLine n { W.line n with engine := .hold }, gs)
      ∧ OffFacts ((X.stopTimer n).setAttempt n none) u o none (some j) W gs := by
  obtain ⟨heng, ha, hsync, hretry, hu, hout, -⟩ := h
  obtain ⟨W, gs, hend, hO⟩ := pollEnd_off ((X.stopTimer n).setAttempt n none) j u false
    (stoppedRecord a .quiesce) o ho (by simpa [stopTimer, setAttempt, modifyLine] using hl)
    (by simpa [stopTimer, setAttempt, modifyLine, parkWaits] using hpk)
  have hstop : (X.stopTimer n).stopTransaction n .quiesce = (W, gs) := by
    rw [stopTransaction_cyclic .quiesce (by simp [stopTimer, modifyLine, ha]) hretry hu hout hj, hend]
  refine ⟨W, gs, quiesceLine_waiting X W n gs he hstop ?_ ?_, hO⟩
  · rw [hO.1 n]; simp [setAttempt, modifyLine]
  · rw [hO.1 n]; simp [setAttempt, stopTimer, modifyLine, heng]

/-- QUIESCE at a POLL between attempts (R39, R156). -/
theorem quiesce_offline {s : State} {n : LineId} {a : Attempt} {u : StationIx} {o : OutcomeCode} {j : EntryIx}
    (h : betweenAttempts s n a u o) (ho : o.isMiss = true) (hm : s.mode = .run) (he : (s.line n).enable = true) (hpk : ¬ parkWaits s u)
    (hl : reachesLimit (s.station u)) (hp : s.pendingRequest = none) (hj : a.origin = .cyclic j)
    (hother : ∀ m x, m ≠ n → (s.line m).attempt = some x → x.retryOwed = false) :
    ∃ t, exec .modereqQuiesce s = .next t ∧ offlineBetween s n a u o t := by
  rw [exec_quiesce hm hp]
  refine ⟨_, rfl, ?_⟩
  generalize hS : ({ s with mode := .quiescing, pendingRequest := some .quiesce } : State) = S
  have hSline : ∀ m, S.line m = s.line m := fun m => by rw [← hS]; cases m <;> rfl
  have hSstation : ∀ v, S.station v = s.station v := fun v => by rw [← hS]; rfl
  have hread : ∀ (X W : State) (gs : Groups), (∀ v, X.station v = s.station v) →
      (∀ e, X.entry e = s.entry e) → X.pendingOf u = s.pendingOf u →
      OffFacts ((X.stopTimer n).setAttempt n none) u o none (some j) W gs → ∀ T : State,
      (∀ v, T.station v = W.station v) → (∀ k, T.slot k = W.slot k) → (∀ e, T.entry e = W.entry e) → T.submitted = W.submitted →
      T.edges = W.edges → (T.line n).attempt = none → offlineBetween s n a u o (T.reachQuiesced.1.flush (gs ++ [T.reachQuiesced.2])) := by
    intro X W gs hXstation hXentry hXpend hO T hstation hslot hentry hsub hedges hline
    obtain ⟨md, pr, ed, g, hreach, hkeeps, -⟩ := reachQuiesced_shape T
    rw [hreach]
    refine offlineBetween_of hO (fun k hk => ?_) (by simp) (fun e => by simp [hj]) hstation hslot hentry hsub
      (fun h => hkeeps 14 (by rwa [hedges])) (fun k hk => ?_) ?_ (fun v => ?_) (fun e => ?_) fun k => ?_
    · rw [hj] at hk; cases hk
    · rw [List.flatten_append, completes_append]; exact .inl hk
    · have : ({ T with mode := md, pendingRequest := pr, edges := ed } : State).line n = T.line n := by cases n <;> rfl
      rw [this, hline]
    · simp [setAttempt, stopTimer, modifyLine, hXstation]
    · simp [setAttempt, stopTimer, modifyLine, hXentry]
    · rw [← hXpend, pendingOf_congr _ X u] <;> simp [setAttempt, stopTimer, modifyLine]
  cases n with
  | zero =>
    obtain ⟨W, gs, hq, hO⟩ := quiesceLine_offline (X := S) (j := j) (by simpa [betweenAttempts, hSline] using h) ho (by rwa [hSline])
      (by rw [← hS]; exact hpk) (by rwa [hSstation]) hj
    have hone : W.line .one = s.line .one := by rw [hO.1 .one]; simp [setAttempt, stopTimer, modifyLine, hSline]
    obtain ⟨l, hl⟩ := quiesceLine_quiet (W.setLine .zero { W.line .zero with engine := .hold }) .one fun x hx =>
      hother .one x (by decide) (by rwa [line_setLine, if_neg (by decide), hone] at hx)
    rw [quiesce_eq s _ S hS.symm gs [] _ hq hl, List.append_nil]
    refine hread S W gs hSstation (fun e => by rw [← hS]; rfl) (by rw [← hS]; rfl) hO _ (fun v => by simp) (fun k => by simp)
      (fun e => by simp) (by simp) (by simp) ?_
    rw [line_setLine, if_neg (by decide), line_setLine, if_pos rfl]
    exact (congrArg Line.attempt (hO.1 .zero)).trans (by simp [setAttempt, modifyLine])
  | one =>
    obtain ⟨l, hquiet⟩ := quiesceLine_quiet S .zero fun x hx => hother .zero x (by decide) (by rwa [hSline] at hx)
    have hX : betweenAttempts (S.setLine .zero l) .one a u o := by
      simpa [betweenAttempts, line_setLine, hSline] using h
    obtain ⟨W, gs, hq, hO⟩ := quiesceLine_offline (X := S.setLine .zero l) (j := j) hX ho (by simpa [line_setLine, hSline] using he)
      (by rw [← hS]; exact hpk) (by simpa [hSstation] using hl) hj
    rw [quiesce_eq s _ S hS.symm [] gs _ hquiet hq, List.nil_append]
    refine hread (S.setLine .zero l) W gs (fun v => by simp [hSstation]) (fun e => by rw [← hS]; rfl) (by rw [← hS]; rfl) hO _
      (fun v => by simp) (fun k => by simp) (fun e => by simp) (by simp) (by simp) ?_
    rw [line_setLine, if_pos rfl]
    exact (congrArg Line.attempt (hO.1 .one)).trans (by simp [setAttempt, modifyLine])

/-- Settles O15: the end of an attempt, and the three STOP reasons between attempts. -/
theorem stationReachesOffline : Obligations.StationReachesOffline := by
  refine ⟨fun n s c o l a u m b h ho hu hm _ => attemptEnds_stationOffline n s c o l a u m b h ho hu hm, ?_⟩
  intro n s c a u o h ho hm he hpk hl hc
  rcases hc with ⟨rfl, hacc, harg, j, hj⟩ | ⟨rfl, hp, ⟨j, hj⟩, hother⟩ | ⟨rfl, hacc, k, harg, hk, hstate, hn⟩
  · exact lineBreak_offline h ho hm he hl hacc harg hj
  · exact quiesce_offline h ho hm he hpk hl hp hj hother
  · exact abort_offline h ho hl hacc harg hk hstate hn

end Sys2Proof.Machine
end

section
/-!
SUPPORT. Turnarounds and decision points (R25 to R29, R36): the next attempt of an owed retry, and what a decision takes.
-/

namespace Sys2Proof.Machine

open State

/-! ## The start of an attempt (R25, R29) -/

/-- An attempt starts: the station's SEQ advances and the frame begins (R25, R29). -/
theorem startAttempt_eq (n : LineId) (number : Nat) (a : Attempt) (u : StationIx) (s : State) (l : Line) :
    (s.setLine n { l with settled := true }).startAttempt n number a u
      = (s.setStation u { s.station u with seq := (s.station u).seq + 1 }).setLine n (sending l (a.begin number (s.station u).seq)
        (requestFrame a.kind (s.station u).address (s.station u).seq (s.requestPayload a.origin a.reqLen))) := by
  simp only [startAttempt, sendFrame, modifyStation, modifyLine, setLine_station, setStation_line, line_setLine, if_true,
    requestPayload_setLine, setLine_setStation, setLine_setLine]
  rfl

/-- Settles O21: `turnaroundEnd` with a record that waits. -/
theorem owedRetryStartsTheNextAttempt : Obligations.OwedRetryStartsTheNextAttempt := by
  intro n s a u m h ha ho hr hu hm st a1
  obtain ⟨he, hq⟩ := h
  have hwaits : a.waits = true := by simp [Attempt.waits, Attempt.isTransaction, ho, hr]
  have hend : exec (.turnaroundSatisfied n) s
      = .next ((s.setLine n { s.line n with settled := true }).startAttempt n (m + 1) a u) := by
    simp [exec, execTurnaroundSatisfied, (quiet_iff _).2 hq, he, turnaroundEnd, modifyLine, ha, hwaits, hu, hm]
  rw [hend, startAttempt_eq]
  rfl

/-! ## Decision points (R26, R27) -/

theorem decisionPoint_break {n : LineId} {X : State} (hb : (X.line n).breakRequest = true) : X.decisionPoint n = X.startBreak n := by
  simp [decisionPoint, hb]

theorem decisionPoint_sync {n : LineId} {X : State} (hb : (X.line n).breakRequest = false) (hs : (X.line n).syncOwed = true) :
    X.decisionPoint n = X.takeSync n := by
  simp [decisionPoint, hb, hs]

theorem decisionPoint_acyclic {n : LineId} {X : State} (hb : (X.line n).breakRequest = false) (hs : (X.line n).syncOwed = false)
    (hp : (X.line n).phase = .acyclic) : X.decisionPoint n = X.acyclicChoice n := by
  simp [decisionPoint, hb, hs, hp]

theorem decisionPoint_cyclic {n : LineId} {X : State} (hb : (X.line n).breakRequest = false) (hs : (X.line n).syncOwed = false)
    (hp : (X.line n).phase = .cyclic) : X.decisionPoint n = X.cyclicChoice n := by
  simp [decisionPoint, hb, hs, hp]

/-- Step 3.1 takes an urgent slot when the urgent mark is clear. -/
theorem cyclicChoice_urgent {n : LineId} {X : State} {k : SlotIx} (hu : (X.line n).urgent = false) (hk : X.eligibleOf n 3 = some k) :
    X.cyclicChoice n = X.takeSlot n k := by
  simp only [cyclicChoice, hu, Bool.false_eq_true, if_false, hk]

/-- Otherwise the walk goes on. -/
theorem cyclicChoice_walk {n : LineId} {X : State} (h : (X.line n).urgent = true ∨ X.eligibleOf n 3 = none) :
    X.cyclicChoice n = X.walkChoice n := by
  rcases h with h | h
  · simp only [cyclicChoice, h, if_true]
  · simp only [cyclicChoice, h, ite_self]

theorem walkChoice_take {n : LineId} {X : State} {e : EntryIx} {p : Bool} (h : X.nextDue n = some (e, p)) :
    X.walkChoice n = X.takeEntry n e p := by
  simp only [walkChoice, h]

/-- The walk ends when no due entry is left (R62). -/
theorem walkChoice_ended {n : LineId} {X : State} (h : ∀ j : EntryIx, (X.line n).walk.val ≤ j.val → X.due n (X.line n).cycnum j = none) :
    X.walkChoice n = (X.endCyclic n).acyclicChoice n := by
  have hnext : X.nextDue n = none := by
    rw [nextDue, firstSome_eq_none_iff]
    intro j hj
    have hw : (X.line n).walk.val ≤ j.val := by simpa [entriesAhead] using hj
    simp [h j hw]
  simp only [walkChoice, hnext]

theorem acyclicChoice_take {n : LineId} {X : State} {k : SlotIx} (h : X.bestSlot n = some k) : X.acyclicChoice n = X.takeSlot n k := by
  simp only [acyclicChoice, h]

theorem acyclicChoice_idle {n : LineId} {X : State} (h : X.bestSlot n = none) : X.acyclicChoice n = X.setEngine n .idle := by
  simp only [acyclicChoice, h]

/-- The end of the cyclic phase (R56). -/
theorem endCyclic_eq (n : LineId) (l : Line) (s : State) : State.endCyclic n (s.setLine n { l with settled := true })
    = { s.setLine n { ({ l with phase := .acyclic, walk := 64 } : Line) with settled := true } with edges := s.edges ||| cycleEndBit n } := by
  simp only [endCyclic, raise, modifyLine, line_setLine, if_true, setLine_setLine, setLine_edges, cycleEnd_flag]

theorem bestSlot_withEdges (n m : LineId) (l : Line) (w : Word) (s : State) :
    ({ s.setLine n l with edges := w } : State).bestSlot m = s.bestSlot m := bestSlot_setLine s n m l

/-- The take of a slot with the flags as they are. -/
theorem takeSlot_taken (s : State) (n : LineId) (k : SlotIx) (l : Line) : ∃ a, slotAttempt s k a
    ∧ (s.setLine n { l with settled := true }).takeSlot n k
      = slotTaken s n (if l.phase = .cyclic then { l with urgent := true } else l) k a := by
  obtain ⟨a, hslot, htake⟩ := takeSlot_slotTaken s n k l s.edges
  have hself : ∀ X : State, X.edges = s.edges → ({ X with edges := s.edges } : State) = X := fun X hX => by rw [← hX]
  rw [hself _ (by simp), hself _ (by simp [slotTaken])] at htake
  exact ⟨a, hslot, htake⟩

/-- Settles O22: steps 1, 2 and 5 of the decision. -/
theorem decisionsBeforeAndAfterTheWalk : Obligations.DecisionsBeforeAndAfterTheWalk := by
  refine ⟨fun n s h => ⟨fun hb => ?brk, fun hb hsync => ?sync⟩, fun n s h hb hsync hph hel hdue => ?idle⟩
  case brk =>
    rw [exec_decision n s h, decisionPoint_break (by simpa using hb)]
    simp only [startBreak, modifyLine, Line.startBreak, line_setLine, if_true, setLine_setLine]
  case sync =>
    refine ⟨Attempt.fresh .sync none .sync 2, rfl, rfl, rfl, rfl, rfl, rfl, ?_⟩
    rw [exec_decision n s h, decisionPoint_sync (by simpa using hb) (by simpa using hsync)]
    simp only [takeSync, sendFrame, modifyLine, line_setLine, if_true, setLine_setLine]
    rfl
  case idle =>
    rw [exec_decision n s h, decisionPoint_cyclic (by simpa using hb) (by simpa using hsync) (by simpa using hph),
      cyclicChoice_walk (.inr (by rw [eligibleOf_setLine, eligibleOf_none s n hel])), walkChoice_ended (by simpa using hdue), endCyclic_eq,
      acyclicChoice_idle (by rw [bestSlot_withEdges, bestSlot_none s n hel])]
    simp only [setEngine, modifyLine]
    cases n <;> rfl

/-- Settles O25: the best slot of R27 step 4. -/
theorem acyclicPhaseTakesTheBestSlot : Obligations.AcyclicPhaseTakesTheBestSlot := by
  intro n s k before after h hb hs hp hlist hk hbefore hafter
  obtain ⟨a, ⟨ho, hst, hkind, hatt, hlen, hseq, -, -⟩, htake⟩ := takeSlot_taken s n k (s.line n)
  refine ⟨a, ho, hst, hkind, hatt, hlen, hseq, ?_⟩
  rw [exec_decision n s h, decisionPoint_acyclic (by simpa using hb) (by simpa using hs) (by simpa using hp),
    acyclicChoice_take (by rw [bestSlot_setLine, bestSlot_eq s n k before after hlist hk hbefore hafter]), htake,
    if_neg (by rw [hp]; decide)]
  rfl

/-- Settles O26: the urgent slot before the walk, and the best slot once the walk has ended. -/
theorem urgentTakeAndTheTakeAfterTheWalk : Obligations.UrgentTakeAndTheTakeAfterTheWalk := by
  intro n s k before after h hb hs hp hlist hk
  refine ⟨fun hu hprio hbefore => ?urgent, fun hdue hurgent hbefore hafter => ?walked⟩
  case urgent =>
    obtain ⟨a, hslot, htake⟩ := takeSlot_taken s n k (s.line n)
    have hfirst : s.eligibleOf n 3 = some k := by
      rw [eligibleOf, hlist]
      refine find?_first _ before after k (fun j hj => ?_) (by simp [hk, hprio])
      cases hj' : s.eligible n j
      · rfl
      · exact beq_eq_false_iff_ne.2 (hbefore j hj hj')
    refine ⟨a, hslot, ?_⟩
    rw [exec_decision n s h, decisionPoint_cyclic (by simpa using hb) (by simpa using hs) (by simpa using hp),
      cyclicChoice_urgent (by simpa using hu) (by rw [eligibleOf_setLine, hfirst]), htake, if_pos hp]
  case walked =>
    obtain ⟨a, hslot, htake⟩ := takeSlot_slotTaken s n k { s.line n with phase := .acyclic, walk := 64 } (s.edges ||| cycleEndBit n)
    have hwalk : (s.line n).urgent = true ∨ s.eligibleOf n 3 = none := hurgent.imp id (eligibleOf_none_of s n 3)
    refine ⟨a, hslot, ?_⟩
    rw [exec_decision n s h, decisionPoint_cyclic (by simpa using hb) (by simpa using hs) (by simpa using hp),
      cyclicChoice_walk (by simpa using hwalk), walkChoice_ended (by simpa using hdue), endCyclic_eq,
      acyclicChoice_take (by rw [bestSlot_withEdges, bestSlot_eq s n k before after hlist hk hbefore hafter]), htake,
      if_neg nofun]

/-! ## The take of an entry (R29, R62, R102) -/

/-- The output swap changes entries and owners alone (R102). -/
theorem swapOutput_frame (e : EntryIx) (s : State) : ∃ E O, s.swapOutput e = { s with entries := E, owners := O } := by
  unfold swapOutput
  simp only []
  split
  · exact ⟨s.entries, s.owners, rfl⟩
  · split
    · exact ⟨_, _, rfl⟩
    · exact ⟨s.entries, s.owners, rfl⟩

theorem swapOutput_setLine (e : EntryIx) (n : LineId) (l : Line) (s : State) :
    (s.setLine n l).swapOutput e = (s.swapOutput e).setLine n l := by
  unfold swapOutput
  simp only [setLine_entry]
  split
  · rfl
  · split
    · cases n <;> rfl
    · rfl

/-- The swap leaves every other entry, and the entry's station. -/
theorem swapOutput_entry (e j : EntryIx) (s : State) : (j ≠ e → (s.swapOutput e).entry j = s.entry j)
    ∧ ((s.swapOutput e).entry e).station = (s.entry e).station := by
  unfold swapOutput
  simp only []
  split
  · exact ⟨fun _ => rfl, rfl⟩
  · split
    · exact ⟨fun hj => by simp [Ne.symm hj], by simp⟩
    · exact ⟨fun _ => rfl, rfl⟩

/-- Nothing is swapped without a commit that waits, or without a binding (R102). -/
theorem swapOutput_idle {e : EntryIx} {s : State} (h : (s.entry e).commitPending = false ∨ (s.entry e).binding = none) :
    s.swapOutput e = s := by
  unfold swapOutput
  rcases h with h | h
  · simp only [h, Bool.false_eq_true, if_false]
    split <;> rfl
  · simp only [h]

/-- A waiting commit swaps the pair (R102). -/
theorem swapOutput_swaps {e : EntryIx} {s : State} {p : BlockIx × BlockIx} (hc : (s.entry e).commitPending = true)
    (hp : (s.entry e).binding = some p) (hne : p.1 ≠ p.2) :
    (s.swapOutput e).entry e = { s.entry e with
        active := if (s.entry e).active = .a then .b else .a, outputLen := (s.entry e).stagedLen, commitPending := false }
      ∧ ∀ b, (s.swapOutput e).owner b = if b = p.1 then (if (s.entry e).active = .a then .outputStaged e else .outputActive e)
          else if b = p.2 then (if (s.entry e).active = .a then .outputActive e else .outputStaged e) else s.owner b := by
  cases hact : (s.entry e).active <;> refine ⟨by simp [swapOutput, hp, hc, hact, Side.flip], fun b => ?_⟩ <;>
    by_cases h1 : b = p.1 <;> by_cases h2 : b = p.2 <;>
    simp [swapOutput, hp, hc, hact, Side.flip, pairBlock, h1, h2, hne, Ne.symm hne, eq_comm (a := p.1), eq_comm (a := p.2)]

/-- A due entry is taken, in the words of the statement (R29, R62, R66). -/
theorem takeEntry_taken (n : LineId) (e : EntryIx) (probe : Bool) (s : State) : ∃ a,
    a.origin = (if probe then .probe e else .cyclic e) ∧ a.station = some (s.entry e).station ∧ a.kind = .poll
      ∧ a.attempt = some 1 ∧ a.seqSent = (s.station (s.entry e).station).seq
      ∧ a.reqLen = (if ((s.swapOutput e).entry e).binding = none then 0 else ((s.swapOutput e).entry e).outputLen.toNat)
      ∧ a.stop = noStop ∧ a.retryOwed = false
      ∧ (s.setLine n { s.line n with settled := true }).takeEntry n e probe
        = ((s.swapOutput e).setLine n { sending (s.line n) a (requestFrame .poll (s.station (s.entry e).station).address
              (s.station (s.entry e).station).seq ((s.swapOutput e).requestPayload a.origin a.reqLen)) with
            walk := e.succ, urgent := false }).setStation (s.entry e).station { s.station (s.entry e).station with
              seq := (s.station (s.entry e).station).seq + 1
              probeDue := if probe then false else (s.station (s.entry e).station).probeDue } := by
  obtain ⟨E, O, hframe⟩ := swapOutput_frame e s
  have hentry := (swapOutput_entry e e s).2
  have hline : (s.swapOutput e).line n = s.line n := by rw [hframe]; cases n <;> rfl
  have hstation : ∀ v, (s.swapOutput e).station v = s.station v := fun v => by rw [hframe]; rfl
  refine ⟨(Attempt.fresh (if probe then .probe e else .cyclic e) (some (s.entry e).station) .poll
    (if ((s.swapOutput e).entry e).binding = none then 0 else ((s.swapOutput e).entry e).outputLen.toNat)).begin 1
      (s.station (s.entry e).station).seq, rfl, rfl, rfl, rfl, rfl, rfl, rfl, rfl, ?_⟩
  have hlen : (if ((s.swapOutput e).entry e).binding.isSome = true then ((s.swapOutput e).entry e).outputLen.toNat else 0)
      = if ((s.swapOutput e).entry e).binding = none then 0 else ((s.swapOutput e).entry e).outputLen.toNat := by
    cases ((s.swapOutput e).entry e).binding <;> rfl
  simp only [takeEntry, swapOutput_setLine, setLine_entry, hlen, hentry]
  generalize s.swapOutput e = S at *
  have hwalked : ∀ X : State, (X.setLine n { s.line n with settled := true }).modifyLine n (fun l => { l with walk := e.succ, urgent := false })
      = X.setLine n { ({ s.line n with walk := e.succ, urgent := false } : Line) with settled := true } := fun X => by
    simp only [modifyLine, line_setLine, if_true, setLine_setLine]
  cases probe with
  | false =>
    simp only [Bool.false_eq_true, if_false]
    rw [hwalked, startAttempt_eq, hstation, setLine_setStation]
    rfl
  | true =>
    simp only [if_true, modifyStation, setLine_station, hstation, ← setLine_setStation]
    rw [hwalked, startAttempt_eq, station_setStation, if_pos rfl, setStation_setStation, requestPayload_setStation]
    rfl

/-- Settles O24: the next due entry of R62, taken. -/
theorem walkTakesTheNextDueEntry : Obligations.WalkTakesTheNextDueEntry := by
  intro n s e probe h hb hs hp hu hw hd hbefore
  obtain ⟨a, ho, hst, hkind, hatt, hseq, hlen, hstop, hretry, htake⟩ := takeEntry_taken n e probe s
  obtain ⟨E, O, hframe⟩ := swapOutput_frame e s
  have hexec : exec (.turnaroundSatisfied n) s = .next ((s.setLine n { s.line n with settled := true }).takeEntry n e probe) := by
    rw [exec_decision n s h, decisionPoint_cyclic (by simpa using hb) (by simpa using hs) (by simpa using hp),
      cyclicChoice_walk (by simpa using hu), walkChoice_take (nextDue_eq _ n e probe (by simpa using hw) (by simpa using hd)
        (by simpa using hbefore))]
  refine ⟨_, a, hexec, ho, hst, hkind, hatt, hseq, ?_⟩
  rw [htake]
  have hentry : ∀ j, (((s.swapOutput e).setLine n { sending (s.line n) a (requestFrame .poll (s.station (s.entry e).station).address
      (s.station (s.entry e).station).seq ((s.swapOutput e).requestPayload a.origin a.reqLen)) with
        walk := e.succ, urgent := false }).setStation (s.entry e).station { s.station (s.entry e).station with
          seq := (s.station (s.entry e).station).seq + 1
          probeDue := if probe then false else (s.station (s.entry e).station).probeDue }).entry j = (s.swapOutput e).entry j := fun j => by
    rw [setStation_entry, setLine_entry]
  refine ⟨by rw [hentry]; exact hlen, hstop, hretry, ?_, fun j hj => ?_, fun hidle => ?_, fun p hc hbind hne => ?_⟩
  · rw [requestPayload_setStation, requestPayload_setLine]
    rw [hframe]
    cases n <;> rfl
  · rw [hentry]
    exact (swapOutput_entry e j s).1 hj
  · rw [hentry, swapOutput_idle hidle]
    exact ⟨rfl, by simp⟩
  · obtain ⟨hswap, hown⟩ := swapOutput_swaps hc hbind hne
    refine ⟨by rw [hentry]; exact hswap, fun b => ?_⟩
    rw [setStation_owner, setLine_owner]
    exact hown b

end Sys2Proof.Machine
end

section
/-!
SUPPORT. Line breaks (R17, R47 to R49) and the expiry of a cycle timer (R53, R55, R68 to R70).
-/

namespace Sys2Proof.Machine

open State

/-! ## Line breaks -/

/-- The LINE_BREAK that is BUSY names line n (R49, R171). -/
theorem waitingBreak_iff (s : State) (n : LineId) :
    s.waitingBreak = some n ↔ s.cmdState = .busy ∧ s.cmd = 0x0F ∧ (s.args.get 0).toNat = lineNumber n := by
  have hcond : (s.cmdState = .busy ∧ s.cmd = lineBreakCode) ↔ (s.cmdState = .busy ∧ s.cmd = 0x0F) := Iff.rfl
  have harg : lineArg (s.arg 0) = some n ↔ (s.args.get 0).toNat = lineNumber n := by
    refine ⟨fun h => ?_, lineArg_of⟩
    unfold lineArg at h
    split at h
    · rename_i h0
      cases h
      exact congrArg BitVec.toNat h0
    · split at h
      · rename_i h1
        cases h
        exact congrArg BitVec.toNat h1
      · exact absurd h (by simp)
  unfold waitingBreak
  rw [← harg]
  by_cases hc : s.cmdState = .busy ∧ s.cmd = lineBreakCode
  · rw [if_pos hc]
    have hc' := hcond.1 hc
    exact ⟨fun h => ⟨hc'.1, hc'.2, h⟩, fun h => h.2.2⟩
  · rw [if_neg hc]
    exact ⟨fun h => absurd h (by simp), fun h => absurd (hcond.2 ⟨h.1, h.2.1⟩) hc⟩

/-- The line once the guard of its break has ended (R7, R49, R51). -/
def brokenLine (m : Mode) (l : Line) : Line :=
  { l with drive := .released, faults := 0, faulted := false, rx := .waitHigh, settled := false, engine := restState m }

/-- The notice of a break that ends on a faulted line (R49). -/
def restoredPosts (n : LineId) (restored : Bool) : Groups :=
  [if restored then [.notice (lineRestoredNotice n)] else []]

/-- The end of a guard that completes no command. -/
theorem breakEnd_unawaited {n : LineId} {s : State} (h : s.waitingBreak ≠ some n) :
    s.breakEnd n = settle n (s.setLine n (brokenLine s.mode (s.line n)), restoredPosts n (s.line n).faulted) := by
  simp only [breakEnd, modifyLine, if_neg h]
  rfl

/-- The end of a guard a LINE_BREAK waits for (R49). -/
theorem breakEnd_awaited {n : LineId} {s : State} (h : s.waitingBreak = some n) :
    s.breakEnd n = settle n ((s.setLine n (brokenLine s.mode (s.line n))).complete .ok (if (s.line n).faulted then 1 else 0),
      restoredPosts n (s.line n).faulted) := by
  simp only [breakEnd, modifyLine, if_pos h]
  rfl

/-- With no further break waiting the rest of the step is the notice. -/
theorem settle_broken {n : LineId} {s X : State} (restored : Bool) (hq : s.mode = .quiescing → othersActive s n)
    (hb : (s.line n).breakRequest = false) (hm : X.mode = s.mode)
    (hl : ∀ m, X.line m = if n = m then brokenLine s.mode (s.line n) else s.line m) :
    settle n (X, restoredPosts n restored)
      = if restored then X.offerNotice (lineRestoredNotice n) else X := by
  rw [settle_rest]
  · unfold restoredPosts
    rw [flush_single]
    cases restored <;> rfl
  · intro hX
    obtain ⟨m, hmn, he, hh, hf⟩ := hq (hm ▸ hX)
    have hlm : X.line m = s.line m := by rw [hl m, if_neg (Ne.symm hmn)]
    exact allAtRest_false X m (by rw [hlm]; exact he) (by rw [hlm]; exact hh) (by rw [hlm]; exact hf)
  · rw [hl n, if_pos rfl]
    exact hb

theorem exec_lineBreakEnd {n : LineId} {s : State} (he : (s.line n).engine = .breaking) (hd : (s.line n).drive = .breakGuard) :
    exec (.lineBreakEnd n) s = .next (s.breakEnd n) := by
  simp only [exec, execLineBreakEnd, he, hd, and_self, if_true]

/-- Settles O27: the start is `startWaitingBreak_eq`, the end `breakEnd` with nothing else to settle. -/
theorem lineBreakOnTheLine : Obligations.LineBreakOnTheLine := by
  refine ⟨fun n s => ⟨?_, ?_, ?_, rfl, rfl, rfl, rfl⟩, ?_⟩
  · intro hb ha he
    simp only [exec, execBreakStart, startWaitingBreak_eq]
    rw [breakBegun, if_pos ⟨hb, ha, he⟩]
  · intro h
    have hstays : breakBegun (s.line n) = s.line n := by
      rcases h with h | h
      · exact breakBegun_none _ h
      · exact breakBegun_held _ h
    simp only [exec, execBreakStart, startWaitingBreak_eq, hstays, setLine_line]
  · intro he hd
    simp only [exec, execBreakLowEnd, he, hd, and_self, if_true, modifyLine]
  · intro n s he hd hq hb line restored
    have hline : line = brokenLine s.mode (s.line n) := by
      simp only [line, brokenLine, restState_eq]
    have hrestored : restored = if (s.line n).faulted then (s.setLine n (brokenLine s.mode (s.line n))).offerNotice
        (lineRestoredNotice n) else s.setLine n (brokenLine s.mode (s.line n)) := by
      simp only [restored, hline]
      rfl
    rw [exec_lineBreakEnd he hd]
    refine ⟨fun hc => ?_, fun hc h15 harg => ?_⟩
    · rw [breakEnd_unawaited (fun h => hc ((waitingBreak_iff s n).1 h).1),
        settle_broken _ hq hb (by simp) (fun m => by rw [line_setLine]), hrestored]
    · rw [breakEnd_awaited ((waitingBreak_iff s n).2 ⟨hc, h15, harg⟩),
        settle_broken _ hq hb (by simp [complete, raise]) (fun m => by
          rw [← line_setLine]; cases m <;> rfl), hrestored]
      congr 1
      cases (s.line n).faulted
      · rfl
      · simp only [if_true]
        rw [← complete_offerNotice]
        rfl

/-! ## The expiry of a cycle timer -/

/-- Which case an expiry is (R68 to R70). -/
theorem expiryCase_faulted {l : Line} (h : l.faulted = true) : l.expiryCase = .faultedLine := by simp [Line.expiryCase, h]

theorem expiryCase_overrun {l : Line} (hf : l.faulted = false) (hp : l.phase = .cyclic) : l.expiryCase = .overrun := by
  simp [Line.expiryCase, hf, hp]

theorem expiryCase_late {l : Line} {a : Attempt} {k : SlotIx} (hf : l.faulted = false) (hp : l.phase = .acyclic)
    (ha : l.attempt = some a) (ho : a.origin = .acyclic k) : l.expiryCase = .lateStart := by
  simp [Line.expiryCase, hf, hp, ha, Attempt.isAcyclic, ho]

theorem expiryCase_regular {l : Line} (hf : l.faulted = false) (hp : l.phase = .acyclic)
    (ha : ∀ a k, l.attempt = some a → a.origin ≠ .acyclic k) : l.expiryCase = .regular := by
  have hacyclic : l.attempt.any Attempt.isAcyclic = false := by
    cases h : l.attempt with
    | none => rfl
    | some a =>
      have := fun k => ha a k h
      cases ho : a.origin <;> simp_all [Attempt.isAcyclic]
  simp [Line.expiryCase, hf, hp, hacyclic]

/-- The state a cycle start answers, from its accounting of entries and flags, before the accounting's notice. -/
def cycleLeft (n : LineId) (s : State) (E : Vector Entry 64) (ed : Word) : State :=
  ({ s.setLine n (breakBegun (cycleOpened (s.line n))) with
      entries := E, edges := ed ||| cycleStartBit n, stations := (s.stationsCycleStart n).stations } : State).releaseDeferred n

theorem cycleLeft_handedOver (n : LineId) (s : State) (E : Vector Entry 64) (ed : Word) :
    cycleHandedOver n s (cycleLeft n s E ed) := releaseDeferred_handedOver n s _ _ E _ rfl

/-- A start without accounting (R69, R70). -/
theorem exec_cycleStart_plain {n : LineId} {s : State} (hx : expires s n)
    (hc : (s.line n).expiryCase = .faultedLine ∨ (s.line n).expiryCase = .regular) :
    exec (.cycleStart n) s = .next (cycleLeft n s s.entries s.edges) := by
  have key : ∀ c, (s.line n).expiryCase = c → c = .faultedLine ∨ c = .regular →
      exec (.cycleStart n) s = .next (cycleLeft n s s.entries s.edges) := by
    intro c hcase hc
    rw [exec_cycleStart n s (s.loadTimer n ((s.line n).cycnum + 1)) c s.entries s.edges [] hx hcase
      (by rintro rfl; simp at hc) (by rcases hc with rfl | rfl <;> rfl) (by cases n <;> rfl)]
    rfl
  exact key _ rfl hc

/-- An expiry whose accounting leaves the entries E, raises OVERRUN_n and posts N (R68, R69). -/
def accounts (n : LineId) (s : State) (E : Vector Entry 64) (N : Event) : Prop :=
  ∃ c, c ≠ .startOfRunning ∧ (s.line n).expiryCase = c
    ∧ (s.loadTimer n ((s.line n).cycnum + 1)).cycleAccounting n (s.line n).cycnum c
      = ({ s.setLine n (timedLine (s.line n)) with entries := E, edges := s.edges ||| overrunBit n }, [.notice N])

/-- A late start accounts for no entry (R69). -/
theorem accounts_late {n : LineId} {s : State} {a : Attempt} {k : SlotIx} (hf : (s.line n).faulted = false)
    (hp : (s.line n).phase = .acyclic) (ha : (s.line n).attempt = some a) (ho : a.origin = .acyclic k) :
    accounts n s s.entries {
      kind := .cycleLate, line := n, station := 0, detailA := 0, detailB := 0, cycle := 0, extra := 0 } :=
  ⟨.lateStart, by simp, expiryCase_late hf hp ha ho, cycleAccounting_late n s⟩

/-- An overrun accounts for the entries that remain (R68). -/
theorem accounts_overrun {n : LineId} {s : State} (hf : (s.line n).faulted = false) (hp : (s.line n).phase = .cyclic) :
    ∃ E skipped, accounts n s E (overrunRecord n skipped.length) ∧ ∀ b : State, b.entries = E → entriesSkipped n s b skipped := by
  obtain ⟨E, hacc, hE⟩ := cycleAccounting_overrun n s
  exact ⟨E, _, ⟨.overrun, by simp, expiryCase_overrun hf hp, hacc⟩, fun b hb =>
    entriesSkipped_of n s (s.loadTimer n ((s.line n).cycnum + 1)) b E hb (by cases n <;> rfl) (fun e => by cases n <;> rfl)
      (fun u => by cases n <;> rfl) hE⟩

/-- A start with its accounting's notice. -/
theorem exec_cycleStart_noted {n : LineId} {s : State} {E : Vector Entry 64} {e : Event} (hx : expires s n) (h : accounts n s E e) :
    exec (.cycleStart n) s = .next ((cycleLeft n s E (s.edges ||| overrunBit n)).offerNotice e) := by
  obtain ⟨c, hc, hcase, hacc⟩ := h
  rw [exec_cycleStart n s _ c E _ _ hx hcase hc hacc rfl, flush_single]
  exact congrArg Host.Outcome.next (offerNotice_releaseDeferred e n _)

/-- A notice leaves the record tables as they are. -/
theorem offerNotice_tables (e : Event) (s : State) : (s.offerNotice e).stations = s.stations ∧ (s.offerNotice e).slots = s.slots
    ∧ (s.offerNotice e).entries = s.entries := by
  rw [offerNotice_eq]
  split <;> exact ⟨rfl, rfl, rfl⟩

/-- Settles O28: `exec_cycleStart` in the cases without an overrun. -/
theorem cycleStartWithoutOverrun : Obligations.CycleStartWithoutOverrun := by
  refine ⟨fun n s hx h => ?_, fun n s a k hx hf hp ha ho => ?_⟩
  · have hcase : (s.line n).expiryCase = .faultedLine ∨ (s.line n).expiryCase = .regular := by
      cases hf : (s.line n).faulted
      · rcases h with h | ⟨hp, ha⟩
        · exact absurd h (by simp [hf])
        · exact .inr (expiryCase_regular hf hp ha)
      · exact .inl (expiryCase_faulted hf)
    refine ⟨_, exec_cycleStart_plain hx hcase, ?_, cycleLeft_handedOver n s _ _⟩
    cases n <;> rfl
  · refine ⟨_, exec_cycleStart_noted hx (accounts_late hf hp ha ho), ?_, handedOver_offerNotice n s _ _ (cycleLeft_handedOver n s _ _)⟩
    rw [(offerNotice_tables _ _).1, (offerNotice_tables _ _).2.1, State.or_right_comm]
    congr 1
    cases n <;> rfl

/-- Settles O29: `exec_cycleStart` with the accounting of an overrun. -/
theorem overrunSkipsTheRemainingEntries : Obligations.OverrunSkipsTheRemainingEntries := by
  intro n s hx hf hp
  obtain ⟨E, skipped, hacc, hE⟩ := accounts_overrun hf hp
  obtain ⟨hnodup, hmem, hskipped, hkept⟩ := hE (cycleLeft n s E (s.edges ||| overrunBit n)) rfl
  refine ⟨_, _, exec_cycleStart_noted hx hacc, hnodup, hmem, ?_, ?_, ?_, handedOver_offerNotice n s _ _ (cycleLeft_handedOver n s _ _)⟩
  · rw [(offerNotice_tables _ _).1, (offerNotice_tables _ _).2.1, (offerNotice_tables _ _).2.2, State.or_right_comm]
    congr 1
  · intro e he
    rw [offerNotice_entry]
    exact hskipped e he
  · intro e he
    rw [offerNotice_entry]
    exact hkept e he

end Sys2Proof.Machine
end

section
/-!
SUPPORT. Cycle starts of an IDLE engine and of an engine whose transaction waits for its retry (R26, R39, R40, R55, R68 to R70).
-/

namespace Sys2Proof.Machine

open State

/-! ## An IDLE engine -/

/-- The state a regular cycle start of an IDLE engine leaves before its decision, the engine being in e. -/
def idleOpened (n : LineId) (s : State) (e : EngineState) : State :=
  ({ s.setLine n { cycleOpened (s.line n) with engine := e } with
      edges := s.edges ||| cycleStartBit n, stations := (s.stationsCycleStart n).stations } : State).releaseDeferred n

@[simp] theorem idleOpened_line (n : LineId) (s : State) (e : EngineState) :
    (idleOpened n s e).line n = { cycleOpened (s.line n) with engine := e } := by cases n <;> rfl

theorem idleOpened_mode (n : LineId) (s : State) (e : EngineState) : (idleOpened n s e).mode = s.mode := by cases n <;> rfl

theorem setLine_idleOpened (n : LineId) (s : State) (e e' : EngineState) :
    (idleOpened n s e).setLine n { (idleOpened n s e).line n with engine := e' } = idleOpened n s e' := by cases n <;> rfl

theorem idleOpened_handedOver (n : LineId) (s : State) (e : EngineState) : cycleHandedOver n s (idleOpened n s e) := by
  apply releaseDeferred_handedOver n s _ { cycleOpened (s.line n) with engine := e } s.entries (s.edges ||| cycleStartBit n)
  cases n <;> rfl

/-- A regular start of an IDLE engine is a decision point (R26, R70). -/
theorem exec_cycleStart_idle {n : LineId} {s : State} (hm : s.mode = .run) (hen : (s.line n).enable = true)
    (ht : (s.line n).timerRunning = true) (he : (s.line n).engine = .idle) (ha : (s.line n).attempt = none)
    (hb : (s.line n).breakRequest = false) (hf : (s.line n).faulted = false) (hp : (s.line n).phase = .acyclic) :
    exec (.cycleStart n) s = .next ((idleOpened n s .idle).decisionPoint n) := by
  obtain ⟨Y, hY⟩ : ∃ Y, Y = s.loadTimer n ((s.line n).cycnum + 1) := ⟨_, rfl⟩
  have hYl : Y.line n = timedLine (s.line n) := by rw [hY]; cases n <;> rfl
  have hcase : (s.line n).expiryCase = .regular := expiryCase_regular hf hp (by simp [ha])
  obtain ⟨Z, hZ⟩ : ∃ Z : State, Z = { Y.setLine n (handedLine (Y.line n)) with
    edges := Y.edges ||| cycleStartBit n, stations := (Y.stationsCycleStart n).stations } := ⟨_, rfl⟩
  have hover : (Y.openCycle n).startHandOver n .regular = (Z, []) := by
    rw [hZ]
    exact cycleHandOver_eq n Y (by rw [hYl]; intro a h; rw [show (timedLine (s.line n)).attempt = none from ha] at h; cases h)
  have hZl : Z.line n = cycleOpened (s.line n) := by rw [hZ, hYl]; cases n <;> rfl
  have hZm : Z.mode = .run := by rw [hZ, hY]; cases n <;> exact hm
  have hZi : Z.releaseDeferred n = idleOpened n s .idle := by
    have hline : cycleOpened (s.line n) = { cycleOpened (s.line n) with engine := .idle } := by
      rw [← show (cycleOpened (s.line n)).engine = .idle from he]
    rw [idleOpened, ← hline, hZ, hYl, hY]
    cases n <;> rfl
  have hstart : Y.startCycle n (s.line n).cycnum .regular = (Z.releaseDeferred n).wakeIdle n := by
    unfold startCycle cycleAccounting
    simp only []
    rw [hover]
    simp only []
    rw [settle_run _ _ _ (by rw [hZm]; decide), hZl, breakBegun_none _ (show (cycleOpened (s.line n)).breakRequest = false from hb),
      ← hZl, setLine_line, flush_single]
    rfl
  simp only [exec, execCycleStart, hm, hen, ht, and_self, if_true, expireTimer, hcase]
  rw [← hY, hstart, hZi, wakeIdle, if_pos]
  refine ⟨(idleOpened_mode n s _).trans hm, by rw [idleOpened_line], ?_⟩
  rw [idleOpened_line]
  simp [cycleOpened, ha]

/-- The decision of an IDLE engine is that of a satisfied turnaround. -/
theorem exec_cycleStart_decides {n : LineId} {s : State} (hm : s.mode = .run) (hen : (s.line n).enable = true)
    (ht : (s.line n).timerRunning = true) (he : (s.line n).engine = .idle) (ha : (s.line n).attempt = none)
    (hb : (s.line n).breakRequest = false) (hf : (s.line n).faulted = false) (hp : (s.line n).phase = .acyclic)
    (hq : isQuiet (s.line n)) (hs : (s.line n).settled = true) :
    decides (idleOpened n s .turnaround) n ∧ exec (.cycleStart n) s = exec (.turnaroundSatisfied n) (idleOpened n s .turnaround) := by
  have hd : decides (idleOpened n s .turnaround) n := by
    refine ⟨⟨by rw [idleOpened_line], by rw [idleOpened_line]; exact hq⟩, (idleOpened_mode n s _).trans hm, ?_⟩
    rw [idleOpened_line]
    simp [cycleOpened, ha]
  have hsettled : (idleOpened n s .turnaround).setLine n { (idleOpened n s .turnaround).line n with settled := true }
      = idleOpened n s .turnaround := by
    have hline : ({ (idleOpened n s .turnaround).line n with settled := true } : Line) = (idleOpened n s .turnaround).line n := by
      rw [idleOpened_line, ← show (cycleOpened (s.line n)).settled = true from hs]
    rw [hline, setLine_line]
  refine ⟨hd, ?_⟩
  rw [exec_cycleStart_idle hm hen ht he ha hb hf hp, exec_decision n _ hd, hsettled, ← setLine_idleOpened n s .turnaround .idle,
    decisionPoint_engine]

/-- A set SYNC bit has the frame sent first (R27, R28). -/
theorem exec_cycleStart_sync {n : LineId} {s : State} (h : decides (idleOpened n s .turnaround) n) (he : (s.line n).engine = .idle)
    (hb : (s.line n).breakRequest = false) (hf : (s.line n).faulted = false) (hs : (s.line n).sync = true) :
    ∃ t, exec (.turnaroundSatisfied n) (idleOpened n s .turnaround) = .next t ∧ (t.line n).engine = .sending
      ∧ (t.line n).drive = .character ⟨0x60, true⟩ ∧ (t.line n).frameRest = (syncFrame ((s.line n).cycnum + 1)).tail := by
  obtain ⟨a, _, _, _, _, _, _, hexec⟩ := (decisionsBeforeAndAfterTheWalk.1 n _ h).2 (by rw [idleOpened_line]; exact hb)
    (by rw [idleOpened_line]; simp [cycleOpened, hs, hf, he])
  refine ⟨_, hexec, ?_⟩
  rw [line_setLine, if_pos rfl, idleOpened_line]
  exact ⟨rfl, rfl, rfl⟩

/-! ## A transaction that waits for its retry -/

/-- The state in which a cycle start reaches the waiting transaction: the accounting is done, the new cycle is open. -/
def cycleEntered (n : LineId) (s : State) (E : Vector Entry 64) : State :=
  { s.setLine n (openedLine (timedLine (s.line n))) with entries := E, edges := s.edges ||| overrunBit n ||| cycleStartBit n }

/-- The line once CYCLE has ended the transaction that waited. -/
def cycleStopped (l : Line) : Line := { cycleOpened l with attempt := none }

theorem cycleEntered_line (n : LineId) (s : State) (E : Vector Entry 64) :
    (cycleEntered n s E).line n = openedLine (timedLine (s.line n)) := by cases n <;> rfl

/-- A start that ends a waiting transaction, from its accounting and what its hand-overs leave. -/
theorem exec_cycleStart_waiting {n : LineId} {s Z : State} {E : Vector Entry 64} {N : Event} {gs : Groups} (hm : s.mode = .run)
    (hen : (s.line n).enable = true) (ht : (s.line n).timerRunning = true) (he : (s.line n).engine = .turnaround)
    (h : accounts n s E N) (hover : (cycleEntered n s E).cycleHandOver n = (Z, gs)) (hZm : Z.mode = s.mode)
    (hZl : Z.line n = cycleStopped (s.line n)) :
    exec (.cycleStart n) s
      = .next (((Z.setLine n (breakBegun (cycleStopped (s.line n)))).flush ([.notice N] :: gs)).releaseDeferred n) := by
  obtain ⟨c, hc, hcase, hacc⟩ := h
  have hopen := openCycle_counted n s _ E (s.edges ||| overrunBit n) rfl
  have hstart : (State.openCycle n
      { s.setLine n (timedLine (s.line n)) with entries := E, edges := s.edges ||| overrunBit n }).startHandOver n c = (Z, gs) := by
    rw [hopen, ← hover]
    cases c with
    | startOfRunning => exact absurd rfl hc
    | faultedLine | overrun | lateStart | regular => rfl
  simp only [exec, execCycleStart, hm, hen, ht, and_self, if_true, expireTimer, hcase]
  rw [startCycle_waiting n _ c _ _ Z _ gs hacc hstart (hZm.trans hm), hZl]
  left
  rw [hZl]
  rcases (breakBegun_frame (cycleStopped (s.line n))).2.2.2.2.2 with h | h
  · rw [h, show (cycleStopped (s.line n)).engine = .turnaround from he]
    decide
  · rw [h]
    decide

/-- What stays of an entry below the walk pointer: the accounting does not reach it (R68). -/
theorem not_remains_below {s : State} {n : LineId} {j : EntryIx} (h : j.val < (s.line n).walk.val) : ¬ remains s n j :=
  fun hr => absurd hr.1 (by omega)

/-- What remains of the old cycle reads of an entry ENABLED, STATION, the divider and PHASE. -/
theorem remains_congr {s t : State} {n : LineId} {e : EntryIx} (hline : t.line n = s.line n) (hstation : ∀ u, t.station u = s.station u)
    (henabled : (t.entry e).enabled = (s.entry e).enabled) (hof : (t.entry e).station = (s.entry e).station)
    (hdiv : (t.entry e).divExp = (s.entry e).divExp) (hphase : (t.entry e).phase = (s.entry e).phase) :
    remains t n e ↔ remains s n e := by
  simp only [remains, due_eq_cyclic_iff, inPhase_iff, hline, hstation, henabled, hof, hdiv, hphase]

/-- An entry's LAST does not matter to what remains of the old cycle. -/
theorem remains_setLast (s : State) (n : LineId) (j e : EntryIx) (o : OutcomeCode) :
    remains (s.setEntry j { s.entry j with last := o }) n e ↔ remains s n e := by
  have hentry : (s.setEntry j { s.entry j with last := o }).entry e = if j = e then { s.entry e with last := o } else s.entry e := by
    rw [entry_setEntry]
    split
    · rename_i h
      rw [h]
    · rfl
  apply remains_congr (by simp) (fun u => by simp) <;> (rw [hentry]; split <;> rfl)

/-- The accounting and the outcome of entry j, which lies below the walk pointer, reach different entries. -/
theorem entriesSkipped_setLast {n : LineId} {s X t : State} {j : EntryIx} {o : OutcomeCode} {skipped : List EntryIx}
    (hj : j.val < (s.line n).walk.val) (h : entriesSkipped n s X skipped)
    (ht : ∀ e, t.entry e = if j = e then { X.entry e with last := o } else X.entry e) :
    entriesSkipped n (s.setEntry j { s.entry j with last := o }) t skipped := by
  obtain ⟨hnodup, hmem, hskipped, hkept⟩ := h
  have hbelow := not_remains_below hj
  refine ⟨hnodup, fun e => (hmem e).trans (remains_setLast s n j e o).symm, fun e he => ?_, fun e he => ?_⟩
  · have hr := (remains_setLast s n j e o).1 he
    have hne : j ≠ e := fun h => hbelow (h ▸ hr)
    rw [ht, if_neg hne, entry_setEntry, if_neg hne, hskipped e hr]
  · have hr := mt (remains_setLast s n j e o).2 he
    rw [ht, entry_setEntry]
    by_cases hne : j = e
    · subst hne
      rw [if_pos rfl, if_pos rfl, hkept j hr]
    · rw [if_neg hne, if_neg hne, hkept e hr]

/-- The state a cycle start leaves that has ended a waiting transaction, before the notices; `T` is what that end leaves. -/
def stopLeft (n : LineId) (s T : State) : State :=
  ((T.stationsCycleStart n).setLine n (breakBegun (cycleStopped (s.line n)))).releaseDeferred n

theorem stopLeft_entry (n : LineId) (s T : State) (e : EntryIx) : (stopLeft n s T).entry e = T.entry e := by
  have h : (stopLeft n s T).entry e = ((T.stationsCycleStart n).setLine n (breakBegun (cycleStopped (s.line n)))).entry e := rfl
  rw [h, setLine_entry]
  rfl

/-- Its stations and slots (R55, R82, R89, R123), x being the state in which the end of the transaction is dealt with. -/
theorem stopLeft_handedOver {n : LineId} {s T x : State} (hs : T.stations = x.stations) (hl : T.slots = x.slots) :
    cycleHandedOver n x (stopLeft n s T) := by
  have hst : ((T.stationsCycleStart n).setLine n (breakBegun (cycleStopped (s.line n)))).stations = (x.stationsCycleStart n).stations := by
    have h : (T.stationsCycleStart n).stations = (x.stationsCycleStart n).stations := by rw [stationsCycleStart_eq n T x hs]
    rw [← h]
    cases n <;> rfl
  apply State.cycleHandedOver_of n x _ x rfl
  · exact hst
  · apply releaseDeferred_after
    · exact hst
    · intro k
      rw [setLine_slot]
      unfold slot
      rw [← hl]
      rfl

/-- The state in which a cycle start ends the waiting transaction, its record already dropped. -/
def cycleReached (n : LineId) (s : State) (E : Vector Entry 64) : State :=
  ({ cycleEntered n s E with freeIndex := s.freeIndex + 1 } : State).setAttempt n none

theorem cycleReached_frame (n : LineId) (s : State) (E : Vector Entry 64) : cycleReached n s E
    = { s.setLine n ({ openedLine (timedLine (s.line n)) with attempt := none }) with
      entries := E, edges := s.edges ||| overrunBit n ||| cycleStartBit n, freeIndex := s.freeIndex + 1 } := by
  cases n <;> rfl

theorem cycleReached_station (n : LineId) (s : State) (E : Vector Entry 64) (u : StationIx) :
    (cycleReached n s E).station u = s.station u := by rw [cycleReached_frame]; cases n <;> rfl

theorem cycleReached_line (n : LineId) (s : State) (E : Vector Entry 64) : (cycleReached n s E).line n = cycleStopped (s.line n) := by
  rw [cycleReached_frame]
  cases n <;> rfl

theorem cycleReached_mode (n : LineId) (s : State) (E : Vector Entry 64) : (cycleReached n s E).mode = s.mode := by
  rw [cycleReached_frame]
  cases n <;> rfl

theorem stationsCycleStart_line (n m : LineId) (s : State) : (s.stationsCycleStart n).line m = s.line m := by cases m <;> rfl

theorem stationsCycleStart_mode (n : LineId) (s : State) : (s.stationsCycleStart n).mode = s.mode := rfl

/-- The end of a waiting POLL in that state. -/
def pollStopped (n : LineId) (s : State) (E : Vector Entry 64) (j : EntryIx) (o : OutcomeCode) (u : StationIx) (st : Station) : State :=
  ((cycleReached n s E).setEntry j { E.get j with last := o }).setStation u st

/-- LAST does not matter to the Station Table's step of a cycle start. -/
theorem cycleStart_setLast (x : Station) (o : OutcomeCode) : ({ x with last := o } : Station).cycleStart
    = { x.cycleStart with last := o } := by
  unfold Station.cycleStart Station.countdown
  by_cases h : x.health = .offline
  · by_cases hc : x.probeCountdown.toNat ≤ 1 <;> simp [h, hc]
  · simp [h]

theorem cycleStart_health (x : Station) : x.cycleStart.health = x.health := by
  unfold Station.cycleStart Station.countdown
  split
  · split <;> rfl
  · rfl

theorem cycleStart_reachable (x : Station) : x.cycleStart.reachable = x.reachable := by
  unfold Station.cycleStart Station.countdown
  split
  · split <;> rfl
  · rfl

/-- A cycle start whose end of a waiting POLL does not take the station OFFLINE (R41, R79, R81). -/
theorem exec_cycleStart_poll {n : LineId} {s : State} {E : Vector Entry 64} {N : Event} {a : Attempt} {j : EntryIx} {u : StationIx}
    {o : OutcomeCode} {st : Station} {notices : List Event} (hm : s.mode = .run) (hen : (s.line n).enable = true)
    (ht : (s.line n).timerRunning = true) (he : (s.line n).engine = .turnaround) (hp : ¬ parkWaits s u)
    (ha : (s.line n).attempt = some a) (ho : a.origin = .cyclic j) (hu : a.station = some u) (hr : a.retryOwed = true)
    (hoo : a.outcome = some o) (hacc : accounts n s E N) (hok : o ≠ .ok) (g1 : finalStation o (s.station u) = st)
    (g2 : finalStation o (s.station u).cycleStart = st.cycleStart) (hl : st.line = (s.station u).line)
    (hh : st.health ≠ .offline ∨ (s.station u).health = .offline)
    (m1 : healthNotice u (s.station u) st ++ reachableNotice u (s.station u) st = notices.map Post.notice)
    (m2 : healthNotice u (s.station u).cycleStart st.cycleStart ++ reachableNotice u (s.station u).cycleStart st.cycleStart
      = notices.map Post.notice) :
    answersInSomeOrder (exec (.cycleStart n) s) (stopLeft n s (pollStopped n s E j o u st)) [N] notices := by
  have hstation : (cycleEntered n s E).station u = s.station u := by cases n <;> rfl
  have hpark : ¬ parkWaits (cycleEntered n s E) u := fun h => hp (by cases n <;> exact h)
  have hline := cycleEntered_line n s E
  obtain ⟨X, hX, hover⟩ := cycleHandOver_cyclic (cycleEntered n s E) n a j u o st notices (by rw [hline]; exact ha) hr hu hoo ho
    hpark hok (by rw [hstation]; exact g1) (by rw [hstation]; exact g2) (by rw [hstation]; exact hl) (by rw [hstation]; exact hh)
    (by rw [hstation, cycleStart_health, cycleStart_health]; exact hh) (by rw [hstation]; exact m1) (by rw [hstation]; exact m2)
  have hT : ((X.setAttempt n none).setEntry j { (cycleEntered n s E).entry j with last := o }).setStation u st
      = pollStopped n s E j o u st := by
    rw [hX]
    cases n <;> rfl
  rw [hT] at hover
  have hline' : ((pollStopped n s E j o u st).stationsCycleStart n).line n = cycleStopped (s.line n) := by
    rw [stationsCycleStart_line, pollStopped, setStation_line, setEntry_line, cycleReached_line]
  have hmode : ((pollStopped n s E j o u st).stationsCycleStart n).mode = s.mode := by
    rw [stationsCycleStart_mode, pollStopped, setStation_mode, setEntry_mode, cycleReached_mode]
  rw [exec_cycleStart_waiting hm hen ht he hacc hover hmode hline']
  exact answers_releaseDeferred n _ _ _ _ (flush_pollGroups N notices _)

/-- Only the record tables are left to say of such a start. -/
theorem stopLeft_frame {n : LineId} {s T : State} {S : Vector Station 32} {K : Vector Slot 16} {E : Vector Entry 64}
    (hT : T = { s.setLine n (cycleStopped (s.line n)) with
      stations := S, slots := K, entries := E, edges := s.edges ||| overrunBit n ||| cycleStartBit n, freeIndex := s.freeIndex + 1 }) :
    stopLeft n s T = { s.setLine n (breakBegun (cycleStopped (s.line n))) with
      stations := (stopLeft n s T).stations, slots := (stopLeft n s T).slots, entries := (stopLeft n s T).entries
      edges := s.edges ||| cycleStartBit n ||| overrunBit n, freeIndex := s.freeIndex + 1 } := by
  subst hT
  rw [State.or_right_comm s.edges (cycleStartBit n)]
  cases n <;> rfl

theorem pollStopped_frame (n : LineId) (s : State) (E : Vector Entry 64) (j : EntryIx) (o : OutcomeCode) (u : StationIx) (st : Station) :
    pollStopped n s E j o u st = { s.setLine n (cycleStopped (s.line n)) with
      stations := (s.setStation u st).stations, slots := s.slots, entries := E.set j { E.get j with last := o }
      edges := s.edges ||| overrunBit n ||| cycleStartBit n, freeIndex := s.freeIndex + 1 } := by
  rw [pollStopped, cycleReached_frame]
  cases n <;> rfl

theorem pollStopped_handedOver (n : LineId) (s : State) (E : Vector Entry 64) (j : EntryIx) (o : OutcomeCode) (u : StationIx)
    (st : Station) : cycleHandedOver n (s.setStation u st) (stopLeft n s (pollStopped n s E j o u st)) := by
  apply stopLeft_handedOver <;> rw [pollStopped_frame]
  rfl

/-- What the accounting of an overrun and the POLL's outcome leave of the entries. -/
theorem pollStopped_skipped {n : LineId} {s : State} {E : Vector Entry 64} {skipped : List EntryIx} {j : EntryIx} {o : OutcomeCode}
    {u : StationIx} {st : Station} (hE : ∀ b : State, b.entries = E → entriesSkipped n s b skipped)
    (hj : j.val < (s.line n).walk.val) :
    entriesSkipped n (s.setEntry j { s.entry j with last := o }) (stopLeft n s (pollStopped n s E j o u st)) skipped := by
  apply entriesSkipped_setLast hj (hE { s with entries := E } rfl)
  intro e
  rw [stopLeft_entry, pollStopped, setStation_entry, entry_setEntry, cycleReached_frame]
  split
  · rename_i h
    rw [h]
    rfl
  · cases n <;> rfl

/-- No change of HEALTH or REACHABLE, no notice. -/
theorem notices_unchanged (u : StationIx) {x y : Station} (hh : x.health = y.health) (hr : x.reachable = y.reachable) :
    healthNotice u x y ++ reachableNotice u x y = [] := by
  simp [healthNotice, reachableNotice, hh, hr]

/-- A degrading miss posts its STATION_STATE notice (R79, R85). -/
theorem notices_degraded (u : StationIx) {x y : Station} (hx : x.health = .online ∨ x.health = .degraded) (hy : y.health = .degraded)
    (hr : y.reachable = x.reachable) : healthNotice u x y ++ reachableNotice u x y
      = (if x.health = .online then [stationStateNotice u .online y] else []).map Post.notice := by
  rcases hx with h | h <;> simp [healthNotice, reachableNotice, h, hy, hr]

/-- What a final outcome that is not OK and takes no station OFFLINE makes of the record, with the notice it posts. -/
structure Stops (s : State) (u : StationIx) (o : OutcomeCode) (st : Station) (notices : List Event) : Prop where
  notOk : o ≠ .ok
  final : finalStation o (s.station u) = st
  finalStarted : finalStation o (s.station u).cycleStart = st.cycleStart
  line : st.line = (s.station u).line
  health : st.health ≠ .offline ∨ (s.station u).health = .offline
  posts : healthNotice u (s.station u) st ++ reachableNotice u (s.station u) st = notices.map Post.notice
  postsStarted : healthNotice u (s.station u).cycleStart st.cycleStart ++ reachableNotice u (s.station u).cycleStart st.cycleStart
    = notices.map Post.notice

/-- The station after a final COLLISION (R81). -/
def collided (x : Station) : Station := { x with last := .collision }

/-- The station after a final miss below MISS_LIMIT, its attempt already counted (R79). -/
def missDegraded (o : OutcomeCode) (x : Station) : Station :=
  { x with last := o, missed := satInc x.missed, missCount := x.missCount + 1, health := .degraded }

theorem collided_cycleStart (x : Station) : (collided x).cycleStart = collided x.cycleStart := cycleStart_setLast x .collision

theorem missDegraded_cycleStart {x : Station} (o : OutcomeCode) (h : x.health = .online ∨ x.health = .degraded) :
    (missDegraded o x).cycleStart = missDegraded o x.cycleStart := by
  rw [cycleStart_online _ h, cycleStart_online (missDegraded o x) (.inr rfl)]
  rfl

/-- A COLLISION changes LAST alone (R81). -/
theorem stops_collision (s : State) (u : StationIx) : Stops s u .collision (collided (s.station u)) [] where
  notOk := by decide
  final := finalStation_collision _
  finalStarted := (finalStation_collision _).trans (collided_cycleStart _).symm
  line := rfl
  health := (eq_or_ne (s.station u).health .offline).symm
  posts := notices_unchanged u rfl rfl
  postsStarted := by
    rw [collided_cycleStart]
    exact notices_unchanged u rfl rfl

/-- A miss below MISS_LIMIT degrades (R79). -/
theorem stops_miss {s : State} {u : StationIx} {o : OutcomeCode} (ho : o.isMiss = true)
    (hh : (s.station u).health = .online ∨ (s.station u).health = .degraded)
    (hl : (s.station u).missCount.toNat + 1 < (s.station u).missLimit.toNat) :
    Stops s u o (missDegraded o (s.station u))
      (if (s.station u).health = .online then [stateRecord s u .online .degraded ((s.station u).missCount + 1)] else []) where
  notOk := by rintro rfl; cases ho
  final := finalStation_miss o _ ho hh hl
  finalStarted := by
    rw [missDegraded_cycleStart o hh, cycleStart_online _ hh]
    exact finalStation_miss o _ ho hh hl
  line := rfl
  health := .inl (by simp [missDegraded])
  posts := by
    rw [notices_degraded u hh (y := missDegraded o (s.station u)) rfl rfl, stationStateNotice_eq]
    rfl
  postsStarted := by
    rw [missDegraded_cycleStart o hh, notices_degraded u (x := (s.station u).cycleStart) (y := missDegraded o (s.station u).cycleStart)
      (by rw [cycleStart_health]; exact hh) rfl rfl, stationStateNotice_eq, cycleStart_online _ hh]
    rfl

/-- The notices of an overrun and of the station whose waiting POLL it ends, with what the two leave (R39, R68, R81). -/
theorem cycleStartEndsPoll {n : LineId} {s : State} {a : Attempt} {j : EntryIx} {u : StationIx} {o : OutcomeCode} (hm : s.mode = .run)
    (hen : (s.line n).enable = true) (ht : (s.line n).timerRunning = true) (he : (s.line n).engine = .turnaround)
    (hf : (s.line n).faulted = false) (hp : (s.line n).phase = .cyclic) (hpark : ¬ parkWaits s u) (ha : (s.line n).attempt = some a)
    (ho : a.origin = .cyclic j) (hu : a.station = some u) (hr : a.retryOwed = true) (hoo : a.outcome = some o)
    (hj : j.val < (s.line n).walk.val) :
    ∃ (skipped : List EntryIx) (b : State),
        b = { s.setLine n (breakBegun (cycleStopped (s.line n))) with
            stations := b.stations, slots := b.slots, entries := b.entries
            edges := s.edges ||| cycleStartBit n ||| overrunBit n, freeIndex := s.freeIndex + 1 }
        ∧ entriesSkipped n (s.setEntry j { s.entry j with last := o }) b skipped
        ∧ ∀ st notices, Stops s u o st notices → cycleHandedOver n (s.setStation u st) b
          ∧ answersInSomeOrder (exec (.cycleStart n) s) b [overrunRecord n skipped.length] notices := by
  obtain ⟨E, skipped, hacc, hE⟩ := accounts_overrun hf hp
  refine ⟨skipped, stopLeft n s (pollStopped n s E j o u (finalStation o (s.station u))), stopLeft_frame (pollStopped_frame n s E j o u _),
    pollStopped_skipped hE hj, fun st notices h => ?_⟩
  obtain ⟨hok, hfinal, hstarted, hl, hh, hposts, hposts'⟩ := h
  rw [hfinal]
  exact ⟨pollStopped_handedOver n s E j o u st,
    exec_cycleStart_poll hm hen ht he hpark ha ho hu hr hoo hacc hok hfinal hstarted hl hh hposts hposts'⟩

/-! ### The miss that reaches MISS_LIMIT -/

/-- The flag words of the lines have one bit each. -/
theorem cycleStartBit_ne {n : LineId} {w : Word} (h : w.getLsbD (if n = .zero then 6 else 7) = true) : w &&& cycleStartBit n ≠ 0 := by
  intro h0
  have hbit : (w &&& cycleStartBit n).getLsbD (if n = .zero then 6 else 7) = true := by
    rw [BitVec.getLsbD_and, h]
    cases n <;> rfl
  rw [h0] at hbit
  simp at hbit

theorem overrunBit_ne {n : LineId} {w : Word} (h : w.getLsbD (if n = .zero then 10 else 11) = true) : w &&& overrunBit n ≠ 0 := by
  intro h0
  have hbit : (w &&& overrunBit n).getLsbD (if n = .zero then 10 else 11) = true := by
    rw [BitVec.getLsbD_and, h]
    cases n <;> rfl
  rw [h0] at hbit
  simp at hbit

theorem cycleEntered_flags (n : LineId) (s : State) (E : Vector Entry 64) :
    (cycleEntered n s E).edges.getLsbD (if n = .zero then 6 else 7) = true
      ∧ (cycleEntered n s E).edges.getLsbD (if n = .zero then 10 else 11) = true := by
  cases n <;> simp [cycleEntered, overrunBit, cycleStartBit]

/-- The countdown of a station just taken OFFLINE, moved on by the same cycle start (R82). -/
theorem goneOffline_cycleStart {o : OutcomeCode} {x : Station} :
    (1 < (goneOffline o x).probeInterval.toNat → (goneOffline o x).cycleStart
        = { goneOffline o x with age := satInc (goneOffline o x).age, probeCountdown := (goneOffline o x).probeInterval - 1 })
      ∧ ((goneOffline o x).probeInterval = 1 → (goneOffline o x).cycleStart
        = { goneOffline o x with age := satInc (goneOffline o x).age, probeDue := true }) := by
  refine ⟨fun h => ?_, fun h => ?_⟩
  · have hlt : ¬ (goneOffline o x).probeCountdown.toNat ≤ 1 := by
      rw [show (goneOffline o x).probeCountdown = (goneOffline o x).probeInterval from rfl]
      omega
    have hdown : (goneOffline o x).countdown = { goneOffline o x with probeCountdown := (goneOffline o x).probeInterval - 1 } := by
      rw [Station.countdown, if_pos (show (goneOffline o x).health = .offline from rfl), if_neg hlt]
      rfl
    rw [Station.cycleStart, hdown]
  · have hle : (goneOffline o x).probeCountdown.toNat ≤ 1 := by
      rw [show (goneOffline o x).probeCountdown = (goneOffline o x).probeInterval from rfl, h]
      decide
    have hdown : (goneOffline o x).countdown = { goneOffline o x with probeDue := true } := by
      rw [Station.countdown, if_pos (show (goneOffline o x).health = .offline from rfl), if_pos hle]
      rfl
    rw [Station.cycleStart, hdown]

/-- The release of deferred slots leaves completed slots completed. -/
theorem completedWith_releaseDeferred {X : State} {n : LineId} {k : SlotIx} {o : OutcomeCode} (h : completedWith X k o) :
    completedWith (X.releaseDeferred n) k o := by
  obtain ⟨hsub, hstate, hout, hlen⟩ := h
  have hfields : ((X.releaseDeferred n).slot k).state = (X.slot k).state ∧ ((X.releaseDeferred n).slot k).outcome = (X.slot k).outcome
      ∧ ((X.releaseDeferred n).slot k).replyLen = (X.slot k).replyLen := by
    rw [releaseDeferred_slot]
    split <;> exact ⟨rfl, rfl, rfl⟩
  obtain ⟨h1, h2, h3⟩ := hfields
  exact ⟨hsub, by rw [h1]; exact hstate, by rw [h2]; exact hout, by rw [h3]; exact hlen⟩

/-- What the posts and the release of deferred slots leave as it is, and the flags they leave raised. -/
theorem flushed_frame (X : State) (gs : Groups) (n : LineId) :
    (∀ e, ((X.flush gs).releaseDeferred n).entry e = X.entry e) ∧ (∀ u, ((X.flush gs).releaseDeferred n).station u = X.station u)
      ∧ (∀ m, ((X.flush gs).releaseDeferred n).line m = X.line m)
      ∧ ∀ i, X.edges.getLsbD i = true → ((X.flush gs).releaseDeferred n).edges.getLsbD i = true := by
  refine ⟨?_, ?_, ?_, fun i => flush_edges gs X i⟩ <;> obtain ⟨_, _, _, _, _, _, _, hf⟩ := flush_frame gs X <;> rw [hf]
  · exact fun e => rfl
  · exact fun u => rfl
  · intro m
    cases m <;> rfl

/-- A cycle start whose end of a waiting POLL takes the station OFFLINE, with either order of that end and the Station Table's step
(R80, R82, R131, log entry 6). -/
theorem cycleStartTakesOffline {n : LineId} {s : State} {a : Attempt} {j : EntryIx} {u : StationIx} {o : OutcomeCode} (hm : s.mode = .run)
    (hen : (s.line n).enable = true) (ht : (s.line n).timerRunning = true) (he : (s.line n).engine = .turnaround)
    (hf : (s.line n).faulted = false) (hp : (s.line n).phase = .cyclic) (hpark : ¬ parkWaits s u) (ha : (s.line n).attempt = some a)
    (ho : a.origin = .cyclic j) (hu : a.station = some u) (hr : a.retryOwed = true) (hoo : a.outcome = some o)
    (hj : j.val < (s.line n).walk.val) (hmiss : o.isMiss = true) (hlimit : reachesLimit (s.station u)) :
    let off : Station := goneOffline o (s.station u)
    ∃ (skipped : List EntryIx) (t : State), exec (.cycleStart n) s = .next t
      ∧ entriesSkipped n (s.setEntry j { s.entry j with last := o }) t skipped
      ∧ t.line n = breakBegun (cycleStopped (s.line n))
      ∧ ((s.station u).line ≠ n → t.station u = off)
      ∧ ((s.station u).line = n → t.station u = { off with age := satInc off.age }
        ∨ (1 < off.probeInterval.toNat → t.station u = { off with age := satInc off.age, probeCountdown := off.probeInterval - 1 })
          ∧ (off.probeInterval = 1 → t.station u = { off with age := satInc off.age, probeDue := true }))
      ∧ t.edges.getLsbD 14 = true ∧ t.edges &&& cycleStartBit n ≠ 0 ∧ t.edges &&& overrunBit n ≠ 0
      ∧ ∀ k, k ∈ s.submitted → (s.slot k).state = .pending → (s.slot k).station = u → completedWith t k .stationOffline := by
  intro off
  obtain ⟨E, skipped, hacc, hE⟩ := accounts_overrun hf hp
  have hstation : (cycleEntered n s E).station u = s.station u := by cases n <;> rfl
  have hlineE := cycleEntered_line n s E
  obtain ⟨Z, gs, hover, hlim⟩ := cycleHandOver_limit (cycleEntered n s E) n a j u o (by rw [hlineE]; exact ha) hr hu hoo ho hmiss
    (by rw [hstation]; exact hlimit) (fun h => hpark (by cases n <;> exact h))
  obtain ⟨hline, hmode, hentry, hother, hown, hkeeps, hdown, hcomp⟩ := hlim
  rw [hstation] at hother hown
  have hZl : Z.line n = cycleStopped (s.line n) := by rw [hline, hlineE]; rfl
  have hZm : Z.mode = s.mode := by rw [hmode]; cases n <;> rfl
  obtain ⟨hstart, hover'⟩ := cycleEntered_flags n s E
  generalize hX : Z.setLine n (breakBegun (cycleStopped (s.line n))) = X
  have hXstation : X.station u = Z.station u := by rw [← hX, setLine_station]
  have hXedges : X.edges = Z.edges := by rw [← hX, setLine_edges]
  obtain ⟨fentry, fstation, fline, fedges⟩ := flushed_frame X ([.notice (overrunRecord n skipped.length)] :: gs) n
  refine ⟨skipped, _, by rw [exec_cycleStart_waiting hm hen ht he hacc hover hZm hZl, hX], ?entries, ?line, ?others, ?own, ?down,
    cycleStartBit_ne (fedges _ ?start), overrunBit_ne (fedges _ ?overrun), ?slots⟩
  case entries =>
    apply entriesSkipped_setLast hj (hE (cycleEntered n s E) rfl)
    intro e
    rw [fentry, ← hX, setLine_entry, hentry]
  case line => rw [fline, ← hX, line_setLine, if_pos rfl]
  case others =>
    intro h
    rw [fstation, hXstation, hother h]
  case own =>
    intro h
    rw [fstation, hXstation]
    refine (hown h).imp id fun h => ?_
    rw [h]
    exact goneOffline_cycleStart
  case down => exact fedges _ (by rw [hXedges]; exact hdown)
  case start => rw [hXedges]; exact hkeeps _ hstart
  case overrun => rw [hXedges]; exact hkeeps _ hover'
  case slots =>
    intro k hk hpend hof
    have hmem : k ∈ (cycleEntered n s E).pendingOf u := by
      rw [mem_pendingOf]
      cases n <;> exact ⟨hk, hpend, hof⟩
    obtain ⟨hc, hsub, hout, hlen⟩ := hcomp k hmem
    refine completedWith_releaseDeferred (flush_completedWith _ X k _ ?_ ?_ ?_ ?_)
    · rw [List.flatten_cons, completes_append]
      exact .inr hc
    · rw [← hX, setLine_submitted]; exact hsub
    · rw [← hX, setLine_slot]; exact hout
    · rw [← hX, setLine_slot]; exact hlen

/-! ### A slot -/

/-- The end of a waiting slot transaction at a cycle start (R124). -/
def slotStopped (n : LineId) (s : State) (E : Vector Entry 64) (k : SlotIx) : State :=
  (cycleReached n s E).setSlot k { s.slot k with state := .pending }

theorem slotStopped_frame (n : LineId) (s : State) (E : Vector Entry 64) (k : SlotIx) :
    slotStopped n s E k = { s.setLine n (cycleStopped (s.line n)) with
      stations := s.stations, slots := (s.setSlot k { s.slot k with state := .pending }).slots, entries := E
      edges := s.edges ||| overrunBit n ||| cycleStartBit n, freeIndex := s.freeIndex + 1 } := by
  rw [slotStopped, cycleReached_frame]
  cases n <;> rfl

/-- A cycle start that returns a waiting slot to PENDING, in either phase (R39, R40, R68, R69, R124). -/
theorem exec_cycleStart_slot {n : LineId} {s : State} {E : Vector Entry 64} {N : Event} {a : Attempt} {k : SlotIx} {u : StationIx}
    {o : OutcomeCode} {m : Nat} (hm : s.mode = .run) (hen : (s.line n).enable = true) (ht : (s.line n).timerRunning = true)
    (he : (s.line n).engine = .turnaround) (ha : (s.line n).attempt = some a) (ho : a.origin = .acyclic k) (hu : a.station = some u)
    (hr : a.retryOwed = true) (hoo : a.outcome = some o) (hmiss : o.isMiss = true ∨ o = .collision) (hat : a.attempt = some m)
    (hle : m ≤ (s.slot k).retries.toNat) (hstop : a.stop = noStop) (hacc : accounts n s E N) :
    exec (.cycleStart n) s = .next ((stopLeft n s (slotStopped n s E k)).offerNotice N) := by
  have hslot : (cycleEntered n s E).slot k = s.slot k := by cases n <;> rfl
  have hline := cycleEntered_line n s E
  obtain ⟨X, hX, hover⟩ := cycleHandOver_slot (cycleEntered n s E) n a u o k m (by rw [hline]; exact ha) hr hu hoo ho hmiss hat
    (by rw [hslot]; exact hle) hstop
  have hT : (X.setAttempt n none).setSlot k { (cycleEntered n s E).slot k with state := .pending } = slotStopped n s E k := by
    rw [hX]
    cases n <;> rfl
  rw [hT] at hover
  have hline' : ((slotStopped n s E k).stationsCycleStart n).line n = cycleStopped (s.line n) := by
    rw [stationsCycleStart_line, slotStopped, setSlot_line, cycleReached_line]
  have hmode : ((slotStopped n s E k).stationsCycleStart n).mode = s.mode := by
    rw [stationsCycleStart_mode, slotStopped, setSlot_mode, cycleReached_mode]
  rw [exec_cycleStart_waiting hm hen ht he hacc hover hmode hline', flush_single]
  exact congrArg Host.Outcome.next (offerNotice_releaseDeferred N n _)

theorem slotStopped_handedOver (n : LineId) (s : State) (E : Vector Entry 64) (k : SlotIx) :
    cycleHandedOver n (s.setSlot k { s.slot k with state := .pending }) (stopLeft n s (slotStopped n s E k)) := by
  apply stopLeft_handedOver <;> rw [slotStopped_frame]
  rfl

theorem slotStopped_entries (n : LineId) (s : State) (E : Vector Entry 64) (k : SlotIx) :
    (stopLeft n s (slotStopped n s E k)).entries = E := by
  rw [slotStopped_frame]
  cases n <;> rfl

/-- Settles O30: the decision of an IDLE engine, a waiting POLL by its last outcome, a waiting slot by the phase. -/
theorem cycleStartOfAnIdleOrWaitingEngine : Obligations.CycleStartOfAnIdleOrWaitingEngine := by
  refine ⟨?idle, ?poll, ?slot⟩
  case idle =>
    intro n s hm hen ht he ha hb hf hp hq hs
    obtain ⟨hd, hexec⟩ := exec_cycleStart_decides hm hen ht he ha hb hf hp hq hs
    refine ⟨idleOpened n s .turnaround, by cases n <;> rfl, idleOpened_handedOver n s .turnaround, hd, hexec,
      fun hsync => ?_⟩
    rw [hexec]
    exact exec_cycleStart_sync hd he hb hf hsync
  case poll =>
    intro n s a j u o hm hen ht he hf hp hpark ha ho hu hr hoo hj
    refine ⟨?_, fun hmiss hlimit => cycleStartTakesOffline hm hen ht he hf hp hpark ha ho hu hr hoo hj hmiss hlimit⟩
    obtain ⟨skipped, b, hb, hskip, hends⟩ := cycleStartEndsPoll hm hen ht he hf hp hpark ha ho hu hr hoo hj
    refine ⟨skipped, b, hb, hskip, fun hcol => ?_, fun hmiss hh hl => hends _ _ (stops_miss hmiss hh hl)⟩
    subst hcol
    obtain ⟨hhand, hanswer⟩ := hends _ _ (stops_collision s u)
    exact ⟨hhand, answers_one hanswer⟩
  case slot =>
    intro n s a k u o m hm hen ht he hf ha ho hu hr hoo hmiss hat hle hstop
    have key : ∀ E N, accounts n s E N → exec (.cycleStart n) s = .next ((stopLeft n s (slotStopped n s E k)).offerNotice N) :=
      fun E N => exec_cycleStart_slot hm hen ht he ha ho hu hr hoo hmiss hat hle hstop
    cases hp : (s.line n).phase with
    | acyclic =>
      exact ⟨_, stopLeft_frame (slotStopped_frame n s s.entries k), slotStopped_handedOver n s _ k,
        fun _ => ⟨slotStopped_entries n s _ k, key _ _ (accounts_late hf hp ha ho)⟩, nofun⟩
    | cyclic =>
      obtain ⟨E, skipped, hacc, hE⟩ := accounts_overrun hf hp
      exact ⟨_, stopLeft_frame (slotStopped_frame n s E k), slotStopped_handedOver n s _ k, nofun,
        fun _ => ⟨skipped, hE _ (slotStopped_entries n s _ k), key _ _ hacc⟩⟩

end Sys2Proof.Machine
end

section
/-!
SUPPORT. Collisions and the eighth line fault (R30, R35, R43, R44).
-/

namespace Sys2Proof.Machine

open State

/-! ## What a collision finds -/

/-- The line whose transmitter a mismatch has released, its character counted (R30). -/
def collidedLine (l : Line) (a : Attempt) : Line :=
  { l with attempt := some { a with sent := a.sent + 1 }, drive := .released, frameRest := [], readBack := none }

/-- A read-back that does not agree releases the driver and counts the fault (R16, R30). -/
theorem charSent_collides {n : LineId} {s : State} {a : Attempt} {c : TxChar} (h : ¬ agrees s n c) :
    s.charSent n a c = (let t := (s.setLine n (collidedLine (s.line n) a)).countFault n false;
      if (t.line n).engine = .faulted then settle n (t.endAttempt n .collision) else t.quietWait n .collision) := by
  have hag : readBackAgrees c (s.line n).readBack = false := by
    rw [← Bool.not_eq_true, readBackAgrees_iff]
    exact h
  have hline : (s.setAttempt n (some { a with sent := a.sent + 1 })).modifyLine n Line.release
      = s.setLine n (collidedLine (s.line n) a) := by
    simp [setAttempt, modifyLine, Line.release, collidedLine]
  simp only [charSent, hag, Bool.false_eq_true, if_false, collision, hline]

/-- A fault below the limit leaves the collided engine waiting for quiet, its outcome fixed (R30, R43). -/
theorem quietWait_counted {n : LineId} {s : State} {l : Line} {a : Attempt} (ha : l.attempt = some a) (hl : l.cycnum = (s.line n).cycnum)
    (hf : l.faults.toNat < 7) :
    let t := (s.setLine n l).countFault n false
    (t.line n).engine = l.engine ∧ t.quietWait n .collision = ({ s.setLine n { l with
          attempt := some { a with fixedOutcome := if a.origin = .sync then none else some .collision }
          faults := l.faults + 1, engine := .quietWait } with
        edges := s.edges ||| lineFaultBit n } : State).offerNotice {
          kind := .lineFault, line := n, station := 0, detailA := (l.faults + 1).setWidth 6, detailB := 0
          cycle := 0, extra := 0 } := by
  intro t
  have ht : t = ((s.setLine n { l with faults := l.faults + 1 }).raise (.lineFault n)).offerNotice
      (lineFaultNotice n false (l.faults + 1)) := by
    simp only [t]
    rw [countFault_below n false _ (by rw [line_setLine, if_pos rfl, BitVec.toNat_add]; simp; omega)]
    simp only [line_setLine, if_true, setLine_setLine]
  have hline : t.line n = { l with faults := l.faults + 1 } := by
    rw [ht, offerNotice_line]
    cases n <;> rfl
  refine ⟨by rw [hline], ?_⟩
  have hfixed : (if a.isTransaction then some OutcomeCode.collision else none)
      = if a.origin = .sync then none else some .collision := by
    by_cases ho : a.origin = .sync <;> simp [Attempt.isTransaction, ho]
  simp only [quietWait, modifyLine, hline, ha, Option.map_some, hfixed]
  rw [ht, setLine_offerNotice _ _ _ _ (by cases n <;> rfl)]
  cases n <;> rfl

/-! ## The eighth fault -/

theorem fault_line (n m : LineId) (c : Word) (s : State) : (faultNotices n c s).line m = s.line m := by
  obtain ⟨_, _, _, h⟩ := fault_frame n c s
  rw [h]
  cases m <;> rfl

theorem fault_mode (n : LineId) (c : Word) (s : State) : (faultNotices n c s).mode = s.mode := by
  obtain ⟨_, _, _, h⟩ := fault_frame n c s
  rw [h]

/-- An attempt of no station just drops its record (R29, R30, R35). -/
theorem endAttempt_sync {n : LineId} {X : State} {a : Attempt} (o : OutcomeCode) (ha : (X.line n).attempt = some a)
    (hs : a.station = none) : X.endAttempt n o = (X.setAttempt n none, []) := by
  simp only [endAttempt, ha, hs]

/-- The eighth fault ends SYNC work; a break that waited starts (R30, R35, R44, R48). -/
theorem settle_syncFaulted {n : LineId} {s : State} {l : Line} {a : Attempt} (cause : Word) (o : OutcomeCode) (hs : a.station = none)
    (hstays : staysInMode s n) :
    settle n (State.endAttempt n o (faultNotices n cause (s.setLine n { faultedLine l with attempt := some a })))
      = faultNotices n cause (s.setLine n (breakBegun (faultedLine l))) := by
  rw [endAttempt_sync o (a := a) (by rw [fault_line, line_setLine, if_pos rfl]) hs]
  have hX : State.setAttempt n none (faultNotices n cause (s.setLine n { faultedLine l with attempt := some a }))
      = faultNotices n cause (s.setLine n (faultedLine l)) := by
    rw [setAttempt, modifyLine, fault_line, fault_setLine _ _ _ _ _ (by simp), line_setLine, if_pos rfl, setLine_setLine]
    rfl
  rw [hX, settle_staysInMode n s _ _ hstays (by rw [fault_mode, setLine_mode])
    (fun m hm => by rw [fault_line, line_setLine, if_neg (Ne.symm hm)]), flush_nil, fault_line, line_setLine, if_pos rfl,
    fault_setLine _ _ _ _ _ (by rw [line_setLine, if_pos rfl, (breakBegun_frame _).2.2.2.1]), setLine_setLine]

/-- The eighth fault leaves a SYNC record without STOP reasons (R39, R44). -/
theorem countFault_syncFaulted {n : LineId} {s : State} {l : Line} {a : Attempt} (q : Bool) (ha : l.attempt = some a)
    (ho : a.origin = .sync) (hf : l.faults = 7) :
    (s.setLine n l).countFault n q = faultNotices n (if q then 1 else 0) (s.setLine n { faultedLine l with attempt := some a }) := by
  rw [countFault_faultNotices n q _ (by rw [line_setLine, if_pos rfl]; exact hf)]
  simp only [line_setLine, if_true, setLine_setLine, ha, Option.map_some, Attempt.isTransaction, ho, bne_self_eq_false,
    Bool.false_eq_true, if_false]
  rfl

/-- A SYNC frame's eighth fault by a collision. -/
theorem exec_collides_sync {n : LineId} {s : State} {a : Attempt} {c : TxChar} (hs : sends s n a c) (hag : ¬ agrees s n c)
    (ho : a.origin = .sync) (hst : a.station = none) (hf : (s.line n).faults = 7) (hstays : staysInMode s n) :
    exec (.characterSent n) s = .next (faultNotices n 0 (s.setLine n (breakBegun (faultedLine (collidedLine (s.line n) a))))) := by
  have hcount := countFault_syncFaulted (s := s) (n := n) false (l := collidedLine (s.line n) a) rfl ho hf
  rw [exec_characterSent n s a c hs, charSent_collides hag]
  simp only [hcount]
  rw [if_pos (by rw [fault_line, line_setLine, if_pos rfl]; rfl)]
  exact congrArg Host.Outcome.next (settle_syncFaulted 0 .collision hst hstays)

/-- A SYNC frame's eighth fault at the quiet limit. -/
theorem exec_quietLimit_sync {n : LineId} {s : State} {a : Attempt} (he : (s.line n).engine = .quietWait)
    (ha : (s.line n).attempt = some a) (ho : a.origin = .sync) (hst : a.station = none) (hf : (s.line n).faults = 7)
    (hstays : staysInMode s n) :
    exec (.quietLimitExpiry n) s = .next (faultNotices n 1 (s.setLine n (breakBegun (faultedLine (s.line n))))) := by
  have hcount := countFault_syncFaulted (s := s) (n := n) true (l := { s.line n with engine := restState s.mode }) ha ho hf
  have hattempt : ((faultNotices n 1 (s.setLine n { faultedLine { s.line n with engine := restState s.mode } with attempt := some a })).line
      n).attempt = some a := by rw [fault_line, line_setLine, if_pos rfl]
  simp only [exec, execQuietLimitExpiry, he, if_true, setEngine, modifyLine, hcount, endQuietWait, hattempt]
  exact congrArg Host.Outcome.next (settle_syncFaulted 1 _ hst hstays)

/-- The state the eighth fault hands to the end of a transaction: the fault noted, the engine FAULTED, the record gone, the attempt
counted at the station (R37, R43, R44). -/
def faultEnded (n : LineId) (l : Line) (o : OutcomeCode) (u : StationIx) (cause : Word) (s : State) : State :=
  ((faultNotices n cause s).setLine n (faultedLine l)).setStation u (attemptCounted o (s.station u))

theorem eighthFault_line {s : State} {n : LineId} {c : Instr} {o : OutcomeCode} {cause : Word} {l : Line} {a : Attempt}
    (h : eighthFault s n c o cause l a) : l.cycnum = (s.line n).cycnum := by
  obtain ⟨-, ⟨_, -, -, -, -, -, rfl⟩ | ⟨-, -, -, -, -, -, rfl⟩⟩ := h <;> rfl

/-- The fault's notices are offered first and reach nothing of what is left. -/
theorem faultEnded_eq {n : LineId} {l : Line} {s : State} (o : OutcomeCode) (u : StationIx) (cause : Word)
    (hl : l.cycnum = (s.line n).cycnum) : faultEnded n l o u cause s
      = faultNotices n cause ((s.setLine n (faultedLine l)).setStation u (attemptCounted o (s.station u))) := by
  rw [faultEnded, fault_setLine n cause n (faultedLine l) s hl, fault_setStation]

/-- The eighth fault at a POLL or a probe hands its outcome to `pollEnd` (R38, R41, R44). -/
theorem exec_pollFaulted {s : State} {n : LineId} {c : Instr} {o : OutcomeCode} {cause : Word} {l : Line} {a : Attempt} {u : StationIx}
    {j : EntryIx} (p : Bool) (h : eighthFault s n c o cause l a) (hu : a.station = some u)
    (ho : a.origin = if p then .probe j else .cyclic j) :
    ∃ a', exec c s = .next (settle n ((faultEnded n l o u cause s).pollEnd j u p a' o)) := by
  have hos : a.origin ≠ .sync := by rw [ho]; cases p <;> simp
  obtain ⟨a', ho', hu', -, -, -, -, hexec, -, -⟩ := exec_eighthFault s n c o cause l a h hos
  refine ⟨endedRecord a' o, ?_⟩
  rw [hexec, endAttempt_end n _ a' u o (by simp) (hu'.trans hu) (.inr (.inr (by simp)))]
  have hrec : ∀ X : State, X.recordAttempt a' o = X := fun X => by cases p <;> simp [recordAttempt, ho', ho]
  have hdrop := setAttempt_ended n (faultNotices n cause s) { l with faults := 8, faulted := true, syncOwed := false } .faulted a' u
    (attemptCounted o (s.station u))
  rw [hrec, setLine_station, fault_station]
  unfold endTransaction
  simp only []
  rw [hdrop]
  cases p with
  | false => simp only [ho', ho]; rfl
  | true => simp only [ho', ho]; rfl

/-- The same at a slot's transaction (R40). -/
theorem exec_slotFaulted {s : State} {n : LineId} {c : Instr} {o : OutcomeCode} {cause : Word} {l : Line} {a : Attempt} {u : StationIx}
    {k : SlotIx} {m : Nat} (h : eighthFault s n c o cause l a) (hu : a.station = some u) (ho : a.origin = .acyclic k)
    (hm : a.attempt = some m) :
    ∃ a', a'.origin = a.origin ∧ a'.attempt = a.attempt ∧ a'.stop.abort = a.stop.abort ∧ a'.stop.park = a.stop.park
      ∧ a'.stop ≠ noStop ∧ exec c s = .next (settle n (((faultEnded n l o u cause s).setSlot k (slotCounted s k m o)).acyclicEnd k u a' o)) := by
  obtain ⟨a', ho', hu', hm', hab, hpk, hst, hexec, -, -⟩ := exec_eighthFault s n c o cause l a h (by rw [ho]; simp)
  refine ⟨endedRecord a' o, ho', hm', hab, hpk, hst, ?_⟩
  have hslot : ∀ i, (faultNotices n cause s).slot i = s.slot i := fun i => by
    obtain ⟨_, _, _, hf⟩ := fault_frame n cause s
    rw [hf]
    rfl
  rw [hexec, endAttempt_slot_end n _ _ _ a' k u m o (ho'.trans ho) (hu'.trans hu) (hm'.trans hm) (.inr (.inr rfl)), fault_station, hslot]
  rfl

/-- The rest of a step that counted the eighth fault (R48, R157). -/
theorem settle_faulted {n : LineId} {s T : State} {l : Line} (cause : Word) (gs : Groups) (hstays : staysInMode s n)
    (hm : T.mode = s.mode) (hl : ∀ m, T.line m = if n = m then faultedLine l else s.line m) :
    settle n (faultNotices n cause T, gs) = (faultNotices n cause (T.setLine n (breakBegun (faultedLine l)))).flush gs := by
  have hline : T.line n = faultedLine l := by rw [hl, if_pos rfl]
  rw [settle_staysInMode n s _ _ hstays (by rw [fault_mode, hm]) (fun m hm => by rw [fault_line, hl, if_neg (Ne.symm hm)]), fault_line,
    hline, fault_setLine _ _ _ _ _ (by rw [hline, (breakBegun_frame _).2.2.2.1])]

/-- A slot's end and the fault's notices reach different state. -/
theorem fault_slotLeft (n : LineId) (c : Word) (s : State) (u : StationIx) (st : Station) (k : SlotIx) (sl : Slot) (X : State) :
    slotLeft s u st k sl (faultNotices n c X) = faultNotices n c (slotLeft s u st k sl X) := by
  rw [slotLeft, fault_stationLeft, fault_setSlot, fault_submitted, fault_parkFinished, slotLeft]

/-- A slot whose retry a STOP reason other than ABORT and PARK forbids returns to PENDING (R40, R124). -/
theorem acyclicEnd_returns {Y : State} {k : SlotIx} {u : StationIx} {a : Attempt} {o : OutcomeCode} (habort : a.stop.abort = false)
    (hpark : a.stop.park = false) (hstop : a.stop ≠ noStop) (hdue : Y.retryDue a o = true) :
    Y.acyclicEnd k u a o = (Y.setSlot k { Y.slot k with state := .pending }, []) := by
  have hempty : a.stop.isEmpty = false := by
    rw [← Bool.not_eq_true, isEmpty_iff]
    exact hstop
  simp only [acyclicEnd, habort, hpark, hempty, hdue, Bool.not_false, Bool.and_self, if_true, Bool.false_eq_true, if_false]
  rfl

/-- The eighth fault ends a POLL or a probe, the fault's notices first (R30, R35, R41, R44, R87). -/
theorem eighthFault_poll {s : State} {n : LineId} {c : Instr} {o : OutcomeCode} {cause : Word} {l : Line} {a : Attempt} {u : StationIx}
    {st : Station} {notices : List Event} {j : EntryIx} (p : Bool) (h : eighthFault s n c o cause l a) (hu : a.station = some u)
    (ho : a.origin = if p then .probe j else .cyclic j) (hstays : staysInMode s n) (hpk : parkClear s u st) (hok : o ≠ .ok)
    (ht : stationTakes s u o true st notices ∧ (p = false ∨ (s.station u).health ≠ .offline ∨ o = .collision)
      ∨ (p = true ∧ probeTakes s u o st notices)) :
    exec c s = .next (offered (notices ++ parkRecords s u st.health) (faultNotices n cause
      (parkFinished s u (stationLeft u st ((s.setLine n (breakBegun (faultedLine l))).setEntry j { s.entry j with last := o }))))) := by
  obtain ⟨a', hexec⟩ := exec_pollFaulted p h hu ho
  have heq := faultEnded_eq o u cause (eighthFault_line h)
  obtain ⟨ev, lost, ed, hframe⟩ := fault_frame n cause ((s.setLine n (faultedLine l)).setStation u (attemptCounted o (s.station u)))
  have hpending : (faultEnded n l o u cause s).pendingOf u = s.pendingOf u := by
    rw [heq, hframe]
    cases n <;> rfl
  have hend := pollEnd_eq (faultEnded n l o u cause s) s j u p a' o st notices 0 (by simp [faultEnded]) ht (fun h => absurd h hok)
    (by rw [heq, hframe]; cases n <;> exact ⟨rfl, rfl, rfl⟩)
    (fun hp => hpending.trans hp) hpk
  have hentry : (faultEnded n l o u cause s).entry j = s.entry j := by rw [heq, hframe]; cases n <;> rfl
  rw [hexec, hend, if_neg hok, hentry, heq, fault_setEntry, fault_stationLeft, fault_parkFinished, setEntry_setStation,
    stationLeft_setStation u st _ _ (by simp [attemptCounted]),
    settle_faulted cause _ hstays (by simp) (fun m => by rw [parkFinished_line, stationLeft_line, setEntry_line, line_setLine]),
    setLine_parkFinished, setLine_stationLeft,
    setLine_setEntry, setLine_setLine, imageRecords_notOk s u o 0 hok]
  exact answers_one (flush_two _ _ _ _ (filter_pollGroups _ []))

/-- What a slot's completion reads of the STOP set is ABORT and PARK (R40). -/
theorem slotTakes_stop {s : State} {k : SlotIx} {a a' : Attempt} {m : Nat} {o : OutcomeCode} {len : BitVec 6} {sl : Slot}
    (h : slotTakes s k a m o len sl) (hab : a'.stop.abort = a.stop.abort) (hpk : a'.stop.park = a.stop.park) :
    slotTakes s k a' m o len sl := by
  unfold slotTakes at h ⊢
  rw [hab, hpk]
  exact h

/-- The eighth fault at a slot whose retry it forbids (R40, R124). -/
theorem eighthFault_returns {s : State} {n : LineId} {c : Instr} {o : OutcomeCode} {cause : Word} {l : Line} {a : Attempt} {u : StationIx}
    {k : SlotIx} {m : Nat} {sl : Slot} (h : eighthFault s n c o cause l a) (hu : a.station = some u) (ho : a.origin = .acyclic k)
    (hm : a.attempt = some m) (hstays : staysInMode s n) (hret : slotReturns s k a m o sl) :
    exec c s = .next (faultNotices n cause
      (((s.setLine n (breakBegun (faultedLine l))).setSlot k sl).setStation u (attemptCounted o (s.station u)))) := by
  obtain ⟨a', ho', hm', hab, hpk, hstop, hexec⟩ := exec_slotFaulted h hu ho hm
  obtain ⟨hretry, hmiss, habort, hpark, rfl⟩ := hret
  have hnb : o ≠ .busy := by rintro rfl; rcases hmiss with h | h <;> cases h
  have hdue : ((faultEnded n l o u cause s).setSlot k (slotCounted s k m o)).retryDue a' o = true := by
    have hcounts : (o.isMiss || o == .collision) = true := by simpa using hmiss
    simp [retryDue, hcounts, retryBudget, ho', ho, hm', hm, slotCounted, hretry]
  have hslot : slotCounted s k m o = { s.slot k with outcome := o, attempts := BitVec.ofNat 4 m } := by rw [slotCounted, if_neg hnb]
  rw [hexec, acyclicEnd_returns (hab.trans habort) (hpk.trans hpark) hstop hdue, setSlot_setSlot, slot_setSlot, if_pos rfl,
    faultEnded_eq o u cause (eighthFault_line h), fault_setSlot, setSlot_setStation,
    settle_faulted cause _ hstays (by simp) (fun m => by rw [setStation_line, setSlot_line, line_setLine]), flush_nil,
    setLine_setStation, setLine_setSlot, setLine_setLine, hslot]

/-- The eighth fault at a slot it completes (R40, R41, R87, R125). -/
theorem eighthFault_completes {s : State} {n : LineId} {c : Instr} {o : OutcomeCode} {cause : Word} {l : Line} {a : Attempt}
    {u : StationIx} {k : SlotIx} {m : Nat} {sl : Slot} {st : Station} {notices : List Event} (h : eighthFault s n c o cause l a)
    (hu : a.station = some u) (ho : a.origin = .acyclic k) (hm : a.attempt = some m) (hstays : staysInMode s n) (hok : o ≠ .ok)
    (htakes : slotTakes s k a m o 0 sl) (ht : stationTakes s u o false st notices) (hpk : parkClear s u st) :
    answersWithCompletion (exec c s) (faultNotices n cause (slotLeft s u st k sl (s.setLine n (breakBegun (faultedLine l)))))
      (notices ++ parkRecords s u st.health) k (requestRecord s k sl) := by
  obtain ⟨a', ho', hm', hab, hpark, -, hexec⟩ := exec_slotFaulted h hu ho hm
  have htakes' := slotTakes_stop htakes hab hpark
  have heq := faultEnded_eq o u cause (eighthFault_line h)
  obtain ⟨ev, lost, ed, hframe⟩ := fault_frame n cause ((s.setLine n (faultedLine l)).setStation u (attemptCounted o (s.station u)))
  generalize hY : (faultEnded n l o u cause s).setSlot k (slotCounted s k m o) = Y at hexec
  have hstation : ∀ v, Y.station v = if u = v then attemptCounted o (s.station u) else s.station v := fun v => by
    rw [← hY, setSlot_station, faultEnded, station_setStation, setLine_station, fault_station]
  have hslot : ∀ i, Y.slot i = if k = i then slotCounted s k m o else s.slot i := fun i => by
    rw [← hY, slot_setSlot, heq, hframe]
    cases n <;> rfl
  have hsub : Y.submitted = s.submitted := by rw [← hY, heq, hframe]; cases n <;> rfl
  have hcommand : Y.cmdState = s.cmdState ∧ Y.cmd = s.cmd ∧ Y.args = s.args := by
    rw [← hY, heq, hframe]
    cases n <;> exact ⟨rfl, rfl, rfl⟩
  have hpending : Y.pendingOf u = s.pendingOf u := by
    refine pendingOf_congr _ s u hsub fun i => ?_
    rw [hslot]
    split
    · rename_i hi
      subst hi
      exact ⟨rfl, rfl⟩
    · exact ⟨rfl, rfl⟩
  have hdue : a'.stop.park = true ∨ Y.retryDue a' o = false ∨ a'.stop.abort = true := by
    rcases slotTakes_noRetry s Y k a' m o 0 sl htakes' (ho'.trans ho) (hm'.trans hm) (by rw [hslot, if_pos rfl]; rfl) with hd | hd | hd
    · exact .inr (.inr hd)
    · exact .inl hd
    · exact .inr (.inl hd)
  have hend := acyclicEnd_completes Y s k u a' m o 0 sl st notices (by rw [hslot, if_pos rfl]; rfl) (by rw [hstation, if_pos rfl])
    (fun v hv => by rw [hstation, if_neg (Ne.symm hv)]) hcommand (fun hp => hpending.trans hp) hpk htakes' ht (fun h => absurd h hok) hdue
  have hleft : slotLeft s u st k sl Y = faultNotices n cause (slotLeft s u st k sl (s.setLine n (faultedLine l))) := by
    rw [← hY, heq, fault_setSlot, fault_slotLeft, setSlot_setStation,
      slotLeft_slotEnded s u st k sl _ _ _ (by simp [attemptCounted])]
  rw [hexec, hend, hsub]
  change answersWithCompletion (.next (settle n (slotLeft s u st k sl Y, _))) _ _ _ _
  rw [hleft, settle_faulted cause _ hstays (by rw [slotLeft_mode, setLine_mode]) (fun m => by rw [slotLeft_line, line_setLine]),
    setLine_slotLeft, setLine_setLine]
  exact flush_completion_two _ _ _ _ _ (by simp)

theorem eighthFault_outcome {s : State} {n : LineId} {c : Instr} {o : OutcomeCode} {cause : Word} {l : Line} {a : Attempt}
    (h : eighthFault s n c o cause l a) : o.isMiss = true ∨ o = .collision := by
  obtain ⟨-, ⟨_, -, -, -, ho, -⟩ | ⟨-, -, -, -, ho, -⟩⟩ := h
  · exact .inr ho
  · exact ho

/-- Only an OFFLINE station tells the end of a probe from that of a POLL. -/
theorem stationTakes_notOffline {s : State} {u : StationIx} {o : OutcomeCode} {p : Bool} {st : Station} {notices : List Event}
    (h : stationTakes s u o p st notices) : (s.station u).health ≠ .offline ∨ o = .collision := by
  have answering : (s.station u).health = .online ∨ (s.station u).health = .degraded → (s.station u).health ≠ .offline := by
    rintro (h | h) <;> simp [h]
  rcases h with ⟨-, hh, -⟩ | ⟨-, hh, -⟩ | ⟨-, hl, -⟩ | ⟨ho, -⟩
  · exact .inl (answering hh)
  · exact .inl (answering hh)
  · exact .inl (answering hl.1)
  · exact .inr ho

/-- Settles O12: a fault below the limit, SYNC work, and the transactions the eighth fault ends. -/
theorem collisionsAndTheEighthFault : Obligations.CollisionsAndTheEighthFault := by
  refine ⟨fun n s a c hs hag hf => ?below, fun n s a c hs hag ho hst hf hm => ?collision,
    fun n s a he ha ho hst hf hstays => exec_quietLimit_sync he ha ho hst hf hstays,
    ?eighth⟩
  case below =>
    obtain ⟨hengine, hquiet⟩ := quietWait_counted (s := s) (n := n) (l := collidedLine (s.line n) a) rfl rfl hf
    rw [exec_characterSent n s a c hs, charSent_collides hag]
    simp only []
    rw [if_neg (by rw [hengine, show (collidedLine (s.line n) a).engine = .sending from hs.1]; decide), hquiet]
    rfl
  case collision =>
    rw [exec_collides_sync hs hag ho hst hf (.inl hm), faultNotices_eq]
    rw [setLine_edges]
    rfl
  case eighth =>
    intro n s c o cause l a u st notices h hu hstays faulted
    have hok : o ≠ .ok := by
      rintro rfl
      rcases eighthFault_outcome h with h | h <;> cases h
    refine ⟨fun j hpk hkind => ?_, fun k m sl ho hm => ⟨eighthFault_returns h hu ho hm hstays,
      fun htakes ht hpk => eighthFault_completes h hu ho hm hstays hok htakes ht hpk⟩⟩
    rcases hkind with ⟨ho, ht⟩ | ⟨ho, ht | ht⟩
    · exact eighthFault_poll false h hu ho hstays hpk hok (.inl ⟨ht, .inl rfl⟩)
    · exact eighthFault_poll true h hu ho hstays hpk hok (.inl ⟨ht, .inr (stationTakes_notOffline ht)⟩)
    · exact eighthFault_poll true h hu ho hstays hpk hok (.inr ⟨rfl, ht⟩)

end Sys2Proof.Machine
end

section
/-!
SUPPORT. Rest in QUIESCING: the end of the last work reaches QUIESCED in the same step (R51, R157).
-/

namespace Sys2Proof.Machine

open State

/-! ## The end of a transaction at the lines -/

/-- The end of a transaction drops the line's record and leaves the lines, the mode and the request otherwise. -/
theorem endTransaction_sameLines (n : LineId) (a : Attempt) (u : StationIx) (o : OutcomeCode) (s : State) :
    SameLines (s.setAttempt n none) (s.endTransaction n a u o).1 := by
  unfold endTransaction
  cases a.origin with
  | cyclic e => exact pollEnd_same e u false a o _
  | probe e => exact pollEnd_same e u true a o _
  | acyclic k => exact acyclicEnd_same k u a o _
  | sync => exact SameLines.refl _

theorem setAttempt_sameLines {s t : State} (h : SameLines s t) (n : LineId) (a : Option Attempt) :
    SameLines (s.setAttempt n a) (t.setAttempt n a) := by
  obtain ⟨hm, hp, h0, h1⟩ := h
  cases n
  · exact ⟨hm, hp, by show ({ t.line0 with attempt := a } : Line) = { s.line0 with attempt := a }; rw [h0], h1⟩
  · exact ⟨hm, hp, h0, by show ({ t.line1 with attempt := a } : Line) = { s.line1 with attempt := a }; rw [h1]⟩

/-- The end of an attempt with a STOP reason ends its transaction (R38): the record is dropped. -/
theorem endAttempt_stopped_sameLines {n : LineId} {X : State} {a : Attempt} {u : StationIx} (o : OutcomeCode)
    (ha : (X.line n).attempt = some a) (hu : a.station = some u) (hstop : a.stop ≠ noStop) :
    SameLines (X.setAttempt n none) (X.endAttempt n o).1 := by
  rw [endAttempt_end n X a u o ha hu (.inr (.inl hstop))]
  have hcounted : SameLines X ((X.setStation u (attemptCounted o (X.station u))).recordAttempt a o) :=
    SameLines.trans (t := X.setStation u (attemptCounted o (X.station u))) ⟨rfl, rfl, rfl, rfl⟩ (recordAttempt_same a o _)
  exact (setAttempt_sameLines hcounted n none).trans (endTransaction_sameLines n _ u o _)

/-! ## The last step of a quiesce -/

/-- Settled at rest: QUIESCED, MODE after the other notices (R157). -/
theorem settle_lastNotices {n : LineId} {X : State} {gs : Groups} {p : List Event} (hm : X.mode = .quiescing)
    (hothers : ∀ m, m ≠ n → (X.line m).enable = true → (X.line m).engine = .hold ∨ (X.line m).faulted = true)
    (he : (X.line n).engine = .hold) (hb : (X.line n).breakRequest = false)
    (hg : gs.filter (fun g => !g.isEmpty) = [p.map Post.notice].filter fun g => !g.isEmpty) :
    answersInSomeOrder (.next (settle n (X, gs))) (quiescedFrom X) p [modeRecord 4 0 0] := by
  rw [settle_last n X gs hm hothers he hb]
  apply flush_two
  rw [List.filter_append, hg, ← List.filter_append]
  rfl

/-- With another line active, or a break that waits on this one, the last line is not reached. -/
theorem not_lastToRest {s : State} {n : LineId} (h : goesTo s n .hold) (hb : (s.line n).breakRequest = false) : ¬ lastToRest s n := by
  rintro ⟨hm, hlast⟩
  rcases staysInMode_of_goesTo h hb with hrun | ⟨-, m, hmn, he, hh, hf⟩
  · rw [hm] at hrun
    cases hrun
  · rcases hlast m hmn he with hc | hc
    · exact hh hc
    · rw [hf] at hc
      cases hc

/-- At the end of work in QUIESCING the lines hold, and QUIESCED is reached at the last one alone. -/
theorem settle_quiescing {n : LineId} {s X : State} (gs : Groups) (hq : s.mode = .quiescing) (hm : X.mode = s.mode)
    (hr : X.pendingRequest = s.pendingRequest) (hl : ∀ m, m ≠ n → X.line m = s.line m) (he : (X.line n).engine = .hold)
    (hb : (X.line n).breakRequest = false) (hsb : (s.line n).breakRequest = false) :
    (∀ m, (settle n (X, gs)).line m = X.line m)
      ∧ (goesTo s n .hold → (settle n (X, gs)).mode = .quiescing ∧ (settle n (X, gs)).pendingRequest = s.pendingRequest)
      ∧ (lastToRest s n → (settle n (X, gs)).mode = .quiesced ∧ (settle n (X, gs)).pendingRequest = none
        ∧ (settle n (X, gs)).edges.getLsbD 5 = true) := by
  have hstays : goesTo s n .hold → settle n (X, gs) = X.flush gs := fun h => by
    rw [settle_staysInMode n s X gs (staysInMode_of_goesTo h hsb) hm hl, breakBegun_none _ hb, setLine_line]
  have hlast : lastToRest s n → settle n (X, gs) = (quiescedFrom X).flush (gs ++ [[.notice (modeRecord 4 0 0)]]) := fun h =>
    settle_last n X gs (hm.trans hq) (fun m hmn hen => by rw [hl m hmn] at hen ⊢; exact h.2 m hmn hen) he hb
  refine ⟨?_, fun h => ?_, fun h => ?_⟩
  · obtain ⟨md, pr, ed, g, hshape, -⟩ := settle_shape n X gs
    rw [hshape, breakBegun_none _ hb, setLine_line]
    intro m
    rw [(flush_same _ _).line m]
    cases m <;> rfl
  · rw [hstays h]
    exact ⟨(flush_same gs X).1.trans (hm.trans hq), (flush_same gs X).2.1.trans hr⟩
  · rw [hlast h]
    exact ⟨(flush_same _ _).1, (flush_same _ _).2.1, flush_edges _ _ 5 (by simp [quiescedFrom])⟩

/-- A quiet wait of SYNC work ends in the rest of the step (R35). -/
theorem endQuietWait_sync {n : LineId} {X : State} {a : Attempt} (ha : (X.line n).attempt = some a) (hs : a.station = none) :
    X.endQuietWait n = settle n (X.setLine n { X.line n with attempt := none }, []) := by
  simp only [endQuietWait, ha, endAttempt_sync _ ha hs, setAttempt, modifyLine]

/-- The quiet limit below the line fault limit (R35, R43). -/
theorem countFault_quietLimit {n : LineId} {s : State} (e : EngineState) (hf : (s.line n).faults.toNat < 7) :
    (s.setEngine n e).countFault n true
      = (quietLimitNoted n s).setLine n { s.line n with engine := e, faults := (s.line n).faults + 1 } := by
  have hline : (s.setEngine n e).line n = { s.line n with engine := e } := by simp [setEngine, modifyLine]
  rw [countFault_below n true _ (by rw [hline, BitVec.toNat_add]; simp; omega), hline, quietLimitNoted,
    setLine_offerNotice _ _ _ _ (by cases n <;> rfl)]
  cases n <;> rfl

/-- SYNC work ends by the rest of its step alone (R29, R30, R35). -/
theorem exec_syncEnds {s : State} {n : LineId} {c : Instr} {l : Line} {b : State} (h : syncEnds s n c l b) :
    exec c s = .next (settle n (b.setLine n { l with engine := restState s.mode, attempt := none }, [])) := by
  obtain ⟨a, ch, hc, hs, hag, hrest, ho, hl, hb⟩ | ⟨a, he, ha, ho, hst, ⟨hc, hq, hl, hb⟩ | ⟨hc, hf, hl, hb⟩⟩ := h <;> rw [hc, hl, hb]
  · have hag' : readBackAgrees ch (s.line n).readBack = true := (readBackAgrees_iff s n ch).2 hag
    rw [exec_characterSent n s a ch hs]
    simp only [charSent, hag', hrest, if_true, frameSent, Attempt.isTransaction, ho, bne_self_eq_false, Bool.false_eq_true, if_false,
      setEngine, setAttempt, modifyLine, setLine_setLine, line_setLine, setLine_mode, Line.release_of_sent]
  · have hline : (s.setEngine n (restState s.mode)).line n = { s.line n with engine := restState s.mode } := by
      simp [setEngine, modifyLine]
    simp only [exec, execQuietWaitEnd, he, (quiet_iff _).2 hq, and_self, if_true]
    rw [endQuietWait_sync (a := a) (by rw [hline]; exact ha) hst, hline, setEngine, modifyLine, setLine_setLine]
  · simp only [exec, execQuietLimitExpiry, he, if_true]
    rw [countFault_quietLimit _ hf, endQuietWait_sync (a := a) (by rw [line_setLine, if_pos rfl]; exact ha) hst, line_setLine, if_pos rfl,
      setLine_setLine]

theorem syncEnds_frame {s : State} {n : LineId} {c : Instr} {l : Line} {b : State} (h : syncEnds s n c l b) :
    SameButPosts s b ∧ l.breakRequest = (s.line n).breakRequest ∧ l.enable = (s.line n).enable ∧ l.faulted = (s.line n).faulted := by
  have hself : SameButPosts s s := ⟨rfl, fun _ => rfl, fun _ => rfl, fun _ => rfl, fun _ => rfl, ⟨rfl, rfl, rfl⟩, rfl, rfl⟩
  obtain ⟨a, ch, hc, hs, hag, hrest, ho, hl, hb⟩ | ⟨a, he, ha, ho, hst, ⟨hc, hq, hl, hb⟩ | ⟨hc, hf, hl, hb⟩⟩ := h <;> rw [hl, hb]
  · exact ⟨hself, rfl, rfl, rfl⟩
  · exact ⟨hself, rfl, rfl, rfl⟩
  · obtain ⟨_, _, _, hnoted⟩ := offerNotice_frame {
      kind := .lineFault, line := n, station := 0, detailA := ((s.line n).faults + 1).setWidth 6, detailB := 1, cycle := 0, extra := 0 }
      { s with edges := s.edges ||| lineFaultBit n }
    rw [quietLimitNoted, hnoted]
    exact ⟨⟨rfl, fun m => by cases m <;> rfl, fun _ => rfl, fun _ => rfl, fun _ => rfl, ⟨rfl, rfl, rfl⟩, rfl, rfl⟩, rfl, rfl, rfl⟩

/-! ## The ends of work in QUIESCING -/

/-- An attempt with a STOP reason ends in QUIESCING. -/
theorem attemptRests {n : LineId} {s : State} {c : Instr} {o : OutcomeCode} {l : Line} {a : Attempt} {u : StationIx} {b : State}
    (h : attemptEnds s n c o l a b) (hu : a.station = some u) (hstop : a.stop ≠ noStop) (hq : s.mode = .quiescing)
    (hb : (s.line n).breakRequest = false) :
    ∃ t, exec c s = .next t ∧ (t.line n).attempt = none ∧ (t.line n).engine = .hold ∧ (∀ m, m ≠ n → t.line m = s.line m)
      ∧ (goesTo s n .hold → t.mode = .quiescing ∧ t.pendingRequest = s.pendingRequest)
      ∧ (lastToRest s n → t.mode = .quiesced ∧ t.pendingRequest = none ∧ t.edges.getLsbD 5 = true) := by
  obtain ⟨⟨hbreak, -⟩, ev, lost, ed, hframe⟩ := attemptEnds_frame n s c o l a b h
  have hrest : restState s.mode = .hold := by rw [hq]; rfl
  have hsame := endAttempt_stopped_sameLines (X := b.setLine n { l with engine := restState s.mode, attempt := some a }) o
    (by rw [line_setLine, if_pos rfl]) hu hstop
  obtain ⟨⟨X, gs⟩, hX⟩ : ∃ r, r = (b.setLine n { l with engine := restState s.mode, attempt := some a }).endAttempt n o := ⟨_, rfl⟩
  rw [← hX] at hsame
  have hline : X.line n = { l with engine := .hold, attempt := none } := by
    rw [hsame.line n, setAttempt, modifyLine, line_setLine, if_pos rfl, line_setLine, if_pos rfl, hrest]
  have hothers : ∀ m, m ≠ n → X.line m = s.line m := fun m hm => by
    rw [hsame.line m, setAttempt, modifyLine, line_setLine, if_neg (Ne.symm hm), line_setLine, if_neg (Ne.symm hm), hframe]
    cases m <;> rfl
  have hmode : X.mode = s.mode := hsame.1.trans (by rw [hframe]; cases n <;> rfl)
  have hpending : X.pendingRequest = s.pendingRequest := hsame.2.1.trans (by rw [hframe]; cases n <;> rfl)
  obtain ⟨hlines, hstays, hlast⟩ := settle_quiescing gs hq hmode hpending hothers (by rw [hline]) (by rw [hline]; exact hbreak.trans hb) hb
  refine ⟨_, by rw [exec_attemptEnds n s c o l a b h, ← hX], ?_, ?_, fun m hm => ?_, hstays, hlast⟩
  · rw [hlines, hline]
  · rw [hlines, hline]
  · rw [hlines, hothers m hm]

/-- The end of the last POLL of a quiesce, with what its station posts (R41, R87, R157). -/
theorem pollRests {n : LineId} {s : State} {c : Instr} {o : OutcomeCode} {l : Line} {a : Attempt} {u : StationIx} {b : State}
    {j : EntryIx} {st : Station} {notices : List Event} (h : attemptEnds s n c o l a b) (ho : a.origin = .cyclic j)
    (hu : a.station = some u) (hstop : a.stop ≠ noStop) (hok : o ≠ .ok) (hb : (s.line n).breakRequest = false) (hlast : lastToRest s n)
    (ht : stationTakes s u o true st notices) (hpk : parkClear s u st) :
    answersInSomeOrder (exec c s) (quiescedFrom (parkFinished s u (stationLeft u st
        ((b.setLine n { l with engine := .hold, attempt := none }).setEntry j { s.entry j with last := o }))))
      (notices ++ parkRecords s u st.health) [modeRecord 4 0 0] := by
  have hposts := attemptEnds_sameButPosts h
  obtain ⟨⟨hbreak, -⟩, -⟩ := attemptEnds_frame n s c o l a b h
  obtain ⟨hq, hothers⟩ := hlast
  have hrest : restState s.mode = .hold := by rw [hq]; rfl
  have hend := pollEnd_eq (pollEnded n l o u s b) s j u false (endedRecord a o) o st notices 0 (by simp [pollEnded]) (.inl ⟨ht, .inl rfl⟩)
    (fun h => absurd h hok) (by simpa [pollEnded] using hposts.command)
    (fun hp => (pendingOf_congr _ s u (by simp [pollEnded, hposts.submitted]) fun k => by simp [pollEnded, hposts.slot]).trans hp) hpk
  have hentry : (pollEnded n l o u s b).entry j = s.entry j := by simp [pollEnded, hposts.entry]
  have hhealth : (attemptCounted o (s.station u)).health
      = (((b.setLine n { l with engine := .hold, attempt := none }).setEntry j { s.entry j with last := o }).station u).health := by
    rw [setEntry_station, setLine_station, hposts.station]
    rfl
  rw [exec_pollEnds j false h hu ho (.inr hstop), hend, if_neg hok, hentry, pollEnded, hrest, setEntry_setStation,
    stationLeft_setStation u st _ _ hhealth, imageRecords_notOk s u o 0 hok]
  refine settle_lastNotices ?_ (fun m hm => ?_) ?_ ?_ ?_
  · rw [parkFinished_mode, stationLeft_mode, setEntry_mode, setLine_mode, hposts.mode, hq]
  · rw [parkFinished_line, stationLeft_line, setEntry_line, line_setLine, if_neg (Ne.symm hm), hposts.line]
    exact hothers m hm
  · rw [parkFinished_line, stationLeft_line, setEntry_line, line_setLine, if_pos rfl]
  · rw [parkFinished_line, stationLeft_line, setEntry_line, line_setLine, if_pos rfl]
    exact hbreak.trans hb
  · rw [filter_pollGroups]
    cases (notices ++ parkRecords s u st.health) <;> rfl

/-- SYNC work that is the last of a quiesce (R51, R157). -/
theorem syncRests {n : LineId} {s : State} {c : Instr} {l : Line} {b : State} (h : syncEnds s n c l b) (hlast : lastToRest s n)
    (hb : (s.line n).breakRequest = false) :
    exec c s = .next ((quiescedFrom (b.setLine n { l with engine := .hold, attempt := none })).offerNotice (modeRecord 4 0 0)) := by
  obtain ⟨hposts, hbreak, -, -⟩ := syncEnds_frame h
  obtain ⟨hq, hothers⟩ := hlast
  have hrest : restState s.mode = .hold := by rw [hq]; rfl
  rw [exec_syncEnds h, hrest, settle_last n _ [] (by rw [setLine_mode, hposts.mode, hq])
    (fun m hm => by rw [line_setLine, if_neg (Ne.symm hm), hposts.line]; exact hothers m hm) (by rw [line_setLine, if_pos rfl])
    (by rw [line_setLine, if_pos rfl]; exact hbreak.trans hb), List.nil_append, flush_single]
  rfl

/-- A break that is the last of a quiesce, X being what its end leaves (R49, R157). -/
theorem breakRests {n : LineId} {s X : State} (hm : X.mode = s.mode)
    (hl : ∀ m, X.line m = if n = m then brokenLine s.mode (s.line n) else s.line m) (hb : (s.line n).breakRequest = false)
    (hlast : lastToRest s n) :
    answersInSomeOrder (.next (settle n (X, restoredPosts n (s.line n).faulted))) (quiescedFrom X)
      (if (s.line n).faulted = true then [lineRestoredNotice n] else []) [modeRecord 4 0 0] := by
  obtain ⟨hq, hothers⟩ := hlast
  refine settle_lastNotices (hm.trans hq) (fun m hmn => ?_) ?_ ?_ ?_
  · rw [hl m, if_neg (Ne.symm hmn)]
    exact hothers m hmn
  · rw [hl n, if_pos rfl, brokenLine, hq]
    rfl
  · rw [hl n, if_pos rfl]
    exact hb
  · cases (s.line n).faulted <;> rfl

/-- Settles O37: attempts by `settle_quiescing`, and the last work of each kind by `settle_last`. -/
theorem restInQuiescing : Obligations.RestInQuiescing := by
  refine ⟨fun n s c o l a u b h hu hstop hq hb => attemptRests h hu hstop hq hb,
    fun n s c o l a j u st notices b h ho hu hstop hok hb hlast ht hpk => pollRests h ho hu hstop hok hb hlast ht hpk,
    fun n s c l b h => ⟨fun e hg => ?sync, fun hlast hb => syncRests h hlast hb⟩, ?brk⟩
  case sync =>
    obtain ⟨hposts, hfields⟩ := syncEnds_frame h
    rw [exec_syncEnds h, goesTo_rest n s e hg, settle_goesTo n s e hg _ _ l (by rw [setLine_mode, hposts.mode])
      (fun m hm => by rw [line_setLine, if_neg (Ne.symm hm), hposts.line]) (by rw [line_setLine, if_pos rfl]) hfields, flush_nil,
      setLine_setLine]
  case brk =>
    intro n s he hd hb hlast ended restored
    have hline : ended = s.setLine n (brokenLine s.mode (s.line n)) := by
      simp only [ended, brokenLine, hlast.1]
      rfl
    have hrestored : restored = if (s.line n).faulted = true then [lineRestoredNotice n] else [] := rfl
    rw [exec_lineBreakEnd he hd, hline, hrestored]
    refine ⟨fun hc => ?_, fun hc h15 harg => ?_⟩
    · rw [breakEnd_unawaited (fun h => hc ((waitingBreak_iff s n).1 h).1)]
      exact breakRests (by rw [setLine_mode]) (fun m => by rw [line_setLine]) hb hlast
    · rw [breakEnd_awaited ((waitingBreak_iff s n).2 ⟨hc, h15, harg⟩)]
      have hdone : (s.setLine n (brokenLine s.mode (s.line n))).complete .ok (if (s.line n).faulted then 1 else 0)
          = { s.setLine n (brokenLine s.mode (s.line n)) with
            cmdState := .done, result := .ok, cvalue := if (s.line n).faulted = true then 1 else 0, edges := s.edges ||| 0x0010 } := by
        cases n <;> rfl
      rw [hdone]
      exact breakRests (by cases n <;> rfl) (fun m => by rw [← line_setLine]; cases m <;> rfl) hb hlast

end Sys2Proof.Machine
end

section
/-!
SUPPORT. Mode requests and the configuration checks (R151, R153, R155).
-/

namespace Sys2Proof.Machine

open State

/-! ## Refused requests (R151) -/

/-- A request that Table 8-2 does not accept is refused (R151). -/
theorem modeRequest_refused {s : State} {v : Word} (hm : s.mode ≠ .init)
    (h : s.pendingRequest ≠ none ∨ ¬ (s.mode = .config ∧ v = 2) ∧ ¬ (s.mode = .run ∧ v = 3) ∧ ¬ (s.mode = .quiesced ∧ v = 2)
      ∧ ¬ (s.mode = .quiesced ∧ v = 1)) : s.modeRequest v = { s with reqRefused := true } := by
  have hinit : s.inInit = false := by simp [inInit, hm]
  change s.modeRequest v = s.refuseRequest
  unfold modeRequest
  rw [if_neg (by rw [hinit]; decide)]
  rcases h with h | ⟨h1, h2, h3, h4⟩
  · rw [if_pos (Option.isSome_iff_ne_none.2 h)]
  · rw [if_neg h1, if_neg h2, if_neg h3, if_neg h4, ite_self]

/-- Settles O31: every request outside Table 8-2, and the bit of DEVSTAT that clears the mark. -/
theorem refusedModeRequests : Obligations.RefusedModeRequests := by
  refine ⟨fun s hm => ⟨fun h => ?run, fun h => ?quiesce, fun h => ?config, fun v h1 h2 h3 => ?other⟩, fun s v hm => ?clear⟩
  case run => exact congrArg Host.Outcome.next (modeRequest_refused hm (h.imp id fun ⟨hc, hq⟩ =>
    ⟨fun h => hc h.1, fun h => absurd h.2 (by decide), fun h => hq h.1, fun h => hq h.1⟩))
  case quiesce => exact congrArg Host.Outcome.next (modeRequest_refused hm (h.imp id fun hr =>
    ⟨fun h => absurd h.2 (by decide), fun h => hr h.1, fun h => absurd h.2 (by decide), fun h => absurd h.2 (by decide)⟩))
  case config => exact congrArg Host.Outcome.next (modeRequest_refused hm (h.imp id fun hq =>
    ⟨fun h => absurd h.2 (by decide), fun h => absurd h.2 (by decide), fun h => hq h.1, fun h => hq h.1⟩))
  case other =>
    have hwrite : exec (.registerWrite 0x01 v) s = .next (s.modeRequest v) := congrArg Host.Outcome.next (hostWrite_of_mode 0x01 v s hm)
    rw [hwrite, modeRequest_refused hm (.inr ⟨fun h => h2 h.2, fun h => h3 h.2, fun h => h2 h.2, fun h => h1 h.2⟩)]
  case clear =>
    have hwrite : exec (.devstatWrite v) s = .next (s.devstatWrite v) := congrArg Host.Outcome.next (hostWrite_of_mode 0x00 v s hm)
    rw [hwrite, State.devstatWrite]
    cases hv : v.getLsbD 4 <;> simp

/-! ## The configuration checks (R153, Table 8-3) -/

theorem firstSome_map_none {n : Nat} {f : Fin n → Option (BitVec 4)} :
    firstSome (fun t => (f t).map fun c => (c, BitVec.ofNat 6 t.val)) (List.finRange n) = none ↔ ∀ t, f t = none := by
  rw [firstSome_eq_none_iff]
  simp

/-- The lowest index whose check fails gives the error. -/
theorem firstSome_map_some {n : Nat} {f : Fin n → Option (BitVec 4)} {u : Fin n} {c : BitVec 4} (hu : f u = some c)
    (hb : ∀ v, v.val < u.val → f v = none) :
    firstSome (fun t => (f t).map fun c => (c, BitVec.ofNat 6 t.val)) (List.finRange n) = some (c, BitVec.ofNat 6 u.val) := by
  obtain ⟨l1, l2, hsplit, hbelow⟩ := finRange_split u
  rw [hsplit]
  apply firstSome_first
  · intro v hv
    rw [hb v (hbelow v hv)]
    rfl
  · rw [hu]
    rfl

/-- No line enabled is the first check. -/
theorem validate_noLine {s : State} (h0 : s.line0.enable = false) (h1 : s.line1.enable = false) : s.validate = some (1, 0) := by
  simp [validate, h0, h1]

/-- With a line enabled the search goes through the lines, the stations and the entries. -/
theorem validate_lines {s : State} (h : s.line0.enable = true ∨ s.line1.enable = true) (hl : ∀ n, lineValid (s.line n)) :
    s.validate = (firstSome (fun t => (s.stationError t).map fun c => (c, BitVec.ofNat 6 t.val)) (List.finRange 32)).or
      (firstSome (fun e => (s.entryError e).map fun c => (c, BitVec.ofNat 6 e.val)) (List.finRange 64)) := by
  have hen : (!s.line0.enable && !s.line1.enable) = false := by rcases h with h | h <;> simp [h]
  have h0 : lineError s.line0 = none := (lineError_none _).2 (hl .zero)
  have h1 : lineError s.line1 = none := (lineError_none _).2 (hl .one)
  unfold validate
  simp only [hen, h0, h1, Bool.false_eq_true, if_false]
  cases firstSome (fun t => (s.stationError t).map fun c => (c, BitVec.ofNat 6 t.val)) (List.finRange 32) <;> rfl

theorem validate_line0 {s : State} (h : s.line0.enable = true ∨ s.line1.enable = true) (hl : ¬ lineValid s.line0) :
    s.validate = some (if s.line0.period.toNat < 10 then 2 else 3, 0) := by
  have hen : (!s.line0.enable && !s.line1.enable) = false := by rcases h with h | h <;> simp [h]
  simp only [validate, hen, lineError_some _ hl, Bool.false_eq_true, if_false]

theorem validate_line1 {s : State} (h : s.line0.enable = true ∨ s.line1.enable = true) (hl0 : lineValid s.line0)
    (hl : ¬ lineValid s.line1) : s.validate = some (if s.line1.period.toNat < 10 then 2 else 3, 1) := by
  have hen : (!s.line0.enable && !s.line1.enable) = false := by rcases h with h | h <;> simp [h]
  simp only [validate, hen, lineError_some _ hl, (lineError_none _).2 hl0, Bool.false_eq_true, if_false]

theorem stationErrors_none {s : State} (h : ∀ u, stationValid s u) :
    firstSome (fun t => (s.stationError t).map fun c => (c, BitVec.ofNat 6 t.val)) (List.finRange 32) = none :=
  firstSome_map_none.2 fun u => (stationError_none s u).2 (h u)

/-- The validation passes exactly when every check passes (R153). -/
theorem validate_none_iff (s : State) : s.validate = none ↔ (s.line0.enable = true ∨ s.line1.enable = true)
    ∧ (∀ n, lineValid (s.line n)) ∧ (∀ u, stationValid s u) ∧ ∀ e, entryValid s e := by
  by_cases hen : s.line0.enable = true ∨ s.line1.enable = true
  · by_cases hl : ∀ n, lineValid (s.line n)
    · rw [validate_lines hen hl, Option.or_eq_none_iff, firstSome_map_none, firstSome_map_none]
      simp only [stationError_none, entryError_none]
      exact ⟨fun h => ⟨hen, hl, h⟩, fun h => h.2.2⟩
    · refine ⟨fun h => ?_, fun h => absurd h.2.1 hl⟩
      by_cases h0 : lineValid s.line0
      · have h1 : ¬ lineValid s.line1 := fun h1 => hl fun | .zero => h0 | .one => h1
        rw [validate_line1 hen h0 h1] at h
        cases h
      · rw [validate_line0 hen h0] at h
        cases h
  · have hoff : s.line0.enable = false ∧ s.line1.enable = false := by simpa using hen
    rw [validate_noLine hoff.1 hoff.2]
    exact ⟨fun h => absurd h (by simp), fun h => absurd h.1 hen⟩

/-- Settles O32: each group of checks by the lemma on its search. -/
theorem validationInTheOrderOfTheTable : Obligations.ValidationInTheOrderOfTheTable := by
  intro s
  refine ⟨validate_none_iff s, validate_noLine, fun hen => ⟨validate_line0 hen, validate_line1 hen, fun hl u hu hb => ?_,
    fun hl hs e he hb => ?_⟩⟩
  · have hfirst := firstSome_map_some (stationError_some s u hu) fun v hv => (stationError_none s v).2 (hb v hv)
    rw [validate_lines hen hl, hfirst]
    rfl
  · have hfirst := firstSome_map_some (entryError_some s e he) fun v hv => (entryError_none s v).2 (hb v hv)
    rw [validate_lines hen hl, stationErrors_none hs, hfirst]
    rfl

end Sys2Proof.Machine
end

section
/-!
SUPPORT. RUN entry (R53, R55, R62, R71, R76, R133, R155).
-/

namespace Sys2Proof.Machine

open State

/-! ## A line at RUN entry -/

/-- The line as the step of the entry prepares it (R53, R62, R181). -/
def preparedLine (l : Line) : Line :=
  if l.enable = true then { l with walk := 0, timerRunning := true, runningCount := l.period, cycnum := 0 } else { l with walk := 0 }

/-- The line once its engine has left OFF and cycle 0 has started (R22, R50, R55). -/
def enteredLine (l : Line) : Line :=
  if l.enable = true then
    handedLine (if l.breakOnStart = true then Line.startBreak l else { l with engine := .turnaround })
  else l

theorem prepareLine_eq (n : LineId) (X : State) : X.prepareLine n = X.setLine n (preparedLine (X.line n)) := by
  unfold prepareLine preparedLine loadTimer modifyLine
  by_cases h : (X.line n).enable = true
  · simp only [h, if_true, line_setLine, setLine_setLine]
  · simp only [h, if_false, Bool.false_eq_true]

/-- What the start of one line at RUN entry leaves, slots and flags aside. -/
structure LineEntered (n : LineId) (X T : State) : Prop where
  frame : ∃ sl ed, T = { X.setLine n (enteredLine (X.line n)) with slots := sl, edges := ed }
  slot : ∀ k, T.slot k = if (X.line n).enable = true ∧ (X.slot k).state = .pending ∧ X.slotLine k = n
    then { X.slot k with deferred := false } else X.slot k
  keeps : ∀ i, X.edges.getLsbD i = true → T.edges.getLsbD i = true
  started : (X.line n).enable = true → T.edges.getLsbD (if n = .zero then 6 else 7) = true

theorem leaveOff_eq (n : LineId) (X : State) : X.leaveOff n
    = X.setLine n (if (X.line n).breakOnStart = true then Line.startBreak (X.line n) else { X.line n with engine := .turnaround }) := by
  unfold leaveOff startBreak setEngine modifyLine
  split <;> rfl

theorem lineEntry_entered {n : LineId} {X : State} (hm : X.mode = .run) (ha : (X.line n).attempt = none)
    (hb : (X.line n).breakRequest = false) : LineEntered n X (X.lineEntry n) := by
  by_cases he : (X.line n).enable = true
  · obtain ⟨l, hl⟩ : ∃ l, l = if (X.line n).breakOnStart = true then Line.startBreak (X.line n)
      else { X.line n with engine := .turnaround } := ⟨_, rfl⟩
    have hla : l.attempt = none ∧ l.breakRequest = false ∧ l.engine ≠ .idle := by
      rw [hl]
      split
      · exact ⟨ha, rfl, by simp [Line.startBreak]⟩
      · exact ⟨ha, hb, by simp⟩
    obtain ⟨hla, hlb, hle⟩ := hla
    have hentered : enteredLine (X.line n) = handedLine l := by rw [enteredLine, if_pos he, hl]
    have hline : (X.setLine n l).line n = l := by rw [line_setLine, if_pos rfl]
    obtain ⟨Z, hZ⟩ : ∃ Z : State, Z = { X.setLine n (handedLine l) with edges := X.edges ||| cycleStartBit n } := ⟨_, rfl⟩
    have hZl : Z.line n = handedLine l := by rw [hZ]; cases n <;> rfl
    have hstart : X.lineEntry n = Z.releaseDeferred n := by
      rw [lineEntry, if_pos he, leaveOff_eq, ← hl, startCycle_running n 0 _ (by rw [setLine_mode, hm]) (by rw [hline]; exact hla)
        (by rw [hline]; exact hlb), hline, setLine_setLine, setLine_edges, ← hZ, wakeIdle, if_neg]
      rintro ⟨-, hidle, -⟩
      have hkept : (Z.releaseDeferred n).line n = Z.line n := by cases n <;> rfl
      rw [hkept, hZl] at hidle
      exact hle hidle
    rw [hstart]
    refine ⟨⟨(Z.releaseDeferred n).slots, X.edges ||| cycleStartBit n, ?_⟩, fun k => ?_, fun i hi => ?_, fun _ => ?_⟩
    · rw [hentered, hZ]
      rfl
    · rw [releaseDeferred_slot]
      have hslot : ∀ i, Z.slot i = X.slot i := fun i => by rw [hZ]; cases n <;> rfl
      have hof : Z.slotLine k = X.slotLine k := by rw [hZ]; cases n <;> rfl
      rw [hslot, hof]
      simp [he]
    · show Z.edges.getLsbD i = true
      rw [hZ]
      simp only [BitVec.getLsbD_or, hi, Bool.true_or]
    · show Z.edges.getLsbD _ = true
      rw [hZ]
      cases n <;> simp [cycleStartBit]
  · have hentered : enteredLine (X.line n) = X.line n := if_neg he
    rw [lineEntry, if_neg he]
    refine ⟨⟨X.slots, X.edges, ?_⟩, fun k => ?_, fun i hi => hi, fun h => absurd h he⟩
    · rw [hentered, setLine_line]
    · rw [if_neg fun h => he h.1]

/-- What the starts of both lines leave. -/
structure LinesEntered (X T : State) : Prop where
  frame : ∃ sl ed, T = { (X.setLine .zero (enteredLine (X.line .zero))).setLine .one (enteredLine (X.line .one)) with
    slots := sl, edges := ed }
  slot : ∀ k, T.slot k = if (X.line (X.slotLine k)).enable = true ∧ (X.slot k).state = .pending
    then { X.slot k with deferred := false } else X.slot k
  keeps : ∀ i, X.edges.getLsbD i = true → T.edges.getLsbD i = true
  started : ∀ n, (X.line n).enable = true → T.edges.getLsbD (if n = .zero then 6 else 7) = true

theorem lineEntries_entered {X : State} (hm : X.mode = .run) (ha : ∀ n, (X.line n).attempt = none)
    (hb : ∀ n, (X.line n).breakRequest = false) : LinesEntered X ((X.lineEntry .zero).lineEntry .one) := by
  obtain ⟨⟨sl, ed, hframe⟩, hslot, hkeeps, hstarted⟩ := lineEntry_entered hm (ha .zero) (hb .zero)
  generalize X.lineEntry .zero = Y at hframe hslot hkeeps hstarted
  have hYl : Y.line .one = X.line .one := by rw [hframe]; rfl
  obtain ⟨⟨sl', ed', hframe'⟩, hslot', hkeeps', hstarted'⟩ := lineEntry_entered (n := .one) (X := Y) (by rw [hframe]; exact hm)
    (by rw [hYl]; exact ha .one) (by rw [hYl]; exact hb .one)
  refine ⟨⟨sl', ed', ?_⟩, fun k => ?_, fun i hi => hkeeps' i (hkeeps i hi), fun n => ?_⟩
  · rw [hframe', hYl, hframe]
    rfl
  · have hstation : ∀ u, Y.station u = X.station u := fun u => by rw [hframe]; rfl
    have hof : Y.slotLine k = X.slotLine k := by
      unfold slotLine
      rw [hslot k, hstation]
      split <;> rfl
    have hstate : (Y.slot k).state = (X.slot k).state := by rw [hslot k]; split <;> rfl
    rw [hslot' k, hYl, hof, hstate, hslot k]
    cases hline : X.slotLine k <;> by_cases hp : (X.slot k).state = .pending <;> simp [hp]
  · cases n
    · exact fun h => hkeeps' _ (hstarted h)
    · rw [← hYl]
      exact hstarted'

/-! ## The block at RUN entry -/

/-- The stations and lines of RUN entry before the slots' cancellations. -/
def runPrepared (s : State) : State :=
  ((({ s with errCode := 0, errIndex := 0 } : State).prepareLine .zero).prepareLine .one).mapStations fun _ st => st.runEntry

/-- The cancellations of RUN entry (R133). -/
def runCancelled (s : State) : State × List Post :=
  (runPrepared s).finishSlots .cancelled ((runPrepared s).pendingList.filter (runPrepared s).invalidSlot)

/-- What the owners of RUN entry post before the lines start: STATION_STATE and the completions. -/
def runPosts (s : State) : Groups :=
  (((({ s with errCode := 0, errIndex := 0 } : State).prepareLine .zero).prepareLine .one).entryNotices) ++ [(runCancelled s).2]

/-- The state in which the lines of RUN entry start. -/
def runReady (s : State) : State := { (runCancelled s).1.flush (runPosts s) with mode := .run }

theorem runPrepared_line (s : State) (n : LineId) : (runPrepared s).line n = preparedLine (s.line n) := by
  rw [runPrepared, mapStations_line, prepareLine_eq, prepareLine_eq]
  cases n <;> rfl

theorem runPrepared_frame (s : State) : ∃ S, runPrepared s = { (s.setLine .zero (preparedLine s.line0)).setLine .one (preparedLine s.line1) with
    errCode := 0, errIndex := 0, stations := S } ∧ ∀ u, S.get u = (s.station u).runEntry := by
  refine ⟨(runPrepared s).stations, ?_, fun u => ?_⟩
  · rw [runPrepared, prepareLine_eq, prepareLine_eq]
    rfl
  · show (runPrepared s).station u = _
    rw [runPrepared, station_mapStations, prepareLine_eq, prepareLine_eq]
    rfl

/-- Up to the start of the lines RUN entry changes lines and stations as prepared, posts, and cancels slots. -/
theorem runReady_frame (s : State) : ∃ ev lost ed sl sub ow dn i, runReady s = { runPrepared s with
    mode := .run, events := ev, evlost := lost, edges := ed, slots := sl, submitted := sub, owners := ow, done := dn, freeIndex := i } := by
  obtain ⟨sl, sub, hfinish⟩ := finishSlots_frame .cancelled ((runPrepared s).pendingList.filter (runPrepared s).invalidSlot) (runPrepared s)
  obtain ⟨ev, lost, ed, sl', ow, dn, i, hflush⟩ := flush_frame (runPosts s) (runCancelled s).1
  refine ⟨ev, lost, ed, sl', sub, ow, dn, i, ?_⟩
  rw [runReady, hflush, runCancelled, hfinish]

theorem runReady_line (s : State) (n : LineId) : (runReady s).line n = preparedLine (s.line n) := by
  obtain ⟨_, _, _, _, _, _, _, _, h⟩ := runReady_frame s
  rw [h, ← runPrepared_line]
  cases n <;> rfl

theorem runReady_station (s : State) (u : StationIx) : (runReady s).station u = (s.station u).runEntry := by
  obtain ⟨_, _, _, _, _, _, _, _, h⟩ := runReady_frame s
  obtain ⟨S, hS, hget⟩ := runPrepared_frame s
  rw [h, hS, ← hget]
  rfl

theorem preparedLine_frame (l : Line) : (preparedLine l).enable = l.enable ∧ (preparedLine l).attempt = l.attempt
    ∧ (preparedLine l).breakRequest = l.breakRequest := by
  unfold preparedLine
  split <;> exact ⟨rfl, rfl, rfl⟩

/-- The state RUN entry leaves before its MODE notice. -/
def runStarted (s : State) : State := ((runReady s).lineEntry .zero).lineEntry .one

theorem runStarted_entered {s : State} (h : ∀ n, (s.line n).attempt = none ∧ (s.line n).breakRequest = false) :
    LinesEntered (runReady s) (runStarted s) := by
  obtain ⟨_, _, _, _, _, _, _, _, hready⟩ := runReady_frame s
  refine lineEntries_entered (by rw [hready]) (fun n => ?_) fun n => ?_
  · rw [runReady_line, (preparedLine_frame _).2.1]
    exact (h n).1
  · rw [runReady_line, (preparedLine_frame _).2.2]
    exact (h n).2

/-- RUN entry comes to its MODE notice in RUN (R152, R155). -/
theorem exec_runEntry {s : State} (hm : s.mode = .config) (hp : s.pendingRequest = none) (hv : s.validate = none)
    (h : ∀ n, (s.line n).attempt = none ∧ (s.line n).breakRequest = false) : exec .modereqRun s
      = .next (({ runStarted s with edges := (runStarted s).edges ||| 0x0020 } : State).offerNotice (modeRecord 2 0 0)) := by
  have hpassed : s.modeRequest 2 = s.runEntry := by
    rw [modeRequest_run_of_config hm hp]
    unfold runFromConfig
    rw [hv]
  have hmode : (runStarted s).mode = .run := by
    obtain ⟨sl, ed, hframe⟩ := (runStarted_entered h).frame
    rw [hframe]
    rfl
  have hentry : s.runEntry = ((runStarted s).modeOccasion 0 0).1.flush [[((runStarted s).modeOccasion 0 0).2]] := rfl
  have hexec : exec .modereqRun s = .next (s.modeRequest 2) := rfl
  rw [hexec, hpassed, hentry, modeOccasion_flush _ .run hmode]
  rfl

/-- The lines after RUN entry. -/
theorem runStarted_line {s : State} (h : ∀ n, (s.line n).attempt = none ∧ (s.line n).breakRequest = false) (n : LineId) :
    (runStarted s).line n = enteredLine (preparedLine (s.line n)) := by
  obtain ⟨sl, ed, hframe⟩ := (runStarted_entered h).frame
  rw [hframe, ← runReady_line]
  cases n <;> rfl

theorem enteredLine_off {l : Line} (he : l.enable = false) : enteredLine (preparedLine l) = { l with walk := 0 } := by
  have hprepared : preparedLine l = { l with walk := 0 } := if_neg (by simp [he])
  rw [hprepared]
  exact if_neg (by simp [he])

/-- An enabled line after RUN entry (R22, R50, R53, R55, R62). -/
theorem enteredLine_on {l : Line} (he : l.enable = true) (ha : l.attempt = none) (hf : l.faulted = false) :
    let t := enteredLine (preparedLine l)
    t.cycnum = 0 ∧ t.timerRunning = true ∧ t.runningCount = l.period ∧ t.phase = .cyclic ∧ t.walk = 0
      ∧ t.syncOwed = (l.syncOwed || l.sync) ∧ t.attempt = none
      ∧ (l.breakOnStart = false → t.engine = .turnaround ∧ t.drive = l.drive)
      ∧ (l.breakOnStart = true → t.engine = .breaking ∧ t.drive = .breakLow) := by
  intro t
  have hprepared : preparedLine l = { l with walk := 0, timerRunning := true, runningCount := l.period, cycnum := 0 } := if_pos he
  have ht : t = handedLine (if l.breakOnStart = true then Line.startBreak (preparedLine l)
      else { preparedLine l with engine := .turnaround }) := by
    simp only [t, enteredLine]
    rw [if_pos ((preparedLine_frame l).1.trans he)]
    simp only [hprepared]
  have hturn : (EngineState.turnaround != .off) = true := rfl
  have hbreak : (EngineState.breaking != .off) = true := rfl
  rw [ht, hprepared]
  cases hbo : l.breakOnStart <;> simp [handedLine, openedLine, Line.startBreak, ha, hf, hturn, hbreak]

/-- A station at RUN entry (R76, R82, R89). -/
theorem runEntry_station (st : Station) :
    (st.health = .parked → st.runEntry = { st with probeCountdown := st.probeInterval, age := 255 })
      ∧ (st.health ≠ .parked → st.runEntry = { st with
        health := .online, missCount := 0, reachable := false, probeDue := false, probeCountdown := st.probeInterval, age := 255 }) := by
  unfold Station.runEntry
  refine ⟨fun h => ?_, fun h => ?_⟩
  · rw [if_pos h]
  · rw [if_neg h]
    rfl

/-- What RUN entry leaves, the MODE notice included. -/
theorem runEntry_leaves {s : State}
    (h : ∀ n, (s.line n).attempt = none ∧ (s.line n).breakRequest = false ∧ (s.line n).faulted = false ∧ (s.line n).engine = .off) :
    (runStarted s).mode = .run ∧ (runStarted s).errCode = 0 ∧ (runStarted s).errIndex = 0 ∧ (runStarted s).reqRefused = s.reqRefused
      ∧ (runStarted s).payload = s.payload ∧ (runStarted s).entries = s.entries
      ∧ ∀ u, (runStarted s).station u = (s.station u).runEntry := by
  obtain ⟨sl, ed, hframe⟩ := (runStarted_entered fun n => ⟨(h n).1, (h n).2.1⟩).frame
  have hstation := runReady_station s
  obtain ⟨ev, lost, ed', sl', sub, ow, dn, i, hready⟩ := runReady_frame s
  obtain ⟨S, hprepared, -⟩ := runPrepared_frame s
  refine ⟨?_, ?_, ?_, ?_, ?_, ?_, fun u => ?station⟩
  case station => rw [← hstation, hframe]; rfl
  all_goals rw [hframe, hready, hprepared]; rfl

/-- An offered notice leaves the registers, the payload and the entries, and keeps the flags raised. -/
theorem offerNotice_leaves (e : Event) (X : State) : (X.offerNotice e).errCode = X.errCode ∧ (X.offerNotice e).errIndex = X.errIndex
    ∧ (X.offerNotice e).reqRefused = X.reqRefused ∧ (X.offerNotice e).payload = X.payload
    ∧ ∀ i, X.edges.getLsbD i = true → (X.offerNotice e).edges.getLsbD i = true := by
  refine ⟨?_, ?_, ?_, ?_, fun i => post_edges X (.notice e) i⟩ <;> rw [offerNotice_eq] <;> split <;> rfl

/-- With nothing PENDING and no station to tell of, RUN entry posts MODE alone (R152, R155). -/
theorem runEntry_quiet {s : State} (hst : ∀ u, (s.station u).health = .online ∨ (s.station u).health = .parked) (hsub : s.submitted = []) :
    (runReady s).events = s.events := by
  obtain ⟨S, hprepared, -⟩ := runPrepared_frame s
  have hpending : (runPrepared s).pendingList.filter (runPrepared s).invalidSlot = [] := by
    rw [hprepared, pendingList]
    simp [hsub]
  have hnotices : ∀ g ∈ runPosts s, g = [] := by
    intro g hg
    rw [runPosts, runCancelled, hpending, List.mem_append] at hg
    rcases hg with hg | hg
    · rw [entryNotices, List.mem_map] at hg
      obtain ⟨u, -, rfl⟩ := hg
      have hstation : ((({ s with errCode := 0, errIndex := 0 } : State).prepareLine .zero).prepareLine .one).station u = s.station u := by
        rw [prepareLine_eq, prepareLine_eq]
        rfl
      rw [hstation, healthNotice, if_pos]
      rcases hst u with h | h
      · rw [h, ((runEntry_frame _).2.2.1 (by simp [h])).1]
      · rw [h, (runEntry_frame _).2.2.2 h]
    · simpa [finishSlots] using hg
  have hflush : (runCancelled s).1.flush (runPosts s) = (runCancelled s).1 := by
    have hempty : (runPosts s).filter (fun g => !g.isEmpty) = [] := by
      rw [List.filter_eq_nil_iff]
      intro g hg
      simp [hnotices g hg]
    unfold flush
    rw [hempty]
  obtain ⟨sl, sub, hfinish⟩ := finishSlots_frame .cancelled ((runPrepared s).pendingList.filter (runPrepared s).invalidSlot) (runPrepared s)
  rw [runReady, hflush, runCancelled, hfinish, hprepared]
  rfl

/-- Settles O34: the state before the MODE notice by `runEntry_leaves` and `enteredLine_on`, and the notice alone where nothing else is
posted. -/
theorem runEntry : Obligations.RunEntry := by
  refine ⟨fun s hm hp hv h => ?_, fun s hm hp hv h hst hsub hroom => ?_⟩
  · have hlines : ∀ n, (s.line n).attempt = none ∧ (s.line n).breakRequest = false := fun n => ⟨(h n).1, (h n).2.1⟩
    obtain ⟨hmode, hcode, hindex, hrefused, hpayload, hentries, hstation⟩ := runEntry_leaves h
    generalize hX : ({ runStarted s with edges := (runStarted s).edges ||| 0x0020 } : State) = X
    obtain ⟨lcode, lindex, lrefused, lpayload, ledges⟩ := offerNotice_leaves (modeRecord 2 0 0) X
    have hline : ∀ n, (X.offerNotice (modeRecord 2 0 0)).line n = enteredLine (preparedLine (s.line n)) := fun n => by
      rw [offerNotice_line, ← hX, ← runStarted_line hlines]
      cases n <;> rfl
    have hstation' : ∀ u, (X.offerNotice (modeRecord 2 0 0)).station u = (s.station u).runEntry := fun u => by
      rw [offerNotice_station, ← hX, ← hstation]
      rfl
    refine ⟨_, exec_runEntry hm hp hv hlines, ?_⟩
    rw [hX]
    refine ⟨by rw [offerNotice_mode, ← hX]; exact hmode, by rw [lcode, ← hX]; exact hcode, by rw [lindex, ← hX]; exact hindex,
      by rw [lrefused, ← hX]; exact hrefused, ledges 5 (by rw [← hX]; simp), by rw [lpayload, ← hX]; exact hpayload,
      by rw [(offerNotice_tables _ _).2.2, ← hX]; exact hentries, fun u hu => ?_, fun u hu => ?_, fun n he => ?_, fun n he => ⟨?_, ?_⟩⟩
    · rw [hstation', (runEntry_station _).1 hu]
    · rw [hstation', (runEntry_station _).2 hu]
    · rw [hline, enteredLine_off he]
    · have hstart := (runStarted_entered hlines).started n (by rw [runReady_line, (preparedLine_frame _).1]; exact he)
      exact cycleStartBit_ne (ledges _ (by rw [← hX]; simp only [BitVec.getLsbD_or, hstart, Bool.true_or]))
    · rw [hline]
      exact enteredLine_on he (h n).1 (h n).2.2.1
  · have hlines : ∀ n, (s.line n).attempt = none ∧ (s.line n).breakRequest = false := fun n => ⟨(h n).1, (h n).2.1⟩
    obtain ⟨sl, ed, hframe⟩ := (runStarted_entered hlines).frame
    have hevents : (runStarted s).events = s.events := by
      rw [hframe]
      exact runEntry_quiet hst hsub
    refine ⟨_, exec_runEntry hm hp hv hlines, ?_⟩
    rw [offerNotice_eq, if_pos (by rw [hevents]; exact hroom)]
    simp only [hevents]
    rfl

end Sys2Proof.Machine
end

section
/-!
SUPPORT. Cancellations at RUN entry and at the entry to CONFIG (R49, R133, R152, R155, R159).
-/

namespace Sys2Proof.Machine

open State

/-! ## Slots that a mode change completes -/

/-- Slots completed together, their posts among the step's: what they and the others are after the posts. -/
theorem finishSlots_flushed {X : State} {o : OutcomeCode} {ks : List SlotIx} {gs : Groups}
    (hgs : ∀ k, completes gs.flatten k ↔ k ∈ ks) :
    let T := (X.finishSlots o ks).1.flush gs
    (∀ k, k ∈ ks → completedWith T k o) ∧ (∀ k, k ∉ ks → T.slot k = X.slot k) ∧ T.submitted = X.submitted.filter (fun k => k ∉ ks) := by
  intro T
  obtain ⟨hslot, hsub, -⟩ := finishSlots_spec o ks X
  refine ⟨fun k hk => ?_, fun k hk => ?_, ?_⟩
  · refine flush_completedWith gs _ k o ((hgs k).2 hk) ?_ ?_ ?_
    · rw [hsub, List.mem_filter]
      simp [hk]
    · rw [hslot, if_pos hk]
    · rw [hslot, if_pos hk]
  · rw [(flush_slot gs _ k).2.2.1 fun h => hk ((hgs k).1 h), hslot, if_neg hk]
  · obtain ⟨_, _, _, _, _, _, _, hflush⟩ := flush_frame gs (X.finishSlots o ks).1
    rw [← hsub]
    show (State.flush gs (X.finishSlots o ks).1).submitted = _
    rw [hflush]

/-- The posts of slots completed together complete these slots. -/
theorem completes_finishSlots (X : State) (o : OutcomeCode) (ks : List SlotIx) (k : SlotIx) :
    completes (X.finishSlots o ks).2 k ↔ k ∈ ks := by
  rw [(finishSlots_spec o ks X).2.2]
  unfold completes
  simp

/-- A completed slot stays completed where its record and the submission order stay. -/
theorem completedWith_of {X T : State} {k : SlotIx} {o : OutcomeCode} (h : completedWith X k o) (hsub : T.submitted = X.submitted)
    (hslot : T.slot k = X.slot k) : completedWith T k o := by
  obtain ⟨h1, h2, h3, h4⟩ := h
  exact ⟨by rw [hsub]; exact h1, by rw [hslot]; exact h2, by rw [hslot]; exact h3, by rw [hslot]; exact h4⟩

/-- A completion in numbers (R125). -/
theorem requestDone_record (X : State) (k : SlotIx) (sl : Slot) (h : sl.station = (X.slot k).station) :
    requestDone k sl (X.slotLine k) = requestRecord X k sl := by
  rw [requestDone_eq, requestRecord, slotLine, h]

/-! ## RUN entry -/

/-- The slots that RUN entry cancels (R133). -/
def runInvalid (s : State) : List SlotIx := (runPrepared s).pendingList.filter (runPrepared s).invalidSlot

/-- A slot stays valid at RUN entry when its station and its line are enabled (R133). -/
abbrev slotValid (s : State) (k : SlotIx) : Prop :=
  (s.station (s.slot k).station).enabled = true ∧ (s.line (s.station (s.slot k).station).line).enable = true

theorem runPrepared_slot (s : State) (k : SlotIx) : (runPrepared s).slot k = s.slot k := by
  obtain ⟨S, h, -⟩ := runPrepared_frame s
  rw [h]
  rfl

theorem runPrepared_station (s : State) (u : StationIx) : (runPrepared s).station u = (s.station u).runEntry := by
  obtain ⟨S, h, hget⟩ := runPrepared_frame s
  rw [h, ← hget]
  rfl

theorem runPrepared_submitted (s : State) : (runPrepared s).submitted = s.submitted := by
  obtain ⟨S, h, -⟩ := runPrepared_frame s
  rw [h]
  rfl

theorem invalidSlot_iff (s : State) (k : SlotIx) : (runPrepared s).invalidSlot k = true ↔ ¬ slotValid s k := by
  obtain ⟨hline, henabled, -, -⟩ := runEntry_frame (s.station (s.slot k).station)
  have hl := (preparedLine_frame (s.line (s.station (s.slot k).station).line)).1
  unfold invalidSlot slotValid
  simp only []
  rw [runPrepared_slot, runPrepared_station, hline, henabled, runPrepared_line, hl]
  simp only [Bool.or_eq_true, Bool.not_eq_true', not_and_or, Bool.not_eq_true]

theorem mem_runInvalid (s : State) (k : SlotIx) :
    k ∈ runInvalid s ↔ k ∈ s.submitted ∧ (s.slot k).state = .pending ∧ ¬ slotValid s k := by
  rw [runInvalid, List.mem_filter, mem_pendingList, runPrepared_submitted, runPrepared_slot, invalidSlot_iff, and_assoc]

/-- RUN entry's STATION_STATE notices (R76, R85). -/
theorem runNotices_flatten (s : State) :
    (((({ s with errCode := 0, errIndex := 0 } : State).prepareLine .zero).prepareLine .one).entryNotices).flatten
      = ((List.finRange 32).filter fun u => (s.station u).health = .degraded ∨ (s.station u).health = .offline).map fun u =>
        Post.notice (stationStateNotice u (s.station u).health (s.station u).runEntry) := by
  rw [← healthNotices_runEntry, prepareLine_eq, prepareLine_eq]
  rfl

theorem completes_runPosts (s : State) (k : SlotIx) : completes (runPosts s).flatten k ↔ k ∈ runInvalid s := by
  rw [runPosts, List.flatten_append, completes_append, runNotices_flatten, List.flatten_singleton, runCancelled, completes_finishSlots]
  unfold completes
  simp [runInvalid]

/-- The slots of RUN entry before its lines start. -/
theorem runReady_slots (s : State) : (∀ k, k ∈ runInvalid s → completedWith (runReady s) k .cancelled)
    ∧ (∀ k, k ∉ runInvalid s → (runReady s).slot k = s.slot k)
    ∧ (runReady s).submitted = s.submitted.filter (fun k => k ∉ runInvalid s) := by
  obtain ⟨hcancelled, hkept, hsub⟩ := finishSlots_flushed (X := runPrepared s) (o := .cancelled) (completes_runPosts s)
  refine ⟨fun k hk => completedWith_of (hcancelled k hk) rfl rfl, fun k hk => ?_, ?_⟩
  · exact (hkept k hk).trans (runPrepared_slot s k)
  · exact hsub.trans (by rw [runPrepared_submitted])

/-- Where no slot is cancelled RUN entry posts its STATION_STATE notices, in some order (R76, log entry 5). -/
theorem runReady_events {s : State} (h : ∀ k ∈ s.submitted, (s.slot k).state = .pending → slotValid s k) :
    ∃ order : List StationIx, order.Nodup
      ∧ (∀ u, u ∈ order ↔ (s.station u).health = .degraded ∨ (s.station u).health = .offline)
      ∧ (s.events.length + order.length < 48 → (runReady s).events = s.events ++ order.map fun u =>
          { stateRecord s u (s.station u).health .online 0 with
            cycle := if (s.line (s.station u).line).enable = true then 0 else (s.line (s.station u).line).cycnum }) := by
  have hnone : runInvalid s = [] := by
    rw [List.eq_nil_iff_forall_not_mem]
    intro k hk
    obtain ⟨hs, hp, hv⟩ := (mem_runInvalid s k).1 hk
    exact hv (h k hs hp)
  have hcancelled : runCancelled s = (runPrepared s, []) := by
    rw [runCancelled, show (runPrepared s).pendingList.filter (runPrepared s).invalidSlot = [] from hnone]
    rfl
  obtain ⟨ps, i, hperm, hflush⟩ := flush_perm (runPosts s) (runCancelled s).1
  have hflat : (runPosts s).flatten = ((List.finRange 32).filter fun u => (s.station u).health = .degraded
      ∨ (s.station u).health = .offline).map fun u => Post.notice (stationStateNotice u (s.station u).health (s.station u).runEntry) := by
    rw [runPosts, List.flatten_append, hcancelled, runNotices_flatten]
    simp
  rw [hflat] at hperm
  obtain ⟨order, horder, hps⟩ := order_of_notices _ (fun u => stationStateNotice u (s.station u).health (s.station u).runEntry)
    (fun u => rfl) ps hperm
  have hmem : ∀ u, u ∈ order ↔ (s.station u).health = .degraded ∨ (s.station u).health = .offline := fun u => by
    rw [horder.mem_iff, List.mem_filter]
    simp
  refine ⟨order, horder.nodup_iff.2 ((List.nodup_finRange 32).filter _), hmem, fun hroom => ?_⟩
  have hevents : (runPrepared s).events = s.events := by
    obtain ⟨S, hS, -⟩ := runPrepared_frame s
    rw [hS]
    rfl
  have hready : (runReady s).events = (State.postAll (ps) ({ runPrepared s with freeIndex := i } : State)).events := by
    rw [runReady]
    show (State.flush (runPosts s) (runCancelled s).1).events = _
    rw [hflush, hcancelled]
  rw [hready, hps, postAll_room _ _ (by
    rw [List.length_map]
    show (runPrepared s).events.length + _ ≤ 48
    rw [hevents]
    omega)]
  show (runPrepared s).events ++ _ = _
  rw [hevents, List.map_map]
  congr 1
  apply List.map_congr_left
  intro u hu
  have hhealth : (s.station u).health ≠ .parked := by
    rcases (hmem u).1 hu with h | h <;> rw [h] <;> simp
  obtain ⟨hline, -, honline, -⟩ := runEntry_frame (s.station u)
  have hcycle : (({ runPrepared s with freeIndex := i } : State).line (s.station u).line).cycnum
      = if (s.line (s.station u).line).enable = true then 0 else (s.line (s.station u).line).cycnum := by
    have hprepared : ({ runPrepared s with freeIndex := i } : State).line (s.station u).line = preparedLine (s.line (s.station u).line) := by
      rw [← runPrepared_line]
      cases (s.station u).line <;> rfl
    rw [hprepared, preparedLine]
    split <;> rfl
  show State.stamp _ (stationStateNotice u (s.station u).health (s.station u).runEntry) = _
  rw [stationStateNotice_eq, hline, (honline hhealth).1, (honline hhealth).2, State.stamp]
  simp only [stateRecord]
  rw [if_pos (show EventKind.stationState.ofLine = true from rfl), ← hcycle]

/-- The slots and the submission order after RUN entry (R123, R133). -/
theorem runStarted_slots {s : State} (h : ∀ n, (s.line n).attempt = none ∧ (s.line n).breakRequest = false) :
    (∀ k, k ∈ runInvalid s → completedWith (runStarted s) k .cancelled)
      ∧ (∀ k, (s.slot k).state = .pending → slotValid s k → (runStarted s).slot k = { s.slot k with deferred := false })
      ∧ (runStarted s).submitted = s.submitted.filter (fun k => k ∉ runInvalid s) := by
  obtain ⟨⟨sl, ed, hframe⟩, hslot, -, -⟩ := runStarted_entered h
  obtain ⟨hcancelled, hkept, hsub⟩ := runReady_slots s
  have hsubmitted : (runStarted s).submitted = (runReady s).submitted := by rw [hframe]; rfl
  refine ⟨fun k hk => ?_, fun k hp hv => ?_, hsubmitted.trans hsub⟩
  · have hdone := hcancelled k hk
    refine completedWith_of hdone hsubmitted ?_
    rw [hslot, if_neg]
    rintro ⟨-, hp⟩
    rcases hdone.2.1 with h | h <;> rw [h] at hp <;> cases hp
  · have hnot : k ∉ runInvalid s := fun hk => ((mem_runInvalid s k).1 hk).2.2 hv
    have hof : (runReady s).slotLine k = (s.station (s.slot k).station).line := by
      rw [slotLine, hkept k hnot, runReady_station, (runEntry_frame _).1]
    rw [hslot, hof, runReady_line, (preparedLine_frame _).1, hkept k hnot, if_pos ⟨hv.2, hp⟩]

/-- RUN entry, its cancellations and its notices (R133, R155). -/
theorem runEntryCancels {s : State} (hm : s.mode = .config) (hp : s.pendingRequest = none) (hv : s.validate = none)
    (h : ∀ n, (s.line n).attempt = none ∧ (s.line n).breakRequest = false) :
    ∃ t, exec .modereqRun s = .next t
      ∧ (∀ k, k ∈ s.submitted → (s.slot k).state = .pending → ¬ slotValid s k → completedWith t k .cancelled)
      ∧ (∀ k, (s.slot k).state = .pending → slotValid s k →
        t.slot k = { s.slot k with deferred := false } ∧ (k ∈ t.submitted ↔ k ∈ s.submitted))
      ∧ ((∀ k ∈ s.submitted, (s.slot k).state = .pending → slotValid s k) → ∃ order : List StationIx, order.Nodup
        ∧ (∀ u, u ∈ order ↔ (s.station u).health = .degraded ∨ (s.station u).health = .offline)
        ∧ (s.events.length + order.length < 48 → t.events = s.events ++ (order.map fun u =>
            { stateRecord s u (s.station u).health .online 0 with
              cycle := if (s.line (s.station u).line).enable = true then 0 else (s.line (s.station u).line).cycnum })
          ++ [modeRecord 2 0 0])) := by
  obtain ⟨hcancelled, hkept, hsub⟩ := runStarted_slots h
  generalize hX : ({ runStarted s with edges := (runStarted s).edges ||| 0x0020 } : State) = X
  have hslot : ∀ k, (X.offerNotice (modeRecord 2 0 0)).slot k = (runStarted s).slot k := fun k => by
    rw [offerNotice_slot, ← hX]
    rfl
  have hsubmitted : (X.offerNotice (modeRecord 2 0 0)).submitted = (runStarted s).submitted := by
    obtain ⟨_, _, _, hframe⟩ := offerNotice_frame (modeRecord 2 0 0) X
    rw [hframe, ← hX]
  have hevents : X.events = (runReady s).events := by
    obtain ⟨sl, ed, hframe⟩ := (runStarted_entered h).frame
    rw [← hX, hframe]
    rfl
  refine ⟨_, exec_runEntry hm hp hv h, ?_⟩
  rw [hX]
  refine ⟨fun k hk hpend hinv => ?_, fun k hpend hval => ⟨?_, ?_⟩, fun hall => ?_⟩
  · exact completedWith_of (hcancelled k ((mem_runInvalid s k).2 ⟨hk, hpend, hinv⟩)) hsubmitted (hslot k)
  · rw [hslot, hkept k hpend hval]
  · rw [hsubmitted, hsub, List.mem_filter]
    have hnot : k ∉ runInvalid s := fun hk => ((mem_runInvalid s k).1 hk).2.2 hval
    simp [hnot]
  · obtain ⟨order, hnodup, hmem, hrecords⟩ := runReady_events hall
    refine ⟨order, hnodup, hmem, fun hroom => ?_⟩
    have hready := hrecords hroom
    rw [offerNotice_eq, if_pos (by rw [hevents, hready, List.length_append, List.length_map]; exact hroom)]
    show X.events ++ _ = _
    rw [hevents, hready]
    rfl

/-! ## The entry to CONFIG -/

/-- The lines and the command of the entry to CONFIG (R49, R159). -/
def configPrepared (s : State) : State :=
  ((({ s with mode := .config } : State).modifyLine .zero Line.enterOff).modifyLine .one Line.enterOff).dropWaitingBreak

theorem configPrepared_frame (s : State) : ∃ cs r v ed, configPrepared s
    = { (s.setLine .zero s.line0.enterOff).setLine .one s.line1.enterOff with
      mode := .config, cmdState := cs, result := r, cvalue := v, edges := ed } := by
  unfold configPrepared dropWaitingBreak
  split
  · exact ⟨_, _, _, _, rfl⟩
  · exact ⟨_, _, _, _, rfl⟩

/-- A LINE_BREAK that waits completes with WRONG_MODE (R49, R159). -/
theorem configPrepared_command {s : State} {n : LineId} (h : s.cmdState = .busy ∧ s.cmd = 0x0F ∧ (s.args.get 0).toNat = lineNumber n) :
    (configPrepared s).cmdState = .done ∧ (configPrepared s).result = .wrongMode ∧ (configPrepared s).cvalue = 0
      ∧ (configPrepared s).edges.getLsbD 4 = true := by
  have hwaits : ((({ s with mode := .config } : State).modifyLine .zero Line.enterOff).modifyLine .one Line.enterOff).waitingBreak = some n :=
    (waitingBreak_iff _ n).2 h
  rw [configPrepared, dropWaitingBreak, hwaits]
  refine ⟨rfl, rfl, rfl, ?_⟩
  show (s.edges ||| 0x0010).getLsbD 4 = true
  simp

/-- With no command waiting the entry leaves the Command Unit. -/
theorem configPrepared_idle {s : State} (h : s.cmdState ≠ .busy) : configPrepared s
    = { (s.setLine .zero s.line0.enterOff).setLine .one s.line1.enterOff with mode := .config } := by
  have hnone : ((({ s with mode := .config } : State).modifyLine .zero Line.enterOff).modifyLine .one Line.enterOff).waitingBreak = none := by
    rw [Option.eq_none_iff_forall_ne_some]
    exact fun n hn => h ((waitingBreak_iff _ n).1 hn).1
  rw [configPrepared, dropWaitingBreak, hnone]
  rfl

/-- The state of the entry to CONFIG before its MODE notice. -/
def configEntered (s : State) : State :=
  ((configPrepared s).finishSlots .cancelled (configPrepared s).pendingList).1.flush
    [((configPrepared s).finishSlots .cancelled (configPrepared s).pendingList).2]

theorem configEntered_mode (s : State) : (configEntered s).mode = .config := by
  obtain ⟨sl, sub, hfinish⟩ := finishSlots_frame .cancelled (configPrepared s).pendingList (configPrepared s)
  obtain ⟨_, _, _, _, hprepared⟩ := configPrepared_frame s
  rw [configEntered, (flush_same _ _).1, hfinish, hprepared]

theorem exec_enterConfig {s : State} (hm : s.mode = .quiesced) (hp : s.pendingRequest = none) : exec .modereqConfig s
    = .next (({ configEntered s with edges := (configEntered s).edges ||| 0x0020 } : State).offerNotice (modeRecord 1 0 0)) := by
  have hinit : s.inInit = false := by rw [inInit, hm]; rfl
  have htaken : s.modeRequest 1 = s.enterConfig := by simp [modeRequest, hinit, hp, hm]
  have hentry : s.enterConfig = ((configEntered s).modeOccasion 0 0).1.flush [[((configEntered s).modeOccasion 0 0).2]] := rfl
  have hexec : exec .modereqConfig s = .next (s.modeRequest 1) := rfl
  rw [hexec, htaken, hentry, modeOccasion_flush _ .config (configEntered_mode s)]
  rfl

theorem configPrepared_pendingList (s : State) : (configPrepared s).pendingList = s.pendingList := by
  obtain ⟨_, _, _, _, h⟩ := configPrepared_frame s
  rw [h]
  rfl

theorem configPrepared_slot (s : State) (k : SlotIx) : (configPrepared s).slot k = s.slot k := by
  obtain ⟨_, _, _, _, h⟩ := configPrepared_frame s
  rw [h]
  rfl

/-- The lines stay OFF through the cancellations (R22, R159). -/
theorem configEntered_line (s : State) (n : LineId) : (configEntered s).line n = (s.line n).enterOff := by
  obtain ⟨sl, sub, hfinish⟩ := finishSlots_frame .cancelled (configPrepared s).pendingList (configPrepared s)
  obtain ⟨_, _, _, _, hprepared⟩ := configPrepared_frame s
  rw [configEntered, (flush_same _ _).line n, hfinish, hprepared]
  cases n <;> rfl

/-- The slots at the entry to CONFIG (R133, R159). -/
theorem configEntered_slots (s : State) :
    (∀ k, k ∈ s.submitted → (s.slot k).state = .pending → completedWith (configEntered s) k .cancelled)
      ∧ ∀ k, (s.slot k).state ≠ .pending → (configEntered s).slot k = s.slot k := by
  have hposts : ∀ k, completes ([((configPrepared s).finishSlots .cancelled (configPrepared s).pendingList).2] : Groups).flatten k
      ↔ k ∈ (configPrepared s).pendingList := fun k => by rw [List.flatten_singleton, completes_finishSlots]
  obtain ⟨hcancelled, hkept, -⟩ := finishSlots_flushed (X := configPrepared s) (o := .cancelled) hposts
  refine ⟨fun k hk hp => hcancelled k ?_, fun k hp => (hkept k ?_).trans (configPrepared_slot s k)⟩
  · rw [configPrepared_pendingList, mem_pendingList]
    exact ⟨hk, hp⟩
  · rw [configPrepared_pendingList, mem_pendingList]
    exact fun h => hp h.2

/-- The records of the entry to CONFIG where they find room, in the order of the pending list (R133, R138). -/
theorem configEntered_events {s : State} (hd : s.done = []) (hroom : s.events.length + s.pendingList.length < 48) :
    (configEntered s).events = s.events ++ s.pendingList.map fun k =>
      s.stamp (requestRecord s k { s.slot k with outcome := .cancelled, replyLen := 0, deferred := false }) := by
  obtain ⟨-, -, hposts⟩ := finishSlots_spec .cancelled s.pendingList (configPrepared s)
  obtain ⟨sl, sub, hfinish⟩ := finishSlots_frame .cancelled s.pendingList (configPrepared s)
  obtain ⟨_, _, _, _, hprepared⟩ := configPrepared_frame s
  have hrecord : ∀ k, requestDone k { (configPrepared s).slot k with outcome := .cancelled, replyLen := 0, deferred := false }
      ((configPrepared s).slotLine k)
      = requestRecord s k { s.slot k with outcome := .cancelled, replyLen := 0, deferred := false } := fun k => by
    have hnumbers := requestDone_record (configPrepared s) k
      { (configPrepared s).slot k with outcome := .cancelled, replyLen := 0, deferred := false } rfl
    rw [hnumbers, configPrepared_slot, hprepared]
    rfl
  have hlist : ((configPrepared s).finishSlots .cancelled s.pendingList).2 = (s.pendingList.map fun k =>
      (k, requestRecord s k { s.slot k with outcome := .cancelled, replyLen := 0, deferred := false })).map
        fun p => Post.completion p.1 p.2 := by
    rw [hposts, List.map_map]
    exact List.map_congr_left fun k _ => congrArg (Post.completion k) (hrecord k)
  have hstamp : ∀ e, ((configPrepared s).finishSlots .cancelled s.pendingList).1.stamp e = s.stamp e := fun e => by
    rw [hfinish, hprepared]
    unfold stamp
    cases e.line <;> rfl
  have hevents : ((configPrepared s).finishSlots .cancelled s.pendingList).1.events = s.events := by rw [hfinish, hprepared]; rfl
  rw [configEntered, configPrepared_pendingList, flush_single, hlist, (postAll_completions _ _ (by rw [hfinish, hprepared]; exact hd)
    (by rw [hevents, List.length_map]; omega)).1, hevents, List.map_map]
  congr 1
  exact List.map_congr_left fun k _ => hstamp _

/-- Settles O35: RUN entry by `runEntryCancels`, the entry to CONFIG by the facts on `configEntered`. -/
theorem cancellationsAtModeChanges : Obligations.CancellationsAtModeChanges := by
  refine ⟨fun s hm hp hv h => runEntryCancels hm hp hv fun n => ⟨(h n).1, (h n).2.1⟩, fun s hm hp => ?_⟩
  obtain ⟨hcancelled, hkept⟩ := configEntered_slots s
  generalize hX : ({ configEntered s with edges := (configEntered s).edges ||| 0x0020 } : State) = X
  obtain ⟨ev, lost, ed, hframe⟩ := offerNotice_frame (modeRecord 1 0 0) X
  have hslot : ∀ k, (X.offerNotice (modeRecord 1 0 0)).slot k = (configEntered s).slot k := fun k => by
    rw [offerNotice_slot, ← hX]
    rfl
  have hsubmitted : (X.offerNotice (modeRecord 1 0 0)).submitted = (configEntered s).submitted := by rw [hframe, ← hX]
  refine ⟨_, exec_enterConfig hm hp, ?_⟩
  rw [hX]
  refine ⟨by rw [offerNotice_mode, ← hX]; exact configEntered_mode s, fun n => ?_,
    fun k hk hpend => completedWith_of (hcancelled k hk hpend) hsubmitted (hslot k), fun k hpend => (hslot k).trans (hkept k hpend),
    fun hd hroom => ?_, fun n hc h15 harg => ?_⟩
  · have hline : X.line n = (s.line n).enterOff := by
      rw [← configEntered_line, ← hX]
      cases n <;> rfl
    rw [offerNotice_line, hline]
    rfl
  · have hevents : X.events = (configEntered s).events := by rw [← hX]
    have hrecords := configEntered_events hd hroom
    rw [offerNotice_eq, if_pos (by rw [hevents, hrecords, List.length_append, List.length_map]; exact hroom)]
    show X.events ++ _ = _
    rw [hevents, hrecords]
    rfl
  · obtain ⟨hdone, hresult, hvalue, hflag⟩ := configPrepared_command ⟨hc, h15, harg⟩
    obtain ⟨sl, sub, hfinish⟩ := finishSlots_frame .cancelled (configPrepared s).pendingList (configPrepared s)
    obtain ⟨_, _, _, _, _, _, _, hflush⟩ := flush_frame [((configPrepared s).finishSlots .cancelled (configPrepared s).pendingList).2]
      ((configPrepared s).finishSlots .cancelled (configPrepared s).pendingList).1
    have hflag' : (configEntered s).edges.getLsbD 4 = true := flush_edges _ _ 4 (by rw [hfinish]; exact hflag)
    have hcommand : (configEntered s).cmdState = .done ∧ (configEntered s).result = .wrongMode ∧ (configEntered s).cvalue = 0 := by
      rw [configEntered, hflush, hfinish]
      exact ⟨hdone, hresult, hvalue⟩
    obtain ⟨hdone', hresult', hvalue'⟩ := hcommand
    refine ⟨?_, ?_, ?_, (offerNotice_leaves _ X).2.2.2.2 4 (by rw [← hX]; simp only [BitVec.getLsbD_or, hflag', Bool.true_or])⟩
    all_goals rw [hframe, ← hX]; assumption

end Sys2Proof.Machine
end

section
/-!
SUPPORT. QUIESCE, its reach of both lines, and the end of QUIESCING (R39, R51, R53, R156, R157).
-/

namespace Sys2Proof.Machine

open State

/-! ## Both lines -/

/-- The two lines' records are stored apart. -/
theorem setLine_swap {n m : LineId} (h : n ≠ m) (a b : Line) (X : State) : (X.setLine n a).setLine m b = (X.setLine m b).setLine n a := by
  cases n <;> cases m <;> first | rfl | exact absurd rfl h

/-- The state in which QUIESCE reaches the lines (R156). -/
def quiesceEntered (s : State) : State := { s with mode := .quiescing, pendingRequest := some .quiesce }

theorem quiesceEntered_line (s : State) (n : LineId) : (quiesceEntered s).line n = s.line n := by cases n <;> rfl

/-- QUIESCE reaches the lines in a fixed order; what it makes of a line that does not wait between attempts goes by that line alone. -/
theorem quiesce_lines {n m : LineId} {s W : State} {l : Line} {gs : Groups} (hnm : n ≠ m)
    (hm : ∀ X : State, X.line m = s.line m → X.quiesceLine m = (X.setLine m l, []))
    (hn : ∀ x, ((quiesceEntered s).setLine m x).quiesceLine n = (W.setLine m x, gs)) :
    s.quiesce = (W.setLine m l).reachQuiesced.1.flush (gs ++ [(W.setLine m l).reachQuiesced.2]) := by
  have hself := hn (s.line m)
  rw [← quiesceEntered_line s m, setLine_line, quiesceEntered_line] at hself
  cases n with
  | zero =>
    obtain rfl : m = .one := by cases m with | zero => exact absurd rfl hnm | one => rfl
    have hone := hm (W.setLine .one (s.line .one)) (by rw [line_setLine, if_pos rfl])
    rw [setLine_setLine] at hone
    rw [quiesce_eq s _ (quiesceEntered s) rfl gs [] _ hself hone, List.append_nil]
  | one =>
    obtain rfl : m = .zero := by cases m with | zero => rfl | one => exact absurd rfl hnm
    rw [quiesce_eq s _ (quiesceEntered s) rfl [] gs _ (hm _ (quiesceEntered_line s .zero)) (hn l), List.nil_append]

/-- What QUIESCE makes of a disabled line: nothing. -/
theorem quiesceLine_disabled {s : State} {m : LineId} (h : (s.line m).enable = false) (X : State) (hX : X.line m = s.line m) :
    X.quiesceLine m = (X.setLine m (s.line m), []) := by
  rw [quiesceLine_off X m (by rw [hX]; exact h), ← hX, setLine_line]

/-- The line on which QUIESCE meets an attempt in flight (R39, R53). -/
def quiescedAttempt (l : Line) (x : Attempt) : Line :=
  { l with timerRunning := false, attempt := some { x with stop := { x.stop with quiesce := true } } }

theorem quiesceLine_flight {s : State} {m : LineId} {x : Attempt} (h : (s.line m).enable = true) (ha : (s.line m).attempt = some x)
    (ho : x.origin ≠ .sync) (hr : x.retryOwed = false) (X : State) (hX : X.line m = s.line m) :
    X.quiesceLine m = (X.setLine m (quiescedAttempt (s.line m) x), []) := by
  rw [quiesceLine_attempt X m x (by rw [hX]; exact h) (by rw [hX]; exact ha) ho hr, hX]
  rfl

/-! ## The end of the step -/

/-- QUIESCE whose lines are then all at rest (R157). -/
theorem quiesce_rests {s T : State} {gs : Groups} {p : List Event} (hT : s.quiesce = T.reachQuiesced.1.flush (gs ++ [T.reachQuiesced.2]))
    (hm : T.mode = .quiescing) (hall : ∀ n, (T.line n).enable = true → (T.line n).engine = .hold ∨ (T.line n).faulted = true)
    (hg : gs.filter (fun g => !g.isEmpty) = [p.map Post.notice].filter fun g => !g.isEmpty) :
    answersInSomeOrder (.next s.quiesce) (quiescedFrom T) p [modeRecord 4 0 0] := by
  rw [hT, reachQuiesced_rest T hm hall]
  apply flush_two
  rw [List.filter_append, hg, ← List.filter_append]
  rfl

/-- QUIESCE that leaves a line active. -/
theorem quiesce_stays {s T : State} {n : LineId} {gs : Groups} {p : List Event}
    (hT : s.quiesce = T.reachQuiesced.1.flush (gs ++ [T.reachQuiesced.2])) (hen : (T.line n).enable = true)
    (he : (T.line n).engine ≠ .hold) (hf : (T.line n).faulted = false)
    (hg : gs.filter (fun g => !g.isEmpty) = [p.map Post.notice].filter fun g => !g.isEmpty) : s.quiesce = offered p T := by
  rw [hT, reachQuiesced_active T n hen he hf, flush_append_nil]
  have hposts : answersInSomeOrder (.next (T.flush gs)) T p [] := by
    apply flush_two
    rw [hg]
    cases p <;> rfl
  have hone := answers_one hposts
  injection hone

/-! ## A transaction between attempts -/

/-- The line of a transaction that QUIESCE has ended (R51, R53). -/
def heldLine (l : Line) : Line := { l with timerRunning := false, engine := .hold, attempt := none }

/-- QUIESCE ends a POLL between attempts (R39, R41, R51). -/
theorem quiesceLine_poll {s X : State} {n : LineId} {a : Attempt} {u : StationIx} {o : OutcomeCode} {j : EntryIx} {st : Station}
    {notices : List Event} (h : betweenAttempts s n a u o) (hen : (s.line n).enable = true) (ho : a.origin = .cyclic j)
    (ht : lastTakes s u o true st notices) (hpk : ¬ parkWaits s u) (hline : X.line n = s.line n) (hstation : X.station u = s.station u)
    (hentry : X.entry j = s.entry j) (hpending : X.pendingOf u = s.pendingOf u)
    (hcommand : X.cmdState = s.cmdState ∧ X.cmd = s.cmd ∧ X.args = s.args) :
    X.quiesceLine n = (stationLeft u st ((X.setLine n (heldLine (s.line n))).setEntry j { s.entry j with last := o }),
      [notices.map Post.notice, [], []]) := by
  obtain ⟨he, ha, -, hr, hu, hout, hmiss⟩ := h
  have hstop := stopTransaction_poll s (X.stopTimer n) n .quiesce a j u o st notices
    (by rw [stopTimer, modifyLine, line_setLine, if_pos rfl, hline]; exact ha) hr hu hout ho hmiss
    (by rw [stopTimer, modifyLine, setLine_station]; exact hstation)
    (fun hp => by rw [← hp, ← hpending]; exact pendingOf_congr _ X u (by simp [stopTimer, modifyLine]) fun k => by simp [stopTimer, modifyLine])
    (by simpa [stopTimer, modifyLine] using hcommand) ht (parkClear_none hpk st)
  rw [parkFinished_none _ hpk, parkRecords_none hpk, List.append_nil] at hstop
  have hW : State.setAttempt n none (X.stopTimer n) = X.setLine n { s.line n with timerRunning := false, attempt := none } := by
    simp [setAttempt, stopTimer, modifyLine, hline]
  have hentry' : (X.stopTimer n).entry j = s.entry j := by simp [stopTimer, modifyLine, hentry]
  rw [hW, hentry'] at hstop
  rw [quiesceLine_waiting X _ n _ (by rw [hline]; exact hen) hstop (by rw [stationLeft_line, setEntry_line, line_setLine, if_pos rfl])
    (by rw [stationLeft_line, setEntry_line, line_setLine, if_pos rfl]; exact he), setLine_stationLeft, setLine_setEntry, setLine_setLine,
    stationLeft_line, setEntry_line, line_setLine, if_pos rfl]
  rfl

/-- QUIESCE returns a slot between attempts to PENDING (R40, R51, R124). -/
theorem quiesceLine_slot {s X : State} {n : LineId} {a : Attempt} {u : StationIx} {o : OutcomeCode} {k : SlotIx} {i : Nat}
    (h : betweenAttempts s n a u o) (hen : (s.line n).enable = true) (ho : a.origin = .acyclic k) (hi : a.attempt = some i)
    (hle : i ≤ (s.slot k).retries.toNat) (hstop : a.stop = noStop) (hline : X.line n = s.line n) (hslot : X.slot k = s.slot k) :
    X.quiesceLine n = ((X.setLine n (heldLine (s.line n))).setSlot k { s.slot k with state := .pending }, []) := by
  obtain ⟨he, ha, -, hr, hu, hout, hmiss⟩ := h
  have hslot' : (X.stopTimer n).slot k = s.slot k := by simp [stopTimer, modifyLine, hslot]
  have hend := stopTransaction_slot (X.stopTimer n) n .quiesce a u o k i
    (by rw [stopTimer, modifyLine, line_setLine, if_pos rfl, hline]; exact ha) hr hu hout ho hmiss hi (by rw [hslot']; exact hle) hstop
    (.inr (.inr rfl))
  have hW : State.setAttempt n none (X.stopTimer n) = X.setLine n { s.line n with timerRunning := false, attempt := none } := by
    simp [setAttempt, stopTimer, modifyLine, hline]
  rw [hW, hslot'] at hend
  rw [quiesceLine_waiting X _ n _ (by rw [hline]; exact hen) hend (by rw [setSlot_line, line_setLine, if_pos rfl])
    (by rw [setSlot_line, line_setLine, if_pos rfl]; exact he), setLine_setSlot, setLine_setLine, setSlot_line, line_setLine, if_pos rfl]
  rfl

/-- The other line's record does not matter to what the end of a POLL on line n is given. -/
theorem quiesceEntered_other {n m : LineId} (hnm : n ≠ m) (s : State) (x : Line) (u : StationIx) :
    let X := (quiesceEntered s).setLine m x
    X.line n = s.line n ∧ (∀ v, X.station v = s.station v) ∧ (∀ e, X.entry e = s.entry e) ∧ (∀ k, X.slot k = s.slot k)
      ∧ X.pendingOf u = s.pendingOf u ∧ X.cmdState = s.cmdState ∧ X.cmd = s.cmd ∧ X.args = s.args := by
  intro X
  refine ⟨?_, fun v => ?_, fun e => ?_, fun k => ?_, ?_, ?_, ?_, ?_⟩
  · simp only [X]
    rw [line_setLine, if_neg (Ne.symm hnm), quiesceEntered_line]
  all_goals cases m <;> rfl

/-- QUIESCE at a POLL between attempts of line n, the other line as `hm` says. -/
theorem quiesce_poll {n m : LineId} {s : State} {a : Attempt} {u : StationIx} {o : OutcomeCode} {j : EntryIx} {st : Station}
    {notices : List Event} {l : Line} (hnm : n ≠ m) (h : betweenAttempts s n a u o) (hen : (s.line n).enable = true)
    (ho : a.origin = .cyclic j) (ht : lastTakes s u o true st notices) (hpk : ¬ parkWaits s u)
    (hm : ∀ X : State, X.line m = s.line m → X.quiesceLine m = (X.setLine m l, [])) :
    let T := stationLeft u st ((((quiesceEntered s).setLine n (heldLine (s.line n))).setLine m l).setEntry j { s.entry j with last := o })
    s.quiesce = T.reachQuiesced.1.flush ([notices.map Post.notice, [], []] ++ [T.reachQuiesced.2]) := by
  intro T
  have hT : T = (stationLeft u st (((quiesceEntered s).setLine n (heldLine (s.line n))).setEntry j { s.entry j with last := o })).setLine
      m l := by rw [setLine_stationLeft, setLine_setEntry]
  rw [hT]
  apply quiesce_lines hnm hm
  intro x
  obtain ⟨hline, hstation, hentry, -, hpending, hcommand⟩ := quiesceEntered_other hnm s x u
  rw [quiesceLine_poll h hen ho ht hpk hline (hstation u) (hentry j) hpending hcommand, setLine_stationLeft, setLine_setEntry,
    setLine_swap hnm]

/-- QUIESCE at a slot between attempts of line n. -/
theorem quiesce_slot {n m : LineId} {s : State} {a : Attempt} {u : StationIx} {o : OutcomeCode} {k : SlotIx} {i : Nat} {l : Line}
    (hnm : n ≠ m) (h : betweenAttempts s n a u o) (hen : (s.line n).enable = true) (ho : a.origin = .acyclic k) (hi : a.attempt = some i)
    (hle : i ≤ (s.slot k).retries.toNat) (hstop : a.stop = noStop)
    (hm : ∀ X : State, X.line m = s.line m → X.quiesceLine m = (X.setLine m l, [])) :
    let T := (((quiesceEntered s).setLine n (heldLine (s.line n))).setLine m l).setSlot k { s.slot k with state := .pending }
    s.quiesce = T.reachQuiesced.1.flush ([] ++ [T.reachQuiesced.2]) := by
  intro T
  have hT : T = (((quiesceEntered s).setLine n (heldLine (s.line n))).setSlot k { s.slot k with state := .pending }).setLine m l := by
    rw [setLine_setSlot]
  rw [hT]
  apply quiesce_lines hnm hm
  intro x
  obtain ⟨hline, -, -, hslot, -⟩ := quiesceEntered_other hnm s x u
  rw [quiesceLine_slot h hen ho hi hle hstop hline (hslot k), setLine_setSlot, setLine_swap hnm]

/-- The held state of the statement. -/
theorem held_eq (n : LineId) (s : State) : ({ s.setLine n (heldLine (s.line n)) with
    mode := .quiescing, pendingRequest := some .quiesce } : State) = (quiesceEntered s).setLine n (heldLine (s.line n)) := by
  cases n <;> rfl

/-- With line n in HOLD and the other disabled every enabled line is at rest. -/
theorem held_rests {n m : LineId} {s : State} (hnm : n ≠ m) (hm : (s.line m).enable = false) (T : State)
    (hT : ∀ i, T.line i = (((quiesceEntered s).setLine n (heldLine (s.line n))).setLine m (s.line m)).line i) (i : LineId)
    (he : (T.line i).enable = true) : (T.line i).engine = .hold ∨ (T.line i).faulted = true := by
  rw [hT] at he ⊢
  by_cases hi : m = i
  · rw [line_setLine, if_pos hi, hm] at he
    cases he
  · have hin : n = i := by cases n <;> cases m <;> cases i <;> simp_all
    left
    rw [line_setLine, if_neg hi, line_setLine, if_pos hin]
    rfl

/-- Line m's own state keeps line m as it is. -/
theorem held_self {n m : LineId} (hnm : n ≠ m) (s : State) : ((quiesceEntered s).setLine n (heldLine (s.line n))).setLine m (s.line m)
    = (quiesceEntered s).setLine n (heldLine (s.line n)) := by
  have hline : ((quiesceEntered s).setLine n (heldLine (s.line n))).line m = s.line m := by
    rw [line_setLine, if_neg hnm, quiesceEntered_line]
  rw [← hline, setLine_line]

theorem quiescedFrom_unrequested {X : State} (h : X.pendingRequest = none) :
    quiescedFrom X = { X with mode := .quiesced, edges := X.edges ||| 0x0020 } := by
  rw [quiescedFrom, ← h]

/-- QUIESCE with every enabled line at rest or idle (R51, R53, R157). -/
theorem quiesce_allRest {s : State} (h : ∀ n, (s.line n).enable = true → (s.line n).attempt = none
    ∧ ((s.line n).engine = .idle ∨ (s.line n).engine = .turnaround ∨ (s.line n).faulted = true ∧ (s.line n).engine = .faulted)) :
    let rest (l : Line) : Line := if l.enable then { l with
      timerRunning := false, engine := if l.engine = .faulted then .faulted else .hold } else l
    s.quiesce = (quiescedFrom { s with line0 := rest s.line0, line1 := rest s.line1 }).offerNotice (modeRecord 4 0 0) := by
  intro rest
  have hrest : ∀ (n : LineId) (X : State), X.line n = s.line n → X.quiesceLine n = (X.setLine n (rest (s.line n)), []) := fun n X hX => by
    rw [quiesceLine_rest X n (by rw [hX]; exact h n), hX]
  have hT := quiesce_lines (n := .zero) (m := .one) (s := s) (W := (quiesceEntered s).setLine .zero (rest (s.line .zero)))
    (l := rest (s.line .one)) (gs := []) (by decide) (hrest .one) fun x => hrest .zero _ rfl
  have hat : ∀ n, (rest (s.line n)).enable = true → (rest (s.line n)).engine = .hold ∨ (rest (s.line n)).faulted = true := fun n he => by
    have hen : (s.line n).enable = true := by
      by_contra hne
      have hkept : rest (s.line n) = s.line n := if_neg hne
      rw [hkept] at he
      exact hne he
    have hresting : rest (s.line n) = { s.line n with
      timerRunning := false, engine := if (s.line n).engine = .faulted then .faulted else .hold } := if_pos hen
    rw [hresting]
    obtain ⟨-, he | he | ⟨hf, -⟩⟩ := h n hen
    · simp [he]
    · simp [he]
    · exact .inr hf
  rw [List.nil_append] at hT
  rw [hT, reachQuiesced_rest _ rfl fun n => by
    cases n
    · exact hat .zero
    · exact hat .one]
  exact flush_single _ _

/-- Settles O36: QUIESCE on resting lines, on an attempt in flight, on a transaction between attempts, and the row of the end. -/
theorem quiesceAndItsEnd : Obligations.QuiesceAndItsEnd := by
  refine ⟨fun s hm hp h => ?rest, fun n m s a hnm hm hp hen hdis hf he ha ho hr => ?flight,
    fun n m s a u o hnm hm hp hen h => ?between, fun s hm => ⟨fun hall => ?reached, fun n hen he hf => ?active⟩⟩
  case rest =>
    rw [exec_quiesce hm hp, quiesce_allRest h, quiescedFrom_unrequested (by exact hp)]
  case flight =>
    intro t
    have ht : t = (quiesceEntered s).setLine n (quiescedAttempt (s.line n) a) := by
      simp only [t]
      cases n <;> rfl
    have hline : t.line n = quiescedAttempt (s.line n) a := by rw [ht, line_setLine, if_pos rfl]
    have hpending : t.pendingRequest = some .quiesce := by rw [ht, setLine_pendingRequest]; rfl
    have hmode : t.mode = .quiescing := by rw [ht, setLine_mode]; rfl
    have hlines := quiesce_lines (W := t) (gs := []) hnm (quiesceLine_disabled hdis) fun x => by
      rw [quiesceLine_flight hen ha ho hr _ (quiesceEntered_other hnm s x 0).1, ht, setLine_swap hnm]
    have hother : t.line m = s.line m := by rw [ht, line_setLine, if_neg hnm, quiesceEntered_line]
    rw [← hother, setLine_line, reachQuiesced_active t n (by rw [hline]; exact hen) (by rw [hline]; exact he)
      (by rw [hline]; exact hf)] at hlines
    refine ⟨by rw [exec_quiesce hm hp, hlines]; rfl, ?_, ?_⟩
    · show t.modereqWord = 3
      simp only [modereqWord, hpending]
      rfl
    · exact congrArg Host.Outcome.next (modeRequest_refused (by rw [hmode]; decide) (.inl (by rw [hpending]; simp)))
  case between =>
    intro held
    have hheld : held = (quiesceEntered s).setLine n (heldLine (s.line n)) := held_eq n s
    refine ⟨fun j st notices ho ht hpk => ?_, fun k i ho hi hle hstop => ?_⟩
    · intro left
      refine ⟨fun hdis => ?_, fun x henm hx hsync hretry hhold hfm => ?_⟩
      · have hT := quiesce_poll hnm h hen ho ht hpk (quiesceLine_disabled hdis)
        rw [exec_quiesce hm hp]
        simp only [left, hheld]
        rw [← held_self hnm s]
        refine quiesce_rests hT (by rw [stationLeft_mode, setEntry_mode, setLine_mode, setLine_mode]; rfl)
          (held_rests hnm hdis _ fun i => by rw [stationLeft_line, setEntry_line]) ?_
        cases notices <;> rfl
      · have hT := quiesce_poll hnm h hen ho ht hpk (quiesceLine_flight henm hx hsync hretry)
        rw [exec_quiesce hm hp]
        simp only [left, hheld]
        exact congrArg Host.Outcome.next (quiesce_stays (n := m) hT
          (by rw [stationLeft_line, setEntry_line, line_setLine, if_pos rfl]; exact henm)
          (by rw [stationLeft_line, setEntry_line, line_setLine, if_pos rfl]; exact hhold)
          (by rw [stationLeft_line, setEntry_line, line_setLine, if_pos rfl]; exact hfm) (by cases notices <;> rfl))
    · intro left
      refine ⟨fun hdis => ?_, fun x henm hx hsync hretry hhold hfm => ?_⟩
      · have hT := quiesce_slot hnm h hen ho hi hle hstop (quiesceLine_disabled hdis)
        rw [exec_quiesce hm hp]
        simp only [left, hheld]
        rw [← held_self hnm s, hT, reachQuiesced_rest _ (by rw [setSlot_mode, setLine_mode, setLine_mode]; rfl)
          (held_rests hnm hdis _ fun i => by rw [setSlot_line])]
        exact congrArg Host.Outcome.next (flush_single _ _)
      · have hT := quiesce_slot hnm h hen ho hi hle hstop (quiesceLine_flight henm hx hsync hretry)
        rw [exec_quiesce hm hp]
        simp only [left, hheld]
        have hstays := quiesce_stays (n := m) (p := []) hT (by rw [setSlot_line, line_setLine, if_pos rfl]; exact henm)
          (by rw [setSlot_line, line_setLine, if_pos rfl]; exact hhold) (by rw [setSlot_line, line_setLine, if_pos rfl]; exact hfm) rfl
        exact congrArg Host.Outcome.next hstays
  case reached =>
    simp only [exec, execQuiescedReached, reachQuiesced_rest s hm hall]
    exact congrArg Host.Outcome.next (flush_single _ _)
  case active =>
    simp only [exec, execQuiescedReached, reachQuiesced_active s n hen he hf]
    rfl

end Sys2Proof.Machine
end

section
/-!
SUPPORT. Leaving QUIESCED: the return to RUN and the entry to CONFIG (R51, R53, R71, R152, R158, R159).
-/

namespace Sys2Proof.Machine

open State

/-! ## The return to RUN -/

/-- The state in which the return to RUN reaches the lines (R158). -/
def runReturned (s : State) : State := { s with mode := .run }

theorem runReturned_line (s : State) (n : LineId) : (runReturned s).line n = s.line n := by cases n <;> rfl

/-- The return to RUN comes to its MODE notice (R152, R158). -/
theorem exec_returnToRun {s b : State} (hm : s.mode = .quiesced) (hp : s.pendingRequest = none)
    (hb : ((runReturned s).resumeLine .zero).resumeLine .one = b) (hrun : b.mode = .run) :
    exec .modereqRun s = .next (({ b with edges := b.edges ||| 0x0020 } : State).offerNotice (modeRecord 2 0 0)) := by
  have hinit : s.inInit = false := by rw [inInit, hm]; rfl
  have htaken : s.modeRequest 2 = s.returnToRun := by simp [modeRequest, hinit, hp, hm]
  have hreturn : s.returnToRun = (b.modeOccasion 0 0).1.flush [[(b.modeOccasion 0 0).2]] := by rw [← hb]; rfl
  have hexec : exec .modereqRun s = .next (s.modeRequest 2) := rfl
  rw [hexec, htaken, hreturn, modeOccasion_flush b .run hrun]
  rfl

/-- A line that can be resumed: enabled, it holds no record and rests, is faulted or breaks (R51, R158). -/
def resumable (l : Line) : Prop :=
  l.enable = true → l.attempt = none ∧ l.breakRequest = false ∧ (l.engine = .hold ∨ l.engine = .faulted ∨ l.engine = .breaking)

/-- Both lines at the return to RUN, line 0 first. -/
theorem resumeLines {s : State} (h : ∀ n, resumable (s.line n)) :
    lineResumed .zero (runReturned s) ((runReturned s).resumeLine .zero)
      ∧ lineResumed .one ((runReturned s).resumeLine .zero) (((runReturned s).resumeLine .zero).resumeLine .one)
      ∧ (((runReturned s).resumeLine .zero).resumeLine .one).mode = .run := by
  obtain ⟨hzero, hmode, hother⟩ := resumeLine_resumed .zero (runReturned s) rfl (by rw [runReturned_line]; exact h .zero)
  have hline : ((runReturned s).resumeLine .zero).line .one = s.line .one := (hother .one (by decide)).trans (runReturned_line s .one)
  obtain ⟨hone, hmode', -⟩ := resumeLine_resumed .one ((runReturned s).resumeLine .zero) hmode (by rw [hline]; exact h .one)
  exact ⟨hzero, hone, hmode'.trans hmode⟩

/-- A disabled line stays as it is. -/
theorem resumeLine_disabled {X : State} {m : LineId} (h : (X.line m).enable = false) : X.resumeLine m = X := by
  unfold resumeLine
  rw [if_neg (by simp [h])]

/-- With one line enabled it alone is resumed. -/
theorem resumeLines_one {n m : LineId} {s : State} (hnm : n ≠ m) (hdis : (s.line m).enable = false) (h : resumable (s.line n)) :
    ((runReturned s).resumeLine .zero).resumeLine .one = (runReturned s).resumeLine n := by
  obtain ⟨-, -, hother⟩ := resumeLine_resumed n (runReturned s) rfl (by rw [runReturned_line]; exact h)
  cases n with
  | zero =>
    obtain rfl : m = .one := by cases m with | zero => exact absurd rfl hnm | one => rfl
    exact resumeLine_disabled (by rw [hother .one (by decide), runReturned_line]; exact hdis)
  | one =>
    obtain rfl : m = .zero := by cases m with | zero => rfl | one => exact absurd rfl hnm
    rw [resumeLine_disabled (m := .zero) (by rw [runReturned_line]; exact hdis)]

/-- A line that does not decide at the return: all that the step changes (R51, R53, R71, R123). -/
theorem resumeLine_waits {n : LineId} {s : State} (hen : (s.line n).enable = true) (h : resumable (s.line n))
    (hw : ¬ ((s.line n).engine = .hold ∧ isQuiet (s.line n) ∧ (s.line n).settled = true)) :
    ∃ t, (runReturned s).resumeLine n = t
      ∧ t = { s.setLine n { cycleOpened (s.line n) with engine := if (s.line n).engine = .hold then .turnaround else (s.line n).engine } with
          mode := .run, slots := t.slots, edges := s.edges ||| cycleStartBit n }
      ∧ deferralsReleased n s t := by
  obtain ⟨hresumed, -⟩ := resumeLine_resumed n (runReturned s) rfl (by rw [runReturned_line]; exact h)
  unfold lineResumed at hresumed
  rw [runReturned_line, if_pos hen] at hresumed
  obtain ⟨t, ht, hreleased, -, hstays⟩ := hresumed
  refine ⟨t, hstays hw, ?_, hreleased⟩
  rw [ht]
  cases n <;> rfl

/-! ## The entry to CONFIG -/

/-- With nothing PENDING the entry to CONFIG changes the lines alone (R159). -/
theorem configEntered_quiet {s : State} (hc : s.cmdState ≠ .busy) (hp : s.pendingList = []) :
    configEntered s = { (s.setLine .zero s.line0.enterOff).setLine .one s.line1.enterOff with mode := .config } := by
  rw [← configPrepared_idle hc, configEntered, configPrepared_pendingList, hp]
  rfl

/-- Settles O38: the two lines by `resumeLine_resumed`, one of them with the other disabled, and the entry to CONFIG. -/
theorem leavingQuiesced : Obligations.LeavingQuiesced := by
  refine ⟨fun s hm hp h => ?both, fun n m s hnm hm hp hen hdis ha hb he => ?one, fun s hm hp hc hpend => ?config⟩
  case both =>
    obtain ⟨hzero, hone, hrun⟩ := resumeLines h
    exact ⟨_, _, hzero, hone, exec_returnToRun hm hp rfl hrun⟩
  case one =>
    have hres : resumable (s.line n) := fun _ => ⟨ha, hb, by
      rcases he with ⟨h, -⟩ | h
      · exact .inl h
      · exact .inr (.inl h)⟩
    obtain ⟨t, ht, hframe, hreleased⟩ := resumeLine_waits hen hres (by
      rintro ⟨hh, hq, hs⟩
      rcases he with ⟨-, h | h⟩ | h
      · exact h hq
      · rw [hs] at h; cases h
      · rw [hh] at h; cases h)
    have hengine : (if (s.line n).engine = .hold then EngineState.turnaround else (s.line n).engine)
        = if (s.line n).engine = .hold then .turnaround else .faulted := by
      rcases he with ⟨h, -⟩ | h <;> simp [h]
    rw [hengine] at hframe
    refine ⟨_, exec_returnToRun hm hp ((resumeLines_one hnm hdis hres).trans ht) (by rw [hframe]), ?_, fun k => ?_⟩
    · rw [(offerNotice_tables _ _).2.1]
      congr 1
      rw [hframe]
    · rw [offerNotice_slot]
      exact hreleased k
  case config =>
    refine ⟨_, exec_enterConfig hm hp, ?_, fun n => ?_⟩
    · have hlines : ∀ X : State, (X.offerNotice (modeRecord 1 0 0)).line0 = X.line0 ∧ (X.offerNotice (modeRecord 1 0 0)).line1 = X.line1 :=
        fun X => ⟨(offerNotice_same _ X).2.2.1, (offerNotice_same _ X).2.2.2⟩
      rw [(hlines _).1, (hlines _).2, configEntered_quiet hc hpend]
      rfl
    · have hline : ({ configEntered s with edges := (configEntered s).edges ||| 0x0020 } : State).line n = (s.line n).enterOff := by
        rw [← configEntered_line]
        cases n <;> rfl
      rw [offerNotice_line, hline]
      rfl

end Sys2Proof.Machine
end

section
/-!
SUPPORT. LINE_BREAK (R47, R48): its checks, and the four situations of the line it finds.
-/

namespace Sys2Proof.Machine

open State

/-! ## The line a request leaves -/

/-- The line as its break begins, no record held (R17, R48). -/
def breakOpened (l : Line) : Line :=
  { l with engine := .breaking, drive := .breakLow, breakRequest := false, readBack := none, frameRest := [], attempt := none }

/-- An engine that may start a break at once (R48). -/
def freeForBreak (l : Line) : Prop :=
  l.engine = .idle ∨ l.engine = .turnaround ∨ l.engine = .hold ∨ l.engine = .faulted

/-- The state in which LINE_BREAK's request reaches the transaction of its line (R47, R48). -/
def breakAsked (s : State) (n : LineId) : State := (s.takeCommand 0x0F).setLine n { s.line n with breakRequest := true }

theorem breakAsked_line (s : State) (n : LineId) : (breakAsked s n).line n = { s.line n with breakRequest := true } := by
  simp [breakAsked]

theorem breakAsked_mode (s : State) (n : LineId) : (breakAsked s n).mode = s.mode := by
  rw [breakAsked, setLine_mode, takeCommand_mode]

theorem breakOwed_noRecord {l : Line} (h : l.attempt = none) :
    ({ l with breakRequest := true } : Line) = { l with breakRequest := true, attempt := none } := by
  cases l
  cases h
  rfl

theorem breakOpened_noRecord {l : Line} (h : l.attempt = none) : breakOpened l
    = { l with engine := .breaking, drive := .breakLow, breakRequest := false, readBack := none, frameRest := [] } := by
  cases l
  cases h
  rfl

/-- A STOP reason joins the set of a transaction that does not wait between attempts (R39). -/
theorem stopTransaction_joins {X : State} {n : LineId} (x : StopReason) {a : Attempt} (ha : (X.line n).attempt = some a)
    (ho : a.origin ≠ .sync) (hr : a.retryOwed = false) :
    X.stopTransaction n x = (X.setAttempt n (some { a with stop := a.stop.add x }), []) := by
  have hsync : (a.origin != .sync) = true := by simpa using ho
  simp only [stopTransaction, ha, Attempt.isTransaction, hsync, if_true]
  split
  · rename_i h _ _
    rw [hr] at h
    cases h
  · rfl

/-- Once the line holds no record and its engine is free, the break starts and keeps QUIESCED away (R48, R157). -/
theorem settle_breakOpened {n : LineId} {X : State} {gs : Groups} {l : Line}
    (hX : X.line n = { l with breakRequest := true, attempt := none }) (hfree : freeForBreak l)
    (hq : X.mode = .quiescing → l.enable = true ∧ l.faulted = false) :
    settle n (X, gs) = (X.setLine n (breakOpened l)).flush gs := by
  have hbegun : breakBegun (X.line n) = breakOpened l := by
    rw [hX, breakBegun, if_pos ⟨rfl, rfl, hfree⟩]
    rfl
  rw [settle_stays n X gs fun hm => ?_, hbegun]
  obtain ⟨he, hf⟩ := hq hm
  refine allAtRest_false _ n ?_ ?_ ?_ <;> rw [line_setLine, if_pos rfl, hbegun]
  · exact he
  · exact nofun
  · exact hf

/-! ## The situations of the line -/

section
variable {s : State} {n : LineId} (hacc : s.accepts) (harg : s.argIs 0 (lineNumber n)) (hm : s.mode ≠ .config)
  (he : (s.line n).enable = true) (hq : s.mode = .quiescing → (s.line n).faulted = false)
include hacc harg hm he

/-- LINE_BREAK where no break is under way: its request reaches the transaction in flight (R48). -/
theorem exec_lineBreak_asks (heng : (s.line n).engine ≠ .breaking) :
    exec .lineBreak s = .next (settle n ((breakAsked s n).stopTransaction n .brk)) := by
  rw [exec_lineBreak hacc harg hm he, requestBreak_waits (by rwa [State.takeCommand_line]), State.takeCommand_line]
  rfl

/-- A break under way is joined (R48). -/
theorem lineBreak_joins (heng : (s.line n).engine = .breaking) : exec .lineBreak s = .next (s.commandTaken 0x0F) := by
  rw [exec_lineBreak hacc harg hm he, requestBreak, if_pos (by rwa [State.takeCommand_line])]
  rfl

include hq

/-- A free engine starts the break at once (R48). -/
theorem lineBreak_starts (ha : (s.line n).attempt = none) (hfree : freeForBreak (s.line n)) :
    exec .lineBreak s = .next ((s.setLine n { s.line n with
      engine := .breaking, drive := .breakLow, breakRequest := false, readBack := none, frameRest := [] }).commandTaken 0x0F) := by
  have hstop : (breakAsked s n).stopTransaction n .brk = (breakAsked s n, []) := by
    simp [stopTransaction, breakAsked_line, ha]
  have hline := (breakAsked_line s n).trans (breakOwed_noRecord ha)
  rw [exec_lineBreak_asks hacc harg hm he (by rcases hfree with h | h | h | h <;> simp [h]), hstop,
    settle_breakOpened hline hfree fun h => ⟨he, hq (breakAsked_mode s n ▸ h)⟩, flush_nil, breakAsked, setLine_setLine,
    setLine_takeCommand, breakOpened_noRecord ha]
  rfl

/-- A transaction in flight receives BREAK, and the request waits (R48). -/
theorem lineBreak_waits {a : Attempt} (ha : (s.line n).attempt = some a) (hb : (s.line n).engine ≠ .breaking)
    (hh : (s.line n).engine ≠ .hold) (ho : a.origin ≠ .sync) (hr : a.retryOwed = false) :
    exec .lineBreak s = .next ((s.setLine n { s.line n with
      breakRequest := true, attempt := some { a with stop := { a.stop with brk := true } } }).commandTaken 0x0F) := by
  generalize hX : (breakAsked s n).setAttempt n (some { a with stop := { a.stop with brk := true } }) = X
  have hstop : (breakAsked s n).stopTransaction n .brk = (X, []) := by
    rw [stopTransaction_joins .brk (by rw [breakAsked_line]; exact ha) ho hr, ← hX]
    rfl
  have hline : X.line n
      = { s.line n with breakRequest := true, attempt := some { a with stop := { a.stop with brk := true } } } := by
    rw [← hX, setAttempt, modifyLine, line_setLine, if_pos rfl, breakAsked_line]
  have hmode : X.mode = s.mode := by rw [← hX, setAttempt, modifyLine, setLine_mode, breakAsked_mode]
  rw [exec_lineBreak_asks hacc harg hm he hb, hstop,
    settle_active n X [] (fun h => by rw [hline]; exact ⟨he, hh, hq (hmode ▸ h)⟩), breakBegun_held _ (by rw [hline]; simp), hline, ← hX,
    flush_nil, setAttempt, modifyLine, setLine_setLine, breakAsked, setLine_setLine, setLine_takeCommand]
  rfl

/-- The transaction between attempts gives way: the engine is free, and the break starts once the record is gone (R39, R48). -/
theorem lineBreak_between {a : Attempt} {u : StationIx} {o : OutcomeCode} {X : State} {gs : Groups} (hbetw : betweenAttempts s n a u o)
    (hstop : (breakAsked s n).stopTransaction n .brk = (X, gs))
    (hX : X.line n = { s.line n with breakRequest := true, attempt := none }) (hmode : X.mode = s.mode) :
    exec .lineBreak s = .next ((X.setLine n (breakOpened (s.line n))).flush gs) := by
  obtain ⟨heng, -⟩ := hbetw
  rw [exec_lineBreak_asks hacc harg hm he (by rw [heng]; exact nofun), hstop,
    settle_breakOpened hX (.inr (.inl heng)) fun h => ⟨he, hq (hmode ▸ h)⟩]

/-- A POLL between attempts ends with its last outcome, and the break starts in the same step (R39, R41, R48). -/
theorem lineBreak_endsPoll {a : Attempt} {u : StationIx} {o : OutcomeCode} {j : EntryIx} {st : Station} {notices : List Event}
    (hbetw : betweenAttempts s n a u o) (hj : a.origin = .cyclic j) (ht : lastTakes s u o true st notices) :
    exec .lineBreak s = .next (offered notices (stationLeft u st (((s.setLine n (breakOpened (s.line n))).commandTaken 0x0F).setEntry j
      { s.entry j with last := o }))) := by
  have hbetw' := hbetw
  obtain ⟨-, ha, hsync, hretry, hu, hout, hmiss⟩ := hbetw'
  have hpark : ¬ parkWaits (s.takeCommand 0x0F) u := by simp [parkWaits, takeCommand]
  have hstop := stopTransaction_poll (s.takeCommand 0x0F) (breakAsked s n) n .brk a j u o st notices
    (by rw [breakAsked_line]; exact ha) hretry hu hout hj hmiss (by simp [breakAsked])
    (fun h => (pendingOf_congr _ (s.takeCommand 0x0F) u (by simp [breakAsked]) (by simp [breakAsked])).trans h)
    (by simp [breakAsked]) ht (parkClear_none hpark st)
  rw [parkFinished_none _ hpark, parkRecords_none hpark, List.append_nil] at hstop
  rw [lineBreak_between hacc harg hm he hq hbetw hstop (by simp [setAttempt, modifyLine, breakAsked_line]) (by
    simp [setAttempt, modifyLine, breakAsked])]
  have hflush : ∀ Z : State, Z.flush [notices.map Post.notice, [], []] = offered notices Z := fun Z => by
    rw [show ([notices.map Post.notice, [], []] : Groups) = [notices.map Post.notice, []] ++ [[]] from rfl, flush_append_nil, flush_notices]
  rw [hflush, setLine_stationLeft, setLine_setEntry, setAttempt, modifyLine, setLine_setLine]
  simp only [breakAsked, setLine_setLine, setLine_takeCommand, takeCommand_entry, setLine_entry]
  rfl

/-- A READ or WRITE between attempts returns to PENDING, and the break starts in the same step (R39, R40, R48). -/
theorem lineBreak_returnsSlot {a : Attempt} {u : StationIx} {o : OutcomeCode} {k : SlotIx} {m : Nat}
    (hbetw : betweenAttempts s n a u o) (hk : a.origin = .acyclic k) (hm' : a.attempt = some m) (hle : m ≤ (s.slot k).retries.toNat)
    (hs : a.stop = noStop) :
    exec .lineBreak s = .next (((s.setLine n (breakOpened (s.line n))).commandTaken 0x0F).setSlot k
      { s.slot k with state := .pending }) := by
  have hbetw' := hbetw
  obtain ⟨-, ha, hsync, hretry, hu, hout, hmiss⟩ := hbetw'
  have hslot : (breakAsked s n).slot k = s.slot k := by simp [breakAsked]
  have hstop := stopTransaction_slot (breakAsked s n) n .brk a u o k m (by rw [breakAsked_line]; exact ha) hretry hu hout hk hmiss hm'
    (by rwa [hslot]) hs (.inr (.inl rfl))
  rw [lineBreak_between hacc harg hm he hq hbetw hstop (by simp [setAttempt, modifyLine, breakAsked_line]) (by
    simp [setAttempt, modifyLine, breakAsked]), flush_nil, hslot, setLine_setSlot, setAttempt, modifyLine, setLine_setLine]
  simp only [breakAsked, setLine_setLine, setLine_takeCommand]
  rfl

end

/-! ## The checks -/

theorem lineArg_none {w : Word} (h : 1 < w.toNat) : lineArg w = none := by
  have h0 : w ≠ 0 := by rintro rfl; simp at h
  have h1 : w ≠ 1 := by rintro rfl; simp at h
  rw [lineArg, if_neg h0, if_neg h1]

/-- Settles O56: LINE_BREAK's checks, and the request by what the line is doing. -/
theorem lineBreak : Obligations.LineBreak := by
  intro s hacc
  refine ⟨fun h => ?_, fun n harg => ⟨fun hm => ?_, fun hm he => ?_, fun hm he hq => ⟨fun ha hfree => ?_, fun heng => ?_, ?_, ?_⟩⟩⟩
  · simp only [exec, execLineBreak, hostCommand_of_accepts _ _ s hacc, lineBreakBody, takeCommand_arg, lineArg_none h]
    rfl
  · simp only [exec, execLineBreak, hostCommand_of_accepts _ _ s hacc, lineBreakBody, takeCommand_arg, lineArg_of harg,
      takeCommand_mode, hm, if_true]
    rfl
  · simp only [exec, execLineBreak, hostCommand_of_accepts _ _ s hacc, lineBreakBody, takeCommand_arg, lineArg_of harg,
      takeCommand_mode, if_neg hm, State.takeCommand_line, he, Bool.not_false, if_true]
    rfl
  · exact lineBreak_starts hacc harg hm he hq ha hfree
  · exact lineBreak_joins hacc harg hm he heng
  · exact fun a ha hb hh ho hr => lineBreak_waits hacc harg hm he hq ha hb hh ho hr
  · intro a u o hbetw
    exact ⟨fun j st notices hj ht => lineBreak_endsPoll hacc harg hm he hq hbetw hj ht,
      fun k m hk hm' hle hs => lineBreak_returnsSlot hacc harg hm he hq hbetw hk hm' hle hs⟩

end Sys2Proof.Machine
end

section
/-!
SUPPORT. SUBMIT (R117, R118, R180): the packed request, its checks in order, and the slot it fills.
-/

namespace Sys2Proof.Machine

open State

/-! ## The packed request (R180) -/

/-- The request in CARG0 to CARG3. -/
def packedRequest (s : State) : SubmitArgs := .unpack (s.carg.get 0) (s.carg.get 1) (s.carg.get 2) (s.carg.get 3)

/-- What the fields of the request in CARG0 to CARG3 are once check 1 has passed (R117, R180). -/
structure Unpacked (s : State) (r : Request) : Prop where
  station : r.station.val = (s.carg.get 0).toNat % 64
  kind : r.kind = if (s.carg.get 0).toNat / 64 % 4 = 1 then .read else .write
  priority : r.priority = (s.carg.get 0).extractLsb' 8 2
  retries : r.retries = (s.carg.get 0).extractLsb' 11 3
  tag : r.tag = (s.carg.get 1).setWidth 8
  tagInRange : (s.carg.get 1).toNat ≤ 255
  reqBlock : r.reqBlock.val = (s.carg.get 2).toNat % 256
  noReply : (s.carg.get 2).toNat / 256 = 255 ↔ r.replyBlock = none
  reply : ∀ c : BlockIx, r.replyBlock = some c ↔ c.val = (s.carg.get 2).toNat / 256
  reqLen : r.reqLen = s.carg.get 3

theorem requestKind?_some {w : BitVec 2} {k : RequestKind} (h : requestKind? w = some k) :
    k = if w.toNat = 1 then .read else .write := by
  revert w k
  decide

theorem replyBlock?_some {v : Byte} {b : Option BlockIx} (h : replyBlock? v = some b) :
    (v.toNat = 255 ↔ b = none) ∧ ∀ c : BlockIx, b = some c ↔ c.val = v.toNat := by
  unfold replyBlock? at h
  split at h
  · rename_i hv
    cases h
    refine ⟨⟨fun _ => rfl, fun _ => by rw [hv]; rfl⟩, fun c => ⟨nofun, fun hc => ?_⟩⟩
    have hlt := c.isLt
    rw [hc, hv] at hlt
    exact absurd hlt (by decide)
  · split at h
    · rename_i hlt
      cases h
      refine ⟨⟨fun hv => by omega, nofun⟩, fun c => ?_⟩
      rw [Option.some.injEq, Fin.ext_iff, eq_comm]
    · cases h

theorem packedField (w : Word) (i n : Nat) : (w.extractLsb' i n).toNat = w.toNat / 2 ^ i % 2 ^ n := by
  rw [BitVec.extractLsb'_toNat, Nat.shiftRight_eq_div_pow]

/-- Check 1 of R117, as the statement reads it. -/
theorem check1_none_iff (s : State) : (packedRequest s).check1 = none ↔ submitFails s 1 .badArgument := by
  have h0 := (s.carg.get 0).isLt
  have h2 := (s.carg.get 2).isLt
  simp only [submitFails, true_and]
  unfold SubmitArgs.check1
  split
  · rename_i h
    obtain ⟨hst, hpr, hre, htag, hreq⟩ := h
    simp only [packedRequest, SubmitArgs.unpack, packedField] at hst hpr hre htag hreq ⊢
    have hmatch : (requestKind? ((s.carg.get 0).extractLsb' 6 2) = none ∨ replyBlock? ((s.carg.get 2).extractLsb' 8 8) = none)
        ↔ ((s.carg.get 0).toNat / 64 % 4 = 0 ∨ (s.carg.get 0).toNat / 64 % 4 = 3
          ∨ (127 < (s.carg.get 2).toNat / 256 ∧ (s.carg.get 2).toNat / 256 ≠ 255)) := by
      rw [requestKind?_none, replyBlock?_none, packedField, packedField, Nat.mod_eq_of_lt (b := 2 ^ 8) (by omega), or_assoc]
      rfl
    split
    · rename_i kind reply hk hr
      rw [hk, hr] at hmatch
      simp only [reduceCtorEq, or_self, false_iff, not_or] at hmatch ⊢
      omega
    · rename_i hno
      have hnone : requestKind? ((s.carg.get 0).extractLsb' 6 2) = none ∨ replyBlock? ((s.carg.get 2).extractLsb' 8 8) = none := by
        cases hk : requestKind? ((s.carg.get 0).extractLsb' 6 2) with
        | none => exact .inl rfl
        | some kind =>
          cases hr : replyBlock? ((s.carg.get 2).extractLsb' 8 8) with
          | none => exact .inr rfl
          | some reply => exact absurd hr (hno kind reply hk)
      have := hmatch.1 hnone
      simp only [true_iff]
      omega
  · rename_i h
    simp only [packedRequest, SubmitArgs.unpack, packedField] at h
    simp only [true_iff]
    omega

/-- A request that passes check 1 has the packed fields. -/
theorem check1_unpacked {s : State} {r : Request} (h : (packedRequest s).check1 = some r) : Unpacked s r := by
  have h0 := (s.carg.get 0).isLt
  have h2 := (s.carg.get 2).isLt
  unfold SubmitArgs.check1 at h
  split at h
  · rename_i hranges
    obtain ⟨hst, hpr, hre, htag, hreq⟩ := hranges
    split at h
    · rename_i kind reply hk hr
      cases h
      simp only [packedRequest, SubmitArgs.unpack] at hst hpr hre htag hreq hk hr
      obtain ⟨hnone, hsome⟩ := replyBlock?_some hr
      have hhigh : ((s.carg.get 2).extractLsb' 8 8).toNat = (s.carg.get 2).toNat / 256 := by rw [packedField]; omega
      rw [hhigh] at hnone
      simp only [hhigh] at hsome
      rw [packedField] at hpr hre
      refine ⟨?_, ?_, ?_, ?_, rfl, htag, ?_, hnone, hsome, rfl⟩
      · simp [packedRequest, SubmitArgs.unpack]
      · rw [requestKind?_some hk, packedField]
        rfl
      · apply BitVec.eq_of_toNat_eq
        simp only [packedRequest, SubmitArgs.unpack, BitVec.toNat_setWidth, packedField]
        omega
      · apply BitVec.eq_of_toNat_eq
        simp only [packedRequest, SubmitArgs.unpack, BitVec.toNat_setWidth, packedField]
        omega
      · simp [packedRequest, SubmitArgs.unpack]
    · cases h
  · cases h

/-! ## Checks 2 to 9 (R117) -/

/-- Check i of R117 fails for a request that passed check 1. -/
def failsCheck (s : State) (r : Request) : Nat → Prop
  | 2 => ∀ k, (s.slot k).state ≠ .free
  | 3 => ∃ k, (s.slot k).state ≠ .free ∧ (s.slot k).tag = r.tag
  | 4 => (s.line (s.station r.station).line).enable = false
  | 5 => (s.station r.station).enabled = false
  | 6 => (s.station r.station).health = .parked
  | 7 => (s.station r.station).health = .offline
  | 8 => s.owner r.reqBlock ≠ .host ∨ (∃ b, r.replyBlock = some b ∧ s.owner b ≠ .host) ∨ r.replyBlock = some r.reqBlock
  | 9 => 32 < r.reqLen.toNat
  | _ => False

/-- The result of a failed check 2 to 9. -/
def checkResult : Nat → ResultCode
  | 2 => .queueFull
  | 3 => .tagInUse
  | 4 => .lineDisabled
  | 6 => .stationParked
  | 7 => .stationOffline
  | 8 => .notOwner
  | _ => .badArgument

theorem lowestFreeSlot_isNone (s : State) : s.lowestFreeSlot.isNone = true ↔ ∀ k, (s.slot k).state ≠ .free := by
  simp [lowestFreeSlot, List.find?_eq_none]

theorem lowestFreeSlot_eq_some {s : State} {k : SlotIx} (hk : (s.slot k).state = .free)
    (hlow : ∀ j : SlotIx, j.val < k.val → (s.slot j).state ≠ .free) : s.lowestFreeSlot = some k := by
  obtain ⟨below, above, hsplit, hbelow⟩ := finRange_split k
  unfold lowestFreeSlot
  rw [hsplit, List.find?_append, List.find?_eq_none.2 fun j hj => by simpa using hlow j (hbelow j hj)]
  simp [hk]

theorem tagInUse_iff (s : State) (tag : Byte) : s.tagInUse tag = true ↔ ∃ k, (s.slot k).state ≠ .free ∧ (s.slot k).tag = tag := by
  simp [tagInUse]

/-- The chain of checks 2 to 9, each condition as `failsCheck` reads it. -/
theorem submitError_eq (s : State) (r : Request) [∀ i, Decidable (failsCheck s r i)] : s.submitError r
    = if failsCheck s r 2 then some .queueFull
      else if failsCheck s r 3 then some .tagInUse
      else if failsCheck s r 4 then some .lineDisabled
      else if failsCheck s r 5 then some .badArgument
      else if failsCheck s r 6 then some .stationParked
      else if failsCheck s r 7 then some .stationOffline
      else if failsCheck s r 8 then some .notOwner
      else if failsCheck s r 9 then some .badArgument
      else none := by
  unfold submitError
  simp only [failsCheck, ← lowestFreeSlot_isNone, ← tagInUse_iff, Bool.not_eq_true']

/-- The first failed check gives the result. -/
theorem submitError_first {s : State} {r : Request} {i : Nat} (hi : failsCheck s r i) (hbefore : ∀ j, j < i → ¬ failsCheck s r j) :
    s.submitError r = some (checkResult i) := by
  classical
  rw [submitError_eq]
  match i with
  | 2 => rw [if_pos hi]; rfl
  | 3 => rw [if_neg (hbefore 2 (by decide)), if_pos hi]; rfl
  | 4 => rw [if_neg (hbefore 2 (by decide)), if_neg (hbefore 3 (by decide)), if_pos hi]; rfl
  | 5 => simp [hbefore 2, hbefore 3, hbefore 4, hi, checkResult]
  | 6 => simp [hbefore 2, hbefore 3, hbefore 4, hbefore 5, hi, checkResult]
  | 7 => simp [hbefore 2, hbefore 3, hbefore 4, hbefore 5, hbefore 6, hi, checkResult]
  | 8 => simp [hbefore 2, hbefore 3, hbefore 4, hbefore 5, hbefore 6, hbefore 7, hi, checkResult]
  | 9 => simp [hbefore 2, hbefore 3, hbefore 4, hbefore 5, hbefore 6, hbefore 7, hbefore 8, hi, checkResult]

theorem submitError_none {s : State} {r : Request} (h : ∀ i, ¬ failsCheck s r i) : s.submitError r = none := by
  classical
  rw [submitError_eq]
  simp [h]

/-- The checks speak of the request in CARG0 to CARG3. -/
theorem submitFails_iff {s : State} {r : Request} (hu : Unpacked s r) {i : Nat} (hi : i ≠ 1) (q : ResultCode) :
    submitFails s i q ↔ q = checkResult i ∧ failsCheck s r i := by
  have hstation : ∀ p : Station → Prop, (∀ u : StationIx, u.val = (s.carg.get 0).toNat % 64 → p (s.station u)) ↔ p (s.station r.station) :=
    fun p => ⟨fun h => h r.station hu.station, fun h u hu' => by rwa [Fin.ext (hu'.trans hu.station.symm)]⟩
  have hreq : (∀ b : BlockIx, b.val = (s.carg.get 2).toNat % 256 → s.owner b ≠ .host) ↔ s.owner r.reqBlock ≠ .host :=
    ⟨fun h => h r.reqBlock hu.reqBlock, fun h b hb => by rwa [Fin.ext (hb.trans hu.reqBlock.symm)]⟩
  match i with
  | 0 => exact ⟨nofun, fun h => h.2⟩
  | 2 => exact Iff.rfl
  | 3 =>
    have htag : ∀ x : Byte, x = r.tag ↔ x.toNat = (s.carg.get 1).toNat := fun x => by
      have := hu.tagInRange
      rw [hu.tag, BitVec.toNat_eq, BitVec.toNat_setWidth, Nat.mod_eq_of_lt (by omega)]
    simp only [submitFails, failsCheck, checkResult, htag]
  | 4 => exact and_congr_right fun _ => hstation fun st => (s.line st.line).enable = false
  | 5 => exact and_congr_right fun _ => hstation fun st => st.enabled = false
  | 6 => exact and_congr_right fun _ => hstation fun st => st.health = .parked
  | 7 => exact and_congr_right fun _ => hstation fun st => st.health = .offline
  | 8 =>
    have hno : (s.carg.get 2).toNat / 256 ≠ 255 ∧ (∀ b : BlockIx, b.val = (s.carg.get 2).toNat / 256 → s.owner b ≠ .host)
        ↔ ∃ b, r.replyBlock = some b ∧ s.owner b ≠ .host := by
      cases hreply : r.replyBlock with
      | none => simp [hu.noReply, hreply]
      | some c =>
        have hc : c.val = (s.carg.get 2).toNat / 256 := (hu.reply c).1 hreply
        have hlt := c.isLt
        refine ⟨fun h => ⟨c, rfl, h.2 c hc⟩, ?_⟩
        rintro ⟨b, hb, ho⟩
        cases hb
        exact ⟨by omega, fun b hb => by rwa [Fin.ext (hb.trans hc.symm)]⟩
    have hsame : (s.carg.get 2).toNat / 256 = (s.carg.get 2).toNat % 256 ↔ r.replyBlock = some r.reqBlock := by
      rw [hu.reply, hu.reqBlock, eq_comm]
    simp only [submitFails, failsCheck, checkResult, hreq, hno, hsame]
  | 9 => simp only [submitFails, failsCheck, checkResult, hu.reqLen]
  | i + 10 => exact ⟨nofun, fun h => h.2⟩

/-! ## The slot it fills (R118, R119) -/

theorem submitError_takeCommand (c : Word) (s : State) (r : Request) : (s.takeCommand c).submitError r = s.submitError r := by
  have hline : ∀ n, (s.takeCommand c).line n = s.line n := State.takeCommand_line c s
  simp only [submitError, hline]
  rfl

section
variable {s : State} {r : Request} (hacc : s.accepts)
include hacc

theorem exec_submit : exec .submit s = .next (s.takeCommand 0x0A).submitBody :=
  congrArg Host.Outcome.next (hostCommand_of_accepts 0x0A submitBody s hacc)

theorem exec_submit_badFields (hr : (packedRequest s).check1 = none) :
    exec .submit s = .next (s.commandDone 0x0A .badArgument 0) := by
  simp only [exec_submit hacc, submitBody, takeCommand_arg]
  rw [packedRequest] at hr
  rw [hr]
  rfl

theorem exec_submit_error {e : ResultCode} (hr : (packedRequest s).check1 = some r) (he : s.submitError r = some e) :
    exec .submit s = .next (s.commandDone 0x0A e 0) := by
  simp only [exec_submit hacc, submitBody, takeCommand_arg]
  rw [packedRequest] at hr
  rw [hr]
  simp only [submitError_takeCommand, he]
  rfl

theorem exec_submit_fills {k : SlotIx} (hr : (packedRequest s).check1 = some r) (he : s.submitError r = none)
    (hk : s.lowestFreeSlot = some k) : exec .submit s
      = .next (((s.fillSlot k r).commandDone 0x0A .ok (BitVec.ofNat 16 k.val)).wakeIdle (s.station r.station).line) := by
  have hk' : (s.takeCommand 0x0A).lowestFreeSlot = some k := hk
  simp only [exec_submit hacc, submitBody, takeCommand_arg]
  rw [packedRequest] at hr
  rw [hr]
  simp only [submitError_takeCommand, he, hk', takeCommand_station]
  unfold fillSlot lendReply
  cases r.replyBlock <;> rfl

end

/-- The first failed check answers. -/
theorem submit_refused {s : State} {i : Nat} {q : ResultCode} (hacc : s.accepts) (hi : submitFails s i q)
    (hbefore : ∀ j x, j < i → ¬ submitFails s j x) : exec .submit s = .next (s.commandDone 0x0A q 0) := by
  cases hr : (packedRequest s).check1 with
  | none =>
    have h1 := (check1_none_iff s).1 hr
    match i with
    | 0 => exact hi.elim
    | 1 =>
      have hq : q = .badArgument := hi.1
      rw [hq, exec_submit_badFields hacc hr]
    | i + 2 => exact absurd h1 (hbefore 1 _ (by omega))
  | some r =>
    have hu := check1_unpacked hr
    have hi1 : i ≠ 1 := by
      rintro rfl
      have hq : q = .badArgument := hi.1
      rw [(check1_none_iff s).2 (hq ▸ hi)] at hr
      cases hr
    obtain ⟨hq, hfails⟩ := (submitFails_iff hu hi1 q).1 hi
    have herror := submitError_first hfails fun j hj hf => by
      by_cases hj1 : j = 1
      · rw [hj1] at hf
        exact hf
      · exact hbefore j _ hj ((submitFails_iff hu hj1 _).2 ⟨rfl, hf⟩)
    rw [exec_submit_error hacc hr herror, hq]

/-- A request that passes every check fills the lowest FREE slot. -/
theorem submit_taken {s : State} {k : SlotIx} (hacc : s.accepts) (h : ∀ i q, ¬ submitFails s i q) (hk : (s.slot k).state = .free)
    (hlow : ∀ j : SlotIx, j.val < k.val → (s.slot j).state ≠ .free) : ∃ r, Unpacked s r ∧ exec .submit s
      = .next (((s.fillSlot k r).commandDone 0x0A .ok (BitVec.ofNat 16 k.val)).wakeIdle (s.station r.station).line) := by
  cases hr : (packedRequest s).check1 with
  | none => exact absurd ((check1_none_iff s).1 hr) (h 1 _)
  | some r =>
    have hu := check1_unpacked hr
    have herror : s.submitError r = none := submitError_none fun i hf => by
      by_cases hi : i = 1
      · rw [hi] at hf
        exact hf
      · exact h i _ ((submitFails_iff hu hi _).2 ⟨rfl, hf⟩)
    exact ⟨r, hu, exec_submit_fills hacc hr herror (lowestFreeSlot_eq_some hk hlow)⟩

theorem blockField_eq {v : Byte} {b : Option BlockIx} (hnone : v.toNat = 255 ↔ b = none)
    (hsome : ∀ c : BlockIx, b = some c ↔ c.val = v.toNat) :
    blockField b = v := by
  cases b with
  | none => exact (BitVec.eq_of_toNat_eq (hnone.2 rfl)).symm
  | some c => rw [blockField, (hsome c).1 rfl, BitVec.ofNat_toNat, BitVec.setWidth_eq]

/-- The filled slot, in the words of the statement. -/
theorem slotOf_unpacked {s : State} {r : Request} {u : StationIx} (hu : Unpacked s r) (hstation : r.station = u) : slotOf r = {
    state := .pending, deferred := false, abortLate := false
    kind := if (s.carg.get 0).toNat / 64 % 4 = 1 then .read else .write
    priority := (s.carg.get 0).extractLsb' 8 2, station := u, tag := (s.carg.get 1).setWidth 8
    retries := (s.carg.get 0).extractLsb' 11 3, attempts := 0, busyCount := 0
    reqBlock := (s.carg.get 2).extractLsb' 0 8, replyBlock := (s.carg.get 2).extractLsb' 8 8
    reqLen := (s.carg.get 3).setWidth 6, replyLen := 0, outcome := .ok } := by
  have h2 := (s.carg.get 2).isLt
  have hhigh : ((s.carg.get 2).extractLsb' 8 8).toNat = (s.carg.get 2).toNat / 256 := by rw [packedField]; omega
  have hreq : blockField (some r.reqBlock) = (s.carg.get 2).extractLsb' 0 8 :=
    blockField_eq ⟨fun h => by rw [packedField] at h; have := hu.reqBlock; have := r.reqBlock.isLt; omega, nofun⟩ fun c => by
      rw [Option.some.injEq, Fin.ext_iff, hu.reqBlock, packedField, eq_comm]
      simp
  have hreply : blockField r.replyBlock = (s.carg.get 2).extractLsb' 8 8 :=
    blockField_eq (by rw [hhigh]; exact hu.noReply) (by rw [hhigh]; exact hu.reply)
  simp only [slotOf, hu.kind, hu.priority, hu.retries, hu.tag, hu.reqLen, hreq, hreply, hstation]

/-- How SUBMIT answers once the slot is filled: an IDLE engine in RUN takes it as a decision point (R26, R119). -/
theorem submit_answers {s filled : State} {k : SlotIx} {n : LineId}
    (hexec : exec .submit s = .next ((filled.commandDone 0x0A .ok (BitVec.ofNat 16 k.val)).wakeIdle n)) (hmode : filled.mode = s.mode)
    (hline : filled.line n = s.line n) :
    let done : State := filled.commandDone 0x0A .ok (BitVec.ofNat 16 k.val)
    (s.mode ≠ .run ∨ (s.line n).engine ≠ .idle → exec .submit s = .next done)
    ∧ (s.mode = .run → (s.line n).engine = .idle → (s.line n).attempt = none → exec .submit s = .next (done.decisionPoint n)
      ∧ (isQuiet (s.line n) → (s.line n).settled = true →
        let h : State := done.setLine n { s.line n with engine := .turnaround }
        decides h n ∧ exec .submit s = exec (.turnaroundSatisfied n) h)) := by
  intro done
  have hdmode : done.mode = s.mode := hmode
  have hdline : done.line n = s.line n := by rw [← hline]; cases n <;> rfl
  rw [hexec, wakeIdle, hdmode, hdline]
  refine ⟨fun h => ?_, fun hm he ha => ?_⟩
  · rw [if_neg fun ⟨h1, h2, _⟩ => h.elim (fun h => h h1) fun h => h h2]
  · rw [if_pos ⟨hm, he, ha⟩]
    refine ⟨rfl, fun hq hs => ?_⟩
    intro h
    have hhline : h.line n = { s.line n with engine := .turnaround } := by rw [line_setLine, if_pos rfl]
    have hd : decides h n := by
      refine ⟨⟨by rw [hhline], by rw [hhline]; exact hq⟩, ?_, by rw [hhline]; exact ha⟩
      exact (setLine_mode n _ done).trans (hdmode.trans hm)
    have hsettled : h.setLine n { h.line n with settled := true } = h := by
      rw [hhline, setLine_setLine, ← hs]
    refine ⟨hd, ?_⟩
    rw [exec_decision n h hd, hsettled]
    have hturn := decisionPoint_engine done n .turnaround
    rw [hdline] at hturn
    exact congrArg Host.Outcome.next hturn.symm

/-- Settles O51: SUBMIT's checks in order, and the slot a request fills. -/
theorem submit : Obligations.Submit := by
  refine ⟨fun s i q hacc hi hbefore => submit_refused hacc hi hbefore, ?_⟩
  intro s k u b hacc hpass hk hlow hu hb filled lent answers
  obtain ⟨r, hr, hexec⟩ := submit_taken hacc hpass hk hlow
  have hstation : r.station = u := Fin.ext (hr.station.trans hu.symm)
  have hblock : r.reqBlock = b := Fin.ext (hr.reqBlock.trans hb.symm)
  have hlent : s.fillSlot k r = lent.lendReply k r.replyBlock := by
    rw [fillSlot, slotOf_unpacked hr hstation, hblock]
  rw [hlent, hstation] at hexec
  refine ⟨fun hno => ?_, fun c hc => ?_⟩
  · rw [hr.noReply.1 hno] at hexec
    exact submit_answers hexec rfl (by cases (s.station u).line <;> rfl)
  · rw [(hr.reply c).2 hc] at hexec
    exact submit_answers hexec rfl (by cases (s.station u).line <;> rfl)

end Sys2Proof.Machine
end

section
/-!
SUPPORT. ABORT (R128): its refusals, a PENDING slot, and an ACTIVE slot whose transaction is in flight or waits between attempts.
-/

namespace Sys2Proof.Machine

open State

/-! ## The body by the state of the slot -/

section
variable {s : State} (hacc : s.accepts)
include hacc

theorem exec_abort : exec .abort s = .next (s.takeCommand 0x0B).abortBody :=
  congrArg Host.Outcome.next (hostCommand_of_accepts 0x0B abortBody s hacc)

theorem abort_badArgument (h : 15 < (s.carg.get 0).toNat) : exec .abort s = .next (s.commandDone 0x0B .badArgument 0) := by
  rw [exec_abort hacc, abortBody, takeCommand_arg, index?_none h]
  rfl

variable {k : SlotIx} (harg : s.argIs 0 k.val)
include harg

theorem abort_noSuchRequest (h : (s.slot k).state = .free) : exec .abort s = .next (s.commandDone 0x0B .noSuchRequest 0) := by
  rw [exec_abort hacc]
  simp only [abortBody, takeCommand_arg, index?_some k harg, takeCommand_slot, h]
  rfl

theorem abort_notAbortable (h : (s.slot k).state = .abortPending ∨ (s.slot k).state = .done) :
    exec .abort s = .next (s.commandDone 0x0B .notAbortable 0) := by
  rw [exec_abort hacc]
  rcases h with h | h
  all_goals
    simp only [abortBody, takeCommand_arg, index?_some k harg, takeCommand_slot, h]
    rfl

/-- ABORT of a PENDING slot completes it with ABORTED (R128). -/
theorem abort_pending (h : (s.slot k).state = .pending) : exec .abort s = .next (State.complete .ok 0
    (((s.takeCommand 0x0B).finishSlot k .aborted 0).1.flush [[((s.takeCommand 0x0B).finishSlot k .aborted 0).2]])) := by
  rw [exec_abort hacc]
  simp only [abortBody, takeCommand_arg, index?_some k harg, takeCommand_slot, h]

end

/-! ## A PENDING slot -/

/-- The release of a slot leaves the Command Unit alone. -/
theorem slotReleased_commandDone (s : State) (k : SlotIx) (sl : Slot) (sub : List SlotIx) (ev : List Event) (a b : Option BlockIx)
    (c : Word) (r : ResultCode) (v : Word) :
    State.complete r v (slotReleased { (s.takeCommand c).setSlot k sl with submitted := sub, events := ev } k a b)
      = (slotReleased { s.setSlot k sl with submitted := sub, events := ev } k a b).commandDone c r v := by
  unfold slotReleased
  cases a <;> cases b <;> rfl

/-- The record is taken where there is room (R125, R138). -/
theorem abort_pending_taken {s : State} {k : SlotIx} {sl : Slot} (hacc : s.accepts) (harg : s.argIs 0 k.val)
    (hstate : (s.slot k).state = .pending) (hev : s.events.length < 64) (hd : s.done = [])
    (hsl : sl = { s.slot k with outcome := .aborted, replyLen := 0, deferred := false }) :
    exec .abort s = .next ((slotReleased { s.setSlot k sl with
      submitted := s.submitted.filter (· ≠ k)
      events := s.events ++ [{
        kind := .requestDone, line := (s.station sl.station).line, station := sl.station, detailA := 0
        detailB := BitVec.ofNat 16 (k.val + 16 * 11 + 256 * (bit sl.abortLate).toNat)
        cycle := (s.line (s.station sl.station).line).cycnum
        extra := BitVec.ofNat 16 (sl.tag.toNat + 256 * sl.attempts.toNat + 4096 * sl.busyCount.toNat) }] } k
      (fieldBlock? sl.reqBlock) (fieldBlock? sl.replyBlock)).commandDone 0x0B .ok 0) := by
  have hline : (s.takeCommand 0x0B).slotLine k = (s.station sl.station).line := by rw [hsl]; rfl
  rw [abort_pending hacc harg hstate, finish_take (s.takeCommand 0x0B) k .aborted 0 hev hd sl hsl, hline, slotReleased_commandDone,
    State.takeCommand_line, hsl]
  rfl

/-- The record is held where there is no room (R126). -/
theorem abort_pending_held {s : State} {k : SlotIx} {sl : Slot} (hacc : s.accepts) (harg : s.argIs 0 k.val)
    (hstate : (s.slot k).state = .pending) (hfull : 64 ≤ s.events.length ∨ s.done ≠ [])
    (hsl : sl = { s.slot k with outcome := .aborted, replyLen := 0, deferred := false }) :
    exec .abort s = .next (({ s.setSlot k { sl with state := .done } with
      submitted := s.submitted.filter (· ≠ k)
      done := s.done ++ [(k, {
        kind := .requestDone, line := (s.station sl.station).line, station := sl.station, detailA := 0
        detailB := BitVec.ofNat 16 (k.val + 16 * 11 + 256 * (bit sl.abortLate).toNat), cycle := 0
        extra := BitVec.ofNat 16 (sl.tag.toNat + 256 * sl.attempts.toNat + 4096 * sl.busyCount.toNat) })] } : State).commandDone
          0x0B .ok 0) := by
  have hline : (s.takeCommand 0x0B).slotLine k = (s.station sl.station).line := by rw [hsl]; rfl
  have hroom : ¬ ((s.takeCommand 0x0B).events.length < 64 ∧ (s.takeCommand 0x0B).done = []) := by
    rintro ⟨h1, h2⟩
    exact hfull.elim (fun h => absurd h1 (Nat.not_lt.2 h)) fun h => h h2
  rw [abort_pending hacc harg hstate, finish_hold (s.takeCommand 0x0B) k .aborted 0 hroom sl hsl, hline, requestDone_eq, hsl]
  rfl

/-! ## An ACTIVE slot -/

/-- The state in which ABORT reaches the transaction of its slot (R128). -/
def abortAsked (s : State) (k : SlotIx) : State := (s.setSlot k { s.slot k with state := .abortPending }).commandDone 0x0B .ok 1

theorem abortAsked_line (s : State) (k : SlotIx) (n : LineId) : (abortAsked s k).line n = s.line n := by cases n <;> rfl

/-- ABORT joins the STOP set of the transaction in flight (R128). -/
theorem abort_joins {s : State} {k : SlotIx} {n : LineId} {a : Attempt} (hacc : s.accepts) (harg : s.argIs 0 k.val)
    (hstate : (s.slot k).state = .active) (hn : n = (s.station (s.slot k).station).line) (ha : (s.line n).attempt = some a)
    (ho : a.origin = .acyclic k) (hq : activeIfQuiescing s n) (hr : a.retryOwed = false) :
    exec .abort s = .next (((s.setSlot k { s.slot k with state := .abortPending }).setLine n { s.line n with
      attempt := some { a with stop := { a.stop with abort := true } } }).commandDone 0x0B .ok 1) := by
  have hstop : (abortAsked s k).stopTransaction n .abort
      = ((abortAsked s k).setAttempt n (some { a with stop := { a.stop with abort := true } }), []) :=
    stopTransaction_joins .abort (by rw [abortAsked_line]; exact ha) (by rw [ho]; exact nofun) hr
  have hline : ((abortAsked s k).setAttempt n (some { a with stop := { a.stop with abort := true } })).line n
      = { s.line n with attempt := some { a with stop := { a.stop with abort := true } } } := by
    rw [setAttempt, modifyLine, line_setLine, if_pos rfl, abortAsked_line]
  rw [exec_abort_active hacc harg hstate hn ha ho]
  change Host.Outcome.next (settle n ((abortAsked s k).stopTransaction n .abort)) = _
  rw [hstop, settle_active n _ [] fun h => ?_, breakBegun_held _ (by rw [hline]; simp), hline, flush_nil, setAttempt, modifyLine,
    setLine_setLine, abortAsked, setLine_commandDone]
  rw [hline]
  exact hq (by rw [setAttempt, modifyLine, setLine_mode] at h; exact h)

/-- A slot that is not PENDING before or after is on no pending list (R116). -/
theorem pendingOf_setSlot {s : State} {k : SlotIx} {sl : Slot} (u : StationIx) (hold : (s.slot k).state ≠ .pending)
    (hnew : sl.state ≠ .pending) : (s.setSlot k sl).pendingOf u = s.pendingOf u := by
  unfold pendingOf pendingList
  rw [List.filter_filter, List.filter_filter]
  refine List.filter_congr fun j _ => ?_
  by_cases hj : k = j
  · subst hj
    rw [slot_setSlot, if_pos rfl, beq_false_of_ne hold, beq_false_of_ne hnew, Bool.and_false, Bool.and_false]
  · rw [slot_setSlot, if_neg hj]

/-- ABORT ends a transaction that waits between attempts (R39, R40, R129). -/
theorem abort_between {s : State} {k : SlotIx} {n : LineId} {a : Attempt} {u : StationIx} {o : OutcomeCode} {st : Station}
    {notices : List Event} {sl : Slot} (hacc : s.accepts) (harg : s.argIs 0 k.val) (hstate : (s.slot k).state = .active)
    (hn : n = (s.station (s.slot k).station).line) (hk : a.origin = .acyclic k) (hq : activeIfQuiescing s n)
    (hbetw : betweenAttempts s n a u o) (ht : lastTakes s u o false st notices)
    (hsl : sl = { s.slot k with
      state := .abortPending, outcome := .aborted, abortLate := false, replyLen := 0, deferred := false }) :
    answersWithCompletion (exec .abort s) ({
      (stationLeft u st (s.setLine n (breakBegun { s.line n with attempt := none }))).setSlot k sl with
      submitted := s.submitted.filter (· ≠ k) }.commandDone 0x0B .ok 1) notices k (requestRecord s k sl) := by
  obtain ⟨heng, ha, hsync, hretry, hu, hout, hmiss⟩ := hbetw
  have hpark : ¬ parkWaits (s.commandDone 0x0B .ok 1) u := nofun
  have hslot : (abortAsked s k).slot k = { s.slot k with state := .abortPending } := (slot_setSlot k _ s k).trans (if_pos rfl)
  have hpend : s.pendingOf u = [] → (abortAsked s k).pendingOf u = [] := fun h => by
    rw [← h, ← pendingOf_setSlot (s := s) (k := k) (sl := { s.slot k with state := .abortPending }) u (by rw [hstate]; exact nofun) nofun]
    rfl
  have hstop := stopTransaction_slotCompletes (s.commandDone 0x0B .ok 1) (abortAsked s k) n .abort a k u o st notices sl
    (by rw [abortAsked_line]; exact ha) hretry hu hout hk hmiss rfl (fun _ => rfl) hpend ⟨rfl, rfl, rfl⟩ ht (parkClear_none hpark st)
    (by rw [hslot]; rfl) (.inl ⟨rfl, by rw [hslot, hsl]⟩)
  rw [parkFinished_none _ hpark, parkRecords_none hpark, List.append_nil] at hstop
  rw [exec_abort_active hacc harg hstate hn ha hk]
  change answersWithCompletion (.next (settle n ((abortAsked s k).stopTransaction n .abort))) _ _ _ _
  rw [hstop]
  generalize hT : ({ (stationLeft u st ((abortAsked s k).setAttempt n none)).setSlot k sl with
    submitted := (abortAsked s k).submitted.filter (· ≠ k) } : State) = T
  have hTline : T.line n = { s.line n with attempt := none } := by
    rw [← hT, line_submitted, setSlot_line, stationLeft_line, setAttempt, modifyLine, line_setLine, if_pos rfl, abortAsked_line]
  have hTmode : T.mode = s.mode := by
    rw [← hT]
    exact (stationLeft_mode u st _).trans (setLine_mode n _ _)
  have hTbegun : T.setLine n (breakBegun { s.line n with attempt := none })
      = { (stationLeft u st (s.setLine n (breakBegun { s.line n with attempt := none }))).setSlot k sl with
        submitted := s.submitted.filter (· ≠ k) }.commandDone 0x0B .ok 1 := by
    rw [← hT, setLine_withSubmitted, setLine_setSlot, setLine_stationLeft, setAttempt, modifyLine, setLine_setLine, abortAsked,
      setLine_commandDone, stationLeft_commandDone, setSlot_commandDone, setLine_setSlot, ← setSlot_stationLeft, setSlot_setSlot]
    rfl
  rw [settle_active n T _ fun h => by rw [hTline]; exact hq (hTmode ▸ h), hTline, hTbegun]
  exact flush_completion_two _ notices k _ _ (by rw [List.append_nil]; rfl)

/-- Settles O52: ABORT by the state of its slot. -/
theorem abort : Obligations.Abort := by
  intro s hacc
  refine ⟨abort_badArgument hacc, fun k harg => ⟨abort_noSuchRequest hacc harg, abort_notAbortable hacc harg, ?pending, ?active⟩⟩
  case pending =>
    intro hstate sl record left
    exact ⟨fun hev hd => abort_pending_taken hacc harg hstate hev hd rfl, fun hfull => abort_pending_held hacc harg hstate hfull rfl⟩
  case active =>
    intro n a hstate hn ha hk hq
    refine ⟨?_, abort_joins hacc harg hstate hn ha hk hq⟩
    intro u o st notices hbetw ht sl
    exact abort_between hacc harg hstate hn hk hq hbetw ht rfl

end Sys2Proof.Machine
end

section
/-!
SUPPORT. PARK (R86, R87, R132): its checks, the park with no transaction in flight, and the transaction that PARK reaches.
-/

namespace Sys2Proof.Machine

open State

/-! ## The body by what PARK finds -/

/-- The state once PARK has completed the station's PENDING slots (R86, R132). -/
def parkCleared (s : State) (u : StationIx) : State :=
  ((s.takeCommand 0x0C).finishPendingOf u .stationParked).1.flush [((s.takeCommand 0x0C).finishPendingOf u .stationParked).2]

theorem transactionOf_free {s : State} {u : StationIx} (h : ∀ a, (s.line (s.station u).line).attempt = some a → a.station ≠ some u) :
    s.transactionOf u = false := by
  unfold transactionOf
  cases ha : (s.line (s.station u).line).attempt with
  | none => rfl
  | some a => exact beq_false_of_ne (h a ha)

theorem transactionOf_flight {s : State} {u : StationIx} {n : LineId} {a : Attempt} (hn : n = (s.station u).line)
    (ha : (s.line n).attempt = some a) (hu : a.station = some u) : s.transactionOf u = true := by
  rw [transactionOf, ← hn, ha]
  simp [hu]

section
variable {s : State} (hacc : s.accepts)
include hacc

theorem exec_park : exec .park s = .next (s.takeCommand 0x0C).parkBody :=
  congrArg Host.Outcome.next (hostCommand_of_accepts 0x0C parkBody s hacc)

theorem park_badArgument (h : 31 < (s.carg.get 0).toNat) : exec .park s = .next (s.commandDone 0x0C .badArgument 0) := by
  rw [exec_park hacc, parkBody, takeCommand_arg, index?_none h]
  rfl

variable {u : StationIx} (harg : s.argIs 0 u.val)
include harg

theorem park_wrongState (h : (s.station u).health = .parked) : exec .park s = .next (s.commandDone 0x0C .wrongState 0) := by
  rw [exec_park hacc]
  simp only [parkBody, takeCommand_arg, index?_some u harg, takeCommand_station, h, if_true]
  rfl

theorem exec_park_free (hh : (s.station u).health ≠ .parked) (h : (parkCleared s u).transactionOf u = false) :
    exec .park s = .next ((parkCleared s u).parkAtOnce u) := by
  rw [parkCleared] at h
  rw [exec_park hacc]
  simp only [parkBody, takeCommand_arg, index?_some u harg, takeCommand_station, if_neg hh, h, Bool.false_eq_true, if_false]
  rfl

theorem exec_park_flight (hh : (s.station u).health ≠ .parked) (h : (parkCleared s u).transactionOf u = true) :
    exec .park s = .next (settle (s.station u).line ((parkCleared s u).stopTransaction (s.station u).line .park)) := by
  rw [parkCleared] at h
  rw [exec_park hacc]
  simp only [parkBody, takeCommand_arg, index?_some u harg, takeCommand_station, if_neg hh, h, if_true]
  rfl

end

/-! ## The PENDING slots -/

theorem parkCleared_none {s : State} {u : StationIx} (h : s.pendingOf u = []) : parkCleared s u = s.takeCommand 0x0C := by
  have hp : (s.takeCommand 0x0C).pendingOf u = [] := h
  rw [parkCleared, finishPendingOf, hp]
  rfl

/-- Completing the slots leaves stations and lines alone. -/
theorem parkCleared_frame (s : State) (u : StationIx) : (∀ v, (parkCleared s u).station v = s.station v)
    ∧ ∀ n, (parkCleared s u).line n = s.line n := by
  obtain ⟨sl, sub, hfinish⟩ := finishSlots_frame .stationParked ((s.takeCommand 0x0C).pendingOf u) (s.takeCommand 0x0C)
  generalize hF : (s.takeCommand 0x0C).finishPendingOf u .stationParked = F
  rw [finishPendingOf] at hF
  rw [hF] at hfinish
  obtain ⟨_, _, _, _, _, _, _, hflush⟩ := flush_frame [F.2] F.1
  rw [parkCleared, finishPendingOf, hF, hflush, hfinish]
  exact ⟨fun _ => rfl, fun n => by cases n <;> rfl⟩

theorem parkCleared_slots (s : State) (u : StationIx) : (∀ k, k ∈ s.pendingOf u → completedWith (parkCleared s u) k .stationParked)
    ∧ (parkCleared s u).pendingOf u = [] := by
  obtain ⟨hdone, hslot, hsub⟩ := finishSlots_flushed (X := s.takeCommand 0x0C) (o := .stationParked) (ks := s.pendingOf u)
    (gs := [((s.takeCommand 0x0C).finishPendingOf u .stationParked).2]) fun k => by
      rw [List.flatten_singleton]
      exact completes_finishSlots (s.takeCommand 0x0C) .stationParked (s.pendingOf u) k
  refine ⟨hdone, List.eq_nil_iff_forall_not_mem.2 fun k hk => ?_⟩
  obtain ⟨hin, hstate, hstation⟩ := (mem_pendingOf _ u k).1 hk
  have hsub' : (parkCleared s u).submitted = s.submitted.filter fun k => k ∉ s.pendingOf u := hsub
  rw [hsub', List.mem_filter, decide_eq_true_iff] at hin
  obtain ⟨hin, hout⟩ := hin
  have hslot' : (parkCleared s u).slot k = s.slot k := hslot k hout
  rw [hslot'] at hstate hstation
  exact hout ((mem_pendingOf s u k).2 ⟨hin, hstate, hstation⟩)

/-! ## No transaction in flight -/

theorem offerNotice_submitted (e : Event) (X : State) : (X.offerNotice e).submitted = X.submitted := by
  rw [offerNotice_eq]
  split <;> rfl

/-- A park with no PENDING slot posts its one notice (R86). -/
theorem parkAtOnce_eq {X : State} {u : StationIx} (hp : X.pendingOf u = []) (hh : (X.station u).health ≠ .parked) :
    X.parkAtOnce u = ((X.setStation u (parked (X.station u))).complete .ok ((X.station u).health.code.setWidth 16)).offerNotice
      (stateRecord X u (X.station u).health .parked 0) := by
  unfold parkAtOnce
  simp only [parkNow_eq X u hp hh]
  rfl

theorem park_atOnce {s : State} {u : StationIx} (hacc : s.accepts) (harg : s.argIs 0 u.val) (hh : (s.station u).health ≠ .parked)
    (hp : s.pendingOf u = []) (hfree : ∀ a, (s.line (s.station u).line).attempt = some a → a.station ≠ some u) :
    exec .park s = .next (((s.setStation u (parked (s.station u))).offerNotice
      (stateRecord s u (s.station u).health .parked 0)).commandDone 0x0C .ok ((s.station u).health.code.setWidth 16)) := by
  have hcleared := parkCleared_none hp
  have hnone : (parkCleared s u).transactionOf u = false := transactionOf_free fun a ha => by
    rw [hcleared, takeCommand_station, State.takeCommand_line] at ha
    exact hfree a ha
  rw [exec_park_free hacc harg hh hnone, hcleared, parkAtOnce_eq (X := s.takeCommand 0x0C) hp hh, commandDone_eq,
    takeCommand_offerNotice, complete_offerNotice]
  rfl

/-- With PENDING slots of the station: they complete, and the park takes effect (R86, R132). -/
theorem park_completes {s : State} {u : StationIx} (hacc : s.accepts) (harg : s.argIs 0 u.val) (hh : (s.station u).health ≠ .parked)
    (hfree : ∀ a, (s.line (s.station u).line).attempt = some a → a.station ≠ some u) : ∃ t, exec .park s = .next t
      ∧ t.station u = parked (s.station u) ∧ ∀ k, k ∈ s.pendingOf u → completedWith t k .stationParked := by
  obtain ⟨hstation, hline⟩ := parkCleared_frame s u
  obtain ⟨hdone, hpend⟩ := parkCleared_slots s u
  have hnone : (parkCleared s u).transactionOf u = false := transactionOf_free fun a ha => by
    rw [hstation, hline] at ha
    exact hfree a ha
  refine ⟨_, exec_park_free hacc harg hh hnone, ?_, fun k hk => completedWith_of (hdone k hk) ?_ ?_⟩
  all_goals rw [parkAtOnce_eq hpend (by rw [hstation]; exact hh)]
  · rw [offerNotice_station, hstation]
    exact (station_setStation u _ _ u).trans (if_pos rfl)
  · exact offerNotice_submitted _ _
  · rw [offerNotice_slot]
    rfl

/-- The row that names the consequence (R87). -/
theorem parkTakesEffect_eq {s : State} {u : StationIx} (hw : parkWaits s u) (hp : s.pendingOf u = [])
    (hfree : ∀ a, (s.line (s.station u).line).attempt = some a → a.station ≠ some u) (hh : (s.station u).health ≠ .parked) :
    exec .parkTakesEffect s = .next (({ s.setStation u (parked (s.station u)) with
      cmdState := .done, result := .ok, cvalue := (s.station u).health.code.setWidth 16
      edges := s.edges ||| 0x0010 } : State).offerNotice (stateRecord s u (s.station u).health .parked 0)) := by
  simp only [exec, execParkTakesEffect, (waitingPark_iff s u).2 hw, transactionOf_free hfree, Bool.false_eq_true, if_false,
    parkAtOnce_eq hp hh]
  rfl

/-! ## A transaction that PARK reaches -/

section
variable {s : State} {u : StationIx} {n : LineId} {a : Attempt} (hacc : s.accepts) (harg : s.argIs 0 u.val)
  (hh : (s.station u).health ≠ .parked) (hp : s.pendingOf u = []) (hn : n = (s.station u).line)
include hacc harg hh hp hn

theorem park_stops (ha : (s.line n).attempt = some a) (hu : a.station = some u) :
    exec .park s = .next (settle n ((s.takeCommand 0x0C).stopTransaction n .park)) := by
  have hcleared := parkCleared_none hp
  have hflight : (parkCleared s u).transactionOf u = true := by
    rw [hcleared]
    exact transactionOf_flight hn (by rw [State.takeCommand_line]; exact ha) hu
  rw [exec_park_flight hacc harg hh hflight, hcleared, hn]

variable (hq : activeIfQuiescing s n)
include hq

/-- PARK joins the STOP set, and the command waits (R87). -/
theorem park_joins (ha : (s.line n).attempt = some a) (ho : a.origin ≠ .sync) (hu : a.station = some u) (hr : a.retryOwed = false) :
    exec .park s = .next ((s.setLine n { s.line n with
      attempt := some { a with stop := { a.stop with park := true } } }).commandTaken 0x0C) := by
  have hstop : (s.takeCommand 0x0C).stopTransaction n .park
      = ((s.takeCommand 0x0C).setAttempt n (some { a with stop := { a.stop with park := true } }), []) :=
    stopTransaction_joins .park (by rw [State.takeCommand_line]; exact ha) ho hr
  have hline : ((s.takeCommand 0x0C).setAttempt n (some { a with stop := { a.stop with park := true } })).line n
      = { s.line n with attempt := some { a with stop := { a.stop with park := true } } } := by
    rw [setAttempt, modifyLine, line_setLine, if_pos rfl, State.takeCommand_line]
  rw [park_stops hacc harg hh hp hn ha hu, hstop, settle_active n _ [] fun h => ?_, breakBegun_held _ (by rw [hline]; simp), hline,
    flush_nil, setAttempt, modifyLine, setLine_setLine, setLine_takeCommand]
  · rfl
  · rw [hline]
    exact hq (by rw [setAttempt, modifyLine, setLine_mode] at h; exact h)

end

/-- The state a park between attempts leaves, from the state x its transaction has left (R41, R87). -/
def parkedAfter (u : StationIx) (st : Station) (x : State) : State :=
  ((stationLeft u st x).setStation u (parked st)).commandDone 0x0C .ok (st.health.code.setWidth 16)

theorem parkDone_stationLeft (u : StationIx) (st : Station) (x : State) :
    parkDone u (stationLeft u st (x.takeCommand 0x0C)) = parkedAfter u st x := by
  rw [stationLeft_takeCommand]
  exact parkDone_takeCommand u st _ (by rw [stationLeft_station, if_pos rfl])

theorem setLine_parkedAfter (n : LineId) (l : Line) (u : StationIx) (st : Station) (x : State) :
    (parkedAfter u st x).setLine n l = parkedAfter u st (x.setLine n l) := by
  rw [parkedAfter, setLine_commandDone, setLine_setStation, setLine_stationLeft, parkedAfter]

/-- A park reaches neither the slots nor the submission order. -/
theorem setSlot_parkedAfter (k : SlotIx) (sl : Slot) (sub : List SlotIx) (u : StationIx) (st : Station) (x : State) :
    ({ (parkedAfter u st x).setSlot k sl with submitted := sub } : State)
      = parkedAfter u st { x.setSlot k sl with submitted := sub } := by
  have hstation : ({ x.setSlot k sl with submitted := sub } : State).station u = x.station u := rfl
  unfold parkedAfter stationLeft
  rw [hstation]
  split <;> rfl

theorem parkedAfter_line (u : StationIx) (st : Station) (x : State) (n : LineId) : (parkedAfter u st x).line n = x.line n := by
  rw [← stationLeft_line u n st x]
  cases n <;> rfl

theorem parkedAfter_mode (u : StationIx) (st : Station) (x : State) : (parkedAfter u st x).mode = x.mode := stationLeft_mode u st x

/-- The rest of the step after a park between attempts: a break that waited may start (R48). -/
theorem settle_parkedAfter {s Y : State} {n : LineId} (u : StationIx) (st : Station) (gs : Groups) (hq : activeIfQuiescing s n)
    (hline : Y.line n = { s.line n with attempt := none }) (hmode : Y.mode = s.mode) : settle n (parkedAfter u st Y, gs)
      = (parkedAfter u st (Y.setLine n (breakBegun { s.line n with attempt := none }))).flush gs := by
  have hleft := (parkedAfter_line u st Y n).trans hline
  rw [settle_active n _ gs fun h => ?_, hleft, setLine_parkedAfter]
  rw [hleft]
  exact hq (by rwa [parkedAfter_mode, hmode] at h)

/-- The state in which the end of the transaction begins: PARK taken, the record gone. -/
theorem takeCommand_setAttempt (c : Word) (s : State) (n : LineId) :
    (s.takeCommand c).setAttempt n none = (s.setLine n { s.line n with attempt := none }).takeCommand c := by
  rw [setAttempt, modifyLine, State.takeCommand_line, setLine_takeCommand]

theorem flush_pollNotices (p : List Event) (X : State) : X.flush [p.map .notice, [], []] = offered p X :=
  (flush_append_nil [p.map .notice, []] X).trans (flush_notices p X)

section
variable {s : State} {u : StationIx} {n : LineId} {a : Attempt} {o : OutcomeCode} {st : Station} {notices : List Event}
  (hacc : s.accepts) (harg : s.argIs 0 u.val) (hh : (s.station u).health ≠ .parked) (hp : s.pendingOf u = [])
  (hn : n = (s.station u).line) (hq : activeIfQuiescing s n) (hbetw : betweenAttempts s n a u o) (hst : st.health ≠ .parked)
include hacc harg hh hp hn hq hbetw hst

/-- A POLL between attempts ends with its last outcome, and the park takes effect in the same step (R39, R41, R87). -/
theorem park_endsPoll {j : EntryIx} (hj : a.origin = .cyclic j) (ht : lastTakes s u o true st notices) :
    exec .park s = .next (offered (notices ++ [stateRecord s u st.health .parked 0])
      (parkedAfter u st ((s.setLine n (breakBegun { s.line n with attempt := none })).setEntry j { s.entry j with last := o }))) := by
  obtain ⟨heng, ha, hsync, hretry, hu, hout, hmiss⟩ := hbetw
  have hpark : parkWaits (s.takeCommand 0x0C) u := ⟨rfl, rfl, harg⟩
  have hstop := stopTransaction_poll (s.takeCommand 0x0C) (s.takeCommand 0x0C) n .park a j u o st notices
    (by rw [State.takeCommand_line]; exact ha) hretry hu hout hj hmiss rfl id ⟨rfl, rfl, rfl⟩ ht fun _ => ⟨hp, hst⟩
  have hrecords : parkRecords (s.takeCommand 0x0C) u st.health = [stateRecord s u st.health .parked 0] := if_pos hpark
  rw [hrecords, parkFinished, if_pos hpark, takeCommand_setAttempt, setEntry_takeCommand, parkDone_stationLeft] at hstop
  rw [park_stops hacc harg hh hp hn ha hu, hstop,
    settle_parkedAfter u st _ hq ((setEntry_line _ _ _ n).trans (by simp)) (setLine_mode n _ s),
    flush_pollNotices, setLine_setEntry, setLine_setLine]
  rfl

/-- A READ or WRITE between attempts completes with its last outcome, and the park takes effect in the same step (R39, R40, R41, R87). -/
theorem park_endsSlot {k : SlotIx} {sl : Slot} (hk : a.origin = .acyclic k) (hab : a.stop.abort = false)
    (ht : lastTakes s u o false st notices) (hsl : sl = { s.slot k with outcome := o, replyLen := 0, deferred := false }) :
    answersWithCompletion (exec .park s)
      { (parkedAfter u st (s.setLine n (breakBegun { s.line n with attempt := none }))).setSlot k sl with
        submitted := s.submitted.filter (· ≠ k) }
      (notices ++ [stateRecord s u st.health .parked 0]) k (requestRecord s k sl) := by
  obtain ⟨heng, ha, hsync, hretry, hu, hout, hmiss⟩ := hbetw
  have hpark : parkWaits (s.takeCommand 0x0C) u := ⟨rfl, rfl, harg⟩
  have hstop := stopTransaction_slotCompletes (s.takeCommand 0x0C) (s.takeCommand 0x0C) n .park a k u o st notices sl
    (by rw [State.takeCommand_line]; exact ha) hretry hu hout hk hmiss rfl (fun _ => rfl) id ⟨rfl, rfl, rfl⟩ ht (fun _ => ⟨hp, hst⟩)
    rfl (.inr ⟨rfl, hab, hsl⟩)
  have hrecords : parkRecords (s.takeCommand 0x0C) u st.health = [stateRecord s u st.health .parked 0] := if_pos hpark
  rw [hrecords, parkFinished, if_pos hpark, takeCommand_setAttempt, ← parkDone_withSubmitted, ← parkDone_setSlot, parkDone_stationLeft,
    setSlot_parkedAfter] at hstop
  rw [park_stops hacc harg hh hp hn ha hu, hstop,
    settle_parkedAfter u st _ hq (by rw [line_submitted, setSlot_line, line_setLine, if_pos rfl]) (by exact setLine_mode n _ s),
    setLine_withSubmitted, setLine_setSlot, setLine_setLine, setSlot_parkedAfter]
  exact flush_completion_two _ _ k _ _ (by rw [List.append_nil]; rfl)

end

/-- Settles O53: PARK's checks, the park at once, the transaction it reaches, and the row that names the consequence. -/
theorem park : Obligations.Park := by
  refine ⟨fun s hacc => ⟨park_badArgument hacc, fun u harg =>
    ⟨park_wrongState hacc harg, park_atOnce hacc harg, ?completes, ?flight⟩⟩, ?effect⟩
  case completes =>
    intro hh hfree
    obtain ⟨t, hexec, hstation, hdone⟩ := park_completes hacc harg hh hfree
    exact ⟨t, hexec, hstation, fun k hk hstate hku => hdone k ((mem_pendingOf s u k).2 ⟨hk, hstate, hku⟩)⟩
  case flight =>
    intro n a hh hp hn ha ho hu hq
    refine ⟨fun hr => park_joins hacc harg hh hp hn hq ha ho hu hr, ?_⟩
    intro o st notices hbetw hst free done
    exact ⟨fun j hj ht => park_endsPoll hacc harg hh hp hn hq hbetw hst hj ht,
      fun k hk hab _ ht => park_endsSlot hacc harg hh hp hn hq hbetw hst hk hab ht rfl⟩
  case effect =>
    intro s u hbusy hcmd harg hp hfree hh
    exact parkTakesEffect_eq ⟨hbusy, hcmd, harg⟩ hp hfree hh

end Sys2Proof.Machine
end
